-- ==== Sys2Proof/Word.lean ====
section
/-! DEFINITION. The bit-vector types of the UH-420: bytes, addresses, lanes and block masks. -/

namespace Sys2Proof

/-- One byte of memory, of a frame on the management link, or of a block. -/
abbrev Byte := BitVec 8

/-- A byte address of the 32-bit host address space (R1). -/
abbrev Addr := BitVec 32

/-- The 32 data lines of the M-port and of the H-port, lane 0 in the low byte (Table 5-1). -/
abbrev Word := BitVec 32

/-- Four lane enables: bit `n` is lane `n`, the byte at offset `n` of its word (R70, R93). -/
abbrev Lanes := BitVec 4

/-- One flag for each byte of a block: bit `n` is block byte `n` (R17, R45, R182). -/
abbrev Mask := BitVec 16

/-- A block number: the address of an aligned 16-byte block without its four zero bits. -/
abbrev Block := BitVec 28

/-- A post's sequence number, 0 to 255, counting modulo 256 (R19). -/
abbrev Seq := BitVec 8

/-- The 16 bytes of a block, numbered from the lowest address. -/
abbrev BlockData := Vector Byte 16

end Sys2Proof
end

