-- ==== Sys2Proof/Syntax.lean ====
section
/-! DEFINITION. The commands of the UH-420: one constructor of `Instr` for each row of
spec/opcode_table.json, in the table's order, with the operands that come with the command. -/

namespace Sys2Proof

/-- The three peer masters, numbered 0 to 2 (section 7). -/
inductive Peer where
  | p0 | p1 | p2
deriving DecidableEq, Repr

/-- The three request kinds the host presents (Table 4-1). -/
inductive ReqKind where
  | read | read16 | write
deriving DecidableEq, Repr

/-- A request as the host presents it at the H-port (R70, R71). -/
structure HostRequest where
  kind : ReqKind
  /-- READ, WRITE: the word address. READ16: the address presented. -/
  addr : Addr
  /-- The four lane enables. -/
  be : Lanes
  /-- WRITE: one data byte on each enabled lane. -/
  data : Word
  order : Bool
  lock : Bool
deriving DecidableEq, Repr

/-- The commands. Each is one whole, indivisible step of the part. -/
inductive Instr where
  /-- POWER_ON (R185): the straps, MCS and H_RST as they stand when power-on ends, and the request
  the host presents then, if it presents one. -/
  | powerOn (strapW1 strapW0 mcs hRst : Bool) (held : Option HostRequest)
  /-- HOST_RESET (R89): H_RST is asserted. -/
  | hostReset
  /-- READ (R77) without LOCK. -/
  | read (addr : Addr) (be : Lanes) (order : Bool)
  /-- READ16 (R77). `lock` is set on the illegal READ16 carrying LOCK (R72). -/
  | read16 (addr : Addr) (be : Lanes) (order lock : Bool)
  /-- WRITE (R77) without LOCK. -/
  | write (addr : Addr) (be : Lanes) (data : Word) (order : Bool)
  /-- LOCK_READ (R120): a READ carrying LOCK. -/
  | lockRead (addr : Addr) (be : Lanes) (order : Bool)
  /-- LOCK_WRITE (R124): a WRITE carrying LOCK. -/
  | lockWrite (addr : Addr) (be : Lanes) (data : Word) (order : Bool)
  /-- M_ACK (R98), with the data lines and M_VOLATILE. -/
  | mAck (data : Word) (volatile : Bool)
  /-- M_RETRY (R99), with the other termination signals given with it (R97). -/
  | mRetry (ack volatile : Bool)
  /-- M_FAIL (R100), with the other termination signals given with it (R97). -/
  | mFail (ack retry volatile : Bool)
  /-- BEAT_TIMEOUT (R101). -/
  | beatTimeout
  /-- TICK (R102). -/
  | tick
  /-- LOCK_HOLD_EXPIRY (R125). -/
  | lockHoldExpiry
  /-- PEER_REQUEST (R136): peer `p` asserts its P_REQ. -/
  | peerRequest (p : Peer)
  /-- PEER_RELEASE (R135): peer `p` negates its P_REQ. -/
  | peerRelease (p : Peer)
  /-- TENURE_EXPIRY (R138). -/
  | tenureExpiry
  /-- YIELD_EXPIRY (R141). -/
  | yieldExpiry
  /-- PEER_ADDRESS_PHASE (R147): M_ADDR, M_WR, M_BE and M_KIND (`more`) of the owning peer. -/
  | peerAddressPhase (addr : Addr) (wr : Bool) (be : Lanes) (more : Bool)
  /-- GET (R177). -/
  | get (item : Byte)
  /-- SET (R178) of an item that has no row of its own. -/
  | set (item : Byte) (value : BitVec 16)
  /-- REGION_REWRITE (R12): a SET of a region item; byte 0 of the item is the high byte of `value`. -/
  | regionRewrite (item : Byte) (value : BitVec 40)
  /-- SET_PRESCALER (R102). -/
  | setPrescaler (value : BitVec 16)
  /-- SET_HIGH_WATER_MARK (R27). -/
  | setHighWaterMark (value : BitVec 16)
  /-- SET_PEER_LEVEL (R131). -/
  | setPeerLevel (p : Peer) (value : BitVec 16)
  /-- SET_BASE_LEVEL (R132). -/
  | setBaseLevel (value : BitVec 16)
  /-- SET_INTERRUPT_ENABLES (R165). -/
  | setInterruptEnables (value : BitVec 16)
  /-- POP_FAULT (R162). -/
  | popFault
  /-- VIEW_POST (R43). -/
  | viewPost (n : Byte)
  /-- ACK_INT (R166). -/
  | ackInt (mask : Byte)
  /-- RESUME (R38). -/
  | resume
  /-- DISCARD (R39). -/
  | discard
  /-- DRAIN_MARK (R40). -/
  | drainMark
  /-- INVALIDATE (R65). -/
  | invalidate
  /-- RESTORE_PEER (R143). -/
  | restorePeer (n : Byte)
  /-- CLEAR_LOG (R163). -/
  | clearLog
  /-- BAD_COMMAND (R176): a frame whose command byte names no command. -/
  | badCommand (command : Byte)
  /-- FRAME_CUT_SHORT (R175). -/
  | frameCutShort
  /-- HOST_RESET_NEGATION (R89): H_RST is negated. -/
  | hostResetNegation
  /-- MCS_NEGATED_IN_BLOCKED (R173). -/
  | mcsNegatedInBlocked
  /-- ANSWER_POINT (R174): MDI at the rising edges of MCK while MCS is asserted, up to the frame's last input bit, or
  short of it or past it (log entry 6). -/
  | answerPoint (input : List Bool)
  /-- HOST_CLOCK (R102). -/
  | hostClock
deriving DecidableEq, Repr

end Sys2Proof
end

