-- ==== Sys2Proof/Decode.lean ====
section
/-! DEFINITION. The table's words. No row of spec/opcode_table.json gives bits ("fields" is empty in
each), so no word spells a command. -/

namespace Sys2Proof

/-- The command that a word spells by the table's bits: no row has any, so no word spells one. -/
def decodeTableWord (_nbits _w : Nat) : Option Instr := none

end Sys2Proof
end

