-- ==== Sys2Proof/Config.lean ====
section
/-! DEFINITION. What the part fixes for good: capacities, power-on values of the configuration items
(Table 10-4), item numbers (Table 10-4), command bytes (Table 10-2). The spec leaves no value of the
UH-420 open, so no constant here is a free value. -/

namespace Sys2Proof.Config

/-- The Post Queue holds between 0 and 8 posts (R19). -/
def queueCapacity : Nat := 8

/-- The fault log holds between 0 and 8 records (R161). -/
def logCapacity : Nat := 8

/-- The writes-merged count stays at 16 once it has reached 16 (R17). -/
def mergedLimit : Nat := 16

/-! Power-on values of the configuration items (Table 10-4). -/

/-- Tick prescaler, in host clocks (R102). -/
def prescaler : Nat := 64
/-- Beat limit, in ticks (R101). -/
def beatLimit : Nat := 64
/-- Lock hold time, in ticks (R119). -/
def lockHold : Nat := 16
/-- Tenure, in ticks (Table 7-1). -/
def tenure : Nat := 32
/-- Yield, in ticks (Table 7-1). -/
def yield : Nat := 8
/-- Retry limit (R99). -/
def retryLimit : Nat := 32
/-- High-water mark (R27). -/
def highWater : Nat := 6
/-- Bridge base level (R132). -/
def baseLevel : Nat := 4

/-! Item numbers (Table 10-4). -/

def itemRegionD : Byte := 0x10
def itemPrescaler : Byte := 0x20
def itemBeatLimit : Byte := 0x21
def itemLockHold : Byte := 0x22
def itemTenure : Byte := 0x23
def itemYield : Byte := 0x24
def itemRetryLimit : Byte := 0x25
def itemHighWater : Byte := 0x26
def itemBaseLevel : Byte := 0x27
def itemLevelP0 : Byte := 0x28
def itemLevelP1 : Byte := 0x29
def itemLevelP2 : Byte := 0x2A
def itemHaltOnDeferred : Byte := 0x2B
def itemInterruptEnables : Byte := 0x2C
def itemStatus : Byte := 0x30

/-! Command bytes (Table 10-2). -/

def cmdGet : Byte := 0x01
def cmdSet : Byte := 0x02
def cmdPopFault : Byte := 0x10
def cmdViewPost : Byte := 0x11
def cmdAckInt : Byte := 0x20
def cmdResume : Byte := 0x21
def cmdDiscard : Byte := 0x22
def cmdDrainMark : Byte := 0x23
def cmdInvalidate : Byte := 0x24
def cmdRestorePeer : Byte := 0x25
def cmdClearLog : Byte := 0x26

end Sys2Proof.Config
end

