-- ==== Sys2Proof/Machine/State.lean ====
section
/-! DEFINITION. The state of the UH-420, block by block (Table 0-1), as plain data, and its value at
power-on. What the spec defines as a function of this state (INT, the P_GNT lines, the HRU state,
the bridge request, escalation) is computed in Flags.lean and held nowhere. -/

namespace Sys2Proof.Machine

/-! ## Region Map (section 1) -/

/-- Width of the memory behind a region (Table 1-1). -/
inductive Width where
  | w8 | w16 | w32
deriving DecidableEq, Repr

/-- The five region attributes (Table 1-1). -/
structure Attrs where
  post : Bool
  merge : Bool
  keep : Bool
  device : Bool
  protect : Bool
deriving DecidableEq, Repr

/-- A region entry, its fields as written (R1). -/
structure RegionEntry where
  valid : Bool
  /-- Start of the range in 4 KiB units, before alignment. -/
  base : BitVec 20
  /-- Size code, 0 to 20. -/
  size : BitVec 5
  width : Width
  attrs : Attrs
deriving DecidableEq, Repr

/-- The default region D (R2). -/
structure DefaultRegion where
  width : Width
  attrs : Attrs
deriving DecidableEq, Repr

/-- The index of a governing region: an entry 0 to 15, or D (R2). -/
inductive RegionIndex where
  | entry (i : Fin 16)
  | d
deriving DecidableEq, Repr

/-- The Region Map: sixteen entries and D. -/
structure RegionMap where
  entries : Vector RegionEntry 16
  d : DefaultRegion
deriving DecidableEq, Repr

/-- A region snapshot (R5): the attributes are the effective ones. Posts, requests and transactions keep all of it.
DEDUCED (log entry 19). -/
structure Snapshot where
  index : RegionIndex
  width : Width
  attrs : Attrs
deriving DecidableEq, Repr

/-! ## Post Queue (section 2) -/

/-- The state of a post (Table 2-1). -/
inductive PostState where
  | waiting | draining
deriving DecidableEq, Repr

/-- A post (Table 2-1). -/
structure Post where
  seq : Seq
  block : Block
  mask : Mask
  /-- The bytes of the block; one absent from `mask` has no meaning. -/
  data : BlockData
  snap : Snapshot
  state : PostState
  beatsDone : Nat
  retryCount : Nat
  merged : Nat
deriving DecidableEq, Repr

/-- The queue state (R37). -/
inductive QueueState where
  | running | halted
deriving DecidableEq, Repr

/-- The Post Queue (R20) with the two configuration items it obeys. -/
structure PostQueue where
  /-- The pending posts, the oldest (the head) first. -/
  posts : List Post
  nextSeq : Seq
  state : QueueState
  /-- The tail-merge-open flag (R24). -/
  mergeOpen : Bool
  /-- The drain mark: the seq of one pending post, or absent. -/
  mark : Option Seq
  highWater : Nat
  haltOnDeferred : Bool
deriving DecidableEq, Repr

/-! ## Line Store (section 3) -/

/-- The state of a line (R44). -/
inductive LineState where
  | invalid | filling | valid
deriving DecidableEq, Repr

/-- One line (R44). -/
structure Line where
  state : LineState
  block : Block
  data : BlockData
deriving DecidableEq, Repr

/-- One set: four ways and their recency order, most recent first (R44, R46). -/
structure LineSet where
  ways : Vector Line 4
  recency : List (Fin 4)
deriving DecidableEq, Repr

/-- The fill context, where it is occupied (Table 3-2). -/
structure FillContext where
  set : Fin 8
  way : Fin 4
  block : Block
  /-- The first requested byte of the block, 0 to 15. -/
  first : Nat
  /-- The number of requested bytes, 1 to 16. -/
  count : Nat
  answered : Bool
  arrived : Mask
  written : Mask
  stale : Bool
  veto : Bool
deriving DecidableEq, Repr

/-- The Line Store (R44, R45). -/
structure LineStore where
  sets : Vector LineSet 8
  fill : Option FillContext
deriving DecidableEq, Repr

/-! ## Host Request Unit (sections 4 and 6) -/

/-- The routes of Table 4-5. -/
inductive Route where
  | refused | posted | unposted | ordered | kept | unkept | lock
deriving DecidableEq, Repr

/-- What the taken request is waiting for (Table 4-2). -/
inductive Wait where
  | none | room | queue | through | line | port | lock
deriving DecidableEq, Repr

/-- The taken-request record (Table 4-2). -/
structure Request where
  kind : ReqKind
  addr : Addr
  count : Nat
  /-- The enabled lanes, as presented. -/
  be : Lanes
  data : Word
  order : Bool
  lock : Bool
  snap : Snapshot
  route : Route
  wait : Wait
deriving DecidableEq, Repr

/-- The phases of a lock (Table 6-1). -/
inductive LockPhase where
  | opening | opened | closing
deriving DecidableEq, Repr

/-- A timer counted in ticks (R102): `running 0` has counted its last tick and is due. DEDUCED (log entry 8). -/
inductive Timer where
  | stopped
  | running (left : Nat)
deriving DecidableEq, Repr

/-- The lock record (Table 6-2). The locked word is the word of `addr`. -/
structure LockRecord where
  phase : LockPhase
  /-- The locked word's number: its address without the two low zero bits. -/
  word : BitVec 30
  addr : Addr
  count : Nat
  region : RegionIndex
  timer : Timer
deriving DecidableEq, Repr

/-- The Host Request Unit and its H-port. -/
structure Hru where
  /-- The taken, unanswered request. -/
  request : Option Request
  lock : Option LockRecord
  /-- H_RST as it stands. -/
  hRst : Bool
  /-- A request that stands at the H-port and is not yet taken (R74, R89). -/
  presented : Option HostRequest
  /-- The lock hold item (R119). -/
  lockHold : Nat
deriving DecidableEq, Repr

/-! ## Memory Port Engine (section 5) -/

/-- The transaction kinds (R94). -/
inductive TxnKind where
  | fill | fetch | drain | write | lockedRead | lockedWrite
deriving DecidableEq, Repr

/-- One beat of a beat list (R93): its slot and the lanes it enables. -/
structure Beat where
  slot : Nat
  lanes : Lanes
deriving DecidableEq, Repr

/-- Whether the transaction runs its beats or waits to be resumed (R94). -/
inductive TxnState where
  | current | fractured
deriving DecidableEq, Repr

/-- The transaction record (Table 5-3). -/
structure Txn where
  kind : TxnKind
  /-- The seq of the post it serves; absent where it serves the taken request. -/
  post : Option Seq
  snap : Snapshot
  block : Block
  /-- The bytes of the block the transaction carries: requested, present or written. -/
  mask : Mask
  /-- The bytes a write kind writes, and the bytes a FETCH or LOCKED READ has kept (R98). -/
  data : BlockData
  beats : List Beat
  beatsDone : Nat
  retryCount : Nat
  state : TxnState
  /-- Set by a host reset that finds the transaction CURRENT and of host origin (R117). -/
  abandoned : Bool
deriving DecidableEq, Repr

/-- Work handed to the MPE by the HRU (R85, R111), with what it carries. -/
structure Work where
  kind : TxnKind
  addr : Addr
  count : Nat
  data : Word
  snap : Snapshot
deriving DecidableEq, Repr

/-- The Memory Port Engine: its transaction, its sources of work (R111), its timer and items. -/
structure Mpe where
  txn : Option Txn
  /-- Handed host work: a FILL, FETCH or WRITE. -/
  handed : Option Work
  /-- Locked work: a LOCKED READ or LOCKED WRITE. -/
  locked : Option Work
  /-- The drain demand: the seq of the post it drains through. -/
  demand : Option Seq
  /-- The snoop-drain obligation: the seq of its target. -/
  obligation : Option Seq
  beatTimer : Timer
  retryLimit : Nat
  beatLimit : Nat
deriving DecidableEq, Repr

/-- The address phase that stands on the M-port, driven by its owner (Table 5-1); a peer's stands until its beat
ends. DEDUCED (log entry 16). -/
structure AddressPhase where
  addr : Addr
  wr : Bool
  be : Lanes
  /-- M_KIND: MORE where set, SINGLE where clear. -/
  more : Bool
  /-- M_DATA where the bridge drives it. -/
  data : Option Word
deriving DecidableEq, Repr

/-! ## Ownership Arbiter (section 7) -/

/-- The owner of the M-port (R130). -/
inductive Owner where
  | none
  | bridge
  | peer (p : Peer)
deriving DecidableEq, Repr

/-- What the arbiter knows of one peer: its request line, level and barred flag. -/
structure PeerLine where
  req : Bool
  level : Nat
  barred : Bool
deriving DecidableEq, Repr

/-- The three peers. -/
structure Peers where
  p0 : PeerLine
  p1 : PeerLine
  p2 : PeerLine
deriving DecidableEq, Repr

/-- The tenure timer (Table 7-1): `running 0` is due. -/
inductive Tenure where
  | stopped
  | running (left : Nat)
  | spent
deriving DecidableEq, Repr

/-- The Ownership Arbiter (Table 7-1). -/
structure Arbiter where
  owner : Owner
  peers : Peers
  baseLevel : Nat
  yieldRound : Bool
  /-- P_REL asserted. -/
  pRel : Bool
  tenureTimer : Tenure
  yieldTimer : Timer
  tenure : Nat
  yield : Nat
deriving DecidableEq, Repr

/-! ## Fault Unit (section 9) -/

/-- Record kinds (Table 9-1). -/
inductive FaultKind where
  | deferred | readFault | writeFault | fillTail | writeProtect | illegalRequest | drainHalted
  | lockLost | lockAbandoned | lockExpired | peerOverstay | snoopOvertake | discarded
deriving DecidableEq, Repr

/-- Causes (Table 9-1). -/
inductive Cause where
  | fail | timeout | retryLimit
deriving DecidableEq, Repr

/-- Origins (Table 9-1). -/
inductive Origin where
  | host | queue | peer | management
deriving DecidableEq, Repr

/-- The posts removed by one DISCARD (Table 9-1). -/
structure SeqRange where
  first : Seq
  last : Seq
  count : Nat
deriving DecidableEq, Repr

/-- The bytes a record names (Table 9-1). -/
structure ByteRange where
  addr : Addr
  count : Nat
deriving DecidableEq, Repr

/-- A fault record (Table 9-1): a field it does not carry is absent (R158). -/
structure FaultRecord where
  kind : FaultKind
  origin : Origin
  cause : Option Cause := none
  bytes : Option ByteRange := none
  seq : Option Seq := none
  range : Option SeqRange := none
  merged : Option Nat := none
  region : Option RegionIndex := none
  peer : Option Peer := none
deriving DecidableEq, Repr

/-- One flag for each of RECORD, HALTED and DRAIN_DONE: the pending set and the enables (R164, R165). -/
structure IntBits where
  record : Bool
  halted : Bool
  drainDone : Bool
deriving DecidableEq, Repr

/-- The Fault Unit: log (oldest first), LOST, pending set, enables. -/
structure FaultUnit where
  log : List FaultRecord
  lost : Bool
  pend : IntBits
  enables : IntBits
deriving DecidableEq, Repr

/-! ## Management Link Interface (section 10) -/

/-- The status byte's values (Table 10-3). -/
inductive Status where
  | ok | badCommand | badItem | badValue | empty
deriving DecidableEq, Repr

/-- The input of a frame (Table 10-2). `setRefused` is a SET that ends at an item byte which names
no item, or the status item (R176). -/
inductive Frame where
  | get (item : Byte)
  | set (item : Byte) (value : BitVec 16)
  | setRegion (item : Byte) (value : BitVec 40)
  | setRefused (item : Byte)
  | popFault
  | viewPost (n : Byte)
  | ackInt (mask : Byte)
  | resume
  | discard
  | drainMark
  | invalidate
  | restorePeer (n : Byte)
  | clearLog
  | badCommand (command : Byte)
deriving DecidableEq, Repr

/-- The MLI's states (Table 10-1). In RECEIVING it holds the bits sampled since MCS was asserted; from the answer
point on, the frame, its settled status and its answer data; in ANSWERING, how many bits of its output have been
sent. -/
inductive Link where
  | idle
  | blocked
  | receiving (got : List Bool)
  | answering (frame : Frame) (status : Status) (answer : List Byte) (sent : Nat)
  | done (frame : Frame) (status : Status) (answer : List Byte)
deriving DecidableEq, Repr

/-! ## Timebase (R102) -/

/-- The Timebase: the count of host clocks and the prescaler item. -/
structure Timebase where
  count : Nat
  prescaler : Nat
deriving DecidableEq, Repr

/-! ## What leaves the part in one step -/

/-- The value of an answer (R75). -/
inductive AnswerValue where
  | ok | fault
deriving DecidableEq, Repr

/-- An answer at the H-port (R75): for a read, one byte for each requested byte, in ascending
address order, on the enabled lanes (READ) or in the block (READ16). DEDUCED (log entry 15). -/
structure Answer where
  value : AnswerValue
  data : List Byte
deriving DecidableEq, Repr

/-- The model's own field: what the part put out in the last step, which no register holds. DEDUCED (log entry 3). -/
structure Outputs where
  /-- The answers given at the H-port, in order. -/
  answers : List Answer
  /-- The bridge asserted M_RETRY toward the owning peer (R148). -/
  peerRetry : Bool
  /-- The status byte and answer data of a frame completed in the step (R174). -/
  mdo : List Byte
deriving DecidableEq, Repr

/-- The whole part, with the model's queue of waiting commands. -/
structure State where
  rmap : RegionMap
  pq : PostQueue
  ls : LineStore
  hru : Hru
  mpe : Mpe
  /-- The address phase that stands on the M-port, if one does (R92). -/
  port : Option AddressPhase
  oar : Arbiter
  flt : FaultUnit
  link : Link
  tb : Timebase
  out : Outputs
  /-- The commands that wait, first in, first out. -/
  pending : List Instr
deriving DecidableEq, Repr

/-- Why a step stops with a fault: never. The spec gives every command an effect in every state it
can meet, so no meaning raises a fault and the type has no constructor. Safe: nothing stops. -/
inductive Fault where
deriving DecidableEq, Repr

/-- Why a step is refused. -/
inductive Refusal where
  /-- Raised by `exec` for a command that has no meaning yet; no arm of this model raises it. Safe:
  the machine stops instead of going on without the command's effect. -/
  | notModelled (mnemonic : String)
deriving DecidableEq, Repr

/-! ## Power-on -/

/-- No attribute set. -/
def Attrs.clear : Attrs := ⟨false, false, false, false, false⟩

/-- A region entry at power-on: all its fields zero (R3). -/
def RegionEntry.zero : RegionEntry := ⟨false, 0, 0, .w8, .clear⟩

/-- D at power-on: DEVICE alone, and the width the straps select (R3). -/
def DefaultRegion.powerOn (w : Width) : DefaultRegion := ⟨w, { Attrs.clear with device := true }⟩

/-- A line at power-on: INVALID (R48). Its block address and data, which are disregarded, are the
model's zeros. DESIGN CHOICE (log entry 2); safe: nothing reads them. -/
def Line.powerOn : Line := ⟨.invalid, 0, Vector.replicate 16 0⟩

/-- The Line Store at power-on and after host reset (R48, R66). -/
def LineSet.powerOn : LineSet := ⟨Vector.replicate 4 Line.powerOn, [0, 1, 2, 3]⟩

/-- No pending bit, no enable (R164, R165). -/
def IntBits.clear : IntBits := ⟨false, false, false⟩

/-- No output. -/
def Outputs.none : Outputs := ⟨[], false, []⟩

/-- The part when power-on has ended with the straps at 00, MCS and H_RST negated and no P_REQ
asserted. DESIGN CHOICE (log entry 1); unsafe: a board may strap another width. -/
def State.reset : State where
  rmap := ⟨Vector.replicate 16 RegionEntry.zero, .powerOn .w8⟩
  pq := ⟨[], 0, .running, false, none, Config.highWater, true⟩
  ls := ⟨Vector.replicate 8 LineSet.powerOn, none⟩
  hru := ⟨none, none, false, none, Config.lockHold⟩
  mpe := ⟨none, none, none, none, none, .stopped, Config.retryLimit, Config.beatLimit⟩
  port := none
  oar :=
    { owner := .none, peers := ⟨⟨false, 0, false⟩, ⟨false, 0, false⟩, ⟨false, 0, false⟩⟩
      baseLevel := Config.baseLevel, yieldRound := false, pRel := false
      tenureTimer := .stopped, yieldTimer := .stopped
      tenure := Config.tenure, yield := Config.yield }
  flt := ⟨[], false, .clear, .clear⟩
  link := .idle
  tb := ⟨0, Config.prescaler⟩
  out := .none
  pending := []

end Sys2Proof.Machine
end

