-- ==== Sys2Proof/Machine/Operands.lean ====
section
/-! DEFINITION. Bytes, lanes, slots and beat lists: the operand forms of requests and transactions
(R7, R18, R57, R70, R93, R95). -/

namespace Sys2Proof.Machine

/-! ## Addresses and blocks -/

/-- The block that holds a byte address. -/
def blockOf (a : Addr) : Block := a.extractLsb' 4 28

/-- The number of a byte within its block, 0 to 15. -/
def offsetOf (a : Addr) : Nat := a.toNat % 16

/-- The word that holds a byte address. -/
def wordOf (a : Addr) : BitVec 30 := a.extractLsb' 2 30

/-- The address of the lowest byte of a word. -/
def wordAddr (w : BitVec 30) : Addr := w ++ 0#2

/-- The address of the lowest byte of a block. -/
def blockAddr (b : Block) : Addr := b ++ 0#4

/-- The Line Store set that can hold a block: its block number modulo 8 (R44). -/
def setOf (b : Block) : Fin 8 := ⟨b.toNat % 8, Nat.mod_lt _ (by decide)⟩

/-! ## Masks and block data -/

/-- The mask of `count` bytes from byte `first` on. -/
def byteMask (first count : Nat) : Mask := BitVec.ofNat 16 ((2 ^ count - 1) * 2 ^ first)

/-- Every byte of the block. -/
def allBytes : Mask := 0xFFFF

/-- Whether the bytes of `a` all lie in `b`. -/
def maskWithin (a b : Mask) : Bool := a &&& b == a

/-- Whether two masks have a byte in common. -/
def masksMeet (a b : Mask) : Bool := a &&& b != 0

/-- The number of bytes in a mask. -/
def maskCount (m : Mask) : Nat := ((List.range 16).filter fun i => m.getLsbD i).length

/-- The byte on lane `b mod 4` of the data lines: every byte keeps its own lane (R93). -/
def laneByte (w : Word) (b : Nat) : Byte := w.extractLsb' (8 * (b % 4)) 8

/-- The bytes of a word at every block position of their lane. -/
def spreadWord (w : Word) : BlockData := Vector.ofFn fun i => laneByte w i.val

/-- `new` on the bytes of the mask, `old` on the others. -/
def overlay (m : Mask) (new old : BlockData) : BlockData :=
  Vector.ofFn fun i => if m.getLsbD i.val then new[i] else old[i]

/-- `count` bytes of a block from byte `first` on, in ascending order. -/
def readBytes (d : BlockData) (first count : Nat) : List Byte := (d.toList.drop first).take count

/-! ## Widths, slots, beats -/

/-- The slot size in bytes (R7). -/
def Width.bytes : Width → Nat
  | .w8 => 1
  | .w16 => 2
  | .w32 => 4

/-- The number of slots in a block (Table 1-4). -/
def Width.slots : Width → Nat
  | .w8 => 16
  | .w16 => 8
  | .w32 => 4

/-- The bytes of slot `s` (Table 5-2). -/
def slotMask (w : Width) (s : Nat) : Mask := byteMask (s * w.bytes) w.bytes

/-- The word of the block, 0 to 3, in which slot `s` lies. -/
def slotWord (w : Width) (s : Nat) : Nat := s * w.bytes / 4

/-- The beat over slot `s` that enables the lanes of the bytes of `m` (R93, R95). -/
def beatOn (w : Width) (m : Mask) (s : Nat) : Beat :=
  ⟨s, (m &&& slotMask w s).extractLsb' (4 * slotWord w s) 4⟩

/-- The bytes of the block that a beat carries. -/
def Beat.bytes (w : Width) (b : Beat) : Mask :=
  (b.lanes.setWidth 16 <<< (4 * slotWord w b.slot)) &&& slotMask w b.slot

/-- The beat list of every kind but FILL: the slots that hold a byte of the mask, ascending (R18, R95). -/
def beatsFor (w : Width) (m : Mask) : List Beat :=
  ((List.range w.slots).filter fun s => masksMeet m (slotMask w s)).map (beatOn w m)

/-- The slots of a FILL in wrap order from the slot of the first requested byte (R57). -/
def wrapSlots (w : Width) (first : Nat) : List Nat :=
  (List.range w.slots).map fun i => (first / w.bytes + i) % w.slots

/-- The beat list of a FILL: every slot with all its lanes, in wrap order (R57, R95). -/
def fillBeats (w : Width) (first : Nat) : List Beat := (wrapSlots w first).map (beatOn w allBytes)

/-- A FILL's beat list cut short after the last beat that holds a requested byte (R103). -/
def cutBeats (w : Width) (req : Mask) (beats : List Beat) : List Beat :=
  (beats.reverse.dropWhile fun b => !masksMeet (b.bytes w) req).reverse

/-- The address of the lowest byte of a beat's slot (M_ADDR, Table 5-1). -/
def beatAddr (w : Width) (b : Block) (s : Nat) : Addr := blockAddr b + BitVec.ofNat 32 (s * w.bytes)

/-- M_DATA of a write beat: the written bytes on the enabled lanes and FFh on the others (R92). -/
def beatData (w : Width) (d : BlockData) (b : Beat) : Word :=
  let lane (n : Nat) : Byte := if b.lanes.getLsbD n then d.toList.getD (4 * slotWord w b.slot + n) 0 else 0xFF
  lane 3 ++ lane 2 ++ lane 1 ++ lane 0

/-! ## Lane enables of a request -/

/-- The lowest enabled lane, 0 where none is. -/
def lowLane (be : Lanes) : Nat := ((List.range 4).find? fun n => be.getLsbD n).getD 0

/-- One past the highest enabled lane, 0 where none is. -/
def topLane (be : Lanes) : Nat :=
  (((List.range 4).reverse.find? fun n => be.getLsbD n).map (· + 1)).getD 0

/-- The number of enabled lanes. -/
def laneCount (be : Lanes) : Nat := ((List.range 4).filter fun n => be.getLsbD n).length

/-- The enabled lanes are some, and contiguous (R72). -/
def lanesContiguous (be : Lanes) : Bool := decide (0 < laneCount be) && laneCount be == topLane be - lowLane be

end Sys2Proof.Machine

namespace Sys2Proof

open Machine

/-- The request's address: its lowest requested byte; for an illegal READ or WRITE the lowest enabled
lane's byte, or the word address where no lane is enabled (R70, R72). -/
def HostRequest.address (h : HostRequest) : Addr :=
  match h.kind with
  | .read16 => h.addr
  | _ => wordAddr (wordOf h.addr) + BitVec.ofNat 32 (lowLane h.be)

/-- The request's byte count, as its record gives it (R70, R72). -/
def HostRequest.byteCount (h : HostRequest) : Nat :=
  match h.kind with
  | .read16 => 16
  | _ => if h.be == 0 then 4 else topLane h.be - lowLane h.be

/-- The illegal forms (R72). -/
def HostRequest.illegal (h : HostRequest) : Bool :=
  match h.kind with
  | .read16 => offsetOf h.addr != 0 || h.be != 0xF || h.lock
  | _ => !lanesContiguous h.be

end Sys2Proof

namespace Sys2Proof.Machine

/-- The block of a taken request. -/
def Request.block (r : Request) : Block := blockOf r.addr

/-- The requested bytes of a taken request within its block. -/
def Request.mask (r : Request) : Mask := byteMask (offsetOf r.addr) r.count

/-- The data of a FAULT answer: FFh in every requested byte of a read, none for a write (R75). -/
def Request.faultData (r : Request) : List Byte :=
  match r.kind with
  | .write => []
  | .read16 => List.replicate 16 0xFF
  | .read => List.replicate (laneCount r.be) 0xFF

/-- The bytes that handed work carries. -/
def Work.mask (w : Work) : Mask := byteMask (offsetOf w.addr) w.count

/-- The requested bytes of the FILL in the fill context. -/
def FillContext.requested (f : FillContext) : Mask := byteMask f.first f.count

/-- Whether a kind writes memory. -/
def TxnKind.writes : TxnKind → Bool
  | .drain | .write | .lockedWrite => true
  | .fill | .fetch | .lockedRead => false

/-- The address phase of a transaction's first undone beat (Table 5-1, R96). -/
def Txn.phase (t : Txn) : Option AddressPhase :=
  t.beats[t.beatsDone]?.map fun b =>
    { addr := beatAddr t.snap.width t.block b.slot
      wr := t.kind.writes
      be := b.lanes
      more := decide (t.beatsDone + 1 < t.beats.length)
      data := if t.kind.writes then some (beatData t.snap.width t.data b) else none }

end Sys2Proof.Machine
end

