-- ==== Sys2Proof/Machine/FaultOps.lean ====
section
/-! DEFINITION. The Fault Unit on its own: taking a record, the log, the pending set (R158 to R166). -/

namespace Sys2Proof.Machine

/-- The Fault Unit takes a record (R160). -/
def FaultUnit.take (f : FaultUnit) (r : FaultRecord) : FaultUnit :=
  if f.log.length < Config.logCapacity then
    { f with log := f.log ++ [r], pend := { f.pend with record := true } }
  else { f with lost := true, pend := { f.pend with record := true } }

/-- HALTED is set pending (R36). -/
def FaultUnit.setHalted (f : FaultUnit) : FaultUnit := { f with pend := { f.pend with halted := true } }

/-- DRAIN_DONE is set pending (R40, R42). -/
def FaultUnit.setDrainDone (f : FaultUnit) : FaultUnit := { f with pend := { f.pend with drainDone := true } }

/-- The oldest record is removed (R162). -/
def FaultUnit.pop (f : FaultUnit) : FaultUnit := { f with log := f.log.tail }

/-- CLEAR_LOG (R163). -/
def FaultUnit.clear (f : FaultUnit) : FaultUnit := { f with log := [], lost := false }

/-- The bits of a byte in the positions of Table 10-6, byte 5. -/
def bitsOfByte (b : Byte) : IntBits := ⟨b.getLsbD 0, b.getLsbD 1, b.getLsbD 2⟩

/-- Three interrupt bits in the positions of Table 10-6, byte 5. -/
def IntBits.byte (b : IntBits) : Byte :=
  0#5 ++ BitVec.ofBool b.drainDone ++ BitVec.ofBool b.halted ++ BitVec.ofBool b.record

/-- ACK_INT: each named bit is cleared (R166). -/
def FaultUnit.ack (f : FaultUnit) (mask : Byte) : FaultUnit :=
  { f with pend :=
    { record := f.pend.record && !(bitsOfByte mask).record
      halted := f.pend.halted && !(bitsOfByte mask).halted
      drainDone := f.pend.drainDone && !(bitsOfByte mask).drainDone } }

/-- INT: asserted while any enabled bit is pending (R165). -/
def FaultUnit.int (f : FaultUnit) : Bool :=
  f.pend.record && f.enables.record || f.pend.halted && f.enables.halted ||
    f.pend.drainDone && f.enables.drainDone

/-! ## The records of Table 9-2 -/

/-- A record of origin HOST about a request: address, byte count and region (R76). -/
def hostRecord (kind : FaultKind) (cause : Option Cause) (addr : Addr) (count : Nat) (region : RegionIndex) :
    FaultRecord :=
  { kind, origin := .host, cause, bytes := some ⟨addr, count⟩, region := some region }

/-- The DEFERRED record of a failed post (R36). -/
def deferredRecord (p : Post) (cause : Cause) : FaultRecord :=
  { kind := .deferred, origin := .queue, cause := some cause
    bytes := some ⟨blockAddr p.block, maskCount p.mask⟩, seq := some p.seq, merged := some p.merged }

/-- The LOCK_ABANDONED and LOCK_EXPIRED records (R124, R125). -/
def lockRecord (kind : FaultKind) (l : LockRecord) : FaultRecord :=
  hostRecord kind none l.addr l.count l.region

/-- The PEER_OVERSTAY record (R141). -/
def overstayRecord (p : Peer) : FaultRecord := { kind := .peerOverstay, origin := .peer, peer := some p }

/-- The SNOOP_OVERTAKE record (R153). -/
def overtakeRecord (p : Peer) (addr : Addr) (count : Nat) (seq : Seq) : FaultRecord :=
  { kind := .snoopOvertake, origin := .peer, bytes := some ⟨addr, count⟩, seq := some seq, peer := some p }

/-- The DISCARDED record of the removed posts, oldest first (R39, R171). -/
def discardedRecord (first last : Post) (count : Nat) : FaultRecord :=
  { kind := .discarded, origin := .management, range := some ⟨first.seq, last.seq, count⟩ }

end Sys2Proof.Machine
end

