-- ==== Sys2Proof/Machine/LineOps.lean ====
section
/-! DEFINITION. The Line Store on its own: lookup, recency, invalidation, allocation, delivery, write
updates (R44 to R69). -/

namespace Sys2Proof.Machine

/-- The line in a given set and way. -/
def LineStore.line (l : LineStore) (s : Fin 8) (w : Fin 4) : Line := l.sets[s].ways[w]

/-- The store with one line replaced. -/
def LineStore.setLine (l : LineStore) (s : Fin 8) (w : Fin 4) (x : Line) : LineStore :=
  { l with sets := l.sets.set s { l.sets[s] with ways := l.sets[s].ways.set w x } }

/-- The way that holds a block in its set, in any state but INVALID (R44, R50). -/
def LineStore.find (l : LineStore) (b : Block) : Option (Fin 4) :=
  (List.finRange 4).find? fun w => (l.line (setOf b) w).state != .invalid && (l.line (setOf b) w).block == b

/-- Moves a way to the front of the recency order (R46). -/
def toFront (w : Fin 4) (order : List (Fin 4)) : List (Fin 4) := w :: order.filter (· != w)

/-- A line's way moves to the front of its set's recency order (R46). -/
def LineStore.touch (l : LineStore) (s : Fin 8) (w : Fin 4) : LineStore :=
  { l with sets := l.sets.set s { l.sets[s] with recency := toFront w l.sets[s].recency } }

/-- The number of VALID lines (R49). -/
def LineStore.validCount (l : LineStore) : Nat :=
  (l.sets.toList.map fun s => (s.ways.toList.filter fun x => x.state == .valid).length).sum

/-- A VALID line becomes INVALID; its data stay. -/
def Line.invalidate (x : Line) : Line :=
  match x.state with
  | .valid => { x with state := .invalid }
  | _ => x

/-- Line invalidation (R47) of every line whose block satisfies `p`: a VALID line becomes INVALID, the
FILLING line is marked STALE. -/
def LineStore.invalidateWhere (l : LineStore) (p : Block → Bool) : LineStore where
  sets := Vector.ofFn fun s =>
    { l.sets[s] with
      ways := Vector.ofFn fun w => if p (l.line s w).block then (l.line s w).invalidate else l.line s w }
  fill := l.fill.map fun f => if p f.block then { f with stale := true } else f

/-- Line invalidation of the line of one block (R47). -/
def LineStore.invalidate (l : LineStore) (b : Block) : LineStore := l.invalidateWhere (· == b)

/-- The store at power-on and after host reset (R48, R66). -/
def LineStore.powerOn : LineStore := ⟨Vector.replicate 8 LineSet.powerOn, none⟩

/-! ## Write updates -/

/-- The bytes of a write reach the line of its block, if one is VALID or FILLING; on the FILLING line
they are set in the write mask (R63, R64). -/
def LineStore.writeUpdate (l : LineStore) (b : Block) (m : Mask) (d : BlockData) : LineStore :=
  match l.find b with
  | none => l
  | some w =>
    let x := l.line (setOf b) w
    let l' := l.setLine (setOf b) w { x with data := overlay m d x.data }
    if x.state == .filling then
      { l' with fill := l'.fill.map fun f => { f with written := f.written ||| m } }
    else l'

/-! ## Fills -/

/-- The victim way (R55): the lowest-numbered INVALID way, else the least recent. -/
def LineSet.victim (s : LineSet) : Fin 4 :=
  match (List.finRange 4).find? fun w => s.ways[w].state == .invalid with
  | some w => w
  | none => s.recency.getLast?.getD 0

/-- Allocation (R56). -/
def LineStore.allocate (l : LineStore) (b : Block) (first count : Nat) : LineStore :=
  let s := setOf b
  let w := l.sets[s].victim
  let l' := (l.setLine s w { l.line s w with state := .filling, block := b }).touch s w
  { l' with fill := some ⟨s, w, b, first, count, false, 0, 0, false, false⟩ }

/-- The FILLING line's data. -/
def LineStore.fillData (l : LineStore) (f : FillContext) : BlockData := (l.line f.set f.way).data

/-- Delivery of the bytes of an acknowledged beat (R58): a byte in the write mask keeps its value. -/
def LineStore.deliver (l : LineStore) (m : Mask) (d : BlockData) : LineStore :=
  match l.fill with
  | none => l
  | some f =>
    let x := l.line f.set f.way
    { l.setLine f.set f.way { x with data := overlay (m &&& ~~~f.written) d x.data } with
      fill := some { f with arrived := f.arrived ||| m } }

/-- The bytes available in the FILLING line (R52). -/
def FillContext.available (f : FillContext) : Mask := f.arrived ||| f.written

/-- The FILLING line leaves FILLING and the fill context empties (R60, R61, R62, R68). -/
def LineStore.endFill (l : LineStore) (valid : Bool) : LineStore :=
  match l.fill with
  | none => l
  | some f =>
    { l.setLine f.set f.way { l.line f.set f.way with state := if valid then .valid else .invalid } with
      fill := none }

/-- The volatile veto is taken (R61, R103). -/
def LineStore.veto (l : LineStore) : LineStore :=
  { l with fill := l.fill.map fun f => { f with veto := true } }

/-- The fill's own request has been answered (R59). -/
def LineStore.answered (l : LineStore) : LineStore :=
  { l with fill := l.fill.map fun f => { f with answered := true } }

/-- The restart of a STALE fill whose host is unanswered (R69): STALE is cleared if the keep check
passed; the write mask is kept. -/
def LineStore.restart (l : LineStore) (keep : Bool) : LineStore :=
  { l with fill := l.fill.map fun f => { f with arrived := 0, veto := false, stale := f.stale && !keep } }

end Sys2Proof.Machine
end

