-- ==== Sys2Proof/Machine/QueueOps.lean ====
section
/-! DEFINITION. The Post Queue on its own: merging, new posts, overlap, forwarding, the drain mark
(R17 to R43). -/

namespace Sys2Proof.Machine

/-- The number of pending posts (R19). -/
def PostQueue.count (q : PostQueue) : Nat := q.posts.length

/-- The escalation signal (R27). -/
def PostQueue.escalation (q : PostQueue) : Bool := decide (q.highWater ≤ q.count)

/-- The head may be drained: it is WAITING and the queue is RUNNING (R33). -/
def PostQueue.drainable (q : PostQueue) : Bool :=
  q.state == .running && (q.posts.head?.map Post.state) == some .waiting

/-- Closes tail merging (R24). -/
def PostQueue.closeMerge (q : PostQueue) : PostQueue := { q with mergeOpen := false }

/-! ## Accepting writes -/

/-- The merge conditions (R22). -/
def PostQueue.canMerge (q : PostQueue) (b : Block) (snap : Snapshot) : Bool :=
  match q.posts.getLast? with
  | none => false
  | some p =>
    p.state == .waiting && q.mergeOpen && p.block == b && p.snap.index == snap.index && snap.attrs.merge

/-- A post with a write's bytes folded in (R22). -/
def Post.fold (p : Post) (m : Mask) (d : BlockData) : Post :=
  { p with mask := p.mask ||| m, data := overlay m d p.data, merged := min (p.merged + 1) Config.mergedLimit }

/-- The write merges into the tail (R22). -/
def PostQueue.merge (q : PostQueue) (m : Mask) (d : BlockData) : PostQueue :=
  match q.posts.getLast? with
  | none => q
  | some p => { q with posts := q.posts.dropLast ++ [p.fold m d] }

/-- The write becomes a new post at the tail (R23). -/
def PostQueue.append (q : PostQueue) (b : Block) (m : Mask) (d : BlockData) (snap : Snapshot) : PostQueue :=
  { q with
    posts := q.posts ++ [⟨q.nextSeq, b, m, overlay m d (Vector.replicate 16 0), snap, .waiting, 0, 0, 1⟩]
    nextSeq := q.nextSeq + 1
    mergeOpen := snap.attrs.merge }

/-! ## Reads against pending posts -/

/-- A post overlaps a range of a block: a byte present in its mask lies in it (R28). -/
def Post.overlaps (p : Post) (b : Block) (m : Mask) : Bool := p.block == b && masksMeet p.mask m

/-- The overlap test: the youngest pending post that overlaps the range (R28). -/
def PostQueue.youngestOverlap (q : PostQueue) (b : Block) (m : Mask) : Option Post :=
  q.posts.reverse.find? fun p => p.overlaps b m

/-- The bytes of a block that pending posts hold, each from the youngest post that holds it (R29):
later posts are laid over earlier ones. -/
def PostQueue.held (q : PostQueue) (b : Block) : Mask × BlockData :=
  q.posts.foldl (fun acc p => if p.block == b then (acc.1 ||| p.mask, overlay p.mask p.data acc.2) else acc)
    (0, Vector.replicate 16 0)

/-- Every requested byte is present in at least one pending post (R29). -/
def PostQueue.forwards (q : PostQueue) (b : Block) (m : Mask) : Bool := maskWithin m (q.held b).1

/-- Whether the post numbered `a` stands at or before the post numbered `t` in the queue. At most
eight posts are present and their numbers are consecutive, so the distance tells (R19). DEDUCED (log entry 13). -/
def seqAtOrBefore (a t : Seq) : Bool := decide ((t - a).toNat < Config.queueCapacity)

/-- No post at or before the target remains (R30). -/
def PostQueue.drainedThrough (q : PostQueue) (target : Seq) : Bool :=
  q.posts.all fun p => !seqAtOrBefore p.seq target

/-- The position of a post from the head; the count where the queue does not hold it. -/
def PostQueue.position (q : PostQueue) (s : Seq) : Nat := q.posts.findIdx fun p => p.seq == s

/-! ## Draining -/

/-- The head post becomes DRAINING; merging closes if it is the tail (R33). -/
def PostQueue.startDrain (q : PostQueue) : PostQueue :=
  match q.posts with
  | [] => q
  | p :: rest =>
    { q with
      posts := { p with state := .draining, beatsDone := 0, retryCount := 0 } :: rest
      mergeOpen := q.mergeOpen && !rest.isEmpty }

/-- The DRAINING head takes the progress of its DRAIN (R34, R94). DEDUCED (log entry 14). -/
def PostQueue.progress (q : PostQueue) (done retries : Nat) : PostQueue :=
  match q.posts with
  | [] => q
  | p :: rest => { q with posts := { p with beatsDone := done, retryCount := retries } :: rest }

/-- The head post leaves (R35, R36). -/
def PostQueue.dropHead (q : PostQueue) : PostQueue := { q with posts := q.posts.tail }

/-- The WAITING posts, which DISCARD removes (R39). -/
def PostQueue.waiting (q : PostQueue) : List Post := q.posts.filter fun p => p.state == .waiting

/-- DISCARD's effect on the queue itself (R39). -/
def PostQueue.discard (q : PostQueue) : PostQueue :=
  { q with
    posts := q.posts.filter fun p => p.state == .draining
    nextSeq := (q.waiting.head?.map Post.seq).getD q.nextSeq
    state := .running
    mergeOpen := false }

/-- RESUME (R38). -/
def PostQueue.resume (q : PostQueue) : PostQueue := { q with state := .running }

/-- The youngest pending post (R40). -/
def PostQueue.tail? (q : PostQueue) : Option Post := q.posts.getLast?

end Sys2Proof.Machine
end

