-- ==== Sys2Proof/Machine/RegionOps.lean ====
section
/-! DEFINITION. The Region Map: lookup, effective attributes, the region item's layout, the rewrite
and its invalidation range (R1 to R16, R179). -/

namespace Sys2Proof.Machine

/-- Whether a valid entry's range contains the address: both are aligned down to the size (R1). -/
def RegionEntry.covers (e : RegionEntry) (a : Addr) : Bool :=
  e.valid && a.toNat / 4096 / 2 ^ e.size.toNat == e.base.toNat / 2 ^ e.size.toNat

/-- The effective attributes (Table 1-3). -/
def Attrs.effective (a : Attrs) : Attrs :=
  { post := a.post && !a.device
    merge := a.merge && a.post && !a.device
    keep := a.keep && !a.device
    device := a.device
    protect := a.protect }

/-- The lowest-numbered valid entry whose range contains the address (R4). -/
def RegionMap.governing (m : RegionMap) (a : Addr) : Option (Fin 16) :=
  (List.finRange 16).find? fun i => m.entries[i].covers a

/-- The region snapshot of an address (R4, R5). -/
def RegionMap.lookup (m : RegionMap) (a : Addr) : Snapshot :=
  match m.governing a with
  | some i => ⟨.entry i, m.entries[i].width, m.entries[i].attrs.effective⟩
  | none => ⟨.d, m.d.width, m.d.attrs.effective⟩

/-- The keep check: a fresh lookup of the block carries effective KEEP (R16). -/
def RegionMap.keepCheck (m : RegionMap) (b : Block) : Bool := (m.lookup (blockAddr b)).attrs.keep

/-- The width code of the region item (R179): 11b is none. -/
def widthOfCode (c : BitVec 2) : Option Width :=
  if c = 0 then some .w8 else if c = 1 then some .w16 else if c = 2 then some .w32 else none

/-- The width code of a width (R179). -/
def Width.code : Width → BitVec 2
  | .w8 => 0
  | .w16 => 1
  | .w32 => 2

/-- The straps' width of D (Table 1-2). -/
def strapWidth (w1 w0 : Bool) : Width :=
  match w1, w0 with
  | false, false => .w8
  | false, true => .w16
  | true, false => .w32
  | true, true => .w8

/-- The attributes of byte 4 of a region item (Table 10-5). -/
def attrsOfItem (v : BitVec 40) : Attrs := ⟨v.getLsbD 4, v.getLsbD 3, v.getLsbD 2, v.getLsbD 1, v.getLsbD 0⟩

/-- The width that a region item gives. -/
def itemWidth (v : BitVec 40) : Option Width := widthOfCode (v.extractLsb' 37 2)

/-- The entry that a region item gives (Table 10-5). -/
def entryOfItem (v : BitVec 40) (w : Width) : RegionEntry :=
  ⟨v.getLsbD 39, v.extractLsb' 8 20, v.extractLsb' 32 5, w, attrsOfItem v⟩

/-- Byte 4 of a region item (Table 10-5). -/
def Attrs.byte (a : Attrs) : Byte :=
  0#3 ++ BitVec.ofBool a.post ++ BitVec.ofBool a.merge ++ BitVec.ofBool a.keep ++
    BitVec.ofBool a.device ++ BitVec.ofBool a.protect

/-- The five bytes of an entry as GET returns them (Table 10-5). -/
def RegionEntry.item (e : RegionEntry) : List Byte :=
  [BitVec.ofBool e.valid ++ e.width.code ++ e.size, (0#4 ++ e.base.extractLsb' 16 4 : BitVec 8),
   e.base.extractLsb' 8 8, e.base.extractLsb' 0 8, e.attrs.byte]

/-- The five bytes of D as GET returns them: valid, size code and base read 0 (R179). -/
def DefaultRegion.item (d : DefaultRegion) : List Byte :=
  [(0#1 ++ d.width.code ++ 0#5 : BitVec 8), 0, 0, 0, d.attrs.byte]

/-- Whether a SET of a region item is accepted: width code not 11, and for an entry a size code of at
most 20 (R12, R179). -/
def regionAccepts (item : Byte) (v : BitVec 40) : Bool :=
  (itemWidth v).isSome && (item == Config.itemRegionD || decide ((v.extractLsb' 32 5).toNat ≤ 20))

/-- The entry a region item number names, or none for D (and for a number that names no region). -/
def entryNumber (item : Byte) : Option (Fin 16) :=
  if h : item.toNat < 16 then some ⟨item.toNat, h⟩ else none

/-- The new map of a rewrite (R12, R179). -/
def RegionMap.rewrite (m : RegionMap) (item : Byte) (v : BitVec 40) : RegionMap :=
  match itemWidth v with
  | none => m
  | some w =>
    match entryNumber item with
    | some i => { m with entries := m.entries.set i (entryOfItem v w) }
    | none => { m with d := ⟨w, attrsOfItem v⟩ }

/-- Whether a block lies in the invalidation range of the rewrite of an item that turned the map `old`
into the map `new` (R12). -/
def inInvalidationRange (item : Byte) (old new : RegionMap) (b : Block) : Bool :=
  match entryNumber item with
  | some i => old.entries[i].covers (blockAddr b) || new.entries[i].covers (blockAddr b)
  | none => (new.governing (blockAddr b)).isNone

end Sys2Proof.Machine
end

