-- ==== Sys2Proof/Machine/Flags.lean ====
section
/-! DEFINITION. The signals and states that the spec defines as functions of the part's state: the HRU
state, the lock hold, the bridge's work, request and level, the regarded requests, the outcome of an
arbitration round, the grant lines, INT, the status item. -/

namespace Sys2Proof.Machine

/-! ## Host Request Unit -/

/-- The states of the HRU (Table 4-3). -/
inductive HruState where
  | idle | waiting | lockOpen
deriving DecidableEq, Repr

/-- The lock record is in phase OPEN. -/
def Hru.lockOpened (h : Hru) : Bool := (h.lock.map LockRecord.phase) == some .opened

/-- The HRU state (R74). -/
def Hru.state (h : Hru) : HruState :=
  if h.request.isSome then .waiting else if h.lockOpened then .lockOpen else .idle

/-- The HRU can take a request: it is IDLE or LOCK OPEN, and H_RST is negated (R73, R89). -/
def Hru.canTake (h : Hru) : Bool := h.request.isNone && !h.hRst

/-! ## Memory Port Engine -/

/-- The MPE's transaction is CURRENT. -/
def Mpe.running (m : Mpe) : Bool := (m.txn.map Txn.state) == some .current

/-- The MPE's transaction is FRACTURED. -/
def Mpe.isFractured (m : Mpe) : Bool := (m.txn.map Txn.state) == some .fractured

/-- A LOCKED READ or LOCKED WRITE that no host reset has abandoned is running. -/
def Mpe.lockedRunning (m : Mpe) : Bool :=
  match m.txn with
  | some t => (t.kind == .lockedRead || t.kind == .lockedWrite) && !t.abandoned
  | none => false

/-- The lock hold is in force (R119): from the LOCKED READ's start through OPEN and CLOSING. -/
def State.lockHold (s : State) : Bool :=
  match s.hru.lock with
  | none => false
  | some l =>
    match l.phase with
    | .opening => s.mpe.lockedRunning
    | .opened => true
    | .closing => true

/-- What the work selection starts (Table 5-6): the fractured transaction, the DRAIN of the head post,
or handed work. The four drain sources all start the same transaction. -/
inductive Next where
  | resume (t : Txn)
  | drain
  | locked (w : Work)
  | host (w : Work)
deriving DecidableEq, Repr

/-- The first startable source, in the order of Table 5-6 (R111, R112). -/
def State.nextWork (s : State) : Option Next :=
  match s.mpe.txn with
  | some t => if t.state == .fractured then some (.resume t) else none
  | none =>
    if s.mpe.obligation.isSome && s.pq.drainable then some .drain
    else match s.mpe.locked with
    | some w => some (.locked w)
    | none =>
      if s.mpe.demand.isSome && s.pq.drainable then some .drain
      else if s.pq.escalation && s.pq.drainable then some .drain
      else match s.mpe.handed with
      | some w => some (.host w)
      | none => if s.pq.drainable then some .drain else none

/-- The bridge has work: at least one source is startable (R111). -/
def State.hasWork (s : State) : Bool := s.nextWork.isSome

/-! ## Ownership Arbiter -/

/-- The arbiter's view of one peer. -/
def Peers.get (ps : Peers) : Peer → PeerLine
  | .p0 => ps.p0
  | .p1 => ps.p1
  | .p2 => ps.p2

/-- The peers with one of them replaced. -/
def Peers.put (ps : Peers) (p : Peer) (x : PeerLine) : Peers :=
  match p with
  | .p0 => { ps with p0 := x }
  | .p1 => { ps with p1 := x }
  | .p2 => { ps with p2 := x }

/-- A peer's request is regarded (R131). -/
def PeerLine.regarded (x : PeerLine) : Bool := x.req && decide (1 ≤ x.level) && !x.barred

/-- A peer is waiting: its request is regarded and it is not the owner (R131). -/
def Arbiter.waits (a : Arbiter) (p : Peer) : Bool := (a.peers.get p).regarded && a.owner != .peer p

/-- The three peers in chain order. -/
def allPeers : List Peer := [.p0, .p1, .p2]

/-- A taken, unanswered request that the HRU reports as DEVICE, ORDER or LOCK (R81, R88). -/
def Hru.reportsWaiting (h : Hru) : Bool :=
  match h.request with
  | some r => r.route == .ordered || r.route == .lock
  | none => false

/-- One of the reasons for level 7 stands (R132). -/
def State.raised (s : State) : Bool :=
  s.pq.escalation || s.mpe.obligation.isSome || s.lockHold || s.hru.reportsWaiting

/-- The bridge's level (Table 7-2). -/
def State.bridgeLevel (s : State) : Nat :=
  if s.oar.yieldRound then 0 else if s.raised then 7 else s.oar.baseLevel

/-- The bridge request (R114): it stands while the bridge does not own the M-port and has work or a
lock calls for the bus. -/
def State.bridgeRequest (s : State) : Bool := s.oar.owner != .bridge && (s.hasWork || s.lockHold)

/-- A requester other than the owning peer waits: the bridge, or another peer (R138). -/
def State.otherWaits (s : State) : Bool := s.bridgeRequest || allPeers.any s.oar.waits

/-- Some waiting peer stands at a level strictly above the bridge's (R115). -/
def State.outranked (s : State) : Bool :=
  allPeers.any fun p => s.oar.waits p && decide (s.bridgeLevel < (s.oar.peers.get p).level)

/-- The bridge, without a lock hold, keeps the M-port: it has work and is not outranked (R115). -/
def State.keeps (s : State) : Bool := s.hasWork && !s.outranked

/-- The regarded requests with their levels, in the chain order B, P0, P1, P2 (R134). -/
def State.requesters (s : State) : List (Owner × Nat) :=
  (if s.bridgeRequest then [(Owner.bridge, s.bridgeLevel)] else []) ++
    (allPeers.filter fun p => (s.oar.peers.get p).regarded).map fun p => (.peer p, (s.oar.peers.get p).level)

/-- The winner among requesters in chain order: the first of those at the highest level (R134). -/
def winnerOf : List (Owner × Nat) → Option Owner
  | [] => none
  | (o, l) :: rest => if rest.all fun x => decide (x.2 ≤ l) then some o else winnerOf rest

/-- The winner of the round that runs now (R134). -/
def State.roundWinner (s : State) : Option Owner := winnerOf s.requesters

/-- P_GNT of a peer: asserted while that peer is the owner (R130). -/
def Arbiter.grant (a : Arbiter) (p : Peer) : Bool := a.owner == .peer p

/-! ## Codes and the status item -/

/-- The owner code of the status item (R180). -/
def Owner.code : Owner → BitVec 3
  | .none => 0
  | .bridge => 1
  | .peer .p0 => 2
  | .peer .p1 => 3
  | .peer .p2 => 4

/-- The six bytes of the status item (Table 10-6). -/
def State.statusItem (s : State) : List Byte :=
  [ 0#2 ++ BitVec.ofBool s.pq.mark.isSome ++ BitVec.ofBool (s.pq.state == .halted) ++ BitVec.ofNat 4 s.pq.count,
    s.pq.nextSeq,
    0#1 ++ BitVec.ofBool s.ls.fill.isSome ++ BitVec.ofNat 6 s.ls.validCount,
    0#1 ++ BitVec.ofBool s.oar.peers.p2.barred ++ BitVec.ofBool s.oar.peers.p1.barred ++
      BitVec.ofBool s.oar.peers.p0.barred ++ BitVec.ofBool (s.hru.state == .lockOpen) ++ s.oar.owner.code,
    0#3 ++ BitVec.ofBool s.flt.lost ++ BitVec.ofNat 4 s.flt.log.length,
    s.flt.pend.byte ]

end Sys2Proof.Machine
end

