-- ==== Sys2Proof/Machine/Ops.lean ====
section
/-! DEFINITION. The shared operations of the Host Request Unit, the Post Queue and the Fault Unit over
the whole state: records, answers, demands, hand-over, the routes, the take of a request, and what
happens when posts leave (sections 2, 4 and 6). -/

namespace Sys2Proof.Machine

/-- The start of a command: the part has put nothing out in this step yet. -/
def State.begin (s : State) : State := { s with out := .none }

/-- The Fault Unit takes a record (R160). -/
def State.record (s : State) (r : FaultRecord) : State := { s with flt := s.flt.take r }

/-! ## Answers -/

/-- The request is answered and its record released (R73, R75). -/
def State.answer (s : State) (v : AnswerValue) (data : List Byte) : State :=
  { s with
    hru := { s.hru with request := none }
    out := { s.out with answers := s.out.answers ++ [⟨v, data⟩] } }

/-- The request is answered OK with bytes of its block, or with none for a WRITE (R75). -/
def State.answerOk (s : State) (r : Request) (d : BlockData) : State :=
  s.answer .ok (match r.kind with
    | .write => []
    | _ => readBytes d (offsetOf r.addr) r.count)

/-- The request is answered FAULT, with its record (R75, R76). -/
def State.answerFault (s : State) (r : Request) (kind : FaultKind) (cause : Option Cause) : State :=
  (s.record (hostRecord kind cause r.addr r.count r.snap.index)).answer .fault r.faultData

/-- The taken request's wait value. -/
def State.setWait (s : State) (w : Wait) : State :=
  { s with hru := { s.hru with request := s.hru.request.map fun r => { r with wait := w } } }

/-! ## Locks -/

/-- The lock record is removed, and with it the lock hold ends. -/
def State.dropLock (s : State) : State := { s with hru := { s.hru with lock := none } }

/-- An open lock is abandoned with its record; without one, nothing happens (R124). -/
def State.abandonLock (s : State) : State :=
  match s.hru.lock with
  | some l => if l.phase == .opened then (s.record (lockRecord .lockAbandoned l)).dropLock else s
  | none => s

/-! ## Demands and hand-over -/

/-- The transaction that a request hands to the MPE (R80, R81, R82, R83, R120, R126). -/
def Request.workKind (r : Request) : TxnKind :=
  match r.route with
  | .lock => if r.kind == .write then .lockedWrite else .lockedRead
  | .kept => .fill
  | _ => if r.kind == .write then .write else .fetch

/-- The work of a request: its kind, requested bytes, data and snapshot (R85). -/
def Request.work (r : Request) : Work := ⟨r.workKind, r.addr, r.count, r.data, r.snap⟩

/-- The request hands its transaction to the MPE (R85); a demand it made is met and cleared. -/
def State.handOver (s : State) (r : Request) : State :=
  if r.route == .lock then
    { s with mpe := { s.mpe with locked := some r.work, demand := none } }.setWait .lock
  else
    { s with mpe := { s.mpe with handed := some r.work, demand := none } }.setWait .port

/-- A queue demand is refused (R32, R87): the request is answered FAULT DRAIN_HALTED, and the lock it was
opening ends (R120). -/
def State.refuseDemand (s : State) (r : Request) : State :=
  let s := { s with mpe := { s.mpe with demand := none } }.answerFault r .drainHalted none
  if r.route == .lock then s.dropLock else s

/-- An empty-queue demand (R31, R32). -/
def State.emptyQueueDemand (s : State) (r : Request) : State :=
  match s.pq.tail? with
  | none => s.handOver r
  | some tail =>
    match s.pq.state with
    | .running => { s with mpe := { s.mpe with demand := some tail.seq } }.setWait .queue
    | .halted => s.refuseDemand r

/-! ## Reads -/

/-- The test range of a read's drain-through: the block for a FILL, the requested bytes for a FETCH (R30). -/
def Request.testRange (r : Request) : Mask := if r.route == .kept then allBytes else r.mask

/-- A read that goes to the Post Queue: forwarded, or subjected to drain-through (R29, R30, R32). -/
def State.queueRead (s : State) (r : Request) : State :=
  if s.pq.forwards r.block r.mask then s.answerOk r (s.pq.held r.block).2
  else
    match s.pq.youngestOverlap r.block r.testRange with
    | none => s.handOver r
    | some p =>
      match s.pq.state with
      | .running => { s with mpe := { s.mpe with demand := some p.seq } }.setWait .through
      | .halted => s.refuseDemand r

/-- A read is answered from a line, and the line's way moves to the front (R51, R52). -/
def State.answerFromLine (s : State) (r : Request) (set : Fin 8) (way : Fin 4) : State :=
  { s with ls := s.ls.touch set way }.answerOk r (s.ls.line set way).data

/-- A read of a FILLING line's block can be answered from it: STALE is clear and its bytes are
available (R52). -/
def FillContext.serves (f : FillContext) (r : Request) : Bool := !f.stale && maskWithin r.mask f.available

/-- The kept route: the Line Store, then the Post Queue (R50 to R54, R82). -/
def State.examineKept (s : State) (r : Request) : State :=
  match s.ls.find r.block with
  | none => s.queueRead r
  | some w =>
    if (s.ls.line (setOf r.block) w).state == .filling then
      match s.ls.fill with
      | some f => if f.serves r then s.answerFromLine r f.set f.way else s.setWait .line
      | none => s.setWait .line
    else s.answerFromLine r (setOf r.block) w

/-- A read waiting on the FILLING line is answered once its bytes are available while STALE is clear (R52). -/
def State.serveReader (s : State) : State :=
  match s.hru.request, s.ls.fill with
  | some r, some f => if r.wait == .line && f.serves r then s.answerFromLine r f.set f.way else s
  | _, _ => s

/-- The FILLING line that a read waits on has left FILLING: the read is looked up afresh, and so is a hit
on the line if it became VALID, and a miss otherwise (R53). -/
def State.releaseReader (s : State) : State :=
  match s.hru.request with
  | some r => if r.wait == .line then s.examineKept r else s
  | none => s

/-! ## Writes -/

/-- The bytes of a write reach the Line Store (R63, R64); a read they serve is answered (R52). -/
def State.writeUpdate (s : State) (b : Block) (m : Mask) (d : BlockData) : State :=
  { s with ls := s.ls.writeUpdate b m d }.serveReader

/-- A posted write becomes a new post, updates its line, and is answered OK (R23, R63, R79). -/
def State.postWrite (s : State) (r : Request) : State :=
  ({ s with pq := s.pq.append r.block r.mask (spreadWord r.data) r.snap }.writeUpdate r.block r.mask
    (spreadWord r.data)).answerOk r (spreadWord r.data)

/-- The offer of a postable write to the queue (R21, R79). -/
def State.offerWrite (s : State) (r : Request) : State :=
  if s.pq.canMerge r.block (s.rmap.lookup r.addr) then
    ({ s with pq := s.pq.merge r.mask (spreadWord r.data) }.writeUpdate r.block r.mask
      (spreadWord r.data)).answerOk r (spreadWord r.data)
  else if s.pq.count < Config.queueCapacity then s.postWrite r
  else
    match s.pq.state with
    | .running => s.setWait .room
    | .halted => s.answerFault r .drainHalted none

/-! ## The take of a request -/

/-- Tail merging closes (R24). -/
def State.closeMerge (s : State) : State := { s with pq := s.pq.closeMerge }

/-- A WRITE is postable (R21). -/
def postable (h : HostRequest) (snap : Snapshot) : Bool :=
  h.kind == .write && snap.attrs.post && !snap.attrs.device && !snap.attrs.protect && !h.order && !h.lock

/-- The route of a request that no lock settlement answers (R77). -/
def classify (h : HostRequest) (snap : Snapshot) : Route :=
  if h.illegal then .refused
  else if h.lock then .lock
  else if h.kind == .write && snap.attrs.protect then .refused
  else if snap.attrs.device || h.order then .ordered
  else if postable h snap then .posted
  else if h.kind == .write then .unposted
  else if snap.attrs.keep then .kept
  else .unkept

/-- The taken-request record made at the take (R73), with the lookup of R4. -/
def State.requestOf (s : State) (h : HostRequest) : Request :=
  let snap := s.rmap.lookup h.address
  ⟨h.kind, h.address, h.byteCount, h.be, h.data, h.order, h.lock, snap, classify h snap, .none⟩

/-- A legal LOCK WRITE to the locked word of an open lock (R124). -/
def Hru.matchesLock (u : Hru) (h : HostRequest) : Bool :=
  match u.lock with
  | some l => l.phase == .opened && h.kind == .write && h.lock && l.word == wordOf h.addr
  | none => false

/-- A LOCK READ beyond the settlement of an open lock (R120, steps 2 to 4). -/
def State.openLock (s : State) (r : Request) : State :=
  if r.snap.attrs.protect then s.answerFault r .writeProtect none
  else
    { s with
      hru := { s.hru with
        lock := some ⟨.opening, wordOf r.addr, r.addr, r.count, r.snap.index, .stopped⟩ } }.emptyQueueDemand r

/-- The lock enters CLOSING and its timer stops (R124, R126). -/
def LockRecord.close (l : LockRecord) : LockRecord := { l with phase := .closing, timer := .stopped }

/-- A matching LOCK WRITE (R126). -/
def State.closeLock (s : State) (r : Request) : State :=
  let s := { s with hru := { s.hru with lock := s.hru.lock.map LockRecord.close } }
  if r.snap.attrs.protect then (s.answerFault r .writeProtect none).dropLock else s.handOver r

/-- The lock route, where no open lock matches (R120, R128). -/
def State.lockRoute (s : State) (r : Request) : State :=
  if r.kind == .write then s.answerFault r .lockLost none else s.openLock r

/-- The taken request follows its route (Table 4-5). -/
def State.followRoute (s : State) (r : Request) : State :=
  match r.route with
  | .refused => s.answerFault r .writeProtect none
  | .lock => s.lockRoute r
  | .posted => s.offerWrite r
  | .ordered => s.emptyQueueDemand r
  | .unposted => s.emptyQueueDemand r
  | .kept => s.examineKept r
  | .unkept => s.queueRead r

/-- The take of a request by an HRU that can take one (R72, R73, R77, R124): the illegality test, the
settlement of an open lock, then the route. The take closes merging unless the route is the posted one. -/
def State.take (s : State) (h : HostRequest) : State :=
  let r := s.requestOf h
  let s := { s with hru := { s.hru with request := some r } }
  let s := if r.route == .posted then s else s.closeMerge
  if h.illegal then (s.answerFault r .illegalRequest none).abandonLock
  else if s.hru.matchesLock h then s.closeLock r
  else s.abandonLock.followRoute r

/-! ## Posts leave -/

/-- How posts leave the queue: with the end of a DRAIN, or by DISCARD. -/
inductive Leave where
  | drain | discard
deriving DecidableEq, Repr

/-- The drain mark is settled (R42). `gone` are the posts that left; the queue already holds the rest. -/
def State.settleMark (s : State) (gone : List Seq) (how : Leave) : State :=
  match s.pq.mark with
  | none => s
  | some m =>
    if gone.contains m then
      match how, s.pq.posts with
      | .discard, p :: _ => { s with pq := { s.pq with mark := some p.seq } }
      | _, _ => { s with pq := { s.pq with mark := none }, flt := s.flt.setDrainDone }
    else s

/-- The snoop-drain obligation ends when its target leaves; by the end of a DRAIN it reports a completed
snoop drain, which sets the yield-round flag (R116, R133, R151). -/
def State.settleObligation (s : State) (gone : List Seq) (how : Leave) : State :=
  match s.mpe.obligation with
  | none => s
  | some o =>
    if gone.contains o then
      { s with
        mpe := { s.mpe with obligation := none }
        oar := { s.oar with yieldRound := s.oar.yieldRound || how == .drain } }
    else s

/-- A write that waits for room is posted (R25). -/
def State.admitWrite (s : State) : State :=
  match s.hru.request with
  | some r => if r.wait == .room && decide (s.pq.count < Config.queueCapacity) then s.postWrite r else s
  | none => s

/-- A waiting queue demand is met, or refused if the queue has halted (R30, R31, R32). -/
def State.settleDemand (s : State) : State :=
  match s.hru.request with
  | none => s
  | some r =>
    let met := match r.wait with
      | .queue => s.pq.posts.isEmpty
      | .through => (s.mpe.demand.map s.pq.drainedThrough).getD true
      | _ => false
    if met then s.handOver r
    else if (r.wait == .queue || r.wait == .through) && s.pq.state == .halted then s.refuseDemand r
    else s

/-- The leaving actions of R35, in the model's order. DEDUCED (log entry 10). -/
def State.leaving (s : State) (gone : List Seq) (how : Leave) : State :=
  (((s.settleMark gone how).settleObligation gone how).admitWrite).settleDemand

/-- The head post leaves by the completion of its DRAIN (R35). -/
def State.drainComplete (s : State) : State :=
  match s.pq.posts with
  | [] => s
  | p :: _ => { s with pq := s.pq.dropHead }.leaving [p.seq] .drain

/-- The queue halts if HALT_ON_DEFERRED is on (R36, R37). -/
def State.haltOnPolicy (s : State) : State :=
  if s.pq.haltOnDeferred then { s with pq := { s.pq with state := .halted }, flt := s.flt.setHalted } else s

/-- The head post leaves by the failure of its DRAIN (R36). -/
def State.drainFail (s : State) (cause : Cause) : State :=
  match s.pq.posts with
  | [] => s
  | p :: _ =>
    (({ s with pq := s.pq.dropHead, ls := s.ls.invalidate p.block }.record (deferredRecord p cause)).haltOnPolicy).leaving
      [p.seq] .drain

/-- DISCARD removes every WAITING post (R39). -/
def State.discardPosts (s : State) : State :=
  let w := s.pq.waiting
  let t := { s with
    pq := s.pq.discard
    ls := s.ls.invalidateWhere fun b => w.any fun p => p.block == b }
  match w.head?, w.getLast? with
  | some first, some last =>
    (t.record (discardedRecord first last w.length)).leaving (w.map Post.seq) .discard
  | _, _ => t

/-- DRAIN_MARK (R40). -/
def State.markTail (s : State) : State :=
  match s.pq.tail? with
  | some p => { s with pq := { s.pq with mark := some p.seq } }
  | none => { s with pq := { s.pq with mark := none }, flt := s.flt.setDrainDone }

end Sys2Proof.Machine
end

