-- ==== Sys2Proof/Machine/Engine.lean ====
section
/-! DEFINITION. The Memory Port Engine and the Ownership Arbiter at work: address phases, the start and
the resumption of transactions, the endings of beats, keep or release, rounds (sections 5 and 7). -/

namespace Sys2Proof.Machine

/-! ## Transactions -/

/-- The transaction makes the address phase of its first undone beat: the phase stands, and the beat timer
starts with the beat limit as the item stands (R96, R101). -/
def State.issue (s : State) (t : Txn) : State :=
  { s with
    mpe := { s.mpe with txn := some t, beatTimer := .running s.mpe.beatLimit }
    port := t.phase }

/-- The transaction ends: its record goes, no address phase stands and the beat timer is stopped. -/
def State.endTxn (s : State) : State :=
  { s with mpe := { s.mpe with txn := none, beatTimer := .stopped }, port := none }

/-- A new transaction of the work's kind over its requested bytes (R94, R95, R113). -/
def Work.txn (w : Work) (kind : TxnKind) : Txn :=
  { kind, post := none, snap := w.snap, block := blockOf w.addr, mask := w.mask
    data := spreadWord w.data
    beats := if kind == .fill then fillBeats w.snap.width (offsetOf w.addr) else beatsFor w.snap.width w.mask
    beatsDone := 0, retryCount := 0, state := .current, abandoned := false }

/-- The DRAIN of a post (R18, R33, R95). -/
def Post.txn (p : Post) : Txn :=
  { kind := .drain, post := some p.seq, snap := p.snap, block := p.block, mask := p.mask, data := p.data
    beats := beatsFor p.snap.width p.mask
    beatsDone := 0, retryCount := 0, state := .current, abandoned := false }

/-- A DRAIN of the head post starts (R33, R113). -/
def State.startDrain (s : State) : State :=
  match s.pq.posts with
  | [] => s
  | p :: _ => { s with pq := s.pq.startDrain }.issue p.txn

/-- Handed host work starts and leaves its source (R113). A FILL meets the keep check: passed, it allocates
its line; failed, a FETCH of the requested bytes starts in its place (R16, R55). -/
def State.startHost (s : State) (w : Work) : State :=
  let s := { s with mpe := { s.mpe with handed := none } }
  if w.kind == .fill then
    if s.rmap.keepCheck (blockOf w.addr) then
      { s with ls := s.ls.allocate (blockOf w.addr) (offsetOf w.addr) w.count }.issue (w.txn .fill)
    else s.issue (w.txn .fetch)
  else s.issue (w.txn w.kind)

/-- Locked work starts and leaves its source (R113, R121, R126). -/
def State.startLocked (s : State) (w : Work) : State :=
  { s with mpe := { s.mpe with locked := none } }.issue (w.txn w.kind)

/-- A STALE fill whose host is unanswered is restarted from its first beat, after a keep check (R69). -/
def State.restartFill (s : State) (t : Txn) (f : FillContext) : State :=
  { s with ls := s.ls.restart (s.rmap.keepCheck f.block) }.issue
    { t with state := .current, beatsDone := 0, beats := fillBeats t.snap.width f.first }

/-- A STALE fill whose host is answered is dropped (R68); a read waiting on its line is examined again (R53). -/
def State.dropFill (s : State) : State := { s.endTxn with ls := s.ls.endFill false }.releaseReader

/-- The fractured transaction is resumed (R105). A FILL without a fill context, which no run reaches, ends.
DESIGN CHOICE (log entry 21). -/
def State.resume (s : State) (t : Txn) : State :=
  match t.kind, s.ls.fill with
  | .fill, some f =>
    if !f.stale then s.issue { t with state := .current }
    else if f.answered then s.dropFill
    else s.restartFill t f
  | .fill, none => s.endTxn
  | _, _ => s.issue { t with state := .current }

/-- The selected work starts (R112, R113). -/
def State.start (s : State) : Next → State
  | .resume t => s.resume t
  | .drain => s.startDrain
  | .locked w => s.startLocked w
  | .host w => s.startHost w

/-! ## Ownership -/

/-- A peer is granted: it becomes the owner and its tenure timer starts; a tenure of 0 starts none (R134, R138). -/
def Arbiter.grantPeer (a : Arbiter) (p : Peer) : Arbiter :=
  { a with
    owner := .peer p, yieldRound := false
    tenureTimer := if a.tenure = 0 then .stopped else .running a.tenure }

/-- The bridge is granted (R134). -/
def Arbiter.grantBridge (a : Arbiter) : Arbiter := { a with owner := .bridge, yieldRound := false }

/-- P_REL is asserted, the tenure timer stops, and the yield timer starts (R138, R139, R140, R142). -/
def Arbiter.askRelease (a : Arbiter) : Arbiter :=
  { a with pRel := true, tenureTimer := .stopped, yieldTimer := .running a.yield }

/-- The owning peer's release (R135). -/
def Arbiter.releasePeer (a : Arbiter) : Arbiter :=
  { a with owner := .none, pRel := false, tenureTimer := .stopped, yieldTimer := .stopped }

/-- The M-port finds its owner and the bridge its work, within one step (R112, R115, R134). A bridge that
owns the M-port with nothing running selects if a lock hold is in force or it keeps the bus, and releases
otherwise; with no owner, a round runs if a request is regarded. Each turn of the recursion is one such
move; a start that ends at once (a dropped fill) is followed by the next decision. -/
def State.arbitrate : Nat → State → State
  | 0, s => s
  | fuel + 1, s =>
    match s.oar.owner with
    | .peer _ => s
    | .bridge =>
      if s.mpe.running then s
      else if s.lockHold || s.keeps then
        match s.nextWork with
        | some w => State.arbitrate fuel (s.start w)
        | none => s
      else State.arbitrate fuel { s with oar := { s.oar with owner := .none } }
    | .none =>
      match s.roundWinner with
      | some .bridge => State.arbitrate fuel { s with oar := s.oar.grantBridge }
      | some (.peer p) => { s with oar := s.oar.grantPeer p }
      | _ => s

/-- The most moves one step can hold: release, grant, a dropped fill, release, grant, start. DEDUCED (log entry 22). -/
def movesPerStep : Nat := 8

/-- A spent tenure ends in the first step in which another requester waits (R138). -/
def State.checkTenure (s : State) : State :=
  match s.oar.owner with
  | .peer _ => if s.oar.tenureTimer == .spent && s.otherWaits then { s with oar := s.oar.askRelease } else s
  | _ => s

/-- What ends every step that can change ownership or work. DEDUCED (log entries 12 and 23). -/
def State.settle (s : State) : State := (State.arbitrate movesPerStep s).checkTenure

/-- A request that stands at the H-port is taken once the HRU can take it (R74, R89), at the end of the step.
DEDUCED (log entry 9). -/
def State.takePresented (s : State) : State :=
  match s.hru.presented with
  | some h =>
    if s.hru.canTake then ({ s with hru := { s.hru with presented := none } }.take h).settle else s
  | none => s

/-- The end of a step that can change ownership, work, or the HRU's readiness to take. -/
def State.finish (s : State) : State := s.settle.takePresented

/-- The host presents a request: taken if the HRU can take it, else it stands at the H-port (R73, R74). A
request that stands there is held unchanged (R70). -/
def State.present (s : State) (h : HostRequest) : State :=
  if s.hru.presented.isSome then s
  else if s.hru.canTake then (s.take h).finish
  else { s with hru := { s.hru with presented := some h } }

/-! ## How a beat ends -/

/-- The DRAINING post takes its DRAIN's progress (R34, R94). -/
def State.syncPost (s : State) (t : Txn) : State :=
  if t.kind == .drain then { s with pq := s.pq.progress t.beatsDone t.retryCount } else s

/-- The fill's own request is answered once every requested byte has arrived (R59). -/
def State.earlyAnswer (s : State) : State :=
  match s.ls.fill, s.hru.request with
  | some f, some r =>
    if !f.answered && maskWithin f.requested f.arrived then
      { s with ls := s.ls.answered }.answerFromLine r f.set f.way
    else s
  | _, _ => s

/-- A FILL ends: its line becomes VALID or INVALID and a read waiting on it is served (R53, R60, R61). -/
def State.completeFill (s : State) : State :=
  let ok := match s.ls.fill with
    | some f => !f.stale && !f.veto
    | none => false
  { s with ls := s.ls.endFill ok }.releaseReader

/-- The lock enters OPEN and its timer starts (R122). -/
def LockRecord.opens (ticks : Nat) (l : LockRecord) : LockRecord := { l with phase := .opened, timer := .running ticks }

/-- The LOCK READ is answered and the lock opens (R122). -/
def State.openedLock (s : State) (t : Txn) : State :=
  match s.hru.request with
  | some r =>
    { s with hru := { s.hru with lock := s.hru.lock.map (LockRecord.opens s.hru.lockHold) } }.answerOk r t.data
  | none => s

/-- The taken request is answered OK with the transaction's bytes (R108, R109). -/
def State.answerTxn (s : State) (t : Txn) : State :=
  match s.hru.request with
  | some r => s.answerOk r t.data
  | none => s

/-- The taken request is answered FAULT with a cause (R86). -/
def State.failTxn (s : State) (kind : FaultKind) (cause : Cause) : State :=
  match s.hru.request with
  | some r => s.answerFault r kind (some cause)
  | none => s

/-- The transaction completes with the outcome of its kind (R106 to R110, R122, R127). Its record is gone. -/
def State.complete (s : State) (t : Txn) : State :=
  match t.kind with
  | .drain => s.drainComplete
  | .fill => s.completeFill
  | .fetch => s.answerTxn t
  | .write => (s.writeUpdate t.block t.mask t.data).answerTxn t
  | .lockedRead => s.openedLock t
  | .lockedWrite => ((s.writeUpdate t.block t.mask t.data).answerTxn t).dropLock

/-- A FILL fails (R62, R86, R107): the line is INVALID at once; the unanswered request is answered FAULT,
or a FILL_TAIL record is made; a read waiting on the line is examined again (R53). Where a HALTED queue refuses
that read, its DRAIN_HALTED record enters the log behind FILL_TAIL: no rule orders the two, and R160 does not list
the case. DESIGN CHOICE (log entry 25). -/
def State.failFill (s : State) (t : Txn) (cause : Cause) : State :=
  match s.ls.fill with
  | some f =>
    let s' := { s with ls := s.ls.endFill false }
    if f.answered then
      (s'.record (hostRecord .fillTail (some cause) (blockAddr t.block) 16 t.snap.index)).releaseReader
    else s'.failTxn .readFault cause
  | none => s

/-- The transaction fails with the outcome of its kind (R106 to R110, R122, R127). Its record is gone. -/
def State.fail (s : State) (t : Txn) (cause : Cause) : State :=
  match t.kind with
  | .drain => s.drainFail cause
  | .fill => s.failFill t cause
  | .fetch => s.failTxn .readFault cause
  | .write => { s with ls := s.ls.invalidate t.block }.failTxn .writeFault cause
  | .lockedRead => (s.failTxn .readFault cause).dropLock
  | .lockedWrite => ({ s with ls := s.ls.invalidate t.block }.failTxn .writeFault cause).dropLock

/-- The transaction record after an acknowledged beat (R98): beats done rises and the retry count is 0; a
FETCH or LOCKED READ keeps the data on the enabled lanes; M_VOLATILE on the first beat of a FILL cuts the
list short (R103). -/
def Txn.acked (t : Txn) (b : Beat) (data : Word) (volatile : Bool) : Txn :=
  { t with
    beatsDone := t.beatsDone + 1
    retryCount := 0
    data := if t.kind == .fetch || t.kind == .lockedRead then
        overlay (b.bytes t.snap.width) (spreadWord data) t.data else t.data
    beats := if t.kind == .fill && volatile && t.beatsDone == 0 then
        cutBeats t.snap.width t.mask t.beats else t.beats }

/-- What an acknowledged beat of a FILL does to the Line Store and the reads it serves (R58, R59, R61). -/
def State.deliverBeat (s : State) (t : Txn) (b : Beat) (data : Word) (volatile : Bool) : State :=
  if t.kind == .fill then
    let s := if volatile && t.beatsDone == 0 then { s with ls := s.ls.veto } else s
    ({ s with ls := s.ls.deliver (b.bytes t.snap.width) (spreadWord data) }.earlyAnswer).serveReader
  else s

/-- A beat is acknowledged (R98). -/
def State.ackBeat (s : State) (t : Txn) (data : Word) (volatile : Bool) : State :=
  if t.abandoned then s.endTxn
  else
    match t.beats[t.beatsDone]? with
    | none => s.endTxn
    | some b =>
      let t' := t.acked b data volatile
      let s := (s.deliverBeat t b data volatile).syncPost t'
      if t'.beatsDone < t'.beats.length then s.issue t' else s.endTxn.complete t'

/-- A transaction ends by failure; one that a host reset has abandoned ends without a trace (R117, R172). -/
def State.failBeat (s : State) (t : Txn) (cause : Cause) : State :=
  if t.abandoned then s.endTxn else s.endTxn.fail t cause

/-- The transaction is fractured, and the bridge releases the M-port (R99). -/
def State.fracture (s : State) (t : Txn) : State :=
  { s with
    mpe := { s.mpe with txn := some { t with state := .fractured }, beatTimer := .stopped }
    port := none
    oar := { s.oar with owner := .none } }

/-- A beat is answered with retry (R99, R117). -/
def State.retryBeat (s : State) (t : Txn) : State :=
  if t.abandoned then s.endTxn
  else
    let t' := { t with retryCount := t.retryCount + 1 }
    let s := s.syncPost t'
    if s.mpe.retryLimit ≤ t'.retryCount then s.endTxn.fail t' .retryLimit
    else if s.lockHold then s.issue t'
    else s.fracture t'

/-- The signals on the termination lines (R97), which the target gives. DEDUCED (log entry 18). -/
structure Signals where
  ack : Bool
  retry : Bool
  fail : Bool
  volatile : Bool
  data : Word
deriving DecidableEq, Repr

/-- How a termination is taken (R97). -/
inductive Ending where
  | acked | retried | failed
deriving DecidableEq, Repr

/-- A termination that asserts more than one signal is M_FAIL if that is among them, else M_RETRY (R97). -/
def Signals.ending (x : Signals) : Option Ending :=
  if x.fail then some .failed else if x.retry then some .retried else if x.ack then some .acked else none

/-- The MPE's CURRENT transaction, where its address phase stands on an M-port the bridge owns. -/
def State.beatInProgress (s : State) : Option Txn :=
  if s.oar.owner == .bridge && s.port.isSome then
    s.mpe.txn.filter fun t => t.state == .current
  else none

/-- A termination. It ends the beat whose address phase stands (R92): a beat of the bridge (R98 to R100), or
one of the owning peer, which does not concern the bridge. Without an address phase it is disregarded (R97). -/
def State.terminate (s : State) (x : Signals) : State :=
  match x.ending, s.beatInProgress with
  | none, _ => s
  | some .acked, some t => (s.ackBeat t x.data x.volatile).finish
  | some .retried, some t => (s.retryBeat t).finish
  | some .failed, some t => (s.failBeat t .fail).finish
  | some _, none => if s.oar.owner == .bridge then s else { s with port := none }

end Sys2Proof.Machine
end

