-- ==== Sys2Proof/Machine/Beats.lean ====
section
/-! DEFINITION. M_ACK, M_RETRY, M_FAIL, BEAT_TIMEOUT: the endings of a beat (5.3). -/

namespace Sys2Proof.Machine

/-- M_ACK (R98), alone or with M_VOLATILE. -/
def execMAck (data : Word) (volatile : Bool) (s : State) : Host.Outcome State Fault Refusal :=
  .next (s.begin.terminate ⟨true, false, false, volatile, data⟩)

/-- M_RETRY (R99), whatever comes with it but M_FAIL (R97). -/
def execMRetry (ack volatile : Bool) (s : State) : Host.Outcome State Fault Refusal :=
  .next (s.begin.terminate ⟨ack, true, false, volatile, 0⟩)

/-- M_FAIL (R100), whatever comes with it (R97). -/
def execMFail (ack retry volatile : Bool) (s : State) : Host.Outcome State Fault Refusal :=
  .next (s.begin.terminate ⟨ack, retry, true, volatile, 0⟩)

/-- The beat timer is due on a beat of the bridge, and the beat ends by timeout (R101). -/
def State.beatExpires (s : State) : State :=
  match s.beatInProgress with
  | some t => if s.mpe.beatTimer == .running 0 then (s.failBeat t .timeout).finish else s
  | none => s

/-- BEAT_TIMEOUT (R101). The event does not occur while the timer is not due.
DESIGN CHOICE (log entry 5). -/
def execBeatTimeout (s : State) : Host.Outcome State Fault Refusal := .next s.begin.beatExpires

end Sys2Proof.Machine
end

