-- ==== Sys2Proof/Machine/HostRequests.lean ====
section
/-! DEFINITION. READ, READ16, WRITE, LOCK_READ, LOCK_WRITE: the host presents a request (sections 4 and 6). -/

namespace Sys2Proof.Machine

/-- READ (R77): a READ without LOCK. -/
def execRead (addr : Addr) (be : Lanes) (order : Bool) (s : State) : Host.Outcome State Fault Refusal :=
  .next (s.begin.present ⟨.read, addr, be, 0, order, false⟩)

/-- READ16 (R77); one carrying LOCK is illegal (R72). -/
def execRead16 (addr : Addr) (be : Lanes) (order lock : Bool) (s : State) : Host.Outcome State Fault Refusal :=
  .next (s.begin.present ⟨.read16, addr, be, 0, order, lock⟩)

/-- WRITE (R77): a WRITE without LOCK. -/
def execWrite (addr : Addr) (be : Lanes) (data : Word) (order : Bool) (s : State) :
    Host.Outcome State Fault Refusal :=
  .next (s.begin.present ⟨.write, addr, be, data, order, false⟩)

/-- LOCK_READ (R120): a READ carrying LOCK. -/
def execLockRead (addr : Addr) (be : Lanes) (order : Bool) (s : State) : Host.Outcome State Fault Refusal :=
  .next (s.begin.present ⟨.read, addr, be, 0, order, true⟩)

/-- LOCK_WRITE (R124): a WRITE carrying LOCK. -/
def execLockWrite (addr : Addr) (be : Lanes) (data : Word) (order : Bool) (s : State) :
    Host.Outcome State Fault Refusal :=
  .next (s.begin.present ⟨.write, addr, be, data, order, true⟩)

end Sys2Proof.Machine
end

