-- ==== Sys2Proof/Machine/Frames.lean ====
section
/-! DEFINITION. The frames of the management link: bits and bytes, their input, the layouts, the settling of status
and answer, the states of the link, and the completion of a frame (section 10). -/

namespace Sys2Proof.Machine

/-! ## Bits and bytes (R173) -/

/-- The bits of a byte in the order in which they travel, the most significant first. -/
def byteBits (b : Byte) : List Bool :=
  [b.getLsbD 7, b.getLsbD 6, b.getLsbD 5, b.getLsbD 4, b.getLsbD 3, b.getLsbD 2, b.getLsbD 1, b.getLsbD 0]

/-- The bits of bytes in the order in which they travel. -/
def bitsOf (bytes : List Byte) : List Bool := bytes.flatMap byteBits

/-- The whole bytes that bits have made, the first bit of each its most significant. -/
def bytesOf : List Bool → List Byte
  | b7 :: b6 :: b5 :: b4 :: b3 :: b2 :: b1 :: b0 :: rest =>
    (BitVec.ofBool b7 ++ BitVec.ofBool b6 ++ BitVec.ofBool b5 ++ BitVec.ofBool b4 ++ BitVec.ofBool b3 ++
      BitVec.ofBool b2 ++ BitVec.ofBool b1 ++ BitVec.ofBool b0) :: bytesOf rest
  | _ => []

/-! ## Frame input (Table 10-2) -/

/-- Whether an item number names a two-byte configuration item (Table 10-4). -/
def isPlainItem (item : Byte) : Bool := decide (0x20 ≤ item.toNat) && decide (item.toNat ≤ 0x2C)

/-- Whether an item number names a region item: an entry or D (Table 10-4). -/
def isRegionItem (item : Byte) : Bool := decide (item.toNat ≤ 0x10)

/-- The SET frame that an item byte and the bytes after it make (Table 10-2, R176). -/
def parseSet (item : Byte) (value : List Byte) : Option Frame :=
  if isRegionItem item then
    match value with
    | a :: b :: c :: d :: e :: _ => some (.setRegion item (a ++ b ++ c ++ d ++ e))
    | _ => none
  else if isPlainItem item then
    match value with
    | a :: b :: _ => some (.set item (a ++ b))
    | _ => none
  else some (.setRefused item)

/-- A command with one argument byte. -/
def parseArg (make : Byte → Frame) : List Byte → Option Frame
  | [] => none
  | n :: _ => some (make n)

/-- The frame whose input the bytes are, once they reach its answer point; bytes after that are disregarded
(R174, R176). -/
def Frame.parse : List Byte → Option Frame
  | [] => none
  | c :: rest =>
    if c = Config.cmdGet then parseArg .get rest
    else if c = Config.cmdSet then
      match rest with
      | [] => none
      | item :: value => parseSet item value
    else if c = Config.cmdPopFault then some .popFault
    else if c = Config.cmdViewPost then parseArg .viewPost rest
    else if c = Config.cmdAckInt then parseArg .ackInt rest
    else if c = Config.cmdResume then some .resume
    else if c = Config.cmdDiscard then some .discard
    else if c = Config.cmdDrainMark then some .drainMark
    else if c = Config.cmdInvalidate then some .invalidate
    else if c = Config.cmdRestorePeer then parseArg .restorePeer rest
    else if c = Config.cmdClearLog then some .clearLog
    else some (.badCommand c)

/-- The input bytes of a SET of a two-byte item (Table 10-2). -/
def setInput (item : Byte) (v : BitVec 16) : List Byte := [Config.cmdSet, item, v.extractLsb' 8 8, v.extractLsb' 0 8]

/-- The input of a frame, the command byte first, a value's most significant byte first (Table 10-2, R173). -/
def Frame.input : Frame → List Byte
  | .get item => [Config.cmdGet, item]
  | .set item v => setInput item v
  | .setRegion item v =>
    [Config.cmdSet, item, v.extractLsb' 32 8, v.extractLsb' 24 8, v.extractLsb' 16 8, v.extractLsb' 8 8,
     v.extractLsb' 0 8]
  | .setRefused item => [Config.cmdSet, item]
  | .popFault => [Config.cmdPopFault]
  | .viewPost n => [Config.cmdViewPost, n]
  | .ackInt mask => [Config.cmdAckInt, mask]
  | .resume => [Config.cmdResume]
  | .discard => [Config.cmdDiscard]
  | .drainMark => [Config.cmdDrainMark]
  | .invalidate => [Config.cmdInvalidate]
  | .restorePeer n => [Config.cmdRestorePeer, n]
  | .clearLog => [Config.cmdClearLog]
  | .badCommand command => [command]

/-! ## Layouts -/

/-- The status byte (Table 10-3). -/
def Status.byte : Status → Byte
  | .ok => 0x00
  | .badCommand => 0x01
  | .badItem => 0x02
  | .badValue => 0x03
  | .empty => 0x04

/-- The region code (R181). -/
def RegionIndex.byte : RegionIndex → Byte
  | .entry i => BitVec.ofNat 8 i.val
  | .d => 0x10

/-- The peer index, 0 to 2. -/
def peerIndex : Peer → Nat
  | .p0 => 0
  | .p1 => 1
  | .p2 => 2

/-- The peer that an index names (R143). -/
def peerOf (n : Byte) : Option Peer := if n = 0 then some .p0 else if n = 1 then some .p1 else if n = 2 then some .p2 else none

/-- Kind codes (Table 10-8). -/
def FaultKind.byte : FaultKind → Byte
  | .deferred => 0x01
  | .readFault => 0x02
  | .writeFault => 0x03
  | .fillTail => 0x04
  | .writeProtect => 0x05
  | .illegalRequest => 0x06
  | .drainHalted => 0x07
  | .lockLost => 0x08
  | .lockAbandoned => 0x09
  | .lockExpired => 0x0A
  | .peerOverstay => 0x0B
  | .snoopOvertake => 0x0C
  | .discarded => 0x0D

/-- Cause codes (R181). -/
def Cause.byte : Cause → Byte
  | .fail => 0x01
  | .timeout => 0x02
  | .retryLimit => 0x03

/-- Origin codes (R181). -/
def Origin.byte : Origin → Byte
  | .host => 0x01
  | .queue => 0x02
  | .peer => 0x03
  | .management => 0x04

/-- A 16-bit or longer value, most significant byte first (R173). -/
def addrBytes (a : Addr) : List Byte := [a.extractLsb' 24 8, a.extractLsb' 16 8, a.extractLsb' 8 8, a.extractLsb' 0 8]

/-- The presence flags of a record (Table 10-7). -/
def FaultRecord.presence (r : FaultRecord) : Byte :=
  0#1 ++ BitVec.ofBool r.peer.isSome ++ BitVec.ofBool r.region.isSome ++ BitVec.ofBool r.merged.isSome ++
    BitVec.ofBool r.range.isSome ++ BitVec.ofBool r.seq.isSome ++ BitVec.ofBool r.bytes.isSome ++
    BitVec.ofBool r.cause.isSome

/-- The sixteen bytes of a fault record (Table 10-7); an absent field reads 00h. -/
def FaultRecord.bytes16 (r : FaultRecord) : List Byte :=
  [r.kind.byte, r.origin.byte, r.presence, (r.cause.map Cause.byte).getD 0] ++
  (r.bytes.map fun b => addrBytes b.addr ++ [BitVec.ofNat 8 b.count]).getD [0, 0, 0, 0, 0] ++
  [r.seq.getD 0] ++
  (r.range.map fun x => [x.first, x.last, BitVec.ofNat 8 x.count]).getD [0, 0, 0] ++
  [(r.merged.map (BitVec.ofNat 8)).getD 0, (r.region.map RegionIndex.byte).getD 0,
   (r.peer.map fun p => BitVec.ofNat 8 (peerIndex p)).getD 0]

/-- The twenty-eight bytes of a post (Table 10-9); a byte absent from the mask reads 00h. -/
def Post.bytes28 (p : Post) : List Byte :=
  [p.seq] ++ addrBytes (blockAddr p.block) ++ [p.mask.extractLsb' 8 8, p.mask.extractLsb' 0 8] ++
  (overlay p.mask p.data (Vector.replicate 16 0)).toList ++
  [p.snap.index.byte,
   0#4 ++ p.snap.width.code ++ BitVec.ofBool p.snap.attrs.merge ++ BitVec.ofBool (p.state == .draining),
   BitVec.ofNat 8 p.beatsDone, BitVec.ofNat 8 p.retryCount, BitVec.ofNat 8 p.merged]

/-- A two-byte item value (R178), most significant byte first. -/
def itemBytes (n : Nat) : List Byte := [BitVec.ofNat 8 (n / 256), BitVec.ofNat 8 n]

/-! ## Items -/

/-- The value of a two-byte item (Table 10-4). -/
def State.itemValue (s : State) (item : Byte) : Nat :=
  if item = Config.itemPrescaler then s.tb.prescaler
  else if item = Config.itemBeatLimit then s.mpe.beatLimit
  else if item = Config.itemLockHold then s.hru.lockHold
  else if item = Config.itemTenure then s.oar.tenure
  else if item = Config.itemYield then s.oar.yield
  else if item = Config.itemRetryLimit then s.mpe.retryLimit
  else if item = Config.itemHighWater then s.pq.highWater
  else if item = Config.itemBaseLevel then s.oar.baseLevel
  else if item = Config.itemLevelP0 then s.oar.peers.p0.level
  else if item = Config.itemLevelP1 then s.oar.peers.p1.level
  else if item = Config.itemLevelP2 then s.oar.peers.p2.level
  else if item = Config.itemHaltOnDeferred then s.pq.haltOnDeferred.toNat
  else s.flt.enables.byte.toNat

/-- The range of a two-byte item (Table 10-4). Every interrupt enables value is in range (R178). -/
def itemRange (item : Byte) (v : Nat) : Bool :=
  if item = Config.itemPrescaler then decide (1 ≤ v ∧ v ≤ 1024)
  else if item = Config.itemTenure then decide (v ≤ 255)
  else if item = Config.itemHighWater then decide (1 ≤ v ∧ v ≤ 8)
  else if item = Config.itemBaseLevel ∨ item = Config.itemLevelP0 ∨ item = Config.itemLevelP1 ∨
    item = Config.itemLevelP2 then decide (v ≤ 7)
  else if item = Config.itemHaltOnDeferred then decide (v ≤ 1)
  else if item = Config.itemInterruptEnables then true
  else decide (1 ≤ v ∧ v ≤ 255)

/-- The bytes of a region item (R179). -/
def RegionMap.item (m : RegionMap) (item : Byte) : List Byte :=
  match entryNumber item with
  | some i => m.entries[i].item
  | none => m.d.item

/-- The value that GET returns, where the item number names an item (R177). -/
def State.getItem (s : State) (item : Byte) : Option (List Byte) :=
  if isRegionItem item then some (s.rmap.item item)
  else if isPlainItem item then some (itemBytes (s.itemValue item))
  else if item = Config.itemStatus then some s.statusItem
  else none

/-! ## The answer point -/

/-- The status and the answer data of a frame, settled and read together at the answer point (R174, R176). -/
def State.settleFrame (s : State) : Frame → Status × List Byte
  | .get item =>
    match s.getItem item with
    | some bytes => (.ok, bytes)
    | none => (.badItem, [])
  | .set item v => if itemRange item v.toNat then (.ok, []) else (.badValue, [])
  | .setRegion item v => if regionAccepts item v then (.ok, []) else (.badValue, [])
  | .setRefused _ => (.badItem, [])
  | .popFault =>
    match s.flt.log.head? with
    | some r => (.ok, r.bytes16)
    | none => (.empty, [])
  | .viewPost n =>
    match s.pq.posts[n.toNat]? with
    | some p => (.ok, p.bytes28)
    | none => (.empty, [])
  | .restorePeer n => if (peerOf n).isSome then (.ok, []) else (.badValue, [])
  | .badCommand _ => (.badCommand, [])
  | .ackInt _ | .resume | .discard | .drainMark | .invalidate | .clearLog => (.ok, [])

/-- The answer point of a frame: status and answer are settled, and the MLI goes to ANSWERING with nothing sent
(R174). -/
def State.answerPoint (s : State) (f : Frame) : State :=
  { s with link := .answering f (s.settleFrame f).1 (s.settleFrame f).2 0 }

/-! ## The states of the link (Table 10-1) -/

/-- The level that MDO has at the next rising edge of MCK: none while it is not driven, and in ANSWERING a bit of the
status byte or of the answer data after it (Table 10-1, R173). -/
def Link.mdo : Link → Option Bool
  | .idle | .blocked => none
  | .receiving _ | .done .. => some true
  | .answering _ st data sent => some ((bitsOf (st.byte :: data)).getD sent true)

/-- MCS is asserted: an IDLE link goes to RECEIVING (Table 10-1). -/
def Link.assertMcs : Link → Link
  | .idle => .receiving []
  | l => l

/-- A rising edge past the answer point: a bit of the output is sent, and with the last one the MLI goes to DONE. In
another state no output is sent (Table 10-1, R174). -/
def Link.sendBit : Link → Link
  | .answering f st data sent =>
    if sent + 1 < 8 * (data.length + 1) then .answering f st data (sent + 1) else .done f st data
  | l => l

/-- What is left of the output is sent, down to its last bit (Table 10-1, R174). -/
def Link.sendRest : Link → Link
  | .answering f st data _ => .done f st data
  | l => l

/-- A rising edge of MCK: in RECEIVING the bit on MDI joins the input, and one that ends the input makes the answer
point; in any other state it is disregarded, while in ANSWERING a bit of the output is sent (R173, R174). -/
def State.clockBit (s : State) (b : Bool) : State :=
  match s.link with
  | .receiving got =>
    match Frame.parse (bytesOf (got ++ [b])) with
    | some f => s.answerPoint f
    | none => { s with link := .receiving (got ++ [b]) }
  | l => { s with link := l.sendBit }

/-- The controller holds MCS asserted and clocks bits in (R173). -/
def State.clockIn (s : State) (input : List Bool) : State :=
  input.foldl State.clockBit { s with link := s.link.assertMcs }

/-! ## Completion -/

/-- The link has yet to receive the frame, or the rest of it: it is IDLE, or RECEIVING with bits that begin the
frame's input. -/
def Link.awaits (f : Frame) : Link → Bool
  | .idle => true
  | .receiving got => got.isPrefixOf (bitsOf f.input)
  | _ => false

/-- The completion of a frame (R175): MCS is negated in DONE, the frame's effect takes place if its status is
OK, and the MLI is IDLE. The frame's bits that are still to come, input and output, come first, in the same step.
A link that holds another frame, has received another frame's input, or is BLOCKED, completes nothing.
DESIGN CHOICE (log entry 6). -/
def State.completeFrame (s : State) (f : Frame) (effect : State → State) : State :=
  match (if s.link.awaits f then s.answerPoint f else s).link.sendRest with
  | .done g st data =>
    if g = f then
      let t := { s with link := .idle, out := { s.out with mdo := st.byte :: data } }
      if st = .ok then effect t else t
    else s
  | _ => s

/-- The completion of a frame given by its input bytes. -/
def State.completeInput (s : State) (input : List Byte) (effect : State → State) : State :=
  match Frame.parse input with
  | some f => s.completeFrame f effect
  | none => s

end Sys2Proof.Machine
end

