-- ==== Sys2Proof/Machine/LinkCommands.lean ====
section
/-! DEFINITION. The commands of the management link (10.5), refused and cut-short frames, the answer point, and
the negation of MCS in BLOCKED. -/

namespace Sys2Proof.Machine

/-- POP_FAULT (R162): the oldest record was returned at the answer point and is removed at completion. -/
def execPopFault (s : State) : Host.Outcome State Fault Refusal :=
  .next (s.begin.completeInput [Config.cmdPopFault] fun t => { t with flt := t.flt.pop })

/-- VIEW_POST (R43): it has no effect beyond its answer. -/
def execViewPost (n : Byte) (s : State) : Host.Outcome State Fault Refusal :=
  .next (s.begin.completeInput [Config.cmdViewPost, n] fun t => t)

/-- ACK_INT (R166). -/
def execAckInt (mask : Byte) (s : State) : Host.Outcome State Fault Refusal :=
  .next (s.begin.completeInput [Config.cmdAckInt, mask] fun t => { t with flt := t.flt.ack mask })

/-- RESUME (R38): the head becomes eligible to drain. -/
def execResume (s : State) : Host.Outcome State Fault Refusal :=
  .next (s.begin.completeInput [Config.cmdResume] fun t => { t with pq := t.pq.resume }.finish)

/-- DISCARD (R39). -/
def execDiscard (s : State) : Host.Outcome State Fault Refusal :=
  .next (s.begin.completeInput [Config.cmdDiscard] fun t => t.discardPosts.finish)

/-- DRAIN_MARK (R40). -/
def execDrainMark (s : State) : Host.Outcome State Fault Refusal :=
  .next (s.begin.completeInput [Config.cmdDrainMark] State.markTail)

/-- INVALIDATE (R65): every line receives a line invalidation. -/
def execInvalidate (s : State) : Host.Outcome State Fault Refusal :=
  .next (s.begin.completeInput [Config.cmdInvalidate] fun t => { t with ls := t.ls.invalidateWhere fun _ => true })

/-- A bar is cleared (R143): a peer that is still the owner gets a fresh yield period. -/
def Arbiter.restore (a : Arbiter) (p : Peer) : Arbiter :=
  if (a.peers.get p).barred then
    { a with
      peers := a.peers.put p { a.peers.get p with barred := false }
      yieldTimer := if a.owner == .peer p then .running a.yield else a.yieldTimer }
  else a

/-- RESTORE_PEER (R143). -/
def execRestorePeer (n : Byte) (s : State) : Host.Outcome State Fault Refusal :=
  .next (s.begin.completeInput [Config.cmdRestorePeer, n] fun t =>
    match peerOf n with
    | some p => { t with oar := t.oar.restore p }.finish
    | none => t)

/-- CLEAR_LOG (R163). -/
def execClearLog (s : State) : Host.Outcome State Fault Refusal :=
  .next (s.begin.completeInput [Config.cmdClearLog] fun t => { t with flt := t.flt.clear })

/-- BAD_COMMAND (R176): a frame whose command byte names no command has no effect. -/
def execBadCommand (command : Byte) (s : State) : Host.Outcome State Fault Refusal :=
  .next (if Frame.parse [command] = some (.badCommand command) then
      s.begin.completeFrame (.badCommand command) fun t => t
    else s.begin)

/-- FRAME_CUT_SHORT (R175): MCS is negated in RECEIVING or ANSWERING, and the frame has no effect. -/
def execFrameCutShort (s : State) : Host.Outcome State Fault Refusal :=
  .next (match s.link with
    | .receiving _ | .answering .. => { s.begin with link := .idle }
    | _ => s.begin)

/-- MCS_NEGATED_IN_BLOCKED (R173). -/
def execMcsNegatedInBlocked (s : State) : Host.Outcome State Fault Refusal :=
  .next (match s.link with
    | .blocked => { s.begin with link := .idle }
    | _ => s.begin)

/-- ANSWER_POINT (R174): the bits are clocked in with MCS asserted, and the one that ends a frame's input makes
the answer point. DESIGN CHOICE (log entry 6): bits that stop short of it leave the link RECEIVING, and the edges after
it send the status byte and the answer data, up to DONE. -/
def execAnswerPoint (input : List Bool) (s : State) : Host.Outcome State Fault Refusal :=
  .next (s.begin.clockIn input)

end Sys2Proof.Machine
end

