-- ==== Sys2Proof/Machine/LinkItems.lean ====
section
/-! DEFINITION. GET and the SET frames: SET, REGION_REWRITE, SET_PRESCALER, SET_HIGH_WATER_MARK, SET_PEER_LEVEL,
SET_BASE_LEVEL, SET_INTERRUPT_ENABLES (10.3). -/

namespace Sys2Proof.Machine

/-- GET (R177): it changes nothing. -/
def execGet (item : Byte) (s : State) : Host.Outcome State Fault Refusal :=
  .next (s.begin.completeInput [Config.cmdGet, item] fun t => t)

/-! ## What an accepted SET of an item does -/

/-- The prescaler takes its value and the count returns to 0 (R102). -/
def State.setPrescalerItem (s : State) (v : Nat) : State := { s with tb := ⟨0, v⟩ }

/-- The high-water mark (R27): escalation is a function of it, and so begins or ends at once. -/
def State.setHighWaterItem (s : State) (v : Nat) : State := { s with pq := { s.pq with highWater := v } }

/-- The bridge base level (R132). -/
def State.setBaseLevelItem (s : State) (v : Nat) : State := { s with oar := { s.oar with baseLevel := v } }

/-- The level of a peer; a request it makes regarded may run a round, or end a spent tenure (R131, R134, R138).
DESIGN CHOICE (log entry 11). -/
def State.setPeerLevelItem (s : State) (p : Peer) (v : Nat) : State :=
  { s with oar := { s.oar with peers := s.oar.peers.put p { s.oar.peers.get p with level := v } } }.finish

/-- The interrupt enables: the low three bits (R165, R178). -/
def State.setEnablesItem (s : State) (v : BitVec 16) : State :=
  { s with flt := { s.flt with enables := bitsOfByte (v.extractLsb' 0 8) } }

/-- The effect of an accepted SET of a two-byte item (R178). A limit or timer item is read when its timer or
test next starts. -/
def State.setItem (s : State) (item : Byte) (v : BitVec 16) : State :=
  if item = Config.itemPrescaler then s.setPrescalerItem v.toNat
  else if item = Config.itemBeatLimit then { s with mpe := { s.mpe with beatLimit := v.toNat } }
  else if item = Config.itemLockHold then { s with hru := { s.hru with lockHold := v.toNat } }
  else if item = Config.itemTenure then { s with oar := { s.oar with tenure := v.toNat } }
  else if item = Config.itemYield then { s with oar := { s.oar with yield := v.toNat } }
  else if item = Config.itemRetryLimit then { s with mpe := { s.mpe with retryLimit := v.toNat } }
  else if item = Config.itemHighWater then s.setHighWaterItem v.toNat
  else if item = Config.itemBaseLevel then s.setBaseLevelItem v.toNat
  else if item = Config.itemLevelP0 then s.setPeerLevelItem .p0 v.toNat
  else if item = Config.itemLevelP1 then s.setPeerLevelItem .p1 v.toNat
  else if item = Config.itemLevelP2 then s.setPeerLevelItem .p2 v.toNat
  else if item = Config.itemHaltOnDeferred then { s with pq := { s.pq with haltOnDeferred := v != 0 } }
  else if item = Config.itemInterruptEnables then s.setEnablesItem v
  else s

/-- The effect of a rewrite: the map, tail merging, and the lines of the invalidation range (R12, R13, R14). -/
def State.rewriteRegion (s : State) (item : Byte) (v : BitVec 40) : State :=
  { s with
    rmap := s.rmap.rewrite item v
    pq := s.pq.closeMerge
    ls := s.ls.invalidateWhere (inInvalidationRange item s.rmap (s.rmap.rewrite item v)) }

/-! ## The frames -/

/-- The item of a peer's level (Table 10-4). -/
def levelItem : Peer → Byte
  | .p0 => Config.itemLevelP0
  | .p1 => Config.itemLevelP1
  | .p2 => Config.itemLevelP2

/-- SET (R178). -/
def execSet (item : Byte) (value : BitVec 16) (s : State) : Host.Outcome State Fault Refusal :=
  .next (s.begin.completeInput (setInput item value) fun t => t.setItem item value)

/-- REGION_REWRITE (R12). -/
def execRegionRewrite (item : Byte) (value : BitVec 40) (s : State) : Host.Outcome State Fault Refusal :=
  .next (if isRegionItem item then
      s.begin.completeFrame (.setRegion item value) fun t => t.rewriteRegion item value
    else s.begin)

/-- SET_PRESCALER (R102). -/
def execSetPrescaler (value : BitVec 16) (s : State) : Host.Outcome State Fault Refusal :=
  .next (s.begin.completeInput (setInput Config.itemPrescaler value) fun t => t.setPrescalerItem value.toNat)

/-- SET_HIGH_WATER_MARK (R27). -/
def execSetHighWaterMark (value : BitVec 16) (s : State) : Host.Outcome State Fault Refusal :=
  .next (s.begin.completeInput (setInput Config.itemHighWater value) fun t => t.setHighWaterItem value.toNat)

/-- SET_PEER_LEVEL (R131). -/
def execSetPeerLevel (p : Peer) (value : BitVec 16) (s : State) : Host.Outcome State Fault Refusal :=
  .next (s.begin.completeInput (setInput (levelItem p) value) fun t => t.setPeerLevelItem p value.toNat)

/-- SET_BASE_LEVEL (R132). -/
def execSetBaseLevel (value : BitVec 16) (s : State) : Host.Outcome State Fault Refusal :=
  .next (s.begin.completeInput (setInput Config.itemBaseLevel value) fun t => t.setBaseLevelItem value.toNat)

/-- SET_INTERRUPT_ENABLES (R165). -/
def execSetInterruptEnables (value : BitVec 16) (s : State) : Host.Outcome State Fault Refusal :=
  .next (s.begin.completeInput (setInput Config.itemInterruptEnables value) fun t => t.setEnablesItem value)

end Sys2Proof.Machine
end

