-- ==== Sys2Proof/Machine/PeerEvents.lean ====
section
/-! DEFINITION. PEER_REQUEST, PEER_RELEASE, PEER_ADDRESS_PHASE: the peers' lines and the Snoop Check
(sections 7 and 8). -/

namespace Sys2Proof.Machine

/-- A peer's P_REQ line takes a level. -/
def Arbiter.setReq (a : Arbiter) (p : Peer) (v : Bool) : Arbiter :=
  { a with peers := a.peers.put p { a.peers.get p with req := v } }

/-- PEER_REQUEST (R136): P_REQ is asserted, and a round runs if it can (R134). -/
def execPeerRequest (p : Peer) (s : State) : Host.Outcome State Fault Refusal :=
  .next { s.begin with oar := s.oar.setReq p true }.finish

/-- PEER_RELEASE (R135, R136): P_REQ is negated; an owner's grant, timers, P_REL and unfinished address phase
go with it, before a round runs. The line stands negated in that round, so the peer is never granted back in the step
of its release; an assertion after it is PEER_REQUEST, a step of its own. DESIGN CHOICE (log entry 27). -/
def execPeerRelease (p : Peer) (s : State) : Host.Outcome State Fault Refusal :=
  let t := { s.begin with oar := s.oar.setReq p false }
  .next (if s.oar.owner == .peer p then { t with oar := t.oar.releasePeer, port := none }.finish else t.finish)

/-- The snoop-drain obligation is created, or extended to a younger post (R149, R150). -/
def State.oblige (s : State) (target : Post) : State :=
  match s.mpe.obligation with
  | none => { s with mpe := { s.mpe with obligation := some target.seq } }
  | some o =>
    if s.pq.position o < s.pq.position target.seq then
      { s with mpe := { s.mpe with obligation := some target.seq } }
    else s

/-- The arbiter is told of a snoop retry: P_REL is asserted unless it stands already (R142). -/
def Arbiter.snoopRetry (a : Arbiter) (p : Peer) : Arbiter :=
  if a.pRel || (a.peers.get p).barred then a else a.askRelease

/-- The bridge terminates the peer's beat with M_RETRY in the step of its address phase (R148). -/
def State.retryPeer (s : State) : State := { s with port := none, out := { s.out with peerRetry := true } }

/-- The peer's address phase passes and stands; a write invalidates the line of its block (R154, R155). An
empty check range acts on no line (R146). -/
def State.passPeer (s : State) (ph : AddressPhase) : State :=
  { s with
    port := some ph
    ls := if ph.wr && ph.be != 0 then s.ls.invalidate (blockOf ph.addr) else s.ls }

/-- The check range of an address phase, as bytes of its block (R146). -/
def checkRange (addr : Addr) (be : Lanes) : Mask := be.setWidth 16 <<< (4 * (offsetOf addr / 4))

/-- The Snoop Check of an address phase of the owning peer, in the order of Table 8-1 (R147). -/
def State.snoop (s : State) (p : Peer) (ph : AddressPhase) : State :=
  if (s.oar.peers.get p).barred then s.retryPeer
  else
    match s.pq.youngestOverlap (blockOf ph.addr) (checkRange ph.addr ph.be) with
    | none => s.passPeer ph
    | some post =>
      match s.pq.state with
      | .running => ({ s with oar := s.oar.snoopRetry p }.oblige post).retryPeer
      | .halted =>
        (s.record (overtakeRecord p (wordAddr (wordOf ph.addr) + BitVec.ofNat 32 (lowLane ph.be))
          (laneCount ph.be) post.seq)).passPeer ph

/-- PEER_ADDRESS_PHASE (R146, R147). While no peer owns the M-port there is no such phase.
DESIGN CHOICE (log entry 5). -/
def execPeerAddressPhase (addr : Addr) (wr : Bool) (be : Lanes) (more : Bool) (s : State) :
    Host.Outcome State Fault Refusal :=
  .next (match s.oar.owner with
    | .peer p => s.begin.snoop p ⟨addr, wr, be, more, none⟩
    | _ => s.begin)

end Sys2Proof.Machine
end

