-- ==== Sys2Proof/Machine/Reset.lean ====
section
/-! DEFINITION. POWER_ON, HOST_RESET, HOST_RESET_NEGATION (R89, R117, R129, R173, R185). -/

namespace Sys2Proof.Machine

/-- The peers' request lines as they stand, everything else of a peer at its power-on value (R145). -/
def Peers.powerOn (ps : Peers) : Peers :=
  ⟨⟨ps.p0.req, 0, false⟩, ⟨ps.p1.req, 0, false⟩, ⟨ps.p2.req, 0, false⟩⟩

/-- Every block in its power-on state, D at the strap width, the MLI BLOCKED if MCS is asserted (R3, R173, R185).
The P_REQ lines and H_RST are inputs and stand as they stand. DESIGN CHOICE (log entry 17). -/
def State.powerUp (s : State) (strapW1 strapW0 mcs hRst : Bool) : State :=
  { State.reset with
    rmap := { State.reset.rmap with d := .powerOn (strapWidth strapW1 strapW0) }
    hru := { State.reset.hru with hRst := hRst }
    oar := { State.reset.oar with peers := s.oar.peers.powerOn }
    link := if mcs then .blocked else .idle
    pending := s.pending }

/-- POWER_ON (R185): a request the host presents is taken in this step if H_RST is negated, and otherwise
stands at the H-port (R187). -/
def execPowerOn (strapW1 strapW0 mcs hRst : Bool) (held : Option HostRequest) (s : State) :
    Host.Outcome State Fault Refusal :=
  let t := s.powerUp strapW1 strapW0 mcs hRst
  .next (match held with
    | some h => t.present h
    | none => t)

/-- What host reset does to the MPE's transaction (R117): a DRAIN goes on, a FRACTURED host-origin transaction
is dropped, a CURRENT one is abandoned at its next beat boundary, which is this step if no beat is in progress. -/
def Txn.hostReset (t : Txn) (beatInProgress : Bool) : Option Txn :=
  if t.kind == .drain then some t
  else match t.state with
  | .fractured => none
  | .current => if beatInProgress then some { t with abandoned := true } else none

/-- The effects of host reset on every block (R20, R66, R89, R117, R129, R145). A taken request that it drops no
longer stands at the H-port: it is taken again only if the host presents it again. A request that stands untaken goes
on standing. DESIGN CHOICE (log entry 26). -/
def State.hostReset (s : State) : State :=
  { s with
    pq := s.pq.closeMerge
    ls := LineStore.powerOn
    hru := { s.hru with request := none, lock := none, hRst := true }
    mpe := { s.mpe with
      txn := s.mpe.txn.bind fun t => t.hostReset s.port.isSome
      handed := none, locked := none, demand := none } }

/-- HOST_RESET (R89). -/
def execHostReset (s : State) : Host.Outcome State Fault Refusal := .next s.begin.hostReset.finish

/-- HOST_RESET_NEGATION (R89): a request that stands at the H-port is then taken in IDLE. -/
def execHostResetNegation (s : State) : Host.Outcome State Fault Refusal :=
  .next { s.begin with hru := { s.hru with hRst := false } }.takePresented

end Sys2Proof.Machine
end

