-- ==== Sys2Proof/Machine/Time.lean ====
section
/-! DEFINITION. HOST_CLOCK, TICK and the expiries of the lock hold, tenure and yield timers (R102, R125,
R138, R141). -/

namespace Sys2Proof.Machine

/-- A running timer counts one tick; one that is due stays due until its expiry is taken (R102). -/
def Timer.tick : Timer → Timer
  | .stopped => .stopped
  | .running n => .running (n - 1)

/-- A running tenure timer counts one tick (R102). -/
def Tenure.tick : Tenure → Tenure
  | .stopped => .stopped
  | .running n => .running (n - 1)
  | .spent => .spent

/-- The count of host clocks wraps to 0 and makes one tick for the four timers (R102). -/
def State.makeTick (s : State) : State :=
  { s with
    tb := { s.tb with count := 0 }
    mpe := { s.mpe with beatTimer := s.mpe.beatTimer.tick }
    hru := { s.hru with lock := s.hru.lock.map fun l => { l with timer := l.timer.tick } }
    oar := { s.oar with tenureTimer := s.oar.tenureTimer.tick, yieldTimer := s.oar.yieldTimer.tick } }

/-- TICK (R102): the host clocks run on to the one at which the count wraps, and it makes a tick.
DESIGN CHOICE (log entry 4). -/
def execTick (s : State) : Host.Outcome State Fault Refusal := .next s.begin.makeTick

/-- HOST_CLOCK (R102): the count rises by one, and at the wrap makes a tick. -/
def execHostClock (s : State) : Host.Outcome State Fault Refusal :=
  .next (if s.tb.count + 1 < s.tb.prescaler then
      { s.begin with tb := { s.tb with count := s.tb.count + 1 } }
    else s.begin.makeTick)

/-- The open lock's timer is due: the lock is dropped with its record (R125). -/
def State.lockExpires (s : State) : State :=
  match s.hru.lock with
  | some l =>
    if l.phase == .opened && l.timer == .running 0 then
      ((s.record (lockRecord .lockExpired l)).dropLock).finish
    else s
  | none => s

/-- LOCK_HOLD_EXPIRY (R125). The event does not occur while the timer is not due.
DESIGN CHOICE (log entry 5). -/
def execLockHoldExpiry (s : State) : Host.Outcome State Fault Refusal := .next s.begin.lockExpires

/-- The owning peer's tenure timer is due (R138). -/
def State.tenureExpires (s : State) : State :=
  match s.oar.owner with
  | .peer _ =>
    if s.oar.tenureTimer == .running 0 then
      if s.otherWaits then { s with oar := s.oar.askRelease }
      else { s with oar := { s.oar with tenureTimer := .spent } }
    else s
  | _ => s

/-- TENURE_EXPIRY (R138). The event does not occur while the timer is not due.
DESIGN CHOICE (log entry 5). -/
def execTenureExpiry (s : State) : Host.Outcome State Fault Refusal := .next s.begin.tenureExpires

/-- The barred flag of a peer is set (R141). -/
def Arbiter.bar (a : Arbiter) (p : Peer) : Arbiter :=
  { a with peers := a.peers.put p { a.peers.get p with barred := true }, yieldTimer := .stopped }

/-- The yield timer of the owning peer is due: the peer is barred, with its record (R141). -/
def State.yieldExpires (s : State) : State :=
  match s.oar.owner with
  | .peer p =>
    if s.oar.yieldTimer == .running 0 then { s with oar := s.oar.bar p }.record (overstayRecord p) else s
  | _ => s

/-- YIELD_EXPIRY (R141). The event does not occur while the timer is not due.
DESIGN CHOICE (log entry 5). -/
def execYieldExpiry (s : State) : Host.Outcome State Fault Refusal := .next s.begin.yieldExpires

end Sys2Proof.Machine
end

