-- ==== Sys2Proof/Machine/Dispatch.lean ====
section
/-! DEFINITION. exec: one arm for each command, calling its meaning. -/

namespace Sys2Proof.Machine

def exec (i : Instr) (s : State) : Host.Outcome State Fault Refusal :=
  match i with
  | .powerOn strapW1 strapW0 mcs hRst held => Sys2Proof.Machine.execPowerOn strapW1 strapW0 mcs hRst held s
  | .hostReset => Sys2Proof.Machine.execHostReset s
  | .read addr be order => Sys2Proof.Machine.execRead addr be order s
  | .read16 addr be order lock => Sys2Proof.Machine.execRead16 addr be order lock s
  | .write addr be data order => Sys2Proof.Machine.execWrite addr be data order s
  | .lockRead addr be order => Sys2Proof.Machine.execLockRead addr be order s
  | .lockWrite addr be data order => Sys2Proof.Machine.execLockWrite addr be data order s
  | .mAck data volatile => Sys2Proof.Machine.execMAck data volatile s
  | .mRetry ack volatile => Sys2Proof.Machine.execMRetry ack volatile s
  | .mFail ack retry volatile => Sys2Proof.Machine.execMFail ack retry volatile s
  | .beatTimeout => Sys2Proof.Machine.execBeatTimeout s
  | .tick => Sys2Proof.Machine.execTick s
  | .lockHoldExpiry => Sys2Proof.Machine.execLockHoldExpiry s
  | .peerRequest p => Sys2Proof.Machine.execPeerRequest p s
  | .peerRelease p => Sys2Proof.Machine.execPeerRelease p s
  | .tenureExpiry => Sys2Proof.Machine.execTenureExpiry s
  | .yieldExpiry => Sys2Proof.Machine.execYieldExpiry s
  | .peerAddressPhase addr wr be more => Sys2Proof.Machine.execPeerAddressPhase addr wr be more s
  | .get item => Sys2Proof.Machine.execGet item s
  | .set item value => Sys2Proof.Machine.execSet item value s
  | .regionRewrite item value => Sys2Proof.Machine.execRegionRewrite item value s
  | .setPrescaler value => Sys2Proof.Machine.execSetPrescaler value s
  | .setHighWaterMark value => Sys2Proof.Machine.execSetHighWaterMark value s
  | .setPeerLevel p value => Sys2Proof.Machine.execSetPeerLevel p value s
  | .setBaseLevel value => Sys2Proof.Machine.execSetBaseLevel value s
  | .setInterruptEnables value => Sys2Proof.Machine.execSetInterruptEnables value s
  | .popFault => Sys2Proof.Machine.execPopFault s
  | .viewPost n => Sys2Proof.Machine.execViewPost n s
  | .ackInt mask => Sys2Proof.Machine.execAckInt mask s
  | .resume => Sys2Proof.Machine.execResume s
  | .discard => Sys2Proof.Machine.execDiscard s
  | .drainMark => Sys2Proof.Machine.execDrainMark s
  | .invalidate => Sys2Proof.Machine.execInvalidate s
  | .restorePeer n => Sys2Proof.Machine.execRestorePeer n s
  | .clearLog => Sys2Proof.Machine.execClearLog s
  | .badCommand command => Sys2Proof.Machine.execBadCommand command s
  | .frameCutShort => Sys2Proof.Machine.execFrameCutShort s
  | .hostResetNegation => Sys2Proof.Machine.execHostResetNegation s
  | .mcsNegatedInBlocked => Sys2Proof.Machine.execMcsNegatedInBlocked s
  | .answerPoint input => Sys2Proof.Machine.execAnswerPoint input s
  | .hostClock => Sys2Proof.Machine.execHostClock s

end Sys2Proof.Machine
end

