-- ==== Sys2Proof/WellFormed.lean ====
section
/-! DEFINITION. Which command terms stand for a command the outside can give: the checks that the
operand types do not make. (An ILLEGAL request is well formed: R72 gives it its meaning.) DESIGN CHOICE (log
entry 20): what `exec` does with an ill-formed term. -/

namespace Sys2Proof

/-- A READ or WRITE is presented at a word address (R70). -/
def wordAligned (a : Addr) : Bool := a.extractLsb' 0 2 == 0

/-- A held request is presented as its row's command would be. -/
def HostRequest.wf (h : HostRequest) : Bool :=
  match h.kind with
  | .read16 => true
  | _ => wordAligned h.addr

/-- The items that `SET` sets under its own row: the two-byte items without a row of their own,
the status item and the numbers that name no item, which are refused (R176). -/
def setHasOwnRow (item : Byte) : Bool :=
  decide (item.toNat ≤ 0x10) || item == Config.itemPrescaler || item == Config.itemHighWater ||
  item == Config.itemBaseLevel || item == Config.itemLevelP0 || item == Config.itemLevelP1 ||
  item == Config.itemLevelP2 || item == Config.itemInterruptEnables

/-- The command bytes of Table 10-2. -/
def namesCommand (b : Byte) : Bool :=
  [Config.cmdGet, Config.cmdSet, Config.cmdPopFault, Config.cmdViewPost, Config.cmdAckInt,
   Config.cmdResume, Config.cmdDiscard, Config.cmdDrainMark, Config.cmdInvalidate,
   Config.cmdRestorePeer, Config.cmdClearLog].contains b

/-- The well-formed commands. -/
def Instr.wf : Instr → Bool
  | .powerOn _ _ _ _ held => held.all HostRequest.wf
  | .read a _ _ | .write a _ _ _ | .lockRead a _ _ | .lockWrite a _ _ _ => wordAligned a
  | .set item _ => !setHasOwnRow item
  | .regionRewrite item _ => decide (item.toNat ≤ 0x10)
  | .badCommand b => !namesCommand b
  | .hostReset | .read16 .. | .mAck .. | .mRetry .. | .mFail .. | .beatTimeout | .tick
  | .lockHoldExpiry | .peerRequest _ | .peerRelease _ | .tenureExpiry | .yieldExpiry
  | .peerAddressPhase .. | .get _ | .setPrescaler _ | .setHighWaterMark _ | .setPeerLevel ..
  | .setBaseLevel _ | .setInterruptEnables _ | .popFault | .viewPost _ | .ackInt _ | .resume
  | .discard | .drainMark | .invalidate | .restorePeer _ | .clearLog | .frameCutShort
  | .hostResetNegation | .mcsNegatedInBlocked | .answerPoint _ | .hostClock => true

end Sys2Proof
end

