-- ==== Sys2Proof/Safety.lean ====
section
/-! DEFINITION. What every reachable state of the UH-420 keeps, block by block and across blocks, and the
vocabulary in which statements about the commands are written. -/

namespace Sys2Proof.Machine

/-! ## Each block on its own -/

/-- The Post Queue's form: at most eight posts, their seqs consecutive up to the next-sequence counter (R19),
and only the head DRAINING (R33). -/
def PostQueue.wf (q : PostQueue) : Bool :=
  decide (q.posts.length ≤ Config.queueCapacity) &&
  decide (q.posts.map Post.seq =
    (List.range q.posts.length).map fun i => q.nextSeq - BitVec.ofNat 8 (q.posts.length - i)) &&
  q.posts.tail.all fun p => p.state == .waiting

/-- The line at a set and way is the one the fill context describes (R45). -/
def LineStore.isFillLine (l : LineStore) (s : Fin 8) (w : Fin 4) : Bool :=
  match l.fill with
  | some f => f.set == s && f.way == w
  | none => false

/-- The Line Store's form: each recency order holds each way once (R46), the one FILLING line is the one the
fill context describes, and the context's block is that line's, in its set (R44, R45). -/
def LineStore.wf (l : LineStore) : Bool :=
  (List.finRange 8).all (fun s => l.sets[s].recency.isPerm [0, 1, 2, 3] &&
    (List.finRange 4).all fun w => ((l.line s w).state == .filling) == l.isFillLine s w) &&
  (match l.fill with
  | some f => (l.line f.set f.way).block == f.block && f.set == setOf f.block
  | none => true)

/-- No two ways of a set that are not INVALID hold the same block (R45). -/
def LineStore.distinct (l : LineStore) : Bool :=
  (List.finRange 8).all fun s => (List.finRange 4).all fun v => (List.finRange 4).all fun w =>
    v == w || (l.line s v).state == .invalid || (l.line s w).state == .invalid ||
      (l.line s v).block != (l.line s w).block

/-- The arbiter's form: P_REL and the two timers belong to an owning peer (R138 to R140); an owning peer
asserts its request (R136); under P_REL the tenure timer is stopped, and the yield timer runs or the owner
is barred (R140, R141). -/
def Arbiter.wf (a : Arbiter) : Bool :=
  match a.owner with
  | .peer p =>
    (a.peers.get p).req &&
    (if a.pRel then a.tenureTimer == .stopped && (a.yieldTimer != .stopped || (a.peers.get p).barred)
     else a.yieldTimer == .stopped && !(a.peers.get p).barred)
  | _ => !a.pRel && a.tenureTimer == .stopped && a.yieldTimer == .stopped

/-- A frame answered OK carries a value that its item accepts (R176, R178, R179). -/
def Frame.accepted : Frame → Status → Bool
  | .set item v, .ok => itemRange item v.toNat
  | .setRegion item v, .ok => regionAccepts item v
  | _, _ => true

/-- The link's form: in RECEIVING its bits have not reached an answer point, in ANSWERING a bit of the output is
still to send (Table 10-1, R174), and a frame it holds is accepted where its status says so. -/
def Link.wf : Link → Bool
  | .idle | .blocked => true
  | .receiving got => (Frame.parse (bytesOf got)).isNone
  | .answering f st data sent => f.accepted st && decide (sent < 8 * (data.length + 1))
  | .done f st _ => f.accepted st

/-- Every configuration item stands in its range (Table 10-4), the count of host clocks below the prescaler
(R102), and every region entry's size code at or below 20 (R1). -/
def State.itemsWf (s : State) : Bool :=
  decide (1 ≤ s.tb.prescaler ∧ s.tb.prescaler ≤ 1024 ∧ s.tb.count < s.tb.prescaler) &&
  decide (1 ≤ s.mpe.beatLimit ∧ s.mpe.beatLimit ≤ 255) && decide (1 ≤ s.mpe.retryLimit ∧ s.mpe.retryLimit ≤ 255) &&
  decide (1 ≤ s.hru.lockHold ∧ s.hru.lockHold ≤ 255) && decide (s.oar.tenure ≤ 255) &&
  decide (1 ≤ s.oar.yield ∧ s.oar.yield ≤ 255) && decide (1 ≤ s.pq.highWater ∧ s.pq.highWater ≤ 8) &&
  decide (s.oar.baseLevel ≤ 7) && (allPeers.all fun p => decide ((s.oar.peers.get p).level ≤ 7)) &&
  ((List.finRange 16).all fun i => decide (s.rmap.entries[i].size.toNat ≤ 20)) && s.link.wf

/-- The M-port's form: a CURRENT transaction runs under the bridge's ownership, its address phase is that of its
first undone beat and its beat timer runs (R92, R96, R101); without one, only an owning peer's phase stands. -/
def State.portWf (s : State) : Bool :=
  let quiet := match s.oar.owner with
    | .peer _ => true
    | _ => s.port.isNone
  match s.mpe.txn with
  | some t =>
    if t.state == .current then s.oar.owner == .bridge && s.port == t.phase && s.mpe.beatTimer != .stopped else quiet
  | none => quiet

/-- The drain mark and the target of the snoop-drain obligation are pending posts (R20, R149). -/
def State.targetsPending (s : State) : Bool :=
  (s.pq.mark.all fun m => s.pq.posts.any fun p => p.seq == m) &&
  (s.mpe.obligation.all fun o => s.pq.posts.any fun p => p.seq == o)

/-- The fill context is occupied exactly while a FILL that no host reset has abandoned is held (R45). -/
def State.fillHeld (s : State) : Bool :=
  s.ls.fill.isSome == (s.mpe.txn.any fun t => t.kind == .fill && !t.abandoned)

/-- A taken request always waits for something, and none is taken in host reset (R74, R89); a request stands
untaken at the H-port only while the HRU cannot take it. -/
def Hru.wf (h : Hru) : Bool :=
  (h.request.all fun r => r.wait != .none && !h.hRst) && (h.presented.isNone || !h.canTake)

/-- Nothing is left to do in the step: a peer's spent tenure meets no other requester (R138), a bridge that
owns the M-port runs a transaction or holds it for a lock with no work to start (R112, R115), and with no
owner no request is regarded (R134). -/
def State.settled (s : State) : Bool :=
  match s.oar.owner with
  | .peer _ => !(s.oar.tenureTimer == .spent && s.otherWaits)
  | .bridge => s.mpe.running || s.lockHold && s.nextWork.isNone
  | .none => s.requesters.isEmpty

/-! ## The blocks together -/

/-- The transaction is the one whose end answers the taken request (R86): a FETCH, a WRITE, or a FILL not yet
answered, that no host reset has abandoned. -/
def Txn.answers (t : Txn) (fill : Option FillContext) : Bool :=
  !t.abandoned && (t.kind == .fetch || t.kind == .write || (t.kind == .fill && fill.any fun f => !f.answered))

/-- The wait value of the taken request. -/
def Hru.wait (h : Hru) : Option Wait := h.request.map Request.wait

/-- The taken request is carried: it waits on PORT exactly while the MPE holds its handed work or the
transaction that will answer it, never both, and on LOCK exactly while the MPE holds its locked work or
transaction, never both (R85, R86, R120, R126). -/
def State.carried (s : State) : Bool :=
  ((s.hru.wait == some .port) == (s.mpe.handed.isSome || s.mpe.txn.any fun t => t.answers s.ls.fill)) &&
  !(s.mpe.handed.isSome && s.mpe.txn.any fun t => t.answers s.ls.fill) &&
  ((s.hru.wait == some .lock) == (s.mpe.locked.isSome || s.mpe.lockedRunning)) &&
  !(s.mpe.locked.isSome && s.mpe.lockedRunning) &&
  (s.mpe.handed.all fun w => s.hru.request.any fun r => r.work == w) &&
  (s.mpe.locked.all fun w => s.hru.request.any fun r => r.work == w)

/-- A FILL whose request is unanswered has no host byte in its line, and its undone beats bring the requested
bytes that have not arrived (R57, R59, R103). -/
def State.fillAnswers (s : State) : Bool :=
  match s.mpe.txn, s.ls.fill with
  | some t, some f =>
    t.block == f.block && t.mask == f.requested &&
    (f.answered || f.written == 0 && maskWithin f.requested
      ((t.beats.drop t.beatsDone).foldl (fun m b => m ||| b.bytes t.snap.width) f.arrived))
  | _, _ => true

/-- The head is DRAINING exactly while the MPE holds its DRAIN, and shows that DRAIN's progress (R33, R34, R94). -/
def State.drainAgrees (s : State) : Bool :=
  match s.mpe.txn.filter fun t => t.kind == .drain with
  | some t => !t.abandoned && s.pq.posts.head?.any fun p =>
      p.state == .draining && t.post == some p.seq && p.beatsDone == t.beatsDone && p.retryCount == t.retryCount
  | none => s.pq.posts.all fun p => p.state == .waiting

/-- What each wait for the queue or a line finds there (R25, R30 to R32, R52): a queue that is RUNNING, a post
at or before the demand's target, and a FILLING line of the read's block. -/
def State.waitsWf (s : State) : Bool :=
  ((s.hru.wait == some .queue || s.hru.wait == some .through) == s.mpe.demand.isSome) &&
  (s.mpe.demand.all fun d => s.pq.state == .running && !s.pq.drainedThrough d) &&
  (s.hru.request.all fun r =>
    (r.wait != .room || r.route == .posted && s.pq.posts.length == Config.queueCapacity && s.pq.state == .running) &&
    (r.wait != .queue || (r.route == .ordered || r.route == .unposted || r.route == .lock) &&
      s.mpe.demand.all fun d => s.pq.posts.all fun p => seqAtOrBefore p.seq d) &&
    (r.wait != .through || r.route == .kept || r.route == .unkept) &&
    (r.wait != .line || r.route == .kept && s.ls.fill.any fun f => f.block == r.block && f.answered) &&
    ((r.wait == .lock) == (r.route == .lock && r.wait != .queue)) &&
    (!(r.wait == .port || r.wait == .lock) || r.route == .kept || r.route == .unkept || s.pq.posts.isEmpty))

/-- The lock and the request agree (Table 6-1): OPENING while a LOCK READ waits, OPEN with no request, an empty
queue and a running timer, CLOSING while a LOCK WRITE waits; the timer runs in OPEN only. -/
def State.lockWf (s : State) : Bool :=
  (match s.hru.lock with
  | none => s.hru.request.all fun r => r.route != .lock
  | some l =>
    ((l.phase == .opened) == (l.timer != .stopped)) && !s.hru.hRst &&
    match l.phase with
    | .opening => s.hru.request.any fun r => r.route == .lock && r.kind == .read
    | .opened => s.hru.request.isNone && s.pq.posts.isEmpty
    | .closing => s.hru.request.any fun r => r.route == .lock && r.kind == .write && r.wait == .lock) &&
  (!s.mpe.lockedRunning || s.mpe.running)

/-- The lock hold keeps the M-port with the bridge (R123). -/
def State.lockKeepsPort (s : State) : Bool := !s.lockHold || s.oar.owner == .bridge

/-- A line agrees with the posts of its block on every byte that a post holds (R29, R44). -/
def State.agreesWithPosts (s : State) (x : Line) : Bool :=
  (List.finRange 16).all fun i =>
    !(s.pq.held x.block).1.getLsbD i.val || x.data[i] == (s.pq.held x.block).2[i]

/-- No line is older than the Post Queue (R29, R44, R54, R63): a VALID line, and the FILLING line while STALE is
clear, agree with the posts of their block; a FILLING line has every posted byte of its block in its write
mask; and a FILL that is yet to start has no post of its block and no line. -/
def State.coherent (s : State) : Bool :=
  s.ls.distinct &&
  ((List.finRange 8).all fun i => (List.finRange 4).all fun w =>
    (s.ls.line i w).state != .valid ||
      setOf (s.ls.line i w).block == i && s.agreesWithPosts (s.ls.line i w)) &&
  (s.ls.fill.all fun f => maskWithin (s.pq.held f.block).1 f.written &&
    (f.stale || s.agreesWithPosts (s.ls.line f.set f.way))) &&
  (s.hru.request.all fun r => r.route != .kept || !(r.wait == .through || s.mpe.handed.isSome) ||
    (s.ls.find r.block).isNone && (s.mpe.handed.isNone || (s.pq.held r.block).1 == 0))

/-- Every VALID line lies in a block whose governing region carries effective KEEP, and so does the FILLING line
while STALE is clear, which may become VALID (R14, R16, R69). -/
def State.linesKept (s : State) : Bool :=
  ((List.finRange 8).all fun i => (List.finRange 4).all fun w =>
    (s.ls.line i w).state != .valid || s.rmap.keepCheck (s.ls.line i w).block) &&
  s.ls.fill.all fun f => f.stale || s.rmap.keepCheck f.block

/-- What every reachable state keeps. -/
def State.inv (s : State) : Bool :=
  s.pq.wf && s.ls.wf && s.oar.wf && s.portWf && s.targetsPending && s.fillHeld && s.hru.wf && s.settled &&
  s.carried && s.fillAnswers && s.drainAgrees && s.waitsWf && s.lockWf && s.lockKeepsPort && s.coherent

/-! ## The vocabulary of statements -/

/-- The HRU takes what the host presents next: it holds no request, none stands at the H-port, and H_RST is
negated (R73, R89). -/
abbrev Hru.takes (h : Hru) : Prop := h.request = none ∧ h.presented = none ∧ h.hRst = false

/-- The transaction whose beat is in progress: CURRENT, its address phase standing on an M-port that the bridge
owns, and not abandoned by a host reset. -/
abbrev State.runs (s : State) (t : Txn) : Prop :=
  s.oar.owner = .bridge ∧ s.port.isSome ∧ s.mpe.txn = some t ∧ t.state = .current ∧ t.abandoned = false

/-- The status and answer data of a frame that completes now: those the link holds for it since its answer point,
or, where the link has yet to receive it or the rest of it, those its answer point settles in the same step. -/
def State.frameAnswer (s : State) (f : Frame) : Option (Status × List Byte) :=
  match s.link with
  | .idle => some (s.settleFrame f)
  | .receiving got => if got.isPrefixOf (bitsOf f.input) then some (s.settleFrame f) else none
  | .answering g st d _ | .done g st d => if g = f then some (st, d) else none
  | .blocked => none

/-- The part when a frame has completed with its status byte and answer data on MDO, before the frame's effect. -/
def State.framed (s : State) (st : Status) (d : List Byte) : State :=
  { s with link := .idle, out := ⟨[], false, st.byte :: d⟩ }

/-- A post as the rest of the queue's life leaves it: all but its mask and data, which a merge grows, and its
drain progress. -/
def Post.identity (p : Post) : Seq × Block × Snapshot := (p.seq, p.block, p.snap)

/-- The configuration items and the enables (Table 10-4), in the order of their numbers. -/
def State.items (s : State) : List Nat :=
  [s.tb.prescaler, s.mpe.beatLimit, s.hru.lockHold, s.oar.tenure, s.oar.yield, s.mpe.retryLimit, s.pq.highWater,
   s.oar.baseLevel, s.oar.peers.p0.level, s.oar.peers.p1.level, s.oar.peers.p2.level, s.pq.haltOnDeferred.toNat,
   s.flt.enables.byte.toNat]

end Sys2Proof.Machine

namespace Sys2Proof

open Machine

/-- The request that a host command presents (R70). -/
def Instr.request : Instr → Option HostRequest
  | .read addr be order => some ⟨.read, addr, be, 0, order, false⟩
  | .read16 addr be order lock => some ⟨.read16, addr, be, 0, order, lock⟩
  | .write addr be data order => some ⟨.write, addr, be, data, order, false⟩
  | .lockRead addr be order => some ⟨.read, addr, be, 0, order, true⟩
  | .lockWrite addr be data order => some ⟨.write, addr, be, data, order, true⟩
  | .powerOn .. | .hostReset | .mAck .. | .mRetry .. | .mFail .. | .beatTimeout | .tick | .lockHoldExpiry
  | .peerRequest _ | .peerRelease _ | .tenureExpiry | .yieldExpiry | .peerAddressPhase .. | .get _ | .set ..
  | .regionRewrite .. | .setPrescaler _ | .setHighWaterMark _ | .setPeerLevel .. | .setBaseLevel _
  | .setInterruptEnables _ | .popFault | .viewPost _ | .ackInt _ | .resume | .discard | .drainMark | .invalidate
  | .restorePeer _ | .clearLog | .badCommand _ | .frameCutShort | .hostResetNegation | .mcsNegatedInBlocked
  | .answerPoint _ | .hostClock => none

/-- The data of a FAULT answer to a request: FFh in every requested byte of a read, none for a write (R75). -/
def HostRequest.faultData (h : HostRequest) : List Byte :=
  match h.kind with
  | .write => []
  | .read16 => List.replicate 16 0xFF
  | .read => List.replicate (laneCount h.be) 0xFF

/-- A request of legal form without LOCK or ORDER: the routes posted, unposted, kept and unkept are open to it. -/
abbrev HostRequest.plain (h : HostRequest) : Prop := h.illegal = false ∧ h.lock = false ∧ h.order = false

/-- The record of a taken request that waits (Table 4-2). -/
def HostRequest.taken (h : HostRequest) (snap : Snapshot) (route : Route) (wait : Wait) : Request :=
  ⟨h.kind, h.address, h.byteCount, h.be, h.data, h.order, h.lock, snap, route, wait⟩

/-- The frame that a management command is (Table 10-2); none for the other commands and for a BAD_COMMAND or
REGION_REWRITE whose operand its row does not cover. -/
def Instr.frame : Instr → Option Frame
  | .get item => some (.get item)
  | .set item value => Frame.parse (setInput item value)
  | .regionRewrite item value => if isRegionItem item then some (.setRegion item value) else none
  | .setPrescaler value => some (.set Config.itemPrescaler value)
  | .setHighWaterMark value => some (.set Config.itemHighWater value)
  | .setPeerLevel p value => some (.set (levelItem p) value)
  | .setBaseLevel value => some (.set Config.itemBaseLevel value)
  | .setInterruptEnables value => some (.set Config.itemInterruptEnables value)
  | .popFault => some .popFault
  | .viewPost n => some (.viewPost n)
  | .ackInt mask => some (.ackInt mask)
  | .resume => some .resume
  | .discard => some .discard
  | .drainMark => some .drainMark
  | .invalidate => some .invalidate
  | .restorePeer n => some (.restorePeer n)
  | .clearLog => some .clearLog
  | .badCommand command => if namesCommand command then none else some (.badCommand command)
  | .powerOn .. | .hostReset | .read .. | .read16 .. | .write .. | .lockRead .. | .lockWrite .. | .mAck ..
  | .mRetry .. | .mFail .. | .beatTimeout | .tick | .lockHoldExpiry | .peerRequest _ | .peerRelease _
  | .tenureExpiry | .yieldExpiry | .peerAddressPhase .. | .frameCutShort | .hostResetNegation
  | .mcsNegatedInBlocked | .answerPoint _ | .hostClock => none

/-- How a command fails the beat in progress of a transaction: M_FAIL (R100), the timeout of a due beat timer
(R101), or a retry answer at the retry limit (R99). -/
def Instr.beatFailure (c : Instr) (s : State) (t : Txn) : Option Cause :=
  match c with
  | .mFail .. => some .fail
  | .beatTimeout => if s.mpe.beatTimer = .running 0 then some .timeout else none
  | .mRetry .. => if s.mpe.retryLimit ≤ t.retryCount + 1 then some .retryLimit else none
  | _ => none

end Sys2Proof
end

