-- ==== Sys2Proof/Certificates/Slice0/Obligations.lean ====
section
/-! DEFINITION. The statements about the UH-420. Where a statement's next state is written with
`State.finish`, that is the end of the step: the M-port finds its owner, the bridge its work, and a request
that stands at the H-port is taken; the statements of the section "The end of a step" say what it does. -/

section

open Sys2Proof Sys2Proof.Machine

/-! ## Steps -/

/-- A step runs the command at the front of the queue on the state with the queue's rest. With no command waiting
the part idles: the model's choice, log entry 7. -/
def Obligations.StepRunsFrontCommand : Prop :=
  (∀ (c : Instr) (rest : List Instr) (s : State), s.pending = c :: rest →
    step s = exec c { s with pending := rest }) ∧
  (∀ s : State, s.pending = [] → step s = .next s)

/-- Every command completes in every state, and leaves the queue of waiting commands alone. That a term which is no
command of the part completes too is the model's choice, log entry 20; so it is for an event in a state in which it
cannot occur, log entry 5, for a frame that the link does not hold or await, log entry 6, and in a state that no run
reaches, log entry 21. The queue is the model's own, log entry 7, and that POWER_ON leaves it is the model's choice,
log entry 17. -/
def Obligations.EveryCommandCompletes : Prop :=
  ∀ (c : Instr) (s : State), ∃ t, exec c s = .next t ∧ t.pending = s.pending

/-! ## Power-on and host reset -/

/-- POWER_ON with no request presented: every field of the part (R3, R20, R48, R74, R118, R119, R145, R161, R164,
R165, R173, R185). The P_REQ lines and H_RST are inputs and stand as they stand. That the P_REQ lines and the
waiting commands stay is the model's choice, log entry 17; the zeros in INVALID lines are too, log entry 2. -/
def Obligations.PowerOnState : Prop :=
  ∀ (w1 w0 mcs hRst : Bool) (s : State),
    exec (.powerOn w1 w0 mcs hRst none) s = .next
      { rmap :=
          { entries := Vector.replicate 16 ⟨false, 0, 0, .w8, ⟨false, false, false, false, false⟩⟩
            d := ⟨if w1 && !w0 then .w32 else if !w1 && w0 then .w16 else .w8,
              ⟨false, false, false, true, false⟩⟩ }
        pq := ⟨[], 0, .running, false, none, 6, true⟩
        ls := ⟨Vector.replicate 8 ⟨Vector.replicate 4 ⟨.invalid, 0, Vector.replicate 16 0⟩, [0, 1, 2, 3]⟩, none⟩
        hru := ⟨none, none, hRst, none, 16⟩
        mpe := ⟨none, none, none, none, none, .stopped, 32, 64⟩
        port := none
        oar :=
          { owner := .none
            peers := ⟨⟨s.oar.peers.p0.req, 0, false⟩, ⟨s.oar.peers.p1.req, 0, false⟩, ⟨s.oar.peers.p2.req, 0, false⟩⟩
            baseLevel := 4, yieldRound := false, pRel := false
            tenureTimer := .stopped, yieldTimer := .stopped, tenure := 32, yield := 8 }
        flt := ⟨[], false, ⟨false, false, false⟩, ⟨false, false, false⟩⟩
        link := if mcs then .blocked else .idle
        tb := ⟨0, 64⟩
        out := ⟨[], false, []⟩
        pending := s.pending }

/-- HOST_RESET: request, lock, handed work, locked work and demand go, merging closes, the Line Store empties, a
DRAIN goes on, a fractured host transaction is dropped and a running one marked as abandoned. The zeros in INVALID
lines are the model's choice, log entry 2; that the dropped request no longer stands at the H-port, and that an untaken
one goes on standing there, is too, log entry 26. -/
def Obligations.HostResetEffect : Prop :=
  ∀ s : State, exec .hostReset s = .next (State.finish
    { s with
      pq := { s.pq with mergeOpen := false }
      ls := ⟨Vector.replicate 8 ⟨Vector.replicate 4 ⟨.invalid, 0, Vector.replicate 16 0⟩, [0, 1, 2, 3]⟩, none⟩
      hru := { s.hru with request := none, lock := none, hRst := true }
      mpe :=
        { s.mpe with
          txn := s.mpe.txn.bind fun t =>
            if t.kind = .drain then some t
            else if t.state = .current ∧ s.port.isSome then some { t with abandoned := true }
            else none
          handed := none, locked := none, demand := none }
      out := ⟨[], false, []⟩ })

/-- What a host reset leaves as it stands through the whole of its step: the map, the posts' identities and bytes,
the queue's state and mark, the items, the log and the interrupt state, the link, the Timebase, the peers' lines and
bars, and the obligation; and it answers nothing, drops request and lock, and leaves the Line Store empty (R3, R20, R66,
R89, R102, R119, R129, R145, R151, R161, R173). That an untaken request goes on standing at the H-port, and that a
dropped one does not stand there, is the model's choice, log entry 26; the zeros in INVALID lines are too, log
entry 2. -/
def Obligations.HostResetKeeps : Prop :=
  ∀ s t : State, exec .hostReset s = .next t →
    t.rmap = s.rmap ∧ t.flt = s.flt ∧ t.tb = s.tb ∧ t.link = s.link ∧ t.items = s.items ∧
    t.pq.posts.map (fun p => (p.identity, p.mask, p.data, p.merged)) =
      s.pq.posts.map (fun p => (p.identity, p.mask, p.data, p.merged)) ∧
    t.pq.nextSeq = s.pq.nextSeq ∧ t.pq.state = s.pq.state ∧ t.pq.mark = s.pq.mark ∧
    t.oar.peers = s.oar.peers ∧ t.mpe.obligation = s.mpe.obligation ∧
    t.ls = LineStore.powerOn ∧ t.hru.request = none ∧ t.hru.lock = none ∧ t.hru.presented = s.hru.presented ∧
    t.out = ⟨[], false, []⟩

/-- A request presented while the HRU is WAITING or H_RST is asserted is not taken and stands at the H-port (R74,
R89). It is taken as its own command would be: by HOST_RESET_NEGATION (R89), and as power-on ends (R185, R187);
under H_RST a request presented at power-on stands at the H-port. (A request held in WAITING is taken at the end of
the step that answers: FinishTakesHeldRequest.) That a held request is taken at the end of the step that makes it
possible is the model's reading of R74, log entry 9. -/
def Obligations.HeldRequestStandsUntilTaken : Prop :=
  (∀ (c : Instr) (h : HostRequest) (s : State), c.request = some h → s.hru.presented = none →
    s.hru.request.isSome ∨ s.hru.hRst = true →
    exec c s = .next { s with hru := { s.hru with presented := some h }, out := ⟨[], false, []⟩ }) ∧
  (∀ s : State, s.hru.presented = none →
    exec .hostResetNegation s =
      .next { s with hru := { s.hru with hRst := false }, out := ⟨[], false, []⟩ }) ∧
  (∀ (c : Instr) (h : HostRequest) (s : State), c.request = some h → s.hru.presented = some h →
    s.hru.request = none →
    exec .hostResetNegation s =
      exec c { s with hru := { s.hru with hRst := false, presented := none } }) ∧
  (∀ (c : Instr) (h : HostRequest) (w1 w0 mcs : Bool) (s t : State), c.request = some h →
    (exec (.powerOn w1 w0 mcs false none) s = .next t →
      exec (.powerOn w1 w0 mcs false (some h)) s = exec c t) ∧
    (exec (.powerOn w1 w0 mcs true none) s = .next t →
      exec (.powerOn w1 w0 mcs true (some h)) s =
        .next { t with hru := { t.hru with presented := some h } }))

/-! ## The Region Map and beat lists -/

/-- An entry covers the range of its size from its base aligned down to that size (R1); a lookup gives the
lowest-numbered entry that covers the address, else D, with the width held and the effective attributes of Table 1-3
(R4, R5). -/
def Obligations.RegionLookup : Prop :=
  (∀ (e : RegionEntry) (a : Addr),
    e.covers a = true ↔ e.valid = true ∧
      e.base.toNat / 2 ^ e.size.toNat * 2 ^ e.size.toNat * 4096 ≤ a.toNat ∧
      a.toNat < (e.base.toNat / 2 ^ e.size.toNat + 1) * 2 ^ e.size.toNat * 4096) ∧
  (∀ (m : RegionMap) (a : Addr),
    let effective (x : Attrs) : Attrs :=
      if x.device then ⟨false, false, false, true, x.protect⟩
      else ⟨x.post, x.merge && x.post, x.keep, false, x.protect⟩
    (∀ i : Fin 16, m.entries[i].covers a = true → (∀ j : Fin 16, j < i → m.entries[j].covers a = false) →
      m.lookup a = ⟨.entry i, m.entries[i].width, effective m.entries[i].attrs⟩) ∧
    ((∀ j : Fin 16, m.entries[j].covers a = false) → m.lookup a = ⟨.d, m.d.width, effective m.d.attrs⟩))

/-- The beats of every kind but FILL are the slots that hold a byte carried, ascending, each enabling the lanes of
those bytes alone (R18, R95); a FILL's are all the slots with all their lanes, in wrap order from the slot of the
first requested byte (R57). A beat's address phase gives the address of the lowest byte of its slot, its lanes, and MORE
while beats follow; a write's M_DATA is the byte at its offset in the block on every enabled lane, and FFh on the others
(R92, R96, Table 5-1). Byte b of a block travels on lane b modulo 4 (R93). The bytes of a request are those from its
address on (R70), and an answer reads them in ascending order, the model's reading, log entry 15. How many bytes and
lanes are enabled, which records give (R36, R153). What a new transaction of handed work and of a post holds (R94,
R113). -/
def Obligations.BeatLists : Prop :=
  (∀ (w : Width) (m : Mask),
    ((beatsFor w m).map Beat.slot).Pairwise (· < ·) ∧
    (∀ b ∈ beatsFor w m, b.bytes w ≠ 0) ∧
    (∀ b ∈ beatsFor w m, ∀ i : Fin 16,
      (b.bytes w).getLsbD i.val = true ↔ m.getLsbD i.val = true ∧ i.val / w.bytes = b.slot) ∧
    (∀ b ∈ beatsFor w m, ∀ n : Fin 4,
      b.lanes.getLsbD n.val = (b.bytes w).getLsbD (b.slot * w.bytes / 4 * 4 + n.val)) ∧
    (∀ i : Fin 16, m.getLsbD i.val = true → ∃ b ∈ beatsFor w m, b.slot = i.val / w.bytes)) ∧
  (∀ (w : Width) (first : Fin 16),
    (fillBeats w first.val).length = 16 / w.bytes ∧
    ∀ (k : Nat) (b : Beat), (fillBeats w first.val)[k]? = some b →
      b.slot = (first.val / w.bytes + k) % (16 / w.bytes) ∧
      (∀ i : Fin 16, (b.bytes w).getLsbD i.val = true ↔ i.val / w.bytes = b.slot) ∧
      ∀ n : Fin 4, b.lanes.getLsbD n.val = (b.bytes w).getLsbD (b.slot * w.bytes / 4 * 4 + n.val)) ∧
  (Width.bytes .w8 = 1 ∧ Width.bytes .w16 = 2 ∧ Width.bytes .w32 = 4) ∧
  (∀ (w : Width) (b : Block) (slot : Nat), slot < 16 / w.bytes →
    (beatAddr w b slot).toNat = 16 * b.toNat + slot * w.bytes) ∧
  (∀ (w : Width) (d : BlockData) (b : Beat) (n : Fin 4),
    (b.lanes.getLsbD n.val = false → (beatData w d b).extractLsb' (8 * n.val) 8 = 0xFF) ∧
    ∀ i : Fin 16, i.val = b.slot * w.bytes / 4 * 4 + n.val → b.lanes.getLsbD n.val = true →
      (beatData w d b).extractLsb' (8 * n.val) 8 = d[i]) ∧
  (∀ (x : Word) (i : Fin 16),
    laneByte x i.val = x.extractLsb' (8 * (i.val % 4)) 8 ∧ (spreadWord x)[i] = laneByte x i.val) ∧
  (∀ (m : Mask) (new old : BlockData) (i : Fin 16),
    (overlay m new old)[i] = if m.getLsbD i.val then new[i] else old[i]) ∧
  (∀ (first count : Nat) (i : Fin 16),
    (byteMask first count).getLsbD i.val = true ↔ first ≤ i.val ∧ i.val < first + count) ∧
  (∀ (d : BlockData) (first count : Nat), first + count ≤ 16 →
    (readBytes d first count).length = count ∧
    ∀ (k : Nat) (i : Fin 16), k < count → i.val = first + k → (readBytes d first count)[k]? = some d[i]) ∧
  (∀ a : Addr, (blockOf a).toNat = a.toNat / 16 ∧ offsetOf a = a.toNat % 16 ∧ (wordOf a).toNat = a.toNat / 4) ∧
  ((∀ b : Block, (blockAddr b).toNat = 16 * b.toNat) ∧ ∀ x : BitVec 30, (wordAddr x).toNat = 4 * x.toNat) ∧
  ((∀ m : Mask, maskCount m = (Finset.univ.filter fun i : Fin 16 => m.getLsbD i.val = true).card) ∧
    ∀ be : Lanes, laneCount be = (Finset.univ.filter fun n : Fin 4 => be.getLsbD n.val = true).card ∧
      ∀ n : Fin 4, be.getLsbD n.val = true → (∀ k : Fin 4, k < n → be.getLsbD k.val = false) → lowLane be = n.val) ∧
  (∀ k : TxnKind, k.writes = true ↔ k = .drain ∨ k = .write ∨ k = .lockedWrite) ∧
  (∀ (t : Txn) (b : Beat), t.beats[t.beatsDone]? = some b →
    t.phase = some
      { addr := beatAddr t.snap.width t.block b.slot, wr := t.kind.writes, be := b.lanes
        more := decide (t.beatsDone + 1 < t.beats.length)
        data := if t.kind.writes then some (beatData t.snap.width t.data b) else none }) ∧
  (∀ p : Post, p.txn =
    { kind := .drain, post := some p.seq, snap := p.snap, block := p.block, mask := p.mask, data := p.data
      beats := beatsFor p.snap.width p.mask, beatsDone := 0, retryCount := 0, state := .current, abandoned := false }) ∧
  (∀ (w : Work) (k : TxnKind),
    let bytes := byteMask (offsetOf w.addr) w.count
    w.txn k =
      { kind := k, post := none, snap := w.snap, block := blockOf w.addr, mask := bytes, data := spreadWord w.data
        beats := if k = .fill then fillBeats w.snap.width (offsetOf w.addr) else beatsFor w.snap.width bytes
        beatsDone := 0, retryCount := 0, state := .current, abandoned := false })

/-! ## Host requests -/

/-- The illegal forms are those that R72 lists, with the address and byte count that it gives their records; an
illegal request without an open lock is answered FAULT with ILLEGAL_REQUEST at its take, with its record, merging
closes, and nothing else changes. The FFh bytes of an illegal READ stand on its enabled lanes: the model's reading,
log entry 15. -/
def Obligations.IllegalRequestRefused : Prop :=
  (∀ h : HostRequest,
    (h.kind = .read16 →
      (h.illegal = true ↔ h.addr.toNat % 16 ≠ 0 ∨ h.be ≠ 0xF ∨ h.lock = true) ∧
      h.address = h.addr ∧ h.byteCount = 16) ∧
    (h.kind ≠ .read16 →
      (h.illegal = true ↔ h.be = 0 ∨ ∃ i j k : Fin 4, i < j ∧ j < k ∧
        h.be.getLsbD i.val = true ∧ h.be.getLsbD j.val = false ∧ h.be.getLsbD k.val = true) ∧
      (h.be = 0 → h.address.toNat = h.addr.toNat / 4 * 4 ∧ h.byteCount = 4) ∧
      (∀ i j : Fin 4, h.be.getLsbD i.val = true → h.be.getLsbD j.val = true →
        (∀ k : Fin 4, h.be.getLsbD k.val = true → i ≤ k ∧ k ≤ j) →
        h.address.toNat = h.addr.toNat / 4 * 4 + i.val ∧ h.byteCount = j.val - i.val + 1))) ∧
  (∀ (c : Instr) (h : HostRequest) (s : State), c.request = some h → h.illegal = true →
    s.hru.takes → s.hru.lock = none →
    exec c s = .next (State.finish
      { s with
        pq := { s.pq with mergeOpen := false }
        flt := s.flt.take
          { kind := .illegalRequest, origin := .host, bytes := some ⟨h.address, h.byteCount⟩
            region := some (s.rmap.lookup h.address).index }
        out := ⟨[⟨.fault, h.faultData⟩], false, []⟩ }))

/-- A legal WRITE without LOCK in a PROTECT region, with or without ORDER, is answered FAULT with WRITE_PROTECT at
its take; the merge flag and the record apart, nothing changes (R78). A legal LOCK WRITE with no open lock is
answered FAULT with LOCK_LOST at its take, PROTECT or not (R128). -/
def Obligations.WriteRefusedAtTake : Prop :=
  (∀ (c : Instr) (h : HostRequest) (s : State), c.request = some h → h.kind = .write → h.illegal = false →
    h.lock = false → (s.rmap.lookup h.address).attrs.protect = true → s.hru.takes → s.hru.lock = none →
    exec c s = .next (State.finish
      { s with
        pq := { s.pq with mergeOpen := false }
        flt := s.flt.take
          { kind := .writeProtect, origin := .host, bytes := some ⟨h.address, h.byteCount⟩
            region := some (s.rmap.lookup h.address).index }
        out := ⟨[⟨.fault, []⟩], false, []⟩ })) ∧
  (∀ (c : Instr) (h : HostRequest) (s : State), c.request = some h → h.kind = .write → h.lock = true →
    h.illegal = false → s.hru.takes → s.hru.lock = none →
    exec c s = .next (State.finish
      { s with
        pq := { s.pq with mergeOpen := false }
        flt := s.flt.take
          { kind := .lockLost, origin := .host, bytes := some ⟨h.address, h.byteCount⟩
            region := some (s.rmap.lookup h.address).index }
        out := ⟨[⟨.fault, []⟩], false, []⟩ }))

/-- A postable write that meets the tail post's merge conditions merges into it, updates the line of its block and
is answered OK; the tail keeps its seq, block, snapshot and state, and its count of writes merged stops at 16. The
queue's merge test is true exactly under those conditions (R22, R63, R79). -/
def Obligations.PostedWriteMerges : Prop :=
  (∀ (q : PostQueue) (b : Block) (snap : Snapshot),
    q.canMerge b snap = true ↔
      ∃ (older : List Post) (tail : Post), q.posts = older ++ [tail] ∧ tail.state = .waiting ∧
        q.mergeOpen = true ∧ tail.block = b ∧ tail.snap.index = snap.index ∧ snap.attrs.merge = true) ∧
  ∀ (c : Instr) (h : HostRequest) (s : State) (older : List Post) (tail : Post), c.request = some h →
    h.kind = .write → h.plain →
    (s.rmap.lookup h.address).attrs.post = true → (s.rmap.lookup h.address).attrs.protect = false →
    s.hru.takes → s.hru.lock = none →
    s.pq.posts = older ++ [tail] → tail.state = .waiting → s.pq.mergeOpen = true →
    tail.block = blockOf h.address → tail.snap.index = (s.rmap.lookup h.address).index →
    (s.rmap.lookup h.address).attrs.merge = true →
    exec c s = .next (State.finish
      { s with
        pq := { s.pq with
          posts := older ++ [{ tail with
            mask := tail.mask ||| byteMask (offsetOf h.address) h.byteCount
            data := overlay (byteMask (offsetOf h.address) h.byteCount) (spreadWord h.data) tail.data
            merged := min (tail.merged + 1) 16 }] }
        ls := s.ls.writeUpdate (blockOf h.address) (byteMask (offsetOf h.address) h.byteCount) (spreadWord h.data)
        out := ⟨[⟨.ok, []⟩], false, []⟩ })

/-- A postable write that cannot merge and finds fewer than eight posts becomes the new tail post with the counter's
seq, which advances by one; merging opens or closes by the snapshot's MERGE; the line of its block is updated and
the write answered OK (R21, R23, R63, R79). The zeros in the bytes that the post does not have are the model's
choice, log entry 2. -/
def Obligations.PostedWriteMakesPost : Prop :=
  ∀ (c : Instr) (h : HostRequest) (s : State), c.request = some h → h.kind = .write → h.plain →
    (s.rmap.lookup h.address).attrs.post = true → (s.rmap.lookup h.address).attrs.protect = false →
    s.hru.takes → s.hru.lock = none →
    s.pq.canMerge (blockOf h.address) (s.rmap.lookup h.address) = false → s.pq.posts.length < 8 →
    exec c s = .next (State.finish
      { s with
        pq := { s.pq with
          posts := s.pq.posts ++
            [{ seq := s.pq.nextSeq, block := blockOf h.address
               mask := byteMask (offsetOf h.address) h.byteCount
               data := overlay (byteMask (offsetOf h.address) h.byteCount) (spreadWord h.data) (Vector.replicate 16 0)
               snap := s.rmap.lookup h.address, state := .waiting, beatsDone := 0, retryCount := 0, merged := 1 }]
          nextSeq := s.pq.nextSeq + 1
          mergeOpen := (s.rmap.lookup h.address).attrs.merge }
        ls := s.ls.writeUpdate (blockOf h.address) (byteMask (offsetOf h.address) h.byteCount) (spreadWord h.data)
        out := ⟨[⟨.ok, []⟩], false, []⟩ })

/-- A postable write that cannot merge and finds eight posts waits with ROOM while the queue is RUNNING, and is
answered FAULT DRAIN_HALTED while it is HALTED, without a post, an update or a change of the merge flag; no DRAIN
starts in a HALTED queue (R25, R26). -/
def Obligations.PostedWriteMeetsFullQueue : Prop :=
  ∀ (c : Instr) (h : HostRequest) (s : State), c.request = some h → h.kind = .write → h.plain →
    (s.rmap.lookup h.address).attrs.post = true → (s.rmap.lookup h.address).attrs.protect = false →
    s.hru.takes → s.hru.lock = none →
    s.pq.canMerge (blockOf h.address) (s.rmap.lookup h.address) = false → s.pq.posts.length = 8 →
    (s.pq.state = .running → exec c s = .next (State.finish
      { s with
        hru := { s.hru with request := some (h.taken (s.rmap.lookup h.address) .posted .room) }
        out := ⟨[], false, []⟩ })) ∧
    (s.pq.state = .halted → s.pq.drainable = false ∧ exec c s = .next (State.finish
      { s with
        flt := s.flt.take
          { kind := .drainHalted, origin := .host, bytes := some ⟨h.address, h.byteCount⟩
            region := some (s.rmap.lookup h.address).index }
        out := ⟨[⟨.fault, []⟩], false, []⟩ }))

/-- An ordered request, or a write without POST, hands its FETCH or WRITE over at once while the queue is empty,
waits for the queue to drain through its tail while it is RUNNING, and is answered FAULT DRAIN_HALTED while it is
HALTED (R31, R32, R80, R81, R85, R87). -/
def Obligations.EmptyQueueDemand : Prop :=
  ∀ (c : Instr) (h : HostRequest) (s : State) (route : Route), c.request = some h →
    h.illegal = false → h.lock = false → (s.rmap.lookup h.address).attrs.protect = false ∨ h.kind ≠ .write →
    (route = .ordered ∧ ((s.rmap.lookup h.address).attrs.device = true ∨ h.order = true) ∨
      route = .unposted ∧ h.kind = .write ∧ (s.rmap.lookup h.address).attrs.device = false ∧ h.order = false ∧
        (s.rmap.lookup h.address).attrs.post = false) →
    s.hru.takes → s.hru.lock = none →
    (s.pq.posts = [] → exec c s = .next (State.finish
      { s with
        pq := { s.pq with mergeOpen := false }
        hru := { s.hru with request := some (h.taken (s.rmap.lookup h.address) route .port) }
        mpe := { s.mpe with
          handed := some ⟨if h.kind = .write then .write else .fetch, h.address, h.byteCount, h.data,
            s.rmap.lookup h.address⟩
          demand := none }
        out := ⟨[], false, []⟩ })) ∧
    (∀ (older : List Post) (tail : Post), s.pq.posts = older ++ [tail] → s.pq.state = .running →
      exec c s = .next (State.finish
        { s with
          pq := { s.pq with mergeOpen := false }
          hru := { s.hru with request := some (h.taken (s.rmap.lookup h.address) route .queue) }
          mpe := { s.mpe with demand := some tail.seq }
          out := ⟨[], false, []⟩ })) ∧
    (s.pq.posts ≠ [] → s.pq.state = .halted → exec c s = .next (State.finish
      { s with
        pq := { s.pq with mergeOpen := false }
        mpe := { s.mpe with demand := none }
        flt := s.flt.take
          { kind := .drainHalted, origin := .host, bytes := some ⟨h.address, h.byteCount⟩
            region := some (s.rmap.lookup h.address).index }
        out := ⟨[⟨.fault, h.faultData⟩], false, []⟩ }))

/-- A kept read that finds a VALID line of its block is answered OK from it at once, and the line's way moves to the
front of its set's recency order (R51). A kept read that finds the FILLING line of its block is answered from it if
STALE is clear and its bytes are available, and waits with LINE otherwise (R52). -/
def Obligations.KeptReadFindsLine : Prop :=
  (∀ (c : Instr) (h : HostRequest) (s : State) (w : Fin 4), c.request = some h → h.kind ≠ .write → h.plain →
    (s.rmap.lookup h.address).attrs.keep = true → s.hru.takes → s.hru.lock = none →
    s.ls.distinct = true → (s.ls.line (setOf (blockOf h.address)) w).state = .valid →
    (s.ls.line (setOf (blockOf h.address)) w).block = blockOf h.address →
    exec c s = .next (State.finish
      { s with
        pq := { s.pq with mergeOpen := false }
        ls := s.ls.touch (setOf (blockOf h.address)) w
        out := ⟨[⟨.ok, readBytes (s.ls.line (setOf (blockOf h.address)) w).data (offsetOf h.address) h.byteCount⟩],
          false, []⟩ })) ∧
  (∀ (c : Instr) (h : HostRequest) (s : State) (f : FillContext), c.request = some h → h.kind ≠ .write → h.plain →
    (s.rmap.lookup h.address).attrs.keep = true → s.hru.takes → s.hru.lock = none →
    s.ls.distinct = true → s.ls.wf = true → s.ls.fill = some f → f.block = blockOf h.address →
    exec c s = .next (State.finish
      (if f.stale = false ∧
          maskWithin (byteMask (offsetOf h.address) h.byteCount) (f.arrived ||| f.written) = true then
        { s with
          pq := { s.pq with mergeOpen := false }
          ls := s.ls.touch f.set f.way
          out := ⟨[⟨.ok, readBytes (s.ls.line f.set f.way).data (offsetOf h.address) h.byteCount⟩], false, []⟩ }
      else
        { s with
          pq := { s.pq with mergeOpen := false }
          hru := { s.hru with request := some (h.taken (s.rmap.lookup h.address) .kept .line) }
          out := ⟨[], false, []⟩ })))

/-- A read that goes to the Post Queue (a kept read that misses, or an unkept read): forwarded where every requested
byte is in a pending post; else handed over as a FILL or FETCH where no post overlaps its test range; else drained
through the youngest overlapping post, or refused while the queue is HALTED (R29, R30, R32, R54, R82, R83). -/
def Obligations.ReadGoesToPostQueue : Prop :=
  ∀ (c : Instr) (h : HostRequest) (s : State) (kept : Bool), c.request = some h → h.kind ≠ .write → h.plain →
    (s.rmap.lookup h.address).attrs.device = false → (s.rmap.lookup h.address).attrs.keep = kept →
    (kept = true → s.ls.find (blockOf h.address) = none) → s.hru.takes → s.hru.lock = none →
    let b := blockOf h.address
    let m := byteMask (offsetOf h.address) h.byteCount
    let route : Route := if kept then .kept else .unkept
    (maskWithin m (s.pq.held b).1 = true → exec c s = .next (State.finish
      { s with
        pq := { s.pq with mergeOpen := false }
        out := ⟨[⟨.ok, readBytes (s.pq.held b).2 (offsetOf h.address) h.byteCount⟩], false, []⟩ })) ∧
    (maskWithin m (s.pq.held b).1 = false →
      (s.pq.youngestOverlap b (if kept then allBytes else m) = none → exec c s = .next (State.finish
        { s with
          pq := { s.pq with mergeOpen := false }
          hru := { s.hru with request := some (h.taken (s.rmap.lookup h.address) route .port) }
          mpe := { s.mpe with
            handed := some ⟨if kept then .fill else .fetch, h.address, h.byteCount, h.data, s.rmap.lookup h.address⟩
            demand := none }
          out := ⟨[], false, []⟩ })) ∧
      (∀ p : Post, s.pq.youngestOverlap b (if kept then allBytes else m) = some p →
        (s.pq.state = .running → exec c s = .next (State.finish
          { s with
            pq := { s.pq with mergeOpen := false }
            hru := { s.hru with request := some (h.taken (s.rmap.lookup h.address) route .through) }
            mpe := { s.mpe with demand := some p.seq }
            out := ⟨[], false, []⟩ })) ∧
        (s.pq.state = .halted → exec c s = .next (State.finish
          { s with
            pq := { s.pq with mergeOpen := false }
            mpe := { s.mpe with demand := none }
            flt := s.flt.take
              { kind := .drainHalted, origin := .host, bytes := some ⟨h.address, h.byteCount⟩
                region := some (s.rmap.lookup h.address).index }
            out := ⟨[⟨.fault, h.faultData⟩], false, []⟩ }))))

/-- The overlap test reports the youngest pending post, WAITING or DRAINING, that has a byte of the range present in
its mask and the range's block, or that there is none. -/
def Obligations.OverlapTestReportsYoungest : Prop :=
  ∀ (q : PostQueue) (b : Block) (m : Mask),
    (∀ p : Post, q.youngestOverlap b m = some p ↔
      ∃ older younger : List Post, q.posts = older ++ p :: younger ∧ p.block = b ∧
        (∃ i : Fin 16, p.mask.getLsbD i.val = true ∧ m.getLsbD i.val = true) ∧
        ∀ x ∈ younger, ¬(x.block = b ∧ ∃ i : Fin 16, x.mask.getLsbD i.val = true ∧ m.getLsbD i.val = true)) ∧
    (q.youngestOverlap b m = none ↔
      ∀ x ∈ q.posts, ¬(x.block = b ∧ ∃ i : Fin 16, x.mask.getLsbD i.val = true ∧ m.getLsbD i.val = true))

/-- What forwarding gives: a byte is held where some pending post of the block has it, and its value is that of the
youngest such post (R29). -/
def Obligations.ForwardedBytesAreYoungest : Prop :=
  ∀ (q : PostQueue) (b : Block) (i : Fin 16),
    ((q.held b).1.getLsbD i.val = true ↔ ∃ p ∈ q.posts, p.block = b ∧ p.mask.getLsbD i.val = true) ∧
    (∀ (older younger : List Post) (p : Post), q.posts = older ++ p :: younger → p.block = b →
      p.mask.getLsbD i.val = true →
      (∀ x ∈ younger, ¬(x.block = b ∧ x.mask.getLsbD i.val = true)) → (q.held b).2[i] = p.data[i])

/-! ## Locked sequences -/

/-- A legal LOCK READ taken without an open lock: refused in a PROTECT region; else its lock record is made OPENING
and it hands its LOCKED READ over, waits for the queue, or is refused with its lock record removed (R120). -/
def Obligations.LockReadOpens : Prop :=
  ∀ (c : Instr) (h : HostRequest) (s : State), c.request = some h → h.kind = .read → h.lock = true →
    h.illegal = false → s.hru.takes → s.hru.lock = none →
    let snap := s.rmap.lookup h.address
    let lock : LockRecord := ⟨.opening, wordOf h.address, h.address, h.byteCount, snap.index, .stopped⟩
    let refused (kind : FaultKind) : State :=
      { s with
        pq := { s.pq with mergeOpen := false }
        flt := s.flt.take
          { kind, origin := .host, bytes := some ⟨h.address, h.byteCount⟩, region := some snap.index }
        out := ⟨[⟨.fault, h.faultData⟩], false, []⟩ }
    (snap.attrs.protect = true → exec c s = .next (refused .writeProtect).finish) ∧
    (snap.attrs.protect = false →
      (s.pq.posts = [] → exec c s = .next (State.finish
        { s with
          pq := { s.pq with mergeOpen := false }
          hru := { s.hru with request := some (h.taken snap .lock .lock), lock := some lock }
          mpe := { s.mpe with
            locked := some ⟨.lockedRead, h.address, h.byteCount, h.data, snap⟩, demand := none }
          out := ⟨[], false, []⟩ })) ∧
      (∀ (older : List Post) (tail : Post), s.pq.posts = older ++ [tail] → s.pq.state = .running →
        exec c s = .next (State.finish
          { s with
            pq := { s.pq with mergeOpen := false }
            hru := { s.hru with request := some (h.taken snap .lock .queue), lock := some lock }
            mpe := { s.mpe with demand := some tail.seq }
            out := ⟨[], false, []⟩ })) ∧
      (s.pq.posts ≠ [] → s.pq.state = .halted →
        exec c s = .next (State.finish
          { refused .drainHalted with mpe := { s.mpe with demand := none } })))

/-- A request taken in LOCK OPEN that is not the matching LOCK WRITE abandons the lock: a legal one is handled as if
taken with the lock gone and its LOCK_ABANDONED record made; an illegal one is refused first, and its
ILLEGAL_REQUEST record comes before (R124). -/
def Obligations.RequestAbandonsOpenLock : Prop :=
  ∀ (c : Instr) (h : HostRequest) (s : State) (l : LockRecord), c.request = some h → s.hru.takes →
    s.hru.lock = some l → l.phase = .opened →
    let abandoned : FaultRecord :=
      { kind := .lockAbandoned, origin := .host, bytes := some ⟨l.addr, l.count⟩, region := some l.region }
    (h.illegal = false → ¬(h.kind = .write ∧ h.lock = true ∧ wordOf h.addr = l.word) →
      exec c s = exec c { s with hru := { s.hru with lock := none }, flt := s.flt.take abandoned }) ∧
    (h.illegal = true → exec c s = .next (State.finish
      { s with
        pq := { s.pq with mergeOpen := false }
        hru := { s.hru with lock := none }
        flt := (s.flt.take
          { kind := .illegalRequest, origin := .host, bytes := some ⟨h.address, h.byteCount⟩
            region := some (s.rmap.lookup h.address).index }).take abandoned
        out := ⟨[⟨.fault, h.faultData⟩], false, []⟩ }))

/-- A legal LOCK WRITE to the word of an open lock: in a PROTECT region it is answered FAULT WRITE_PROTECT and the
lock ends; otherwise the lock is CLOSING, its timer stops, and the LOCKED WRITE is handed over (R126). -/
def Obligations.MatchingLockWriteCloses : Prop :=
  ∀ (c : Instr) (h : HostRequest) (s : State) (l : LockRecord), c.request = some h → h.illegal = false →
    h.kind = .write → h.lock = true → s.hru.takes → s.hru.lock = some l → l.phase = .opened →
    wordOf h.addr = l.word →
    let snap := s.rmap.lookup h.address
    (snap.attrs.protect = true → exec c s = .next (State.finish
      { s with
        pq := { s.pq with mergeOpen := false }
        hru := { s.hru with lock := none }
        flt := s.flt.take
          { kind := .writeProtect, origin := .host, bytes := some ⟨h.address, h.byteCount⟩, region := some snap.index }
        out := ⟨[⟨.fault, []⟩], false, []⟩ })) ∧
    (snap.attrs.protect = false → exec c s = .next (State.finish
      { s with
        pq := { s.pq with mergeOpen := false }
        hru := { s.hru with
          request := some (h.taken snap .lock .lock)
          lock := some { l with phase := .closing, timer := .stopped } }
        mpe := { s.mpe with
          locked := some ⟨.lockedWrite, h.address, h.byteCount, h.data, snap⟩, demand := none }
        out := ⟨[], false, []⟩ }))

/-! ## Beats -/

/-- An acknowledged beat that is not its transaction's last, of any kind but FILL: beats done rises, the retry count
is 0, the data of a FETCH or LOCKED READ is kept, a DRAIN's post shows the progress, and the next address phase
stands with a fresh beat timer (R34, R96, R98, R101). -/
def Obligations.AckMakesNextAddressPhase : Prop :=
  ∀ (data : Word) (v : Bool) (s : State) (t : Txn) (b next : Beat), s.runs t → t.kind ≠ .fill →
    t.beats[t.beatsDone]? = some b → t.beats[t.beatsDone + 1]? = some next →
    exec (.mAck data v) s = .next (State.finish
      { s with
        mpe := { s.mpe with
          txn := some { t with
            beatsDone := t.beatsDone + 1, retryCount := 0
            data := if t.kind = .fetch ∨ t.kind = .lockedRead then
              overlay (b.bytes t.snap.width) (spreadWord data) t.data else t.data }
          beatTimer := .running s.mpe.beatLimit }
        port := some
          { addr := beatAddr t.snap.width t.block next.slot, wr := t.kind.writes, be := next.lanes
            more := decide (t.beatsDone + 2 < t.beats.length)
            data := if t.kind.writes then some (beatData t.snap.width t.data next) else none }
        pq := if t.kind = .drain then { s.pq with posts := match s.pq.posts with
            | [] => []
            | p :: rest => { p with beatsDone := t.beatsDone + 1, retryCount := 0 } :: rest }
          else s.pq
        out := ⟨[], false, []⟩ })

/-- The last beat of a DRAIN is acknowledged: the head post leaves, a mark on it sets DRAIN_DONE pending and clears,
an obligation on it ends and sets the yield-round flag, and the requests that wait on the queue are examined (R35,
R42, R116, R133). -/
def Obligations.DrainCompletes : Prop :=
  ∀ (data : Word) (v : Bool) (s : State) (t : Txn) (b : Beat) (p : Post) (rest : List Post), s.runs t →
    t.kind = .drain → t.beats[t.beatsDone]? = some b → t.beats.length = t.beatsDone + 1 →
    s.pq.posts = p :: rest →
    exec (.mAck data v) s = .next (State.finish (State.settleDemand (State.admitWrite
      { s with
        pq := { s.pq with posts := rest, mark := if s.pq.mark = some p.seq then none else s.pq.mark }
        mpe := { s.mpe with
          txn := none, beatTimer := .stopped
          obligation := if s.mpe.obligation = some p.seq then none else s.mpe.obligation }
        port := none
        oar := { s.oar with yieldRound := s.oar.yieldRound || decide (s.mpe.obligation = some p.seq) }
        flt := if s.pq.mark = some p.seq then { s.flt with pend := { s.flt.pend with drainDone := true } } else s.flt
        out := ⟨[], false, []⟩ })))

/-- A beat of a DRAIN fails, by M_FAIL, timeout or the retry limit: the post leaves with a DEFERRED record, the line
of its block is invalidated, the queue halts with HALTED pending if HALT_ON_DEFERRED is on, and the leaving actions
follow (R36, R100, R101, R106). -/
def Obligations.DrainFails : Prop :=
  ∀ (c : Instr) (cause : Cause) (s : State) (t : Txn) (p : Post) (rest : List Post), s.runs t →
    t.kind = .drain → c.beatFailure s t = some cause → s.pq.posts = p :: rest →
    exec c s = .next (State.finish (State.settleDemand (State.admitWrite
      (let flt := s.flt.take
        { kind := .deferred, origin := .queue, cause := some cause
          bytes := some ⟨blockAddr p.block, maskCount p.mask⟩, seq := some p.seq, merged := some p.merged }
      { s with
        pq := { s.pq with
          posts := rest, mark := if s.pq.mark = some p.seq then none else s.pq.mark
          state := if s.pq.haltOnDeferred then .halted else s.pq.state }
        ls := s.ls.invalidate p.block
        mpe := { s.mpe with
          txn := none, beatTimer := .stopped
          obligation := if s.mpe.obligation = some p.seq then none else s.mpe.obligation }
        port := none
        oar := { s.oar with yieldRound := s.oar.yieldRound || decide (s.mpe.obligation = some p.seq) }
        flt := { flt with pend :=
          { record := true
            halted := s.flt.pend.halted || s.pq.haltOnDeferred
            drainDone := s.flt.pend.drainDone || decide (s.pq.mark = some p.seq) } }
        out := ⟨[], false, []⟩ }))))

/-- A write that waits for room is posted and answered OK once the queue has room, in a HALTED queue too, and waits on
while eight posts remain; a demand that is met is handed over, one that is not waits on in a RUNNING queue and is
refused in a HALTED one; a request that waits for something else, and a part without a request, are left as they are
(R25, R30, R31, R32, R87). The order of these actions within a step is the model's, log entry 10; that a distance of
seqs below 8 tells a post at or before the target is its reading, log entry 13; the zeros in the bytes that the new
post does not have are its choice, log entry 2. -/
def Obligations.LeavingSettlesWaitingRequest : Prop :=
  (∀ s : State, s.hru.request = none → s.admitWrite = s ∧ s.settleDemand = s) ∧
  ∀ (s : State) (r : Request), s.hru.request = some r →
    (r.wait = .room → s.pq.posts.length < 8 → s.admitWrite =
      { s with
        pq := { s.pq with
          posts := s.pq.posts ++
            [⟨s.pq.nextSeq, r.block, r.mask, overlay r.mask (spreadWord r.data) (Vector.replicate 16 0), r.snap,
              .waiting, 0, 0, 1⟩]
          nextSeq := s.pq.nextSeq + 1
          mergeOpen := r.snap.attrs.merge }
        ls := s.ls.writeUpdate r.block r.mask (spreadWord r.data)
        hru := { s.hru with request := none }
        out := { s.out with answers := s.out.answers ++
          [⟨.ok, if r.kind = .write then [] else readBytes (spreadWord r.data) (offsetOf r.addr) r.count⟩] } }) ∧
    (r.wait ≠ .room ∨ 8 ≤ s.pq.posts.length → s.admitWrite = s) ∧
    (r.route ≠ .lock →
      (r.wait = .queue ∧ s.pq.posts = [] ∨
        r.wait = .through ∧ ∃ d, s.mpe.demand = some d ∧ ∀ p ∈ s.pq.posts, 8 ≤ (d - p.seq).toNat) →
      s.settleDemand =
        { s with
          hru := { s.hru with request := some { r with wait := .port } }
          mpe := { s.mpe with handed := some r.work, demand := none } }) ∧
    (r.route = .lock → r.wait = .queue → s.pq.posts = [] →
      s.settleDemand =
        { s with
          hru := { s.hru with request := some { r with wait := .lock } }
          mpe := { s.mpe with locked := some r.work, demand := none } }) ∧
    ((r.wait = .queue ∧ s.pq.posts ≠ [] ∨
        r.wait = .through ∧ ∃ d, s.mpe.demand = some d ∧ ∃ p ∈ s.pq.posts, (d - p.seq).toNat < 8) →
      (s.pq.state = .running → s.settleDemand = s) ∧
      (s.pq.state = .halted → s.settleDemand =
        { s with
          hru := { s.hru with request := none, lock := if r.route = .lock then none else s.hru.lock }
          mpe := { s.mpe with demand := none }
          flt := s.flt.take
            { kind := .drainHalted, origin := .host, bytes := some ⟨r.addr, r.count⟩, region := some r.snap.index }
          out := { s.out with answers := s.out.answers ++ [⟨.fault, r.faultData⟩] } })) ∧
    (r.wait ≠ .queue → r.wait ≠ .through → s.settleDemand = s)

/-- The last beat of the transaction that the taken request waits on is acknowledged: a FETCH answers OK with its
bytes, a WRITE updates the line and answers OK, a LOCKED READ answers OK and opens the lock with its timer running,
a LOCKED WRITE updates the line, answers OK and ends the lock (R98, R108, R109, R122, R127). -/
def Obligations.HostTransactionCompletes : Prop :=
  ∀ (data : Word) (v : Bool) (s : State) (t : Txn) (b : Beat) (r : Request), s.runs t →
    t.beats[t.beatsDone]? = some b → t.beats.length = t.beatsDone + 1 → s.hru.request = some r → r.wait ≠ .line →
    let ended : State :=
      { s with
        mpe := { s.mpe with txn := none, beatTimer := .stopped }
        port := none
        hru := { s.hru with request := none } }
    let bytes : List Byte :=
      if r.kind = .write then []
      else readBytes (overlay (b.bytes t.snap.width) (spreadWord data) t.data) (offsetOf r.addr) r.count
    (t.kind = .fetch → exec (.mAck data v) s = .next (State.finish
      { ended with out := ⟨[⟨.ok, bytes⟩], false, []⟩ })) ∧
    (t.kind = .write → r.kind = .write → exec (.mAck data v) s = .next (State.finish
      { ended with ls := s.ls.writeUpdate t.block t.mask t.data, out := ⟨[⟨.ok, []⟩], false, []⟩ })) ∧
    (t.kind = .lockedRead → exec (.mAck data v) s = .next (State.finish
      { ended with
        hru := { ended.hru with
          lock := s.hru.lock.map fun l => { l with phase := .opened, timer := .running s.hru.lockHold } }
        out := ⟨[⟨.ok, bytes⟩], false, []⟩ })) ∧
    (t.kind = .lockedWrite → r.kind = .write → exec (.mAck data v) s = .next (State.finish
      { ended with
        hru := { ended.hru with lock := none }
        ls := s.ls.writeUpdate t.block t.mask t.data
        out := ⟨[⟨.ok, []⟩], false, []⟩ }))

/-- A beat of the transaction that the taken request waits on fails: the request is answered FAULT with a READ_FAULT
or WRITE_FAULT record that carries the cause; a write's line is invalidated; a locked transaction ends the lock; the
remaining beats are not run (R86, R100, R101, R108, R109, R122, R127). -/
def Obligations.HostTransactionFails : Prop :=
  ∀ (c : Instr) (cause : Cause) (s : State) (t : Txn) (r : Request), s.runs t →
    c.beatFailure s t = some cause → s.hru.request = some r →
    let failed (kind : FaultKind) : State :=
      { s with
        mpe := { s.mpe with txn := none, beatTimer := .stopped }
        port := none
        hru := { s.hru with request := none }
        flt := s.flt.take
          { kind, origin := .host, cause := some cause, bytes := some ⟨r.addr, r.count⟩
            region := some r.snap.index }
        out := ⟨[⟨.fault, r.faultData⟩], false, []⟩ }
    (t.kind = .fetch → exec c s = .next (failed .readFault).finish) ∧
    (t.kind = .write → exec c s = .next (State.finish
      { failed .writeFault with ls := s.ls.invalidate t.block })) ∧
    (t.kind = .lockedRead → exec c s = .next (State.finish
      { failed .readFault with hru := { s.hru with request := none, lock := none } })) ∧
    (t.kind = .lockedWrite → exec c s = .next (State.finish
      { failed .writeFault with
        ls := s.ls.invalidate t.block, hru := { s.hru with request := none, lock := none } }))

/-- A beat of a FILL fails: the line is INVALID at once and the fill context empties; the unanswered request is
answered FAULT with READ_FAULT, or a FILL_TAIL record is made and a read waiting on the line is examined again (R62,
R86, R107). Where a HALTED queue then refuses that read, its DRAIN_HALTED record comes behind FILL_TAIL: the model's
choice, log entry 25. -/
def Obligations.FillFails : Prop :=
  ∀ (c : Instr) (cause : Cause) (s : State) (t : Txn) (f : FillContext), s.runs t → t.kind = .fill →
    c.beatFailure s t = some cause → s.ls.fill = some f →
    let ended : State :=
      { s with
        mpe := { s.mpe with txn := none, beatTimer := .stopped }
        port := none
        ls := { s.ls.setLine f.set f.way { s.ls.line f.set f.way with state := .invalid } with fill := none }
        out := ⟨[], false, []⟩ }
    (∀ r, f.answered = false → s.hru.request = some r → exec c s = .next (State.finish
      { ended with
        hru := { s.hru with request := none }
        flt := s.flt.take
          { kind := .readFault, origin := .host, cause := some cause, bytes := some ⟨r.addr, r.count⟩
            region := some r.snap.index }
        out := ⟨[⟨.fault, r.faultData⟩], false, []⟩ })) ∧
    (f.answered = true → exec c s = .next (State.finish (State.releaseReader
      { ended with
        flt := s.flt.take
          { kind := .fillTail, origin := .host, cause := some cause, bytes := some ⟨blockAddr t.block, 16⟩
            region := some t.snap.index } })))

/-- An acknowledged beat of a FILL that does not take a veto: its slot's bytes are written into the line but for
those in the write mask, and arrive; a last beat ends the fill with the line VALID if STALE and veto are clear and
INVALID otherwise (R58, R60, R98). The early answer and the readers of the line are served as `State.earlyAnswer`,
`State.serveReader` and `State.releaseReader` say. -/
def Obligations.FillBeatArrives : Prop :=
  ∀ (data : Word) (v : Bool) (s : State) (t : Txn) (b : Beat) (f : FillContext), s.runs t → t.kind = .fill →
    v = false ∨ 0 < t.beatsDone → t.beats[t.beatsDone]? = some b → s.ls.fill = some f →
    let x := s.ls.line f.set f.way
    let served : State := State.serveReader (State.earlyAnswer
      { s with
        ls := { s.ls.setLine f.set f.way
            { x with data := overlay (b.bytes t.snap.width &&& ~~~f.written) (spreadWord data) x.data } with
          fill := some { f with arrived := f.arrived ||| b.bytes t.snap.width } }
        out := ⟨[], false, []⟩ })
    (∀ next, t.beats[t.beatsDone + 1]? = some next → exec (.mAck data v) s = .next (State.finish
      { served with
        mpe := { s.mpe with
          txn := some { t with beatsDone := t.beatsDone + 1, retryCount := 0 }
          beatTimer := .running s.mpe.beatLimit }
        port := some
          { addr := beatAddr t.snap.width t.block next.slot, wr := false, be := next.lanes
            more := decide (t.beatsDone + 2 < t.beats.length), data := none } })) ∧
    (t.beats.length = t.beatsDone + 1 → exec (.mAck data v) s = .next (State.finish (State.releaseReader
      { served with
        mpe := { s.mpe with txn := none, beatTimer := .stopped }
        port := none
        ls := served.ls.endFill (!f.stale && !f.veto) })))

/-- M_VOLATILE on the first beat of a FILL sets the veto and cuts the beat list after the last beat that holds a
requested byte (R61, R103). The beat's bytes are delivered as any beat's (R58), and the fill's own request is answered
from them if they hold all its bytes (R59). Where the cut list goes on, its next address phase stands, with M_KIND by
the cut list; where the first beat is its last, the fill ends in this step with its line INVALID. The early answer and
the readers of the line are served as `State.earlyAnswer`, `State.serveReader` and `State.releaseReader` say. -/
def Obligations.VolatileVetoCutsFill : Prop :=
  ∀ (data : Word) (s : State) (t : Txn) (b : Beat) (rest : List Beat) (f : FillContext), s.runs t →
    t.kind = .fill → t.beatsDone = 0 → t.beats = b :: rest → s.ls.fill = some f →
    let cut := cutBeats t.snap.width t.mask t.beats
    let x := s.ls.line f.set f.way
    let served : State := State.serveReader (State.earlyAnswer
      { s with
        ls := { s.ls.setLine f.set f.way
            { x with data := overlay (b.bytes t.snap.width &&& ~~~f.written) (spreadWord data) x.data } with
          fill := some { f with arrived := f.arrived ||| b.bytes t.snap.width, veto := true } }
        out := ⟨[], false, []⟩ })
    (∃ n, cut = t.beats.take n ∧
      (∀ y ∈ t.beats.drop n, masksMeet (y.bytes t.snap.width) t.mask = false) ∧
      (∀ y, cut.getLast? = some y → masksMeet (y.bytes t.snap.width) t.mask = true)) ∧
    (∀ next, cut[1]? = some next → exec (.mAck data true) s = .next (State.finish
      { served with
        mpe := { s.mpe with
          txn := some { t with beats := cut, beatsDone := 1, retryCount := 0 }
          beatTimer := .running s.mpe.beatLimit }
        port := some
          { addr := beatAddr t.snap.width t.block next.slot, wr := false, be := next.lanes
            more := decide (2 < cut.length), data := none } })) ∧
    (cut.length ≤ 1 → exec (.mAck data true) s = .next (State.finish (State.releaseReader
      { served with
        mpe := { s.mpe with txn := none, beatTimer := .stopped }
        port := none
        ls := { served.ls.setLine f.set f.way { served.ls.line f.set f.way with state := .invalid } with
          fill := none } })))

/-- The fill's own request is answered from the line, once, when all its bytes have arrived, STALE or not; a read
that waits on the line is answered once its bytes are available while STALE is clear; either moves the line's way to
the front (R52, R59). A read that waits on a line when it leaves FILLING is answered from it as a hit if it became
VALID; if no line holds its block, it is examined again as a miss, and so forwarded, handed over as a FILL, drained
through, or refused in a HALTED queue (R29, R30, R32, R53, R54). Any other request is left as it is. -/
def Obligations.FillAnswersReads : Prop :=
  (∀ (s : State) (r : Request) (f : FillContext), s.hru.request = some r → s.ls.fill = some f → r.kind ≠ .write →
    let answer : Answer := ⟨.ok, readBytes (s.ls.line f.set f.way).data (offsetOf r.addr) r.count⟩
    let given (g : FillContext) : State :=
      { s with
        ls := { s.ls.touch f.set f.way with fill := some g }
        hru := { s.hru with request := none }
        out := { s.out with answers := s.out.answers ++ [answer] } }
    s.earlyAnswer =
      (if f.answered = false ∧ maskWithin (byteMask f.first f.count) f.arrived = true then given { f with answered := true }
       else s) ∧
    s.serveReader =
      (if r.wait = .line ∧ f.stale = false ∧ maskWithin r.mask (f.arrived ||| f.written) = true then given f else s)) ∧
  (∀ s : State, (∀ r, s.hru.request = some r → r.wait ≠ .line) → s.releaseReader = s) ∧
  ∀ (s : State) (r : Request), s.hru.request = some r → r.wait = .line → r.route = .kept → r.kind ≠ .write →
    let b := blockOf r.addr
    let m := byteMask (offsetOf r.addr) r.count
    let answered (d : BlockData) : State :=
      { s with
        hru := { s.hru with request := none }
        out := { s.out with answers := s.out.answers ++ [⟨.ok, readBytes d (offsetOf r.addr) r.count⟩] } }
    (∀ w, s.ls.distinct = true → (s.ls.line (setOf b) w).state = .valid → (s.ls.line (setOf b) w).block = b →
      s.releaseReader =
        { answered (s.ls.line (setOf b) w).data with ls := s.ls.touch (setOf b) w }) ∧
    ((∀ w, (s.ls.line (setOf b) w).state = .invalid ∨ (s.ls.line (setOf b) w).block ≠ b) →
      (maskWithin m (s.pq.held b).1 = true → s.releaseReader = answered (s.pq.held b).2) ∧
      (maskWithin m (s.pq.held b).1 = false →
        (s.pq.youngestOverlap b allBytes = none → s.releaseReader =
          { s with
            hru := { s.hru with request := some { r with wait := .port } }
            mpe := { s.mpe with handed := some ⟨.fill, r.addr, r.count, r.data, r.snap⟩, demand := none } }) ∧
        (∀ p, s.pq.youngestOverlap b allBytes = some p →
          (s.pq.state = .running → s.releaseReader =
            { s with
              hru := { s.hru with request := some { r with wait := .through } }
              mpe := { s.mpe with demand := some p.seq } }) ∧
          (s.pq.state = .halted → s.releaseReader =
            { s with
              hru := { s.hru with request := none }
              mpe := { s.mpe with demand := none }
              flt := s.flt.take
                { kind := .drainHalted, origin := .host, bytes := some ⟨r.addr, r.count⟩, region := some r.snap.index }
              out := { s.out with answers := s.out.answers ++ [⟨.fault, r.faultData⟩] } }))))

/-- A retry answer below the retry limit re-issues the beat at once under a lock hold, and otherwise fractures the
transaction and releases the M-port (R99, R121). -/
def Obligations.RetryFracturesOrReissues : Prop :=
  ∀ (a v : Bool) (s : State) (t : Txn) (b : Beat), s.runs t → t.beats[t.beatsDone]? = some b →
    t.retryCount + 1 < s.mpe.retryLimit →
    let pq := if t.kind = .drain then { s.pq with posts := match s.pq.posts with
        | [] => []
        | p :: rest => { p with beatsDone := t.beatsDone, retryCount := t.retryCount + 1 } :: rest }
      else s.pq
    (s.lockHold = false → exec (.mRetry a v) s = .next (State.finish
      { s with
        mpe := { s.mpe with
          txn := some { t with retryCount := t.retryCount + 1, state := .fractured }, beatTimer := .stopped }
        port := none, oar := { s.oar with owner := .none }, pq := pq, out := ⟨[], false, []⟩ })) ∧
    (s.lockHold = true → exec (.mRetry a v) s = .next (State.finish
      { s with
        mpe := { s.mpe with
          txn := some { t with retryCount := t.retryCount + 1 }, beatTimer := .running s.mpe.beatLimit }
        port := some
          { addr := beatAddr t.snap.width t.block b.slot, wr := t.kind.writes, be := b.lanes
            more := decide (t.beatsDone + 1 < t.beats.length)
            data := if t.kind.writes then some (beatData t.snap.width t.data b) else none }
        pq := pq, out := ⟨[], false, []⟩ }))

/-- Any ending of the beat in progress ends a transaction that a host reset has abandoned, without an answer, a
record or a change of any line (R117, R172). A termination while no address phase stands is disregarded; one of a
peer's beat ends that peer's phase and is nothing to the bridge (R92, R97). BEAT_TIMEOUT while the bridge's beat
timer is not due changes nothing: the model's choice, log entry 5. -/
def Obligations.BeatEndingsWithoutOutcome : Prop :=
  (∀ (c : Instr) (s : State) (t : Txn), s.oar.owner = .bridge → s.port.isSome → s.mpe.txn = some t →
    t.state = .current → t.abandoned = true →
    (∃ d v, c = .mAck d v) ∨ (∃ a v, c = .mRetry a v) ∨ (∃ a r v, c = .mFail a r v) ∨
      (c = .beatTimeout ∧ s.mpe.beatTimer = .running 0) →
    exec c s = .next (State.finish
      { s with
        mpe := { s.mpe with txn := none, beatTimer := .stopped }, port := none, out := ⟨[], false, []⟩ })) ∧
  ((∀ (c : Instr) (s : State), (∃ d v, c = .mAck d v) ∨ (∃ a v, c = .mRetry a v) ∨ (∃ a r v, c = .mFail a r v) →
    (s.port = none → exec c s = .next { s with out := ⟨[], false, []⟩ }) ∧
    (∀ p, s.oar.owner = .peer p → exec c s = .next { s with port := none, out := ⟨[], false, []⟩ })) ∧
  (∀ s : State, s.mpe.beatTimer ≠ .running 0 ∨ s.oar.owner ≠ .bridge →
    exec .beatTimeout s = .next { s with out := ⟨[], false, []⟩ }))

/-! ## Time -/

/-- The count of host clocks rises by one, and at the wrap returns to 0 and makes one tick, which each of the four
running timers counts (R102). TICK runs the clocks on to the wrap: the model's choice, log entry 4. A timer started
with N ticks is due at the Nth tick after its start and not before; a stopped timer and a spent tenure do not count
(R102). A due timer waits for its expiry command, log entry 8. -/
def Obligations.ClockMakesTicks : Prop :=
  (∀ s : State,
    let tick : State :=
      { s with
        tb := { s.tb with count := 0 }
        mpe := { s.mpe with beatTimer := s.mpe.beatTimer.tick }
        hru := { s.hru with lock := s.hru.lock.map fun l => { l with timer := l.timer.tick } }
        oar := { s.oar with tenureTimer := s.oar.tenureTimer.tick, yieldTimer := s.oar.yieldTimer.tick }
        out := ⟨[], false, []⟩ }
    (s.tb.count + 1 < s.tb.prescaler → exec .hostClock s = .next
      { s with tb := { s.tb with count := s.tb.count + 1 }, out := ⟨[], false, []⟩ }) ∧
    (s.tb.prescaler ≤ s.tb.count + 1 → exec .hostClock s = .next tick) ∧
    exec .tick s = .next tick) ∧
  (∀ n k : Nat,
    (Timer.tick^[k] (.running n) = .running 0 ↔ n ≤ k) ∧ (Tenure.tick^[k] (.running n) = .running 0 ↔ n ≤ k) ∧
    Timer.tick^[k] .stopped = .stopped ∧ Tenure.tick^[k] .stopped = .stopped ∧ Tenure.tick^[k] .spent = .spent)

/-- LOCK_HOLD_EXPIRY of an open lock whose timer is due drops the lock with a LOCK_EXPIRED record (R125).
TENURE_EXPIRY of an owning peer asserts P_REL, stops the tenure timer and starts the yield timer if another
requester waits, and leaves the tenure spent otherwise (R138, R140); YIELD_EXPIRY bars the owner with a
PEER_OVERSTAY record and leaves its grant and P_REL (R141). While the timer is not due each changes nothing: the
model's choice, log entry 5. -/
def Obligations.ExpiriesTakeEffect : Prop :=
  (((∀ (s : State) (l : LockRecord), s.hru.lock = some l → l.phase = .opened → l.timer = .running 0 →
    exec .lockHoldExpiry s = .next (State.finish
      { s with
        hru := { s.hru with lock := none }
        flt := s.flt.take
          { kind := .lockExpired, origin := .host, bytes := some ⟨l.addr, l.count⟩, region := some l.region }
        out := ⟨[], false, []⟩ })) ∧
  (∀ s : State, (∀ l, s.hru.lock = some l → l.phase = .opened → l.timer ≠ .running 0) →
    exec .lockHoldExpiry s = .next { s with out := ⟨[], false, []⟩ }))) ∧
  (∀ s : State,
    (∀ p, s.oar.owner = .peer p → s.oar.tenureTimer = .running 0 →
      (s.otherWaits = true → exec .tenureExpiry s = .next
        { s with
          oar := { s.oar with pRel := true, tenureTimer := .stopped, yieldTimer := .running s.oar.yield }
          out := ⟨[], false, []⟩ }) ∧
      (s.otherWaits = false → exec .tenureExpiry s = .next
        { s with oar := { s.oar with tenureTimer := .spent }, out := ⟨[], false, []⟩ })) ∧
    (∀ p, s.oar.owner = .peer p → s.oar.yieldTimer = .running 0 → exec .yieldExpiry s = .next
      { s with
        oar := { s.oar with
          peers := s.oar.peers.put p { s.oar.peers.get p with barred := true }, yieldTimer := .stopped }
        flt := s.flt.take { kind := .peerOverstay, origin := .peer, peer := some p }
        out := ⟨[], false, []⟩ }) ∧
    (s.oar.tenureTimer ≠ .running 0 → exec .tenureExpiry s = .next { s with out := ⟨[], false, []⟩ }) ∧
    (s.oar.yieldTimer ≠ .running 0 → exec .yieldExpiry s = .next { s with out := ⟨[], false, []⟩ }))

/-! ## Peers -/

/-- PEER_REQUEST asserts the peer's P_REQ, PEER_RELEASE negates it; where the peer is the owner, its grant, both
timers, P_REL and its unfinished address phase go with it. The rest of either step is a round where one can run
(R134, R135, R136). That the line stands negated in the round of the release, so that the peer is not granted back in
that step, is the model's choice, log entry 27. -/
def Obligations.PeerLinesMove : Prop :=
  ∀ (p : Peer) (s : State),
    exec (.peerRequest p) s = .next (State.finish
      { s with
        oar := { s.oar with peers := s.oar.peers.put p { s.oar.peers.get p with req := true } }
        out := ⟨[], false, []⟩ }) ∧
    (s.oar.owner = .peer p → exec (.peerRelease p) s = .next (State.finish
      { s with
        oar := { s.oar with
          peers := s.oar.peers.put p { s.oar.peers.get p with req := false }
          owner := .none, pRel := false, tenureTimer := .stopped, yieldTimer := .stopped }
        port := none
        out := ⟨[], false, []⟩ })) ∧
    (s.oar.owner ≠ .peer p → exec (.peerRelease p) s = .next (State.finish
      { s with
        oar := { s.oar with peers := s.oar.peers.put p { s.oar.peers.get p with req := false } }
        out := ⟨[], false, []⟩ }))

/-- The Snoop Check of an owning peer's address phase (R146 to R150, R153 to R156): a barred owner is retried; a
phase that overlaps no post passes, and a write invalidates the line of its block; one that overlaps is retried
while the queue is RUNNING, with P_REL asserted unless it stands, and the obligation created, or extended to the post if
that stands behind the target in the queue, and passes while it is HALTED, with a SNOOP_OVERTAKE record. (The queue's
form is that of StepKeepsQueueForm; that an obligation's target is in the queue is part of StepKeepsInvariant.) While no peer owns the M-port the command changes
nothing: the model's choice, log entry 5. How long a peer's phase stands is the model's reading, log entry 16. -/
def Obligations.SnoopCheck : Prop :=
  (∀ (addr : Addr) (wr : Bool) (be : Lanes) (more : Bool) (s : State) (p : Peer), s.oar.owner = .peer p →
    let c : Instr := .peerAddressPhase addr wr be more
    let range : Mask := be.setWidth 16 <<< (4 * (addr.toNat % 16 / 4))
    let overlapped := s.pq.youngestOverlap (blockOf addr) range
    let passed (flt : FaultUnit) : State :=
      { s with
        port := some ⟨addr, wr, be, more, none⟩
        ls := if wr = true ∧ be ≠ 0 then s.ls.invalidate (blockOf addr) else s.ls
        flt := flt
        out := ⟨[], false, []⟩ }
    ((s.oar.peers.get p).barred = true → exec c s = .next { s with port := none, out := ⟨[], true, []⟩ }) ∧
    ((s.oar.peers.get p).barred = false →
      (overlapped = none → exec c s = .next (passed s.flt)) ∧
      (∀ post, overlapped = some post →
        (s.pq.state = .running →
          let retried (target : Seq) : State :=
            { s with
              oar := if s.oar.pRel then s.oar else
                { s.oar with pRel := true, tenureTimer := .stopped, yieldTimer := .running s.oar.yield }
              mpe := { s.mpe with obligation := some target }
              port := none
              out := ⟨[], true, []⟩ }
          (s.mpe.obligation = none → exec c s = .next (retried post.seq)) ∧
          (∀ (older younger : List Post) (target : Post), s.pq.wf = true →
            s.pq.posts = older ++ target :: younger → s.mpe.obligation = some target.seq →
            (post ∈ younger → exec c s = .next (retried post.seq)) ∧
            (post ∉ younger → exec c s = .next (retried target.seq)))) ∧
        (s.pq.state = .halted → exec c s = .next (passed (s.flt.take
          { kind := .snoopOvertake, origin := .peer, peer := some p, seq := some post.seq
            bytes := some ⟨wordAddr (wordOf addr) + BitVec.ofNat 32 (lowLane be), laneCount be⟩ })))))) ∧
  (∀ (addr : Addr) (wr : Bool) (be : Lanes) (more : Bool) (s : State), (∀ p, s.oar.owner ≠ .peer p) →
    exec (.peerAddressPhase addr wr be more) s = .next { s with out := ⟨[], false, []⟩ })

/-! ## The end of a step -/

/-- The end of a step, and the request that stands at the H-port (R74). Where nothing is left to do and no request can be
taken, the end of a step changes nothing. In every state, the M-port is settled as without the request; an HRU that can
take it then, with no taken request and H_RST negated (R73, R89), takes it in the same step as its own command would, and
its answer stands behind those that the step has given; else it goes on standing. So a request held in WAITING is taken
in the step that answers, whether a beat's ending, a leaving post or DISCARD gives the answer. That it is taken in that
same step, and last, is the model's reading, log entry 9. -/
def Obligations.FinishTakesHeldRequest : Prop :=
  (∀ u : Hru, u.canTake = true ↔ u.request = none ∧ u.hRst = false) ∧
  (∀ s : State, s.settled = true → s.hru.presented = none ∨ s.hru.canTake = false → s.finish = s) ∧
  (∀ (c : Instr) (h : HostRequest) (s t : State), c.request = some h → s.hru.presented = some h →
    State.finish { s with hru := { s.hru with presented := none } } = t →
    (t.hru.canTake = false → s.finish = { t with hru := { t.hru with presented := some h } }) ∧
    (t.hru.canTake = true → ∃ u, exec c t = .next u ∧ u.out.peerRetry = false ∧ u.out.mdo = [] ∧
      s.finish = { u with out := { t.out with answers := t.out.answers ++ u.out.answers } }))

/-- The winner of a round is that of the regarded requests: the first, in the chain order B, P0, P1, P2, at the highest
level (R134); a peer's request is regarded when it asserts P_REQ at a level of 1 or more and is not barred (R131),
the bridge's while it stands: while the bridge does not own the M-port and has work or a lock hold is in force (R114).
The lock hold is in force while a lock is OPEN or CLOSING, and while it is OPENING from the start of its LOCKED READ,
which no host reset has abandoned (R119). The bridge's level is 0 under the yield-round flag, else 7 while escalation,
an obligation, a lock hold or a waiting DEVICE, ORDER or LOCK request stands, else the base level (R132). -/
def Obligations.RoundsAndLevels : Prop :=
  (((∀ s : State, s.roundWinner = winnerOf s.requesters) ∧
  (∀ (s : State) (o : Owner) (l : Nat), (o, l) ∈ s.requesters ↔
    (o = .bridge ∧ s.bridgeRequest = true ∧ l = s.bridgeLevel) ∨
    ∃ p, o = .peer p ∧ (s.oar.peers.get p).req = true ∧ 1 ≤ (s.oar.peers.get p).level ∧
      (s.oar.peers.get p).barred = false ∧ l = (s.oar.peers.get p).level) ∧
  (∀ s : State, (s.requesters.map Prod.fst).Sublist [.bridge, .peer .p0, .peer .p1, .peer .p2]) ∧
  (∀ (x : List (Owner × Nat)) (o : Owner), winnerOf x = some o ↔
    ∃ (before after : List (Owner × Nat)) (l : Nat), x = before ++ (o, l) :: after ∧
      (∀ y ∈ before, y.2 < l) ∧ ∀ y ∈ after, y.2 ≤ l))) ∧
  (∀ s : State,
    (s.bridgeRequest = true ↔ s.oar.owner ≠ .bridge ∧ (s.nextWork.isSome ∨ s.lockHold = true)) ∧
    (s.lockHold = true ↔ ∃ l, s.hru.lock = some l ∧ (l.phase = .opened ∨ l.phase = .closing ∨
      l.phase = .opening ∧ ∃ t, s.mpe.txn = some t ∧ (t.kind = .lockedRead ∨ t.kind = .lockedWrite) ∧
        t.abandoned = false))) ∧
  (∀ s : State,
    (s.oar.yieldRound = true → s.bridgeLevel = 0) ∧
    (s.oar.yieldRound = false →
      (s.pq.highWater ≤ s.pq.posts.length ∨ s.mpe.obligation.isSome ∨ s.lockHold = true ∨
        (∃ r, s.hru.request = some r ∧ (r.route = .ordered ∨ r.route = .lock)) → s.bridgeLevel = 7) ∧
      (s.pq.posts.length < s.pq.highWater → s.mpe.obligation = none → s.lockHold = false →
        (∀ r, s.hru.request = some r → r.route ≠ .ordered ∧ r.route ≠ .lock) →
        s.bridgeLevel = s.oar.baseLevel)))

/-- A free M-port is granted in the step: to a winning peer, whose tenure timer starts unless the tenure item is 0, or
to the bridge; the flag of the yield round is cleared (R134, R138). The bridge starts its selected work at the grant;
so does, at once, a bridge that owns the M-port with nothing running and holds it for a lock, or keeps it because it
has work and no regarded peer waits at a level strictly above its own: a DRAIN, locked or handed work, or the resumption
of the FRACTURED transaction (R33, R55, R56, R105, R112, R113, R115). Under a lock hold it keeps the M-port without work
too. Else a bridge with nothing running releases it, and the step ends as with a free M-port (R115). A peer's spent
tenure ends in P_REL and a running yield timer where another requester waits; else the step leaves the peer as it is
(R138). -/
def Obligations.PortGrantAndRelease : Prop :=
  let regarded (s : State) (p : Peer) : Prop :=
    (s.oar.peers.get p).req = true ∧ (s.oar.peers.get p).barred = false ∧ 1 ≤ (s.oar.peers.get p).level
  (∀ (s : State) (p : Peer), s.oar.owner = .none → s.hru.presented = none → s.roundWinner = some (.peer p) →
    s.finish = { s with oar := { s.oar with
      owner := .peer p, yieldRound := false
      tenureTimer := if s.oar.tenure = 0 then .stopped else .running s.oar.tenure } }) ∧
  (∀ s u : State, s.hru.presented = none →
    (s.oar.owner = .none ∧ s.roundWinner = some .bridge ∧
        u = { s with oar := { s.oar with owner := .bridge, yieldRound := false } } ∨
      s.oar.owner = .bridge ∧ s.mpe.running = false ∧
        (s.lockHold = true ∨ ∀ p, regarded s p → (s.oar.peers.get p).level ≤ s.bridgeLevel) ∧ u = s) →
    let started (t : Txn) (u' : State) : State :=
      { u' with
        mpe := { u'.mpe with txn := some t, beatTimer := .running s.mpe.beatLimit }
        port := t.phase }
    (∀ t, s.nextWork = some (.resume t) → s.finish = (u.resume t).finish) ∧
    (∀ p rest, s.nextWork = some .drain → s.pq.posts = p :: rest →
      s.finish = started p.txn
        { u with pq := { s.pq with
            posts := { p with state := .draining, beatsDone := 0, retryCount := 0 } :: rest
            mergeOpen := s.pq.mergeOpen && !rest.isEmpty } }) ∧
    (∀ w, s.nextWork = some (.locked w) →
      s.finish = started (w.txn w.kind) { u with mpe := { s.mpe with locked := none } }) ∧
    (∀ w, s.nextWork = some (.host w) →
      (w.kind ≠ .fill → s.finish = started (w.txn w.kind) { u with mpe := { s.mpe with handed := none } }) ∧
      (w.kind = .fill → s.rmap.keepCheck (blockOf w.addr) = false →
        s.finish = started (w.txn .fetch) { u with mpe := { s.mpe with handed := none } }) ∧
      (w.kind = .fill → s.rmap.keepCheck (blockOf w.addr) = true →
        s.finish = started (w.txn .fill)
          { u with
            ls := s.ls.allocate (blockOf w.addr) (offsetOf w.addr) w.count
            mpe := { s.mpe with handed := none } })) ∧
    (s.lockHold = true → s.nextWork = none → s.finish = u)) ∧
  (∀ s : State, s.oar.owner = .bridge → s.mpe.running = false → s.lockHold = false →
    (s.nextWork = none ∨ ∃ p, regarded s p ∧ s.bridgeLevel < (s.oar.peers.get p).level) →
    s.finish = State.finish { s with oar := { s.oar with owner := .none } }) ∧
  (∀ (s : State) (p : Peer), s.oar.owner = .peer p → s.hru.presented = none →
    (s.oar.tenureTimer = .spent → (s.bridgeRequest = true ∨ ∃ q, q ≠ p ∧ regarded s q) →
      s.finish =
        { s with oar := { s.oar with
          pRel := true, tenureTimer := .stopped, yieldTimer := .running s.oar.yield } }) ∧
    ((s.oar.tenureTimer ≠ .spent ∨ s.bridgeRequest = false ∧ ∀ q, q ≠ p → ¬regarded s q) → s.finish = s))

/-- The work selection takes the first startable source in the order of Table 5-6 (R111, R112). A resumed
transaction makes a fresh address phase for its first undone beat; a FILL goes on so while STALE is clear, is
dropped with its line INVALID where STALE is set and its host answered, and otherwise restarts from its first beat,
with STALE cleared if the keep check passes (R68, R69, R105). -/
def Obligations.WorkSelectionAndResumption : Prop :=
  (∀ s : State,
    (∀ t, s.mpe.txn = some t → s.nextWork = if t.state = .fractured then some (.resume t) else none) ∧
    (s.mpe.txn = none → s.nextWork =
      if s.mpe.obligation.isSome ∧ s.pq.drainable = true then some .drain
      else match s.mpe.locked with
      | some w => some (.locked w)
      | none =>
        if (s.mpe.demand.isSome ∨ s.pq.highWater ≤ s.pq.posts.length) ∧ s.pq.drainable = true then some .drain
        else match s.mpe.handed with
        | some w => some (.host w)
        | none => if s.pq.drainable = true then some .drain else none) ∧
    (s.pq.drainable = true ↔ s.pq.state = .running ∧ ∃ p rest, s.pq.posts = p :: rest ∧ p.state = .waiting)) ∧
  (∀ (s : State) (t : Txn),
    let issued (u : Txn) (s' : State) : State :=
      { s' with
        mpe := { s.mpe with txn := some u, beatTimer := .running s.mpe.beatLimit }
        port := u.phase }
    (t.kind ≠ .fill → s.resume t = issued { t with state := .current } s) ∧
    (∀ f, t.kind = .fill → s.ls.fill = some f →
      (f.stale = false → s.resume t = issued { t with state := .current } s) ∧
      (f.stale = true → f.answered = true → s.resume t = State.releaseReader
        { s with
          mpe := { s.mpe with txn := none, beatTimer := .stopped }
          port := none
          ls := { s.ls.setLine f.set f.way { s.ls.line f.set f.way with state := .invalid } with fill := none } }) ∧
      (f.stale = true → f.answered = false → s.resume t =
        issued { t with state := .current, beatsDone := 0, beats := fillBeats t.snap.width f.first }
          { s with ls := { s.ls with
              fill := some { f with arrived := 0, veto := false, stale := !s.rmap.keepCheck f.block } } })))

/-! ## The management link -/

/-- The link's states (Table 10-1). From IDLE, where MCS is asserted, or in RECEIVING, the bits on MDI join the input
until the one that ends a frame's input makes the answer point: status and answer are settled, and the link is ANSWERING
(R174). Each edge after that sends a bit of the status and the answer; the last one leads to DONE. In BLOCKED and in
DONE the bits are disregarded, and none changes any other state. MDO is not driven in IDLE and BLOCKED, high in
RECEIVING and DONE, and carries the status byte and then the answer data in ANSWERING, the most significant bit of each
first. Bits make bytes in that order, and every frame is parsed from its own input at its last bit and not before (R173,
Table 10-2). FRAME_CUT_SHORT and MCS_NEGATED_IN_BLOCKED return the link to IDLE and change nothing else (R173, R175).
That bits short of the answer point and past it come by ANSWER_POINT is the model's choice, log entry 6; that the two
commands change nothing in another state of the link is too, log entry 5. -/
def Obligations.LinkMovesWithoutEffect : Prop :=
  let moved (l : Link) (s : State) : State := { s with link := l, out := ⟨[], false, []⟩ }
  let sent (f : Frame) (st : Status) (d : List Byte) (n : Nat) : Link :=
    if n < 8 * (d.length + 1) then .answering f st d n else .done f st d
  (∀ (got input : List Bool) (s : State), s.link = .idle ∧ got = [] ∨ s.link = .receiving got →
    (Frame.parse (bytesOf (got ++ input)) = none →
      exec (.answerPoint input) s = .next (moved (.receiving (got ++ input)) s)) ∧
    (∀ first b rest f, input = first ++ b :: rest → Frame.parse (bytesOf (got ++ first)) = none →
      Frame.parse (bytesOf (got ++ first ++ [b])) = some f → exec (.answerPoint input) s = .next
        (moved (sent f (s.settleFrame f).1 (s.settleFrame f).2 rest.length) s))) ∧
  (∀ (input : List Bool) (s : State),
    (∀ f st d n, s.link = .answering f st d n → n < 8 * (d.length + 1) →
      exec (.answerPoint input) s = .next (moved (sent f st d (n + input.length)) s)) ∧
    (s.link = .blocked ∨ (∃ f st d, s.link = .done f st d) →
      exec (.answerPoint input) s = .next (moved s.link s))) ∧
  (Link.idle.mdo = none ∧ Link.blocked.mdo = none ∧ (∀ got, (Link.receiving got).mdo = some true) ∧
    ∀ f st d, (Link.done f st d).mdo = some true ∧ ∀ (k : Nat) (j : Fin 8) (b : Byte),
      (st.byte :: d)[k]? = some b → (Link.answering f st d (8 * k + j.val)).mdo = some (b.getLsbD (7 - j.val))) ∧
  (bytesOf [] = [] ∧ ∀ (b : Byte) (rest : List Bool), bytesOf (b.getLsbD 7 :: b.getLsbD 6 :: b.getLsbD 5 ::
    b.getLsbD 4 :: b.getLsbD 3 :: b.getLsbD 2 :: b.getLsbD 1 :: b.getLsbD 0 :: rest) = b :: bytesOf rest) ∧
  (∀ (c : Instr) (f : Frame), c.frame = some f → ∃ bits : List Bool, bytesOf bits = f.input ∧
    Frame.parse (bytesOf bits) = some f ∧ ∀ n, n < bits.length → Frame.parse (bytesOf (bits.take n)) = none) ∧
  (∀ s : State,
    (∀ got, s.link = .receiving got → exec .frameCutShort s = .next (moved .idle s)) ∧
    (∀ f st d n, s.link = .answering f st d n → exec .frameCutShort s = .next (moved .idle s)) ∧
    (s.link = .blocked → exec .mcsNegatedInBlocked s = .next (moved .idle s)) ∧
    (s.link = .idle ∨ s.link = .blocked ∨ (∃ f st d, s.link = .done f st d) →
      exec .frameCutShort s = .next (moved s.link s)) ∧
    (s.link ≠ .blocked → exec .mcsNegatedInBlocked s = .next (moved s.link s)))

/-- The status of a frame, by the tests of R176 in order: a SET of a region item is refused for its width code 11b and,
for an entry, for a size code above 20; D is refused for its width code alone (R179). What GET, POP_FAULT and VIEW_POST
return, byte by byte: the region item (Table 10-5), the status item (Table 10-6) with the number of VALID lines (R49),
the fault record with its codes, its presence flags and 00h in absent fields (Tables 10-7 and 10-8), the post (Table
10-9), and the interrupt enables in the positions of Table 10-6, byte 5 (R178). -/
def Obligations.FrameStatus : Prop :=
  let widths : List (BitVec 2 × Width) := [(0, .w8), (1, .w16), (2, .w32)]
  let attrs (b : Byte) (a : Attrs) : Prop :=
    b.extractLsb' 5 3 = 0 ∧ b.getLsbD 4 = a.post ∧ b.getLsbD 3 = a.merge ∧ b.getLsbD 2 = a.keep ∧
    b.getLsbD 1 = a.device ∧ b.getLsbD 0 = a.protect
  let bits (b : Byte) (x : IntBits) : Prop :=
    b.extractLsb' 3 5 = 0 ∧ b.getLsbD 2 = x.drainDone ∧ b.getLsbD 1 = x.halted ∧ b.getLsbD 0 = x.record
  let region (b : Byte) (x : RegionIndex) : Prop :=
    (∀ i : Fin 16, x = .entry i → b = BitVec.ofNat 8 i.val) ∧ (x = .d → b = 0x10)
  (∀ s : State,
    (∀ b, namesCommand b = false → ∀ rest, Frame.parse (b :: rest) = some (.badCommand b)) ∧
    (∀ b, s.settleFrame (.badCommand b) = (.badCommand, [])) ∧
    (∀ item, s.settleFrame (.setRefused item) = (.badItem, [])) ∧
    (∀ item : Byte, 0x10 < item.toNat → item.toNat < 0x20 ∨ 0x2C < item.toNat →
      (item ≠ 0x30 → s.settleFrame (.get item) = (.badItem, [])) ∧
      ∀ rest, Frame.parse (0x02 :: item :: rest) = some (.setRefused item)) ∧
    s.settleFrame (.get 0x30) = (.ok, s.statusItem) ∧
    (∀ i : Fin 16, s.settleFrame (.get (BitVec.ofNat 8 i.val)) = (.ok, s.rmap.entries[i].item)) ∧
    s.settleFrame (.get 0x10) = (.ok, s.rmap.d.item) ∧
    (∀ (i : Fin 13) (v : Nat), s.items[i.val]? = some v →
      s.settleFrame (.get (BitVec.ofNat 8 (0x20 + i.val))) =
        (.ok, [BitVec.ofNat 8 (v / 256), BitVec.ofNat 8 v])) ∧
    (∀ (i : Fin 13) (v : BitVec 16), (s.settleFrame (.set (BitVec.ofNat 8 (0x20 + i.val)) v)).1 =
      if [1, 1, 1, 0, 1, 1, 1, 0, 0, 0, 0, 0, 0].getD i.val 0 ≤ v.toNat ∧
        v.toNat ≤ [1024, 255, 255, 255, 255, 255, 8, 7, 7, 7, 7, 1, 65535].getD i.val 0 then .ok else .badValue) ∧
    (∀ (i : Fin 16) (v : BitVec 40), s.settleFrame (.setRegion (BitVec.ofNat 8 i.val) v) =
      if v.extractLsb' 37 2 ≠ 3 ∧ (v.extractLsb' 32 5).toNat ≤ 20 then (.ok, []) else (.badValue, [])) ∧
    (∀ v : BitVec 40, s.settleFrame (.setRegion 0x10 v) =
      if v.extractLsb' 37 2 ≠ 3 then (.ok, []) else (.badValue, [])) ∧
    (∀ (item b0 b1 b2 b3 b4 : Byte) (rest : List Byte), item.toNat ≤ 0x10 →
      Frame.parse (0x02 :: item :: b0 :: b1 :: b2 :: b3 :: b4 :: rest) =
        some (.setRegion item (b0 ++ b1 ++ b2 ++ b3 ++ b4))) ∧
    (∀ f : Frame, (∃ m, f = .ackInt m) ∨ f = .resume ∨ f = .discard ∨ f = .drainMark ∨ f = .invalidate ∨
      f = .clearLog → s.settleFrame f = (.ok, [])) ∧
    (∀ n, s.settleFrame (.restorePeer n) = if n.toNat ≤ 2 then (.ok, []) else (.badValue, [])) ∧
    (s.flt.log = [] → s.settleFrame .popFault = (.empty, [])) ∧
    (∀ r rest, s.flt.log = r :: rest → s.settleFrame .popFault = (.ok, r.bytes16)) ∧
    (∀ n : Byte, s.pq.posts.length ≤ n.toNat → s.settleFrame (.viewPost n) = (.empty, [])) ∧
    (∀ (n : Byte) (p : Post), s.pq.posts[n.toNat]? = some p → s.settleFrame (.viewPost n) = (.ok, p.bytes28)) ∧
    ∃ b0 b1 b2 b3 b4 b5 : Byte, s.statusItem = [b0, b1, b2, b3, b4, b5] ∧
      (b0.extractLsb' 6 2 = 0 ∧ b0.getLsbD 5 = s.pq.mark.isSome ∧ (b0.getLsbD 4 = true ↔ s.pq.state = .halted) ∧
        b0.extractLsb' 0 4 = BitVec.ofNat 4 s.pq.posts.length) ∧
      b1 = s.pq.nextSeq ∧
      (b2.getLsbD 7 = false ∧ b2.getLsbD 6 = s.ls.fill.isSome ∧ b2.extractLsb' 0 6 = BitVec.ofNat 6
        (Finset.univ.filter fun x : Fin 8 × Fin 4 => (s.ls.line x.1 x.2).state = .valid).card) ∧
      (b3.getLsbD 7 = false ∧ b3.getLsbD 6 = (s.oar.peers.get .p2).barred ∧
        b3.getLsbD 5 = (s.oar.peers.get .p1).barred ∧ b3.getLsbD 4 = (s.oar.peers.get .p0).barred ∧
        (b3.getLsbD 3 = true ↔ s.hru.request = none ∧ ∃ l, s.hru.lock = some l ∧ l.phase = .opened) ∧
        (b3.extractLsb' 0 3, s.oar.owner) ∈ ([(0, .none), (1, .bridge), (2, .peer .p0), (3, .peer .p1),
          (4, .peer .p2)] : List (BitVec 3 × Owner))) ∧
      (b4.extractLsb' 5 3 = 0 ∧ b4.getLsbD 4 = s.flt.lost ∧
        b4.extractLsb' 0 4 = BitVec.ofNat 4 s.flt.log.length) ∧
      bits b5 s.flt.pend) ∧
  (∀ x : IntBits, bits x.byte x) ∧
  (∀ e : RegionEntry, ∃ b0 b1 b2 b3 b4 : Byte, e.item = [b0, b1, b2, b3, b4] ∧
    b0.getLsbD 7 = e.valid ∧ (b0.extractLsb' 5 2, e.width) ∈ widths ∧ b0.extractLsb' 0 5 = e.size ∧
    b1.extractLsb' 4 4 = 0 ∧ b1.extractLsb' 0 4 ++ b2 ++ b3 = e.base ∧ attrs b4 e.attrs) ∧
  (∀ d : DefaultRegion, ∃ b0 b4 : Byte, d.item = [b0, 0, 0, 0, b4] ∧
    b0.getLsbD 7 = false ∧ (b0.extractLsb' 5 2, d.width) ∈ widths ∧ b0.extractLsb' 0 5 = 0 ∧ attrs b4 d.attrs) ∧
  (∀ r : FaultRecord, ∃ kind origin flags cause a3 a2 a1 a0 count seq first last n merged index peer : Byte,
    r.bytes16 = [kind, origin, flags, cause, a3, a2, a1, a0, count, seq, first, last, n, merged, index, peer] ∧
    (kind, r.kind) ∈ ([(0x01, .deferred), (0x02, .readFault), (0x03, .writeFault), (0x04, .fillTail),
      (0x05, .writeProtect), (0x06, .illegalRequest), (0x07, .drainHalted), (0x08, .lockLost),
      (0x09, .lockAbandoned), (0x0A, .lockExpired), (0x0B, .peerOverstay), (0x0C, .snoopOvertake),
      (0x0D, .discarded)] : List (Byte × FaultKind)) ∧
    (origin, r.origin) ∈ ([(0x01, .host), (0x02, .queue), (0x03, .peer), (0x04, .management)] : List (Byte × Origin)) ∧
    (flags.getLsbD 0 = r.cause.isSome ∧ flags.getLsbD 1 = r.bytes.isSome ∧ flags.getLsbD 2 = r.seq.isSome ∧
      flags.getLsbD 3 = r.range.isSome ∧ flags.getLsbD 4 = r.merged.isSome ∧ flags.getLsbD 5 = r.region.isSome ∧
      flags.getLsbD 6 = r.peer.isSome ∧ flags.getLsbD 7 = false) ∧
    (cause, r.cause) ∈ ([(0x00, none), (0x01, some .fail), (0x02, some .timeout), (0x03, some .retryLimit)] :
      List (Byte × Option Cause)) ∧
    ((r.bytes = none → a3 = 0 ∧ a2 = 0 ∧ a1 = 0 ∧ a0 = 0 ∧ count = 0) ∧
      ∀ x, r.bytes = some x → a3 ++ a2 ++ a1 ++ a0 = x.addr ∧ count = BitVec.ofNat 8 x.count) ∧
    ((r.seq = none → seq = 0) ∧ ∀ x, r.seq = some x → seq = x) ∧
    ((r.range = none → first = 0 ∧ last = 0 ∧ n = 0) ∧
      ∀ x, r.range = some x → first = x.first ∧ last = x.last ∧ n = BitVec.ofNat 8 x.count) ∧
    ((r.merged = none → merged = 0) ∧ ∀ x, r.merged = some x → merged = BitVec.ofNat 8 x) ∧
    ((r.region = none → index = 0) ∧ ∀ x, r.region = some x → region index x) ∧
    (peer, r.peer) ∈ ([(0, none), (0, some .p0), (1, some .p1), (2, some .p2)] : List (Byte × Option Peer))) ∧
  (∀ p : Post, ∃ (a3 a2 a1 a0 m1 m0 index flags : Byte) (data : List Byte),
    p.bytes28 = [p.seq, a3, a2, a1, a0, m1, m0] ++ data ++ [index, flags, BitVec.ofNat 8 p.beatsDone,
      BitVec.ofNat 8 p.retryCount, BitVec.ofNat 8 p.merged] ∧
    a3 ++ a2 ++ a1 ++ a0 = blockAddr p.block ∧ m1 ++ m0 = p.mask ∧ data.length = 16 ∧
    (∀ i : Fin 16, data[i.val]? = some (if p.mask.getLsbD i.val then p.data[i] else 0)) ∧
    region index p.snap.index ∧
    flags.extractLsb' 4 4 = 0 ∧ (flags.extractLsb' 2 2, p.snap.width) ∈ widths ∧
    flags.getLsbD 1 = p.snap.attrs.merge ∧ (flags.getLsbD 0 = true ↔ p.state = .draining))

/-- A frame that completes with a status other than OK has no effect but its status byte (R175, R176); GET,
VIEW_POST and BAD_COMMAND have none with any status; a frame that the link does not hold or await, or that meets a
BLOCKED link, completes nothing: the model's choice, log entry 6. -/
def Obligations.FrameWithoutEffect : Prop :=
  ∀ (c : Instr) (f : Frame) (s : State), c.frame = some f →
    (∀ st d, s.frameAnswer f = some (st, d) →
      st ≠ .ok ∨ (∃ i, c = .get i) ∨ (∃ n, c = .viewPost n) ∨ (∃ b, c = .badCommand b) →
      exec c s = .next (s.framed st d)) ∧
    (s.frameAnswer f = none → exec c s = .next { s with out := ⟨[], false, []⟩ })

/-- An accepted SET replaces its one item: the prescaler with the count returned to 0 (R102), a limit or timer item,
the high-water mark (R27), the base level (R132), a peer's level with a round if one can run (R131, R134),
HALT_ON_DEFERRED, or the enables with the low three bits of the value (R165, R178). That a level SET may also end a
spent tenure is the model's choice, log entry 11. -/
def Obligations.SetReplacesItem : Prop :=
  ∀ (v : BitVec 16) (s : State) (d : List Byte),
    let accepted (item : Byte) : Prop := s.frameAnswer (.set item v) = some (.ok, d)
    let done := s.framed .ok d
    let n := v.toNat
    (accepted 0x20 → exec (.setPrescaler v) s = .next { done with tb := ⟨0, n⟩ }) ∧
    (accepted 0x21 → exec (.set 0x21 v) s = .next { done with mpe := { s.mpe with beatLimit := n } }) ∧
    (accepted 0x22 → exec (.set 0x22 v) s = .next { done with hru := { s.hru with lockHold := n } }) ∧
    (accepted 0x23 → exec (.set 0x23 v) s = .next { done with oar := { s.oar with tenure := n } }) ∧
    (accepted 0x24 → exec (.set 0x24 v) s = .next { done with oar := { s.oar with yield := n } }) ∧
    (accepted 0x25 → exec (.set 0x25 v) s = .next { done with mpe := { s.mpe with retryLimit := n } }) ∧
    (accepted 0x26 → exec (.setHighWaterMark v) s = .next { done with pq := { s.pq with highWater := n } }) ∧
    (accepted 0x27 → exec (.setBaseLevel v) s = .next { done with oar := { s.oar with baseLevel := n } }) ∧
    (∀ p, accepted (levelItem p) → exec (.setPeerLevel p v) s = .next (State.finish
      { done with oar := { s.oar with peers := s.oar.peers.put p { s.oar.peers.get p with level := n } } })) ∧
    (accepted 0x2B → exec (.set 0x2B v) s = .next { done with pq := { s.pq with haltOnDeferred := v != 0 } }) ∧
    (accepted 0x2C → exec (.setInterruptEnables v) s = .next
      { done with flt := { s.flt with enables := ⟨v.getLsbD 0, v.getLsbD 1, v.getLsbD 2⟩ } })

/-- An accepted rewrite of a region item replaces the entry, or D's width and attributes, closes merging, and
applies a line invalidation to every line in its range: the blocks that the entry covers before or after, or those
that no entry covers (R12, R13, R14, R179). -/
def Obligations.RegionRewriteEffect : Prop :=
  ∀ (v : BitVec 40) (s : State) (d : List Byte) (w : Width),
    (v.extractLsb' 37 2 = 0 ∧ w = .w8 ∨ v.extractLsb' 37 2 = 1 ∧ w = .w16 ∨ v.extractLsb' 37 2 = 2 ∧ w = .w32) →
    let attrs : Attrs := ⟨v.getLsbD 4, v.getLsbD 3, v.getLsbD 2, v.getLsbD 1, v.getLsbD 0⟩
    (∀ i : Fin 16, s.frameAnswer (.setRegion (BitVec.ofNat 8 i.val) v) = some (.ok, d) →
      let e : RegionEntry := ⟨v.getLsbD 39, v.extractLsb' 8 20, v.extractLsb' 32 5, w, attrs⟩
      exec (.regionRewrite (BitVec.ofNat 8 i.val) v) s = .next
        { s.framed .ok d with
          rmap := { s.rmap with entries := s.rmap.entries.set i e }
          pq := { s.pq with mergeOpen := false }
          ls := s.ls.invalidateWhere fun b => s.rmap.entries[i].covers (blockAddr b) || e.covers (blockAddr b) }) ∧
    (s.frameAnswer (.setRegion 0x10 v) = some (.ok, d) →
      exec (.regionRewrite 0x10 v) s = .next
        { s.framed .ok d with
          rmap := { s.rmap with d := ⟨w, attrs⟩ }
          pq := { s.pq with mergeOpen := false }
          ls := s.ls.invalidateWhere fun b => (s.rmap.governing (blockAddr b)).isNone })

/-- The accepted commands on the fault log and the interrupt state: POP_FAULT removes the oldest record (R162),
CLEAR_LOG empties the log and clears LOST (R163), ACK_INT clears the named bits (R166), RESTORE_PEER clears a bar
and gives an owner a fresh yield period (R143). In every state INT is asserted exactly while a bit is pending and
enabled (R165). -/
def Obligations.RecoveryCommandEffects : Prop :=
  ∀ (s : State) (d : List Byte),
    let done := s.framed .ok d
    (s.flt.int = true ↔ s.flt.pend.record = true ∧ s.flt.enables.record = true ∨
      s.flt.pend.halted = true ∧ s.flt.enables.halted = true ∨
      s.flt.pend.drainDone = true ∧ s.flt.enables.drainDone = true) ∧
    (∀ r rest, s.flt.log = r :: rest → s.frameAnswer .popFault = some (.ok, d) →
      exec .popFault s = .next { done with flt := { s.flt with log := rest } }) ∧
    (s.frameAnswer .clearLog = some (.ok, d) →
      exec .clearLog s = .next { done with flt := { s.flt with log := [], lost := false } }) ∧
    (∀ m, s.frameAnswer (.ackInt m) = some (.ok, d) →
      exec (.ackInt m) s = .next { done with flt := { s.flt with pend :=
        { record := s.flt.pend.record && !m.getLsbD 0
          halted := s.flt.pend.halted && !m.getLsbD 1
          drainDone := s.flt.pend.drainDone && !m.getLsbD 2 } } }) ∧
    (∀ (n : Byte) (p : Peer), n.toNat = peerIndex p → s.frameAnswer (.restorePeer n) = some (.ok, d) →
      exec (.restorePeer n) s = .next (State.finish
        { done with
          oar :=
            if (s.oar.peers.get p).barred then
              { s.oar with
                peers := s.oar.peers.put p { s.oar.peers.get p with barred := false }
                yieldTimer := if s.oar.owner = .peer p then .running s.oar.yield else s.oar.yieldTimer }
            else s.oar }))

/-- The accepted commands on the queue and the lines: RESUME makes it RUNNING (R38); DRAIN_MARK marks the tail, or
sets DRAIN_DONE pending on an empty queue (R40); INVALIDATE invalidates every line (R65); DISCARD removes the
WAITING posts, sets the counter to the oldest of them, invalidates their lines, makes one record, leaves the queue
RUNNING with merging closed, and the leaving actions follow (R39, R42). -/
def Obligations.QueueCommandEffects : Prop :=
  ∀ (s : State) (d : List Byte),
    let done := s.framed .ok d
    (s.frameAnswer .resume = some (.ok, d) →
      exec .resume s = .next (State.finish { done with pq := { s.pq with state := .running } })) ∧
    (s.frameAnswer .drainMark = some (.ok, d) →
      (∀ older tail, s.pq.posts = older ++ [tail] →
        exec .drainMark s = .next { done with pq := { s.pq with mark := some tail.seq } }) ∧
      (s.pq.posts = [] → exec .drainMark s = .next
        { done with
          pq := { s.pq with mark := none }
          flt := { s.flt with pend := { s.flt.pend with drainDone := true } } })) ∧
    (s.frameAnswer .invalidate = some (.ok, d) →
      exec .invalidate s = .next { done with ls := s.ls.invalidateWhere fun _ => true }) ∧
    (s.frameAnswer .discard = some (.ok, d) →
      let gone := s.pq.posts.filter fun p => p.state == .waiting
      let kept := s.pq.posts.filter fun p => p.state == .draining
      (gone = [] → exec .discard s = .next (State.finish
        { done with pq := { s.pq with state := .running, mergeOpen := false } })) ∧
      (∀ first last, gone.head? = some first → gone.getLast? = some last →
        exec .discard s = .next (State.finish (State.settleDemand (State.admitWrite
          (let marked := ∃ m, s.pq.mark = some m ∧ m ∈ gone.map Post.seq
          let flt := s.flt.take
            { kind := .discarded, origin := .management, range := some ⟨first.seq, last.seq, gone.length⟩ }
          { done with
            pq := { s.pq with
              posts := kept, nextSeq := first.seq, state := .running, mergeOpen := false
              mark := if marked then kept.head?.map Post.seq else s.pq.mark }
            ls := s.ls.invalidateWhere fun b => gone.any fun p => p.block == b
            mpe := { s.mpe with
              obligation := if ∃ o, s.mpe.obligation = some o ∧ o ∈ gone.map Post.seq then none
                else s.mpe.obligation }
            flt := if marked ∧ kept = [] then { flt with pend := { flt.pend with drainDone := true } } else flt }))))))

/-- What the Line Store's own operations do. A line invalidation makes a VALID line INVALID, marks the FILLING line
STALE, and changes nothing else: no data, no recency order, no other line (R47). A way moved to the front of its set's
recency order leaves the other three in their order behind it (R46). The victim is the lowest-numbered INVALID way, else
the way at the back of the order (R55). An allocation makes the victim of the block's set FILLING with the block, keeps
its data, moves it to the front, and occupies the fill context with nothing arrived or written and no flag set (R56). A
write update writes its bytes into the VALID or FILLING line of its block, sets them in the FILLING line's write mask,
STALE or not, and changes nothing else; without such a line it does nothing (R63, R64). At the end of a fill the line
leaves FILLING with its data, and the fill context empties (R60). -/
def Obligations.LineStoreUpdates : Prop :=
  (∀ (l : LineStore) (b : Block → Bool) (i : Fin 8) (w : Fin 4),
    (l.invalidateWhere b).line i w =
      (if b (l.line i w).block = true ∧ (l.line i w).state = .valid then { l.line i w with state := .invalid }
       else l.line i w) ∧
    (l.invalidateWhere b).sets[i].recency = l.sets[i].recency ∧
    (l.invalidateWhere b).fill = l.fill.map fun f => if b f.block = true then { f with stale := true } else f) ∧
  (∀ (l : LineStore) (i : Fin 8) (w : Fin 4),
    (∀ (j : Fin 8) (v : Fin 4), (l.touch i w).line j v = l.line j v) ∧ (l.touch i w).fill = l.fill ∧
    (∀ j : Fin 8, j ≠ i → (l.touch i w).sets[j].recency = l.sets[j].recency) ∧
    ∀ before after : List (Fin 4), l.sets[i].recency = before ++ w :: after → w ∉ before → w ∉ after →
      (l.touch i w).sets[i].recency = w :: (before ++ after)) ∧
  (∀ s : LineSet,
    (∀ w : Fin 4, s.ways[w].state = .invalid → (∀ v : Fin 4, v < w → s.ways[v].state ≠ .invalid) → s.victim = w) ∧
    ((∀ w : Fin 4, s.ways[w].state ≠ .invalid) →
      ∀ (before : List (Fin 4)) (w : Fin 4), s.recency = before ++ [w] → s.victim = w)) ∧
  (∀ (l : LineStore) (b : Block) (first count : Nat) (i : Fin 8) (w : Fin 4),
    let v := l.sets[setOf b].victim
    (l.allocate b first count).line i w =
      (if i = setOf b ∧ w = v then { l.line i w with state := .filling, block := b } else l.line i w) ∧
    (l.allocate b first count).sets[i].recency =
      (if i = setOf b then (l.touch i v).sets[i].recency else l.sets[i].recency) ∧
    (l.allocate b first count).fill = some
      { set := setOf b, way := v, block := b, first, count, answered := false, arrived := 0, written := 0
        stale := false, veto := false }) ∧
  (∀ (l : LineStore) (b : Block) (m : Mask) (d : BlockData),
    ((∀ w, (l.line (setOf b) w).state = .invalid ∨ (l.line (setOf b) w).block ≠ b) → l.writeUpdate b m d = l) ∧
    ∀ w, l.distinct = true → (l.line (setOf b) w).state ≠ .invalid → (l.line (setOf b) w).block = b →
      (∃ data : BlockData, (l.writeUpdate b m d).line (setOf b) w = { l.line (setOf b) w with data } ∧
        ∀ k : Fin 16, data[k] = if m.getLsbD k.val then d[k] else (l.line (setOf b) w).data[k]) ∧
      (∀ (i : Fin 8) (v : Fin 4), i ≠ setOf b ∨ v ≠ w → (l.writeUpdate b m d).line i v = l.line i v) ∧
      (∀ i : Fin 8, (l.writeUpdate b m d).sets[i].recency = l.sets[i].recency) ∧
      (l.writeUpdate b m d).fill =
        if (l.line (setOf b) w).state = .filling then l.fill.map fun f => { f with written := f.written ||| m }
        else l.fill) ∧
  (∀ (l : LineStore) (f : FillContext) (valid : Bool) (i : Fin 8) (w : Fin 4), l.fill = some f →
    (l.endFill valid).line i w =
      (if i = f.set ∧ w = f.way then { l.line i w with state := if valid then .valid else .invalid }
       else l.line i w) ∧
    (l.endFill valid).sets[i].recency = l.sets[i].recency ∧ (l.endFill valid).fill = none)

/-! ## Rules of the whole part -/

/-- The map changes only by a region rewrite and power-on; the other items only by their own SET frames and
power-on, through host resets and everything else (R3, R118, R119, R131, R132, R178). -/
def Obligations.ItemsChangeOnlyBySet : Prop :=
  ∀ (c : Instr) (s t : State), exec c s = .next t → (∀ w1 w0 mcs hRst held, c ≠ .powerOn w1 w0 mcs hRst held) →
    ((∀ item v, c ≠ .regionRewrite item v) → t.rmap = s.rmap) ∧
    ((∀ item v, c.frame ≠ some (.set item v)) → t.items = s.items) ∧
    (∀ (i : Fin 13) (item : Byte) (v : BitVec 16), c.frame = some (.set item v) →
      item ≠ BitVec.ofNat 8 (0x20 + i.val) → t.items[i.val]? = s.items[i.val]?)

/-- A record leaves the log only by POP_FAULT, CLEAR_LOG or power-on, and LOST is cleared only by the last two; the
log keeps its order and never holds more than eight records; host reset changes neither. A record that is taken joins
the log at its end while it holds fewer than eight, and is dropped with LOST set while it holds eight; the RECORD bit is
pending after either, and nothing else of the Fault Unit changes. -/
def Obligations.LogLosesRecordsOnlyByCommand : Prop :=
  ∀ (c : Instr) (s t : State), exec c s = .next t →
    (s.flt.log.length ≤ 8 → t.flt.log.length ≤ 8) ∧
    (c ≠ .popFault → c ≠ .clearLog → (∀ w1 w0 mcs hRst held, c ≠ .powerOn w1 w0 mcs hRst held) →
      s.flt.log <+: t.flt.log ∧ (s.flt.lost = true → t.flt.lost = true)) ∧
    (c = .popFault → (t.flt.log = s.flt.log ∨ t.flt.log = s.flt.log.tail) ∧ t.flt.lost = s.flt.lost) ∧
    (∀ r : FaultRecord,
      (s.flt.log.length < 8 → s.flt.take r =
        { s.flt with log := s.flt.log ++ [r], pend := { s.flt.pend with record := true } }) ∧
      (8 ≤ s.flt.log.length → s.flt.take r =
        { s.flt with lost := true, pend := { s.flt.pend with record := true } })) ∧
    ((∃ w1 w0 mcs hRst, c = .powerOn w1 w0 mcs hRst none) → t.flt.log = [] ∧ t.flt.lost = false) ∧
    (c = .hostReset → t.flt.log = s.flt.log ∧ t.flt.lost = s.flt.lost) ∧
    s.settleFrame (.get 0x30) = (.ok, s.statusItem) ∧
    (s.flt.log.length ≤ 8 → ∃ byte4, s.statusItem[4]? = some byte4 ∧
      byte4.toNat % 16 = s.flt.log.length ∧ byte4.getLsbD 4 = s.flt.lost)

/-- But for DISCARD and power-on, posts leave the queue only from its head, one a step at most; new posts join only
at the tail, and the next-sequence counter advances by one for each; no post changes its seq, block or snapshot
(R15, R19, R35). -/
def Obligations.PostsLeaveFromTheHead : Prop :=
  ∀ (c : Instr) (s t : State), exec c s = .next t → c ≠ .discard →
    (∀ w1 w0 mcs hRst held, c ≠ .powerOn w1 w0 mcs hRst held) →
    ∃ (n : Nat) (new : List (Seq × Block × Snapshot)), n ≤ 1 ∧
      t.pq.posts.map Post.identity = (s.pq.posts.map Post.identity).drop n ++ new ∧
      t.pq.nextSeq = s.pq.nextSeq + BitVec.ofNat 8 new.length

/-- A peer that owns the M-port keeps it, its grant line with it, through every step but its own release and
power-on (R135, R141, R145). -/
def Obligations.PeerKeepsPortUntilRelease : Prop :=
  ∀ (c : Instr) (s t : State) (p : Peer), exec c s = .next t → s.oar.owner = .peer p → c ≠ .peerRelease p →
    (∀ w1 w0 mcs hRst held, c ≠ .powerOn w1 w0 mcs hRst held) →
    t.oar.owner = .peer p ∧ t.oar.grant p = true

/-- A read that its take answers OK returns, for each byte, the value of the newest pending host write to it (R29):
from a line as well as from the queue, in every state that keeps the part's invariant. -/
def Obligations.ReadsAreNeverStale : Prop :=
  ∀ (c : Instr) (h : HostRequest) (s t : State) (bytes : List Byte), s.inv = true → c.request = some h →
    h.kind ≠ .write → s.hru.takes → exec c s = .next t → t.out.answers = [⟨.ok, bytes⟩] →
    bytes.length = h.byteCount ∧
    ∀ (k : Nat) (i : Fin 16) (older younger : List Post) (p : Post), k < h.byteCount →
      i.val = offsetOf h.address + k → s.pq.posts = older ++ p :: younger → p.block = blockOf h.address →
      p.mask.getLsbD i.val = true →
      (∀ x ∈ younger, ¬(x.block = blockOf h.address ∧ x.mask.getLsbD i.val = true)) →
      bytes[k]? = some p.data[i]

/-! ## Invariants -/

/-- Every step keeps the Post Queue's form: at most eight posts, seqs consecutive up to the counter, only the head
DRAINING (R19, R33). -/
def Obligations.StepKeepsQueueForm : Prop :=
  ∀ s t : State, s.pq.wf = true → step s = .next t → t.pq.wf = true

/-- Every step keeps every configuration item in its range, the count of host clocks below the prescaler, every region's
size code at or below 20 (R1, R102, R178), and the link in the form of Table 10-1 (R173, R174). -/
def Obligations.StepKeepsItemsInRange : Prop :=
  ∀ s t : State, s.itemsWf = true → step s = .next t → t.itemsWf = true

/-- Every step leaves nothing to do on the M-port: no regarded request at a free port, no bridge that idles on it
but for a lock hold, no spent tenure while another waits (R112, R115, R134, R138). The model makes at most eight
moves in a step, log entry 22. -/
def Obligations.StepLeavesPortSettled : Prop :=
  ∀ s t : State, s.settled = true → step s = .next t → t.settled = true

/-- Every step keeps the part's whole invariant: the forms of its blocks, the agreement of the HRU, the MPE, the
queue and the lines about the work in hand, the bridge's hold of the M-port under a lock, and the agreement of every
line with the posts of its block. -/
def Obligations.StepKeepsInvariant : Prop :=
  ∀ s t : State, s.inv = true → step s = .next t → t.inv = true

/-- Every VALID line lies in a block whose governing region, as the map stands at that moment, carries effective
KEEP (R16): every step keeps it, in states that keep the part's invariant. -/
def Obligations.StepKeepsLinesInKeepRegions : Prop :=
  ∀ s t : State, s.inv = true → s.linesKept = true → step s = .next t → t.linesKept = true

/-- The part at reset keeps the invariants. -/
def Obligations.ResetKeepsInvariant : Prop :=
  State.reset.inv = true ∧ State.reset.linesKept = true ∧ State.reset.itemsWf = true ∧ State.reset.flt.log = []

end
end

