-- ==== Sys2Proof/Laws/State.lean ====
section
/-! SUPPORT. Every field of the state after each basic update, by `rfl`. -/

namespace Sys2Proof.Machine

/-! ## The start of a command -/

@[simp] theorem State.begin_rmap (s : State) : s.begin.rmap = s.rmap := rfl
@[simp] theorem State.begin_pq (s : State) : s.begin.pq = s.pq := rfl
@[simp] theorem State.begin_ls (s : State) : s.begin.ls = s.ls := rfl
@[simp] theorem State.begin_hru (s : State) : s.begin.hru = s.hru := rfl
@[simp] theorem State.begin_mpe (s : State) : s.begin.mpe = s.mpe := rfl
@[simp] theorem State.begin_port (s : State) : s.begin.port = s.port := rfl
@[simp] theorem State.begin_oar (s : State) : s.begin.oar = s.oar := rfl
@[simp] theorem State.begin_flt (s : State) : s.begin.flt = s.flt := rfl
@[simp] theorem State.begin_link (s : State) : s.begin.link = s.link := rfl
@[simp] theorem State.begin_tb (s : State) : s.begin.tb = s.tb := rfl
@[simp] theorem State.begin_out (s : State) : s.begin.out = .none := rfl
@[simp] theorem State.begin_pending (s : State) : s.begin.pending = s.pending := rfl

/-! ## Taking a record -/

@[simp] theorem State.record_rmap (s : State) (r : FaultRecord) : (s.record r).rmap = s.rmap := rfl
@[simp] theorem State.record_pq (s : State) (r : FaultRecord) : (s.record r).pq = s.pq := rfl
@[simp] theorem State.record_ls (s : State) (r : FaultRecord) : (s.record r).ls = s.ls := rfl
@[simp] theorem State.record_hru (s : State) (r : FaultRecord) : (s.record r).hru = s.hru := rfl
@[simp] theorem State.record_mpe (s : State) (r : FaultRecord) : (s.record r).mpe = s.mpe := rfl
@[simp] theorem State.record_port (s : State) (r : FaultRecord) : (s.record r).port = s.port := rfl
@[simp] theorem State.record_oar (s : State) (r : FaultRecord) : (s.record r).oar = s.oar := rfl
@[simp] theorem State.record_flt (s : State) (r : FaultRecord) : (s.record r).flt = s.flt.take r := rfl
@[simp] theorem State.record_link (s : State) (r : FaultRecord) : (s.record r).link = s.link := rfl
@[simp] theorem State.record_tb (s : State) (r : FaultRecord) : (s.record r).tb = s.tb := rfl
@[simp] theorem State.record_out (s : State) (r : FaultRecord) : (s.record r).out = s.out := rfl
@[simp] theorem State.record_pending (s : State) (r : FaultRecord) : (s.record r).pending = s.pending := rfl

/-! ## An answer -/

@[simp] theorem State.answer_rmap (s : State) (v : AnswerValue) (d : List Byte) : (s.answer v d).rmap = s.rmap := rfl
@[simp] theorem State.answer_pq (s : State) (v : AnswerValue) (d : List Byte) : (s.answer v d).pq = s.pq := rfl
@[simp] theorem State.answer_ls (s : State) (v : AnswerValue) (d : List Byte) : (s.answer v d).ls = s.ls := rfl
@[simp] theorem State.answer_hru (s : State) (v : AnswerValue) (d : List Byte) :
    (s.answer v d).hru = { s.hru with request := none } := rfl
@[simp] theorem State.answer_mpe (s : State) (v : AnswerValue) (d : List Byte) : (s.answer v d).mpe = s.mpe := rfl
@[simp] theorem State.answer_port (s : State) (v : AnswerValue) (d : List Byte) : (s.answer v d).port = s.port := rfl
@[simp] theorem State.answer_oar (s : State) (v : AnswerValue) (d : List Byte) : (s.answer v d).oar = s.oar := rfl
@[simp] theorem State.answer_flt (s : State) (v : AnswerValue) (d : List Byte) : (s.answer v d).flt = s.flt := rfl
@[simp] theorem State.answer_link (s : State) (v : AnswerValue) (d : List Byte) : (s.answer v d).link = s.link := rfl
@[simp] theorem State.answer_tb (s : State) (v : AnswerValue) (d : List Byte) : (s.answer v d).tb = s.tb := rfl
@[simp] theorem State.answer_out (s : State) (v : AnswerValue) (d : List Byte) :
    (s.answer v d).out = { s.out with answers := s.out.answers ++ [⟨v, d⟩] } := rfl
@[simp] theorem State.answer_pending (s : State) (v : AnswerValue) (d : List Byte) :
    (s.answer v d).pending = s.pending := rfl

/-! ## A wait value -/

@[simp] theorem State.setWait_rmap (s : State) (w : Wait) : (s.setWait w).rmap = s.rmap := rfl
@[simp] theorem State.setWait_pq (s : State) (w : Wait) : (s.setWait w).pq = s.pq := rfl
@[simp] theorem State.setWait_ls (s : State) (w : Wait) : (s.setWait w).ls = s.ls := rfl
@[simp] theorem State.setWait_hru (s : State) (w : Wait) :
    (s.setWait w).hru = { s.hru with request := s.hru.request.map fun r => { r with wait := w } } := rfl
@[simp] theorem State.setWait_mpe (s : State) (w : Wait) : (s.setWait w).mpe = s.mpe := rfl
@[simp] theorem State.setWait_port (s : State) (w : Wait) : (s.setWait w).port = s.port := rfl
@[simp] theorem State.setWait_oar (s : State) (w : Wait) : (s.setWait w).oar = s.oar := rfl
@[simp] theorem State.setWait_flt (s : State) (w : Wait) : (s.setWait w).flt = s.flt := rfl
@[simp] theorem State.setWait_link (s : State) (w : Wait) : (s.setWait w).link = s.link := rfl
@[simp] theorem State.setWait_tb (s : State) (w : Wait) : (s.setWait w).tb = s.tb := rfl
@[simp] theorem State.setWait_out (s : State) (w : Wait) : (s.setWait w).out = s.out := rfl
@[simp] theorem State.setWait_pending (s : State) (w : Wait) : (s.setWait w).pending = s.pending := rfl

/-! ## The end of a lock -/

@[simp] theorem State.dropLock_rmap (s : State) : s.dropLock.rmap = s.rmap := rfl
@[simp] theorem State.dropLock_pq (s : State) : s.dropLock.pq = s.pq := rfl
@[simp] theorem State.dropLock_ls (s : State) : s.dropLock.ls = s.ls := rfl
@[simp] theorem State.dropLock_hru (s : State) : s.dropLock.hru = { s.hru with lock := none } := rfl
@[simp] theorem State.dropLock_mpe (s : State) : s.dropLock.mpe = s.mpe := rfl
@[simp] theorem State.dropLock_port (s : State) : s.dropLock.port = s.port := rfl
@[simp] theorem State.dropLock_oar (s : State) : s.dropLock.oar = s.oar := rfl
@[simp] theorem State.dropLock_flt (s : State) : s.dropLock.flt = s.flt := rfl
@[simp] theorem State.dropLock_link (s : State) : s.dropLock.link = s.link := rfl
@[simp] theorem State.dropLock_tb (s : State) : s.dropLock.tb = s.tb := rfl
@[simp] theorem State.dropLock_out (s : State) : s.dropLock.out = s.out := rfl
@[simp] theorem State.dropLock_pending (s : State) : s.dropLock.pending = s.pending := rfl

/-! ## The close of merging -/

@[simp] theorem State.closeMerge_rmap (s : State) : s.closeMerge.rmap = s.rmap := rfl
@[simp] theorem State.closeMerge_pq (s : State) : s.closeMerge.pq = { s.pq with mergeOpen := false } := rfl
@[simp] theorem State.closeMerge_ls (s : State) : s.closeMerge.ls = s.ls := rfl
@[simp] theorem State.closeMerge_hru (s : State) : s.closeMerge.hru = s.hru := rfl
@[simp] theorem State.closeMerge_mpe (s : State) : s.closeMerge.mpe = s.mpe := rfl
@[simp] theorem State.closeMerge_port (s : State) : s.closeMerge.port = s.port := rfl
@[simp] theorem State.closeMerge_oar (s : State) : s.closeMerge.oar = s.oar := rfl
@[simp] theorem State.closeMerge_flt (s : State) : s.closeMerge.flt = s.flt := rfl
@[simp] theorem State.closeMerge_link (s : State) : s.closeMerge.link = s.link := rfl
@[simp] theorem State.closeMerge_tb (s : State) : s.closeMerge.tb = s.tb := rfl
@[simp] theorem State.closeMerge_out (s : State) : s.closeMerge.out = s.out := rfl
@[simp] theorem State.closeMerge_pending (s : State) : s.closeMerge.pending = s.pending := rfl

/-! ## An address phase -/

@[simp] theorem State.issue_rmap (s : State) (t : Txn) : (s.issue t).rmap = s.rmap := rfl
@[simp] theorem State.issue_pq (s : State) (t : Txn) : (s.issue t).pq = s.pq := rfl
@[simp] theorem State.issue_ls (s : State) (t : Txn) : (s.issue t).ls = s.ls := rfl
@[simp] theorem State.issue_hru (s : State) (t : Txn) : (s.issue t).hru = s.hru := rfl
@[simp] theorem State.issue_mpe (s : State) (t : Txn) :
    (s.issue t).mpe = { s.mpe with txn := some t, beatTimer := .running s.mpe.beatLimit } := rfl
@[simp] theorem State.issue_port (s : State) (t : Txn) : (s.issue t).port = t.phase := rfl
@[simp] theorem State.issue_oar (s : State) (t : Txn) : (s.issue t).oar = s.oar := rfl
@[simp] theorem State.issue_flt (s : State) (t : Txn) : (s.issue t).flt = s.flt := rfl
@[simp] theorem State.issue_link (s : State) (t : Txn) : (s.issue t).link = s.link := rfl
@[simp] theorem State.issue_tb (s : State) (t : Txn) : (s.issue t).tb = s.tb := rfl
@[simp] theorem State.issue_out (s : State) (t : Txn) : (s.issue t).out = s.out := rfl
@[simp] theorem State.issue_pending (s : State) (t : Txn) : (s.issue t).pending = s.pending := rfl

/-! ## The end of a transaction -/

@[simp] theorem State.endTxn_rmap (s : State) : s.endTxn.rmap = s.rmap := rfl
@[simp] theorem State.endTxn_pq (s : State) : s.endTxn.pq = s.pq := rfl
@[simp] theorem State.endTxn_ls (s : State) : s.endTxn.ls = s.ls := rfl
@[simp] theorem State.endTxn_hru (s : State) : s.endTxn.hru = s.hru := rfl
@[simp] theorem State.endTxn_mpe (s : State) : s.endTxn.mpe = { s.mpe with txn := none, beatTimer := .stopped } := rfl
@[simp] theorem State.endTxn_port (s : State) : s.endTxn.port = none := rfl
@[simp] theorem State.endTxn_oar (s : State) : s.endTxn.oar = s.oar := rfl
@[simp] theorem State.endTxn_flt (s : State) : s.endTxn.flt = s.flt := rfl
@[simp] theorem State.endTxn_link (s : State) : s.endTxn.link = s.link := rfl
@[simp] theorem State.endTxn_tb (s : State) : s.endTxn.tb = s.tb := rfl
@[simp] theorem State.endTxn_out (s : State) : s.endTxn.out = s.out := rfl
@[simp] theorem State.endTxn_pending (s : State) : s.endTxn.pending = s.pending := rfl

/-! ## The fracture of a transaction -/

@[simp] theorem State.fracture_rmap (s : State) (t : Txn) : (s.fracture t).rmap = s.rmap := rfl
@[simp] theorem State.fracture_pq (s : State) (t : Txn) : (s.fracture t).pq = s.pq := rfl
@[simp] theorem State.fracture_ls (s : State) (t : Txn) : (s.fracture t).ls = s.ls := rfl
@[simp] theorem State.fracture_hru (s : State) (t : Txn) : (s.fracture t).hru = s.hru := rfl
@[simp] theorem State.fracture_mpe (s : State) (t : Txn) :
    (s.fracture t).mpe = { s.mpe with txn := some { t with state := .fractured }, beatTimer := .stopped } := rfl
@[simp] theorem State.fracture_port (s : State) (t : Txn) : (s.fracture t).port = none := rfl
@[simp] theorem State.fracture_oar (s : State) (t : Txn) : (s.fracture t).oar = { s.oar with owner := .none } := rfl
@[simp] theorem State.fracture_flt (s : State) (t : Txn) : (s.fracture t).flt = s.flt := rfl
@[simp] theorem State.fracture_link (s : State) (t : Txn) : (s.fracture t).link = s.link := rfl
@[simp] theorem State.fracture_tb (s : State) (t : Txn) : (s.fracture t).tb = s.tb := rfl
@[simp] theorem State.fracture_out (s : State) (t : Txn) : (s.fracture t).out = s.out := rfl
@[simp] theorem State.fracture_pending (s : State) (t : Txn) : (s.fracture t).pending = s.pending := rfl

/-! ## A retry toward the owning peer -/

@[simp] theorem State.retryPeer_rmap (s : State) : s.retryPeer.rmap = s.rmap := rfl
@[simp] theorem State.retryPeer_pq (s : State) : s.retryPeer.pq = s.pq := rfl
@[simp] theorem State.retryPeer_ls (s : State) : s.retryPeer.ls = s.ls := rfl
@[simp] theorem State.retryPeer_hru (s : State) : s.retryPeer.hru = s.hru := rfl
@[simp] theorem State.retryPeer_mpe (s : State) : s.retryPeer.mpe = s.mpe := rfl
@[simp] theorem State.retryPeer_port (s : State) : s.retryPeer.port = none := rfl
@[simp] theorem State.retryPeer_oar (s : State) : s.retryPeer.oar = s.oar := rfl
@[simp] theorem State.retryPeer_flt (s : State) : s.retryPeer.flt = s.flt := rfl
@[simp] theorem State.retryPeer_link (s : State) : s.retryPeer.link = s.link := rfl
@[simp] theorem State.retryPeer_tb (s : State) : s.retryPeer.tb = s.tb := rfl
@[simp] theorem State.retryPeer_out (s : State) : s.retryPeer.out = { s.out with peerRetry := true } := rfl
@[simp] theorem State.retryPeer_pending (s : State) : s.retryPeer.pending = s.pending := rfl

/-! ## The completion of a frame -/

@[simp] theorem State.framed_rmap (s : State) (st : Status) (d : List Byte) : (s.framed st d).rmap = s.rmap := rfl
@[simp] theorem State.framed_pq (s : State) (st : Status) (d : List Byte) : (s.framed st d).pq = s.pq := rfl
@[simp] theorem State.framed_ls (s : State) (st : Status) (d : List Byte) : (s.framed st d).ls = s.ls := rfl
@[simp] theorem State.framed_hru (s : State) (st : Status) (d : List Byte) : (s.framed st d).hru = s.hru := rfl
@[simp] theorem State.framed_mpe (s : State) (st : Status) (d : List Byte) : (s.framed st d).mpe = s.mpe := rfl
@[simp] theorem State.framed_port (s : State) (st : Status) (d : List Byte) : (s.framed st d).port = s.port := rfl
@[simp] theorem State.framed_oar (s : State) (st : Status) (d : List Byte) : (s.framed st d).oar = s.oar := rfl
@[simp] theorem State.framed_flt (s : State) (st : Status) (d : List Byte) : (s.framed st d).flt = s.flt := rfl
@[simp] theorem State.framed_link (s : State) (st : Status) (d : List Byte) : (s.framed st d).link = .idle := rfl
@[simp] theorem State.framed_tb (s : State) (st : Status) (d : List Byte) : (s.framed st d).tb = s.tb := rfl
@[simp] theorem State.framed_out (s : State) (st : Status) (d : List Byte) :
    (s.framed st d).out = ⟨[], false, st.byte :: d⟩ := rfl
@[simp] theorem State.framed_pending (s : State) (st : Status) (d : List Byte) :
    (s.framed st d).pending = s.pending := rfl

/-! ## The pieces of a taken request -/

@[simp] theorem State.requestOf_kind (s : State) (h : HostRequest) : (s.requestOf h).kind = h.kind := rfl
@[simp] theorem State.requestOf_addr (s : State) (h : HostRequest) : (s.requestOf h).addr = h.address := rfl
@[simp] theorem State.requestOf_count (s : State) (h : HostRequest) : (s.requestOf h).count = h.byteCount := rfl
@[simp] theorem State.requestOf_data (s : State) (h : HostRequest) : (s.requestOf h).data = h.data := rfl
@[simp] theorem State.requestOf_snap (s : State) (h : HostRequest) :
    (s.requestOf h).snap = s.rmap.lookup h.address := rfl
@[simp] theorem State.requestOf_route (s : State) (h : HostRequest) :
    (s.requestOf h).route = classify h (s.rmap.lookup h.address) := rfl
@[simp] theorem State.requestOf_wait (s : State) (h : HostRequest) : (s.requestOf h).wait = .none := rfl
@[simp] theorem State.requestOf_block (s : State) (h : HostRequest) :
    (s.requestOf h).block = blockOf h.address := rfl
@[simp] theorem State.requestOf_mask (s : State) (h : HostRequest) :
    (s.requestOf h).mask = byteMask (offsetOf h.address) h.byteCount := rfl

@[simp] theorem State.requestOf_faultData (s : State) (h : HostRequest) : (s.requestOf h).faultData = h.faultData := by
  unfold Request.faultData HostRequest.faultData
  rfl

/-! ## Peers -/

@[simp] theorem Peers.get_put (ps : Peers) (p q : Peer) (x : PeerLine) :
    (ps.put p x).get q = if p = q then x else ps.get q := by
  cases p <;> cases q <;> rfl

end Sys2Proof.Machine
end

