-- ==== Sys2Proof/Laws/Requests.lean ====
section
/-! SUPPORT. From a host command to the take of its request, and what the shared operations on a taken request
come to, one lemma for each. -/

namespace Sys2Proof.Machine

/-! ## From the command to the take -/

theorem State.present_takes (s : State) (h : HostRequest) (ht : s.hru.takes) : s.present h = (s.take h).finish := by
  obtain ⟨hr, hp, hh⟩ := ht
  simp [State.present, Hru.canTake, hr, hp, hh]

/-- Each of the five host commands presents its request. -/
theorem exec_request (c : Instr) (h : HostRequest) (s : State) (hc : c.request = some h) :
    exec c s = .next (s.begin.present h) := by
  cases c <;> simp [Instr.request] at hc <;> subst hc <;> rfl

/-- A host command whose request the HRU can take runs the take and the end of the step. -/
theorem exec_takes (c : Instr) (h : HostRequest) (s : State) (hc : c.request = some h) (ht : s.hru.takes) :
    exec c s = .next (s.begin.take h).finish := by
  rw [exec_request c h s hc, State.present_takes s.begin h ht]

/-! ## Lookups -/

/-- Effective attributes are their own effective attributes (Table 1-3). -/
theorem RegionMap.lookup_effective (m : RegionMap) (a : Addr) : (m.lookup a).attrs.effective = (m.lookup a).attrs := by
  unfold RegionMap.lookup
  split <;> simp only [Attrs.effective] <;> congr 1 <;> grind

theorem RegionMap.device_of_post (m : RegionMap) (a : Addr) (h : (m.lookup a).attrs.post = true) :
    (m.lookup a).attrs.device = false := by
  rw [← lookup_effective] at h
  simp [Attrs.effective] at h
  exact h.2

theorem RegionMap.device_of_keep (m : RegionMap) (a : Addr) (h : (m.lookup a).attrs.keep = true) :
    (m.lookup a).attrs.device = false := by
  rw [← lookup_effective] at h
  simp [Attrs.effective] at h
  exact h.2

/-! ## Demands and hand-over -/

theorem State.handOver_lock (s : State) (r : Request) (h : r.route = .lock) :
    s.handOver r = { s with
      hru := { s.hru with request := s.hru.request.map fun r => { r with wait := .lock } }
      mpe := { s.mpe with locked := some r.work, demand := none } } := by
  simp [handOver, h, setWait]

theorem State.handOver_port (s : State) (r : Request) (h : r.route ≠ .lock) :
    s.handOver r = { s with
      hru := { s.hru with request := s.hru.request.map fun r => { r with wait := .port } }
      mpe := { s.mpe with handed := some r.work, demand := none } } := by
  simp [handOver, h, setWait]

/-- An empty-queue demand is met, waits, or is refused (R31, R32). -/
theorem State.emptyQueueDemand_cases (s : State) (r : Request) :
    s.pq.posts = [] ∧ s.emptyQueueDemand r = s.handOver r ∨
    (∃ older tail, s.pq.posts = older ++ [tail] ∧ s.pq.state = .running ∧
      s.emptyQueueDemand r = { s with mpe := { s.mpe with demand := some tail.seq } }.setWait .queue) ∨
    s.pq.posts ≠ [] ∧ s.pq.state = .halted ∧ s.emptyQueueDemand r = s.refuseDemand r := by
  rcases List.eq_nil_or_concat s.pq.posts with hp | ⟨older, tail, hp⟩
  on_goal 2 => rw [List.concat_eq_append] at hp
  · exact .inl ⟨hp, by simp [emptyQueueDemand, PostQueue.tail?, hp]⟩
  · cases hs : s.pq.state with
    | running =>
      refine .inr (.inl ⟨older, tail, hp, rfl, ?_⟩)
      simp [emptyQueueDemand, PostQueue.tail?, hp, hs]
    | halted =>
      refine .inr (.inr ⟨by simp [hp], rfl, ?_⟩)
      simp [emptyQueueDemand, PostQueue.tail?, hp, hs]

/-- A read that goes to the queue is forwarded, handed over, drained through, or refused (R29, R30, R32). -/
theorem State.queueRead_cases (s : State) (r : Request) :
    s.pq.forwards r.block r.mask = true ∧ s.queueRead r = s.answerOk r (s.pq.held r.block).2 ∨
    s.pq.forwards r.block r.mask = false ∧
      (s.pq.youngestOverlap r.block r.testRange = none ∧ s.queueRead r = s.handOver r ∨
      ∃ p, s.pq.youngestOverlap r.block r.testRange = some p ∧
        (s.pq.state = .running ∧
            s.queueRead r = { s with mpe := { s.mpe with demand := some p.seq } }.setWait .through ∨
          s.pq.state = .halted ∧ s.queueRead r = s.refuseDemand r)) := by
  unfold queueRead
  cases hf : s.pq.forwards r.block r.mask with
  | true => exact .inl ⟨rfl, by simp⟩
  | false =>
    refine .inr ⟨rfl, ?_⟩
    cases ho : s.pq.youngestOverlap r.block r.testRange with
    | none => exact .inl ⟨rfl, by simp⟩
    | some p =>
      refine .inr ⟨p, rfl, ?_⟩
      cases hs : s.pq.state with
      | running => exact .inl ⟨rfl, by simp⟩
      | halted => exact .inr ⟨rfl, by simp⟩

/-- A posted write merges, becomes a post, waits for room, or is refused (R21 to R26). -/
theorem State.offerWrite_cases (s : State) (r : Request) :
    s.pq.canMerge r.block (s.rmap.lookup r.addr) = true ∧
      s.offerWrite r = ({ s with pq := s.pq.merge r.mask (spreadWord r.data) }.writeUpdate r.block r.mask
        (spreadWord r.data)).answerOk r (spreadWord r.data) ∨
    s.pq.canMerge r.block (s.rmap.lookup r.addr) = false ∧
      (s.pq.posts.length < 8 ∧ s.offerWrite r = s.postWrite r ∨
      8 ≤ s.pq.posts.length ∧
        (s.pq.state = .running ∧ s.offerWrite r = s.setWait .room ∨
          s.pq.state = .halted ∧ s.offerWrite r = s.answerFault r .drainHalted none)) := by
  unfold offerWrite PostQueue.count Config.queueCapacity
  cases hm : s.pq.canMerge r.block (s.rmap.lookup r.addr) with
  | true => exact .inl ⟨rfl, by simp⟩
  | false =>
    refine .inr ⟨rfl, ?_⟩
    by_cases hl : s.pq.posts.length < 8
    · exact .inl ⟨hl, by simp [hl]⟩
    · refine .inr ⟨by omega, ?_⟩
      cases hs : s.pq.state with
      | running => exact .inl ⟨rfl, by simp [hl]⟩
      | halted => exact .inr ⟨rfl, by simp [hl]⟩

/-! ## Demands -/

/-- A post stands at or before another where the distance of their seqs is below eight (log entry 13). -/
theorem seqAtOrBefore_iff (a t : Seq) : seqAtOrBefore a t = true ↔ (t - a).toNat < 8 := decide_eq_true_iff

/-- Nothing at or before the target is left (R30). -/
theorem PostQueue.drainedThrough_iff (q : PostQueue) (d : Seq) :
    q.drainedThrough d = true ↔ ∀ p ∈ q.posts, 8 ≤ (d - p.seq).toNat := by
  simp only [drainedThrough, List.all_eq_true, Bool.not_eq_true', Bool.eq_false_iff, ne_eq, seqAtOrBefore_iff,
    Nat.not_lt]

/-! ## Reads that wait on a line -/

/-- Without a read that waits on the line, the FILLING line serves nothing. -/
theorem State.serveReader_of_wait (s : State) (h : ∀ r, s.hru.request = some r → r.wait ≠ .line) :
    s.serveReader = s := by
  unfold serveReader
  split
  · rename_i r f hr hf
    simp [h r hr]
  · rfl

/-- Without a read that waits on the line, the end of the line's fill releases nothing. -/
theorem State.releaseReader_of_wait (s : State) (h : ∀ r, s.hru.request = some r → r.wait ≠ .line) :
    s.releaseReader = s := by
  unfold releaseReader
  split
  · rename_i r hr
    simp [h r hr]
  · rfl

/-- A write update while no read waits on the line reaches the Line Store only. -/
theorem State.writeUpdate_of_wait (s : State) (b : Block) (m : Mask) (d : BlockData)
    (h : ∀ r, s.hru.request = some r → r.wait ≠ .line) :
    s.writeUpdate b m d = { s with ls := s.ls.writeUpdate b m d } :=
  serveReader_of_wait _ h

end Sys2Proof.Machine
end

