-- ==== Sys2Proof/Laws/Beats.lean ====
section
/-! SUPPORT. From a beat's ending to its effect on the transaction, and the winner of a round. -/

namespace Sys2Proof.Machine

/-! ## The beat in progress -/

theorem State.beatInProgress_begin (s : State) (t : Txn) (h : s.runs t) : s.begin.beatInProgress = some t := by
  obtain ⟨ho, hp, ht, hc, _⟩ := h
  simp [beatInProgress, begin, ho, hp, ht, hc]

theorem exec_mAck (s : State) (t : Txn) (d : Word) (v : Bool) (h : s.runs t) :
    exec (.mAck d v) s = .next (s.begin.ackBeat t d v).finish := by
  show Host.Outcome.next _ = _
  simp [State.terminate, Signals.ending, s.beatInProgress_begin t h]

theorem exec_mRetry (s : State) (t : Txn) (a v : Bool) (h : s.runs t) :
    exec (.mRetry a v) s = .next (s.begin.retryBeat t).finish := by
  show Host.Outcome.next _ = _
  simp [State.terminate, Signals.ending, s.beatInProgress_begin t h]

theorem exec_mFail (s : State) (t : Txn) (a r v : Bool) (h : s.runs t) :
    exec (.mFail a r v) s = .next (s.begin.failBeat t .fail).finish := by
  show Host.Outcome.next _ = _
  simp [State.terminate, Signals.ending, s.beatInProgress_begin t h]

theorem exec_beatTimeout (s : State) (t : Txn) (h : s.runs t) (hd : s.mpe.beatTimer = .running 0) :
    exec .beatTimeout s = .next (s.begin.failBeat t .timeout).finish := by
  show Host.Outcome.next _ = _
  simp [State.beatExpires, s.beatInProgress_begin t h, hd]

theorem State.syncPost_retryLimit (s : State) (t : Txn) : (s.syncPost t).mpe = s.mpe := by
  unfold syncPost
  split <;> rfl

theorem State.syncPost_of_kind (s : State) (t : Txn) (h : t.kind ≠ .drain) : s.syncPost t = s := by
  simp [syncPost, h]

/-- A failed beat of a transaction other than a DRAIN ends it by failure, whatever failed the beat. -/
theorem exec_beatFailure (c : Instr) (cause : Cause) (s : State) (t : Txn) (h : s.runs t)
    (hc : c.beatFailure s t = some cause) (hk : t.kind ≠ .drain) :
    ∃ t' : Txn, t'.kind = t.kind ∧ t'.block = t.block ∧ t'.snap = t.snap ∧
      exec c s = .next (State.finish (State.fail s.begin.endTxn t' cause)) := by
  have hab := h.2.2.2.2
  unfold Instr.beatFailure at hc
  split at hc
  · injection hc with hc
    subst hc
    exact ⟨t, rfl, rfl, rfl, by rw [exec_mFail s t _ _ _ h]; simp [State.failBeat, hab]⟩
  · split at hc <;> simp at hc
    subst hc
    exact ⟨t, rfl, rfl, rfl, by rw [exec_beatTimeout s t h (by assumption)]; simp [State.failBeat, hab]⟩
  · rename_i hle
    split at hc <;> simp at hc
    subst hc
    refine ⟨{ t with retryCount := t.retryCount + 1 }, rfl, rfl, rfl, ?_⟩
    rw [exec_mRetry s t _ _ h]
    simp_all [State.retryBeat, State.syncPost]
  · cases hc

/-! ## Rounds -/

/-- The winner is one of the requesters, and none stands at a higher level (R134). -/
theorem winnerOf_mem (x : List (Owner × Nat)) (o : Owner) (h : winnerOf x = some o) :
    ∃ l, (o, l) ∈ x ∧ ∀ y ∈ x, y.2 ≤ l := by
  induction x with
  | nil => simp [winnerOf] at h
  | cons e rest ih =>
    obtain ⟨a, l⟩ := e
    simp only [winnerOf] at h
    split at h
    · rename_i hh
      simp at hh h
      subst h
      refine ⟨l, by simp, fun y hy => ?_⟩
      simp at hy
      rcases hy with rfl | hy
      · simp
      · exact hh y.1 y.2 hy
    · rename_i hh
      obtain ⟨k, h1, h2⟩ := ih h
      refine ⟨k, by simp [h1], fun y hy => ?_⟩
      simp at hy
      rcases hy with rfl | hy
      · simp at hh
        obtain ⟨a', b', h3, h4⟩ := hh
        have := h2 _ h3
        simp at this ⊢
        omega
      · exact h2 y hy

/-- A round with a regarded request has a winner (R134). -/
theorem winnerOf_isSome (x : List (Owner × Nat)) (h : x ≠ []) : (winnerOf x).isSome := by
  induction x with
  | nil => exact absurd rfl h
  | cons e rest ih =>
    obtain ⟨a, l⟩ := e
    simp only [winnerOf]
    split
    · rfl
    · rename_i hh
      refine ih fun hr => hh ?_
      simp [hr]

end Sys2Proof.Machine
end

