-- ==== Sys2Proof/Laws/Frames.lean ====
section
/-! SUPPORT. What a bit does to the link; from a management command to its frame; and the completion of a frame:
what it answers, when its effect runs, and when it completes nothing. -/

namespace Sys2Proof.Machine

/-! ## The bits of a frame -/

@[simp] theorem Link.assertMcs_idle : Link.idle.assertMcs = .receiving [] := rfl
@[simp] theorem Link.assertMcs_blocked : Link.blocked.assertMcs = .blocked := rfl
@[simp] theorem Link.assertMcs_receiving (got : List Bool) : (Link.receiving got).assertMcs = .receiving got := rfl
@[simp] theorem Link.assertMcs_answering (f : Frame) (st : Status) (d : List Byte) (n : Nat) :
    (Link.answering f st d n).assertMcs = .answering f st d n := rfl
@[simp] theorem Link.assertMcs_done (f : Frame) (st : Status) (d : List Byte) :
    (Link.done f st d).assertMcs = .done f st d := rfl

@[simp] theorem Link.sendBit_answering (f : Frame) (st : Status) (d : List Byte) (n : Nat) :
    (Link.answering f st d n).sendBit = if n + 1 < 8 * (d.length + 1) then .answering f st d (n + 1) else .done f st d := rfl
@[simp] theorem Link.sendBit_blocked : Link.blocked.sendBit = .blocked := rfl
@[simp] theorem Link.sendBit_done (f : Frame) (st : Status) (d : List Byte) :
    (Link.done f st d).sendBit = .done f st d := rfl

@[simp] theorem Link.sendRest_answering (f : Frame) (st : Status) (d : List Byte) (n : Nat) :
    (Link.answering f st d n).sendRest = .done f st d := rfl
@[simp] theorem Link.sendRest_done (f : Frame) (st : Status) (d : List Byte) :
    (Link.done f st d).sendRest = .done f st d := rfl

/-- The status and answer of a frame do not depend on the link. -/
@[simp] theorem State.settleFrame_link (s : State) (l : Link) (f : Frame) :
    ({ s with link := l } : State).settleFrame f = s.settleFrame f := by
  cases f <;> rfl

@[simp] theorem State.settleFrame_begin (s : State) (f : Frame) : s.begin.settleFrame f = s.settleFrame f := by
  cases f <;> rfl

/-- Bytes after a frame's input are disregarded (R174, R176). -/
theorem Frame.parse_append (f : Frame) (input rest : List Byte) (h : Frame.parse input = some f) :
    Frame.parse (input ++ rest) = some f := by
  have ite {p : Prop} [Decidable p] {a a' b b' : Option Frame} (ha : a = some f → a' = some f)
      (hb : b = some f → b' = some f) : (if p then a else b) = some f → (if p then a' else b') = some f := by
    split
    · exact ha
    · exact hb
  have arg (make : Byte → Frame) (xs : List Byte) (h : parseArg make xs = some f) :
      parseArg make (xs ++ rest) = some f := by
    cases xs with
    | nil => cases h
    | cons => exact h
  have set (item : Byte) (xs : List Byte) : parseSet item xs = some f → parseSet item (xs ++ rest) = some f := by
    refine ite (fun h => ?_) (ite (fun h => ?_) id)
    · rcases xs with _ | ⟨a, _ | ⟨b, _ | ⟨c, _ | ⟨d, _ | ⟨e, xs⟩⟩⟩⟩⟩ <;> first | exact h | cases h
    · rcases xs with _ | ⟨a, _ | ⟨b, xs⟩⟩ <;> first | exact h | cases h
  rcases input with _ | ⟨c, xs⟩
  · cases h
  · refine ite (arg _ xs) (ite (fun h => ?_) (ite id (ite (arg _ xs) (ite (arg _ xs) (ite id (ite id (ite id
      (ite id (ite (arg _ xs) (ite id id)))))))))) h
    rcases xs with _ | ⟨item, value⟩
    · cases h
    · exact set item value h

/-- More bits leave the bytes that the first ones have made. -/
theorem bytesOf_append (got more : List Bool) : ∃ rest, bytesOf (got ++ more) = bytesOf got ++ rest := by
  induction got using bytesOf.induct with
  | case1 b7 b6 b5 b4 b3 b2 b1 b0 got ih =>
    obtain ⟨rest, h⟩ := ih
    exact ⟨rest, by simp [bytesOf, h]⟩
  | case2 got h =>
    rcases got with _ | ⟨b7, _ | ⟨b6, _ | ⟨b5, _ | ⟨b4, _ | ⟨b3, _ | ⟨b2, _ | ⟨b1, _ | ⟨b0, got⟩⟩⟩⟩⟩⟩⟩⟩
    case cons.cons.cons.cons.cons.cons.cons.cons => exact absurd rfl (h b7 b6 b5 b4 b3 b2 b1 b0 got)
    all_goals exact ⟨_, rfl⟩

/-- The bits of bytes make those bytes again (R173). -/
theorem bytesOf_bitsOf (bytes : List Byte) (more : List Bool) :
    bytesOf (bitsOf bytes ++ more) = bytes ++ bytesOf more := by
  induction bytes with
  | nil => rfl
  | cons b rest ih =>
    have h : ∀ b : Byte, (BitVec.ofBool (b.getLsbD 7) ++ BitVec.ofBool (b.getLsbD 6) ++ BitVec.ofBool (b.getLsbD 5) ++
        BitVec.ofBool (b.getLsbD 4) ++ BitVec.ofBool (b.getLsbD 3) ++ BitVec.ofBool (b.getLsbD 2) ++
        BitVec.ofBool (b.getLsbD 1) ++ BitVec.ofBool (b.getLsbD 0) : BitVec 8) = b := by decide
    rw [List.cons_append, ← ih]
    exact congrArg (· :: _) (h b)

/-- A bit in RECEIVING: it joins the input, or makes the answer point. -/
theorem State.clockBit_receiving (s : State) (got : List Bool) (b : Bool) (h : s.link = .receiving got) :
    s.clockBit b =
      { s with link := match Frame.parse (bytesOf (got ++ [b])) with
        | some f => .answering f (s.settleFrame f).1 (s.settleFrame f).2 0
        | none => .receiving (got ++ [b]) } := by
  simp only [clockBit, h]
  cases Frame.parse (bytesOf (got ++ [b])) <;> rfl

/-- A bit in another state: at most the output moves. -/
theorem State.clockBit_other (s : State) (b : Bool) (h : ∀ got, s.link ≠ .receiving got) :
    s.clockBit b = { s with link := s.link.sendBit } := by
  unfold clockBit
  split
  · exact absurd ‹_› (h _)
  · rfl

/-- Bits change the link and nothing else. -/
theorem State.clockIn_eq (s : State) (input : List Bool) : ∃ l, s.clockIn input = { s with link := l } := by
  have fold (l : Link) : ∃ l', input.foldl clockBit { s with link := l } = { s with link := l' } := by
    induction input generalizing l with
    | nil => exact ⟨l, rfl⟩
    | cons b rest ih =>
      rw [List.foldl_cons]
      cases l with
      | receiving got =>
        rw [clockBit_receiving _ got b rfl]
        exact ih _
      | _ => exact ih _
  exact fold _

/-! ## Completion -/

theorem State.sendRest_of_frameAnswer (s : State) (f : Frame) (st : Status) (d : List Byte)
    (h : s.frameAnswer f = some (st, d)) :
    (if s.link.awaits f then s.answerPoint f else s).link.sendRest = .done f st d := by
  unfold frameAnswer at h
  unfold Link.awaits
  split at h <;> simp_all [answerPoint]

theorem State.sendRest_of_frameAnswer_none (s : State) (f : Frame) (h : s.frameAnswer f = none) (g : Frame)
    (st : Status) (d : List Byte)
    (hd : (if s.link.awaits f then s.answerPoint f else s).link.sendRest = .done g st d) : g ≠ f := by
  unfold frameAnswer at h
  unfold Link.awaits at hd
  split at h <;> simp_all [Link.sendRest]

/-- A frame that completes with a status: its effect runs where the status is OK. -/
theorem State.completeFrame_begin (s : State) (f : Frame) (st : Status) (d : List Byte) (e : State → State)
    (h : s.frameAnswer f = some (st, d)) :
    s.begin.completeFrame f e = if st = .ok then e (s.framed st d) else s.framed st d := by
  have h' : s.begin.frameAnswer f = some (st, d) := h
  unfold completeFrame
  rw [sendRest_of_frameAnswer _ _ _ _ h']
  simp [framed, begin, Outputs.none]

/-- A frame that the link cannot complete does nothing. -/
theorem State.completeFrame_none (s : State) (f : Frame) (e : State → State) (h : s.frameAnswer f = none) :
    s.completeFrame f e = s := by
  unfold completeFrame
  split
  · rename_i g st d hd
    rw [if_neg (sendRest_of_frameAnswer_none _ _ h _ _ _ hd)]
  · rfl

/-! ## Commands and their frames -/

theorem State.completeInput_of_parse (s : State) (f : Frame) (input : List Byte) (e : State → State)
    (h : Frame.parse input = some f) : s.completeInput input e = s.completeFrame f e := by
  simp [completeInput, h]

/-- The input bytes of a SET of a two-byte item are that frame (Table 10-2). -/
theorem parse_setInput (item : Byte) (v : BitVec 16) (hr : isRegionItem item = false)
    (hp : isPlainItem item = true) : Frame.parse (setInput item v) = some (.set item v) := by
  have hv : v.extractLsb' 8 8 ++ v.extractLsb' 0 8 = v := by
    ext i hi
    simp only [BitVec.getElem_append, BitVec.getElem_extractLsb']
    split
    · simp [BitVec.getLsbD_eq_getElem hi]
    · rw [show 8 + (i - 8) = i by omega, BitVec.getLsbD_eq_getElem hi]
  simp only [Frame.parse, setInput, parseSet, hr, hp, hv]
  rfl

/-- Every management command is the completion of its frame with some effect; a GET, a VIEW_POST and a
BAD_COMMAND with none. -/
theorem exec_frame (c : Instr) (f : Frame) (s : State) (h : c.frame = some f) :
    ∃ e : State → State, exec c s = .next (s.begin.completeFrame f e) ∧
      ((∃ i, c = .get i) ∨ (∃ n, c = .viewPost n) ∨ (∃ b, c = .badCommand b) → e = id) := by
  have set (item : Byte) (v : BitVec 16) (e : State → State) (hr : isRegionItem item = false)
      (hp : isPlainItem item = true) :
      s.begin.completeInput (setInput item v) e = s.begin.completeFrame (.set item v) e :=
    State.completeInput_of_parse _ _ _ _ (parse_setInput item v hr hp)
  cases c <;> simp only [Instr.frame, Option.some.injEq, reduceCtorEq] at h
  all_goals try subst h
  case set item v =>
    exact ⟨fun t => t.setItem item v, congrArg _ (State.completeInput_of_parse _ _ _ _ h), by simp⟩
  case regionRewrite item v =>
    split at h
    · rename_i hr
      injection h with h
      subst h
      exact ⟨fun t => t.rewriteRegion item v, congrArg _ (if_pos hr), by simp⟩
    · cases h
  case badCommand b =>
    split at h
    · cases h
    · rename_i hb
      injection h with h
      subst h
      refine ⟨id, congrArg _ (if_pos ?_), by simp⟩
      simp [namesCommand] at hb
      simp [Frame.parse, hb]
  case get => exact ⟨id, rfl, by simp⟩
  case viewPost => exact ⟨id, rfl, by simp⟩
  case popFault => exact ⟨fun t => { t with flt := t.flt.pop }, rfl, by simp⟩
  case ackInt m => exact ⟨fun t => { t with flt := t.flt.ack m }, rfl, by simp⟩
  case resume => exact ⟨fun t => { t with pq := t.pq.resume }.finish, rfl, by simp⟩
  case discard => exact ⟨fun t => t.discardPosts.finish, rfl, by simp⟩
  case drainMark => exact ⟨State.markTail, rfl, by simp⟩
  case invalidate => exact ⟨fun t => { t with ls := t.ls.invalidateWhere fun _ => true }, rfl, by simp⟩
  case restorePeer n =>
    exact ⟨fun t => match peerOf n with
      | some p => { t with oar := t.oar.restore p }.finish
      | none => t, rfl, by simp⟩
  case clearLog => exact ⟨fun t => { t with flt := t.flt.clear }, rfl, by simp⟩
  case setPeerLevel p v =>
    exact ⟨_, congrArg _ (set _ v (fun t => t.setPeerLevelItem p v.toNat) (by cases p <;> rfl) (by cases p <;> rfl)),
      by simp⟩
  case setPrescaler v => exact ⟨_, congrArg _ (set _ v (fun t => t.setPrescalerItem v.toNat) rfl rfl), by simp⟩
  case setHighWaterMark v => exact ⟨_, congrArg _ (set _ v (fun t => t.setHighWaterItem v.toNat) rfl rfl), by simp⟩
  case setBaseLevel v => exact ⟨_, congrArg _ (set _ v (fun t => t.setBaseLevelItem v.toNat) rfl rfl), by simp⟩
  case setInterruptEnables v => exact ⟨_, congrArg _ (set _ v (fun t => t.setEnablesItem v) rfl rfl), by simp⟩

end Sys2Proof.Machine
end

