-- ==== Sys2Proof/Laws/Keeps.lean ====
section
/-! SUPPORT. What no shared operation of the HRU, the queue, the engine and the arbiter changes: the map, the
items, the Timebase, the link, the peers' lines and bars, H_RST, and the records that the fault log holds. One
lemma for each operation, so that no proof about a command unfolds it for these. -/

namespace Sys2Proof.Machine

/-- The part of the state that only its own commands change. -/
def State.fixed (s : State) :=
  (s.rmap, s.tb, s.link, s.pending, s.hru.hRst, s.hru.lockHold, s.mpe.beatLimit, s.mpe.retryLimit, s.pq.highWater,
    s.pq.haltOnDeferred, s.oar.peers, s.oar.baseLevel, s.oar.tenure, s.oar.yield, s.flt.enables)

/-- The fault log grows at its end only and keeps its capacity, and LOST stays set (R160, R161). -/
structure FaultUnit.Grows (f g : FaultUnit) : Prop where
  log : f.log <+: g.log
  lost : f.lost = true → g.lost = true
  capacity : f.log.length ≤ 8 → g.log.length ≤ 8

/-- `t` keeps what only its own commands change, and the records of the log. -/
structure State.Keeps (s t : State) : Prop where
  fixed : t.fixed = s.fixed
  grows : s.flt.Grows t.flt

theorem FaultUnit.Grows.refl (f : FaultUnit) : f.Grows f := ⟨List.prefix_rfl, id, id⟩

theorem FaultUnit.Grows.trans {f g h : FaultUnit} (a : f.Grows g) (b : g.Grows h) : f.Grows h :=
  ⟨a.log.trans b.log, b.lost ∘ a.lost, b.capacity ∘ a.capacity⟩

theorem FaultUnit.grows_take (f : FaultUnit) (r : FaultRecord) : f.Grows (f.take r) := by
  unfold FaultUnit.take Config.logCapacity
  split
  · exact ⟨List.prefix_append .., id, fun _ => by simp; omega⟩
  · exact ⟨List.prefix_rfl, fun _ => rfl, id⟩

theorem State.Keeps.refl (s : State) : s.Keeps s := ⟨rfl, .refl _⟩

/-- Two operations, the later one first, as they are read in `s.first.second`. -/
theorem State.Keeps.comp {s t u : State} (b : t.Keeps u) (a : s.Keeps t) : s.Keeps u :=
  ⟨b.fixed.trans a.fixed, a.grows.trans b.grows⟩

/-- An update that leaves the fault unit alone. -/
theorem State.Keeps.of_fixed {s t : State} (h : t.fixed = s.fixed) (hf : t.flt = s.flt) : s.Keeps t :=
  ⟨h, hf ▸ .refl _⟩

/-- An operation after an update that leaves the fault unit alone. -/
theorem State.Keeps.after {s t u : State} (b : t.Keeps u) (h : t.fixed = s.fixed) (hf : t.flt = s.flt) : s.Keeps u :=
  b.comp (.of_fixed h hf)

/-! ## Records, answers, demands -/

theorem State.keeps_record (s : State) (r : FaultRecord) : s.Keeps (s.record r) := by
  refine ⟨?_, s.flt.grows_take r⟩
  simp only [fixed, record_rmap, record_tb, record_link, record_pending, record_hru, record_mpe, record_pq,
    record_oar, record_flt]
  unfold FaultUnit.take
  split <;> rfl

theorem State.keeps_answer (s : State) (v : AnswerValue) (d : List Byte) : s.Keeps (s.answer v d) := .of_fixed rfl rfl

theorem State.keeps_answerOk (s : State) (r : Request) (d : BlockData) : s.Keeps (s.answerOk r d) := .of_fixed rfl rfl

theorem State.keeps_setWait (s : State) (w : Wait) : s.Keeps (s.setWait w) := .of_fixed rfl rfl

theorem State.keeps_dropLock (s : State) : s.Keeps s.dropLock := .of_fixed rfl rfl

theorem State.keeps_answerFault (s : State) (r : Request) (k : FaultKind) (c : Option Cause) :
    s.Keeps (s.answerFault r k c) := .comp (keeps_answer ..) (keeps_record ..)

theorem State.keeps_abandonLock (s : State) : s.Keeps s.abandonLock := by
  unfold abandonLock
  split
  · split
    · exact .comp (keeps_dropLock _) (keeps_record ..)
    · exact .refl s
  · exact .refl s

theorem State.keeps_handOver (s : State) (r : Request) : s.Keeps (s.handOver r) := by
  unfold handOver
  split <;> exact .of_fixed rfl rfl

theorem State.keeps_refuseDemand (s : State) (r : Request) : s.Keeps (s.refuseDemand r) := by
  unfold refuseDemand
  split
  · exact .comp (keeps_dropLock _) (.after (keeps_answerFault ..) rfl rfl)
  · exact .after (keeps_answerFault ..) rfl rfl

theorem State.keeps_emptyQueueDemand (s : State) (r : Request) : s.Keeps (s.emptyQueueDemand r) := by
  unfold emptyQueueDemand
  split
  · exact keeps_handOver ..
  · split
    · exact .of_fixed rfl rfl
    · exact keeps_refuseDemand ..

theorem State.keeps_queueRead (s : State) (r : Request) : s.Keeps (s.queueRead r) := by
  unfold queueRead
  split
  · exact keeps_answerOk ..
  · split
    · exact keeps_handOver ..
    · split
      · exact .of_fixed rfl rfl
      · exact keeps_refuseDemand ..

theorem State.keeps_answerFromLine (s : State) (r : Request) (i : Fin 8) (w : Fin 4) :
    s.Keeps (s.answerFromLine r i w) := .after (keeps_answerOk ..) rfl rfl

theorem State.keeps_examineKept (s : State) (r : Request) : s.Keeps (s.examineKept r) := by
  unfold examineKept
  repeat' split
  all_goals first
    | exact keeps_answerFromLine ..
    | exact keeps_setWait ..
    | exact keeps_queueRead ..

theorem State.keeps_serveReader (s : State) : s.Keeps s.serveReader := by
  unfold serveReader
  repeat' split
  all_goals first | exact keeps_answerFromLine .. | exact .refl s

theorem State.keeps_releaseReader (s : State) : s.Keeps s.releaseReader := by
  unfold releaseReader
  repeat' split
  all_goals first | exact keeps_examineKept .. | exact .refl s

/-! ## Writes -/

theorem State.keeps_writeUpdate (s : State) (b : Block) (m : Mask) (d : BlockData) :
    s.Keeps (s.writeUpdate b m d) := .after (keeps_serveReader _) rfl rfl

theorem State.keeps_postWrite (s : State) (r : Request) : s.Keeps (s.postWrite r) :=
  .comp (keeps_answerOk ..) (.after (keeps_writeUpdate ..) rfl rfl)

theorem State.fixed_merge (s : State) (m : Mask) (d : BlockData) :
    State.fixed { s with pq := s.pq.merge m d } = s.fixed := by
  unfold fixed PostQueue.merge
  split <;> rfl

theorem State.keeps_offerWrite (s : State) (r : Request) : s.Keeps (s.offerWrite r) := by
  unfold offerWrite
  split
  · exact .comp (keeps_answerOk ..) (.after (keeps_writeUpdate ..) (s.fixed_merge ..) rfl)
  · repeat' split
    · exact keeps_postWrite ..
    · exact keeps_setWait ..
    · exact keeps_answerFault ..

/-! ## The take of a request -/

theorem State.keeps_openLock (s : State) (r : Request) : s.Keeps (s.openLock r) := by
  unfold openLock
  split
  · exact keeps_answerFault ..
  · exact .after (keeps_emptyQueueDemand ..) rfl rfl

theorem State.keeps_closeLock (s : State) (r : Request) : s.Keeps (s.closeLock r) := by
  unfold closeLock
  split
  · exact .comp (keeps_dropLock _) (.after (keeps_answerFault ..) rfl rfl)
  · exact .after (keeps_handOver ..) rfl rfl

theorem State.keeps_followRoute (s : State) (r : Request) : s.Keeps (s.followRoute r) := by
  unfold followRoute lockRoute
  repeat' split
  all_goals first
    | exact keeps_answerFault ..
    | exact keeps_openLock ..
    | exact keeps_offerWrite ..
    | exact keeps_emptyQueueDemand ..
    | exact keeps_examineKept ..
    | exact keeps_queueRead ..

theorem State.keeps_take (s : State) (h : HostRequest) : s.Keeps (s.take h) := by
  unfold take
  extract_lets r hru t u
  have hu : s.Keeps u := by
    simp only [u]
    split <;> exact .of_fixed rfl rfl
  repeat' split
  · exact .comp (keeps_abandonLock _) (.comp (keeps_answerFault ..) hu)
  · exact .comp (keeps_closeLock ..) hu
  · exact .comp (keeps_followRoute ..) (.comp (keeps_abandonLock _) hu)

/-! ## Posts leave -/

theorem State.keeps_settleMark (s : State) (gone : List Seq) (how : Leave) : s.Keeps (s.settleMark gone how) := by
  unfold settleMark
  repeat' split
  all_goals first
    | exact .refl s
    | exact .of_fixed rfl rfl
    | exact ⟨rfl, List.prefix_rfl, id, id⟩

theorem State.keeps_settleObligation (s : State) (gone : List Seq) (how : Leave) :
    s.Keeps (s.settleObligation gone how) := by
  unfold settleObligation
  repeat' split
  all_goals exact .of_fixed rfl rfl

theorem State.keeps_admitWrite (s : State) : s.Keeps s.admitWrite := by
  unfold admitWrite
  repeat' split
  all_goals first
    | exact .refl s
    | exact keeps_postWrite ..

theorem State.keeps_settleDemand (s : State) : s.Keeps s.settleDemand := by
  unfold settleDemand
  split
  · exact .refl s
  · extract_lets met
    repeat' split
    · exact keeps_handOver ..
    · exact keeps_refuseDemand ..
    · exact .refl s

theorem State.keeps_leaving (s : State) (gone : List Seq) (how : Leave) : s.Keeps (s.leaving gone how) :=
  .comp (keeps_settleDemand _) (.comp (keeps_admitWrite _) (.comp (keeps_settleObligation ..) (keeps_settleMark ..)))

theorem State.keeps_drainComplete (s : State) : s.Keeps s.drainComplete := by
  unfold drainComplete
  split
  · exact .refl s
  · exact .after (keeps_leaving ..) rfl rfl

theorem State.keeps_haltOnPolicy (s : State) : s.Keeps s.haltOnPolicy := by
  unfold haltOnPolicy
  split
  · exact ⟨rfl, List.prefix_rfl, id, id⟩
  · exact .refl s

theorem State.keeps_drainFail (s : State) (cause : Cause) : s.Keeps (s.drainFail cause) := by
  unfold drainFail
  split
  · exact .refl s
  · exact .comp (keeps_leaving ..) (.comp (keeps_haltOnPolicy _) (.after (keeps_record ..) rfl rfl))

theorem State.keeps_discardPosts (s : State) : s.Keeps s.discardPosts := by
  unfold discardPosts
  extract_lets w t
  have ht : s.Keeps t := .of_fixed rfl rfl
  split
  · exact .comp (keeps_leaving ..) (.comp (keeps_record ..) ht)
  · exact ht

/-! ## Transactions and ownership -/

theorem State.keeps_issue (s : State) (t : Txn) : s.Keeps (s.issue t) := .of_fixed rfl rfl

theorem State.keeps_endTxn (s : State) : s.Keeps s.endTxn := .of_fixed rfl rfl

theorem State.keeps_fracture (s : State) (t : Txn) : s.Keeps (s.fracture t) := .of_fixed rfl rfl

theorem State.fixed_startDrain (s : State) : State.fixed { s with pq := s.pq.startDrain } = s.fixed := by
  unfold fixed PostQueue.startDrain
  split <;> rfl

theorem State.keeps_startDrain (s : State) : s.Keeps s.startDrain := by
  unfold startDrain
  split
  · exact .refl s
  · exact .after (keeps_issue ..) s.fixed_startDrain rfl

theorem State.keeps_startHost (s : State) (w : Work) : s.Keeps (s.startHost w) := by
  unfold startHost
  extract_lets mpe t
  repeat' split
  all_goals exact .after (keeps_issue ..) rfl rfl

theorem State.keeps_resume (s : State) (t : Txn) : s.Keeps (s.resume t) := by
  unfold resume
  repeat' split
  all_goals first
    | exact keeps_issue ..
    | exact keeps_endTxn _
    | exact .after (keeps_releaseReader _) rfl rfl
    | exact .after (keeps_issue ..) rfl rfl

theorem State.keeps_start (s : State) (n : Next) : s.Keeps (s.start n) := by
  cases n with
  | resume t => exact keeps_resume ..
  | drain => exact keeps_startDrain _
  | locked w => exact .after (keeps_issue ..) rfl rfl
  | host w => exact keeps_startHost ..

theorem State.keeps_arbitrate (n : Nat) (s : State) : s.Keeps (arbitrate n s) := by
  induction n generalizing s with
  | zero => exact .refl s
  | succ n ih =>
    unfold arbitrate
    repeat' split
    all_goals first
      | exact .refl s
      | exact .comp (ih _) (keeps_start ..)
      | exact .after (ih _) rfl rfl
      | exact .of_fixed rfl rfl

theorem State.keeps_settle (s : State) : s.Keeps s.settle := by
  unfold settle
  refine .comp ?_ (keeps_arbitrate movesPerStep s)
  unfold checkTenure
  repeat' split
  all_goals exact .of_fixed rfl rfl

theorem State.keeps_takePresented (s : State) : s.Keeps s.takePresented := by
  unfold takePresented
  repeat' split
  all_goals first
    | exact .refl s
    | exact .comp (keeps_settle _) (.after (keeps_take ..) rfl rfl)

theorem State.keeps_finish (s : State) : s.Keeps s.finish := .comp (keeps_takePresented _) (keeps_settle _)

theorem State.keeps_present (s : State) (h : HostRequest) : s.Keeps (s.present h) := by
  unfold present
  repeat' split
  · exact .refl s
  · exact .comp (keeps_finish _) (keeps_take ..)
  · exact .of_fixed rfl rfl

/-! ## The endings of beats -/

theorem State.keeps_syncPost (s : State) (t : Txn) : s.Keeps (s.syncPost t) := by
  unfold syncPost
  split
  · refine .of_fixed ?_ rfl
    unfold fixed PostQueue.progress
    split <;> rfl
  · exact .refl s

theorem State.keeps_answerTxn (s : State) (t : Txn) : s.Keeps (s.answerTxn t) := by
  unfold answerTxn
  split
  · exact keeps_answerOk ..
  · exact .refl s

theorem State.keeps_failTxn (s : State) (k : FaultKind) (c : Cause) : s.Keeps (s.failTxn k c) := by
  unfold failTxn
  split
  · exact keeps_answerFault ..
  · exact .refl s

theorem State.keeps_earlyAnswer (s : State) : s.Keeps s.earlyAnswer := by
  unfold earlyAnswer
  repeat' split
  all_goals first
    | exact .refl s
    | exact .after (keeps_answerFromLine ..) rfl rfl

theorem State.keeps_openedLock (s : State) (t : Txn) : s.Keeps (s.openedLock t) := by
  unfold openedLock
  split
  · exact .after (keeps_answerOk ..) rfl rfl
  · exact .refl s

theorem State.keeps_complete (s : State) (t : Txn) : s.Keeps (s.complete t) := by
  unfold complete
  split
  · exact keeps_drainComplete _
  · exact .after (keeps_releaseReader _) rfl rfl
  · exact keeps_answerTxn ..
  · exact .comp (keeps_answerTxn ..) (keeps_writeUpdate ..)
  · exact keeps_openedLock ..
  · exact .comp (keeps_dropLock _) (.comp (keeps_answerTxn ..) (keeps_writeUpdate ..))

theorem State.keeps_failFill (s : State) (t : Txn) (c : Cause) : s.Keeps (s.failFill t c) := by
  unfold failFill
  split
  · extract_lets u
    have hu : s.Keeps u := .of_fixed rfl rfl
    split
    · exact .comp (keeps_releaseReader _) (.comp (keeps_record ..) hu)
    · exact .comp (keeps_failTxn ..) hu
  · exact .refl s

theorem State.keeps_fail (s : State) (t : Txn) (c : Cause) : s.Keeps (s.fail t c) := by
  unfold fail
  split
  · exact keeps_drainFail ..
  · exact keeps_failFill ..
  · exact keeps_failTxn ..
  · exact .after (keeps_failTxn ..) rfl rfl
  · exact .comp (keeps_dropLock _) (keeps_failTxn ..)
  · exact .comp (keeps_dropLock _) (.after (keeps_failTxn ..) rfl rfl)

theorem State.keeps_deliverBeat (s : State) (t : Txn) (b : Beat) (d : Word) (v : Bool) :
    s.Keeps (s.deliverBeat t b d v) := by
  unfold deliverBeat
  split
  · extract_lets u
    have hu : s.Keeps u := by
      simp only [u]
      split
      · exact .of_fixed rfl rfl
      · exact .refl s
    exact .comp (keeps_serveReader _) (.comp (.after (s := u) (keeps_earlyAnswer _) rfl rfl) hu)
  · exact .refl s

theorem State.keeps_ackBeat (s : State) (t : Txn) (d : Word) (v : Bool) : s.Keeps (s.ackBeat t d v) := by
  unfold ackBeat
  split
  · exact keeps_endTxn _
  · split
    · exact keeps_endTxn _
    · extract_lets t' u
      have hu : s.Keeps u := .comp (keeps_syncPost ..) (keeps_deliverBeat ..)
      split
      · exact .comp (keeps_issue ..) hu
      · exact .comp (keeps_complete ..) (.comp (keeps_endTxn _) hu)

theorem State.keeps_failBeat (s : State) (t : Txn) (c : Cause) : s.Keeps (s.failBeat t c) := by
  unfold failBeat
  split
  · exact keeps_endTxn _
  · exact .comp (keeps_fail ..) (keeps_endTxn _)

theorem State.keeps_retryBeat (s : State) (t : Txn) : s.Keeps (s.retryBeat t) := by
  unfold retryBeat
  split
  · exact keeps_endTxn _
  · extract_lets t' u
    have hu : s.Keeps u := s.keeps_syncPost t'
    repeat' split
    · exact .comp (keeps_fail ..) (.comp (keeps_endTxn _) hu)
    · exact .comp (keeps_issue ..) hu
    · exact .comp (keeps_fracture ..) hu

theorem State.keeps_terminate (s : State) (x : Signals) : s.Keeps (s.terminate x) := by
  unfold terminate
  repeat' split
  all_goals first
    | exact .refl s
    | exact .comp (keeps_finish _) (keeps_ackBeat ..)
    | exact .comp (keeps_finish _) (keeps_retryBeat ..)
    | exact .comp (keeps_finish _) (keeps_failBeat ..)
    | exact .of_fixed rfl rfl

end Sys2Proof.Machine
end

