-- ==== Sys2Proof/Laws/Lines.lean ====
section
/-! SUPPORT. The Line Store and the block data after each basic update: what is read back, and what stays. -/

namespace Sys2Proof.Machine

/-! ## Block data -/

/-- A byte after new bytes are laid over old ones. -/
@[simp] theorem overlay_get (m : Mask) (new old : BlockData) (i : Fin 16) :
    (overlay m new old)[i] = if m.getLsbD i.val then new[i] else old[i] := by
  simp [overlay]

/-- Bytes laid over bytes: the later ones win where both have one. -/
theorem overlay_overlay (m n : Mask) (x y z : BlockData) (i : Fin 16) :
    (overlay m x (overlay n y z))[i] =
      if m.getLsbD i.val then x[i] else if n.getLsbD i.val then y[i] else z[i] := by
  simp [overlay]

/-- Every byte of a data word keeps its lane (R93). -/
@[simp] theorem spreadWord_get (w : Word) (i : Fin 16) : (spreadWord w)[i] = laneByte w i.val := by
  simp [spreadWord]

/-- A mask within another has its bytes there. -/
theorem maskWithin_iff (a b : Mask) :
    maskWithin a b = true ↔ ∀ i : Fin 16, a.getLsbD i.val = true → b.getLsbD i.val = true := by
  simp only [maskWithin, beq_iff_eq]
  constructor
  · intro h i hi
    have := congrArg (fun x : Mask => x.getLsbD i.val) h
    simp [hi] at this
    exact this
  · intro h
    ext i hi
    have := h ⟨i, hi⟩
    simp only [BitVec.getLsbD_eq_getElem hi] at this
    simp only [BitVec.getElem_and]
    cases ha : a[i] <;> simp_all

/-- Two masks meet exactly where they have a byte in common. -/
theorem masksMeet_iff (a b : Mask) :
    masksMeet a b = true ↔ ∃ i : Fin 16, a.getLsbD i.val = true ∧ b.getLsbD i.val = true := by
  simp only [masksMeet, bne_iff_ne, ne_eq]
  constructor
  · intro h
    by_contra hc
    apply h
    ext i hi
    have := not_exists.mp hc ⟨i, hi⟩
    simp only [BitVec.getLsbD_eq_getElem hi] at this
    simp only [BitVec.getElem_and]
    cases ha : a[i] <;> simp_all
  · rintro ⟨i, ha, hb⟩ h
    have := congrArg (fun x : Mask => x.getLsbD i.val) h
    simp only [BitVec.getLsbD_and, ha, hb] at this
    simp at this

/-! ## Lines -/

@[simp] theorem LineStore.setLine_fill (l : LineStore) (s : Fin 8) (w : Fin 4) (x : Line) :
    (l.setLine s w x).fill = l.fill := rfl

@[simp] theorem LineStore.touch_fill (l : LineStore) (s : Fin 8) (w : Fin 4) : (l.touch s w).fill = l.fill := rfl

/-- The line written is read back, and every other line stays. -/
theorem LineStore.line_setLine (l : LineStore) (s s' : Fin 8) (w w' : Fin 4) (x : Line) :
    (l.setLine s w x).line s' w' = if s = s' ∧ w = w' then x else l.line s' w' := by
  by_cases hs : s = s'
  · subst hs
    by_cases hw : w = w'
    · subst hw
      simp [line, setLine]
    · simp only [line, setLine, hw, and_false, if_false]
      simp [Fin.val_ne_of_ne hw]
  · simp only [line, setLine, hs, false_and, if_false]
    simp [Fin.val_ne_of_ne hs]

/-- A way's move to the front of the recency order changes no line (R46). -/
@[simp] theorem LineStore.line_touch (l : LineStore) (s s' : Fin 8) (w w' : Fin 4) :
    (l.touch s w).line s' w' = l.line s' w' := by
  by_cases hs : s = s'
  · subst hs
    simp [line, touch]
  · simp [line, touch, Fin.val_ne_of_ne hs]

/-- A line found for a block is not INVALID and holds that block (R44, R50). -/
theorem LineStore.find_some (l : LineStore) (b : Block) (w : Fin 4) (h : l.find b = some w) :
    (l.line (setOf b) w).state ≠ .invalid ∧ (l.line (setOf b) w).block = b := by
  have := List.find?_some h
  simpa using this

/-- No line found for a block: every line of its set is INVALID or holds another (R50). -/
theorem LineStore.find_none (l : LineStore) (b : Block) (h : l.find b = none) (w : Fin 4) :
    (l.line (setOf b) w).state = .invalid ∨ (l.line (setOf b) w).block ≠ b := by
  have := List.find?_eq_none.mp h w (List.mem_finRange w)
  by_cases hi : (l.line (setOf b) w).state = .invalid
  · exact .inl hi
  · exact .inr fun hb => by simp [hi, hb] at this

/-- A line that is not INVALID is the one found for its block (R45, R50). -/
theorem LineStore.find_of_line (l : LineStore) (b : Block) (w : Fin 4) (hd : l.distinct = true)
    (hs : (l.line (setOf b) w).state ≠ .invalid) (hb : (l.line (setOf b) w).block = b) : l.find b = some w := by
  cases h : l.find b with
  | none => rcases l.find_none b h w with h | h <;> contradiction
  | some v =>
    obtain ⟨h1, h2⟩ := l.find_some b v h
    by_contra hne
    have hne : v ≠ w := fun h => hne (by rw [h])
    simp only [distinct, List.all_eq_true] at hd
    have := hd (setOf b) (List.mem_finRange _) v (List.mem_finRange _) w (List.mem_finRange _)
    simp [hne, h1, hs, h2, hb] at this

/-- Where every line of its set is INVALID or holds another block, none is found for a block (R54). -/
theorem LineStore.find_eq_none (l : LineStore) (b : Block)
    (h : ∀ w, (l.line (setOf b) w).state = .invalid ∨ (l.line (setOf b) w).block ≠ b) : l.find b = none := by
  cases hf : l.find b with
  | none => rfl
  | some v =>
    obtain ⟨h1, h2⟩ := l.find_some b v hf
    rcases h v with h | h <;> contradiction

/-! ## Recency and the victim -/

/-- A write of a line changes no recency order. -/
theorem LineStore.recency_setLine (l : LineStore) (s i : Fin 8) (w : Fin 4) (x : Line) :
    (l.setLine s w x).sets[i].recency = l.sets[i].recency := by
  by_cases h : s = i
  · subst h
    simp [setLine]
  · simp [setLine, Fin.val_ne_of_ne h]

/-- A way's move to the front reaches its own set's order alone (R46). -/
theorem LineStore.recency_touch (l : LineStore) (s i : Fin 8) (w : Fin 4) :
    (l.touch s w).sets[i].recency = if s = i then toFront w l.sets[i].recency else l.sets[i].recency := by
  by_cases h : s = i
  · subst h
    simp [touch]
  · simp [touch, h, Fin.val_ne_of_ne h]

/-- The other ways keep their order behind the one that moves to the front (R46). -/
theorem toFront_append (w : Fin 4) (before after : List (Fin 4)) (hb : w ∉ before) (ha : w ∉ after) :
    toFront w (before ++ w :: after) = w :: (before ++ after) := by
  have keep (x : List (Fin 4)) (h : w ∉ x) : x.filter (· != w) = x :=
    List.filter_eq_self.mpr fun a hm => by
      simp only [bne_iff_ne, ne_eq]
      rintro rfl
      exact h hm
  simp [toFront, keep _ hb, keep _ ha]

/-- The victim is the lowest-numbered INVALID way, where the set has one (R55). -/
theorem LineSet.victim_of_invalid (s : LineSet) (w : Fin 4) (hw : s.ways[w].state = .invalid)
    (h : ∀ v : Fin 4, v < w → s.ways[v].state ≠ .invalid) : s.victim = w := by
  have : (List.finRange 4).find? (fun v => s.ways[v].state == .invalid) = some w := by
    rw [List.find?_eq_some_iff_getElem]
    refine ⟨by simpa using hw, w.val, by simp, by simp, fun j hj => ?_⟩
    simpa using h ⟨j, by omega⟩ hj
  unfold victim
  rw [this]

/-- Without an INVALID way the victim is the least recent one (R55). -/
theorem LineSet.victim_of_full (s : LineSet) (h : ∀ w : Fin 4, s.ways[w].state ≠ .invalid) :
    s.victim = s.recency.getLast?.getD 0 := by
  have : (List.finRange 4).find? (fun v => s.ways[v].state == .invalid) = none := by
    rw [List.find?_eq_none]
    intro w _
    simpa using h w
  unfold victim
  rw [this]

end Sys2Proof.Machine
end

