-- ==== Sys2Proof/Laws/Outputs.lean ====
section
/-! SUPPORT. What a step has put out before, and what stands at the H-port, pass unchanged through the take of a
request and the settling of the M-port: each operation gives the same beside them as without them. -/

namespace Sys2Proof.Machine

/-- The state behind what its step has put out before, with a request at the H-port. -/
def State.beside (s : State) (o : Outputs) (x : Option HostRequest) : State :=
  { s with
    out := { o with answers := o.answers ++ s.out.answers }
    hru := { s.hru with presented := x } }

variable (s : State) (o : Outputs) (x : Option HostRequest)

/-- A state stands beside its own outputs and its own H-port. -/
theorem State.beside_self :
    s.beside ⟨[], s.out.peerRetry, s.out.mdo⟩ s.hru.presented = s := rfl

@[simp] theorem State.beside_rmap : (s.beside o x).rmap = s.rmap := rfl
@[simp] theorem State.beside_pq : (s.beside o x).pq = s.pq := rfl
@[simp] theorem State.beside_ls : (s.beside o x).ls = s.ls := rfl
@[simp] theorem State.beside_mpe : (s.beside o x).mpe = s.mpe := rfl
@[simp] theorem State.beside_oar : (s.beside o x).oar = s.oar := rfl
@[simp] theorem State.beside_hru : (s.beside o x).hru = { s.hru with presented := x } := rfl
@[simp] theorem State.beside_out :
    (s.beside o x).out = { o with answers := o.answers ++ s.out.answers } := rfl

@[simp] theorem State.beside_lockHold : (s.beside o x).lockHold = s.lockHold := rfl
@[simp] theorem State.beside_keeps : (s.beside o x).keeps = s.keeps := rfl
@[simp] theorem State.beside_nextWork : (s.beside o x).nextWork = s.nextWork := rfl
@[simp] theorem State.beside_roundWinner : (s.beside o x).roundWinner = s.roundWinner := rfl
@[simp] theorem State.beside_otherWaits : (s.beside o x).otherWaits = s.otherWaits := rfl
@[simp] theorem State.beside_requestOf (h : HostRequest) : (s.beside o x).requestOf h = s.requestOf h := rfl

/-- A choice of two continuations, beside the same. -/
theorem State.beside_ite {p : Prop} [Decidable p] {a a' b b' : State} (ha : a' = a.beside o x)
    (hb : b' = b.beside o x) : (if p then a' else b') = (if p then a else b).beside o x := by
  by_cases h : p
  · rw [if_pos h, if_pos h, ha]
  · rw [if_neg h, if_neg h, hb]

/-! ## The take of a request -/

theorem State.beside_record (r : FaultRecord) : (s.beside o x).record r = (s.record r).beside o x := rfl

theorem State.beside_answer (v : AnswerValue) (d : List Byte) :
    (s.beside o x).answer v d = (s.answer v d).beside o x := by
  simp [answer, beside]

theorem State.beside_answerOk (r : Request) (d : BlockData) :
    (s.beside o x).answerOk r d = (s.answerOk r d).beside o x := beside_answer ..

theorem State.beside_answerFault (r : Request) (k : FaultKind) (c : Option Cause) :
    (s.beside o x).answerFault r k c = (s.answerFault r k c).beside o x := by
  unfold answerFault
  rw [beside_record, beside_answer]

theorem State.beside_setWait (w : Wait) : (s.beside o x).setWait w = (s.setWait w).beside o x := rfl

theorem State.beside_dropLock : (s.beside o x).dropLock = s.dropLock.beside o x := rfl

theorem State.beside_abandonLock : (s.beside o x).abandonLock = s.abandonLock.beside o x := by
  unfold abandonLock
  cases hl : s.hru.lock <;> simp only [beside_hru, hl]
  exact beside_ite _ _ rfl rfl

theorem State.beside_handOver (r : Request) : (s.beside o x).handOver r = (s.handOver r).beside o x := by
  exact beside_ite _ _ rfl rfl

theorem State.beside_refuseDemand (r : Request) :
    (s.beside o x).refuseDemand r = (s.refuseDemand r).beside o x := by
  have h := beside_answerFault { s with mpe := { s.mpe with demand := none } } o x r .drainHalted none
  exact beside_ite _ _ (congrArg dropLock h) h

theorem State.beside_emptyQueueDemand (r : Request) :
    (s.beside o x).emptyQueueDemand r = (s.emptyQueueDemand r).beside o x := by
  unfold emptyQueueDemand
  cases ht : s.pq.tail? <;> simp only [beside_pq, ht]
  · exact beside_handOver ..
  · cases hs : s.pq.state <;> simp only []
    · rfl
    · exact beside_refuseDemand ..

theorem State.beside_queueRead (r : Request) : (s.beside o x).queueRead r = (s.queueRead r).beside o x := by
  refine beside_ite _ _ (beside_answerOk ..) ?_
  cases hy : s.pq.youngestOverlap r.block r.testRange <;> simp only [beside_pq, hy]
  · exact beside_handOver ..
  · cases hs : s.pq.state <;> simp only []
    · rfl
    · exact beside_refuseDemand ..

theorem State.beside_answerFromLine (r : Request) (i : Fin 8) (w : Fin 4) :
    (s.beside o x).answerFromLine r i w = (s.answerFromLine r i w).beside o x :=
  beside_answerOk { s with ls := s.ls.touch i w } ..

theorem State.beside_examineKept (r : Request) :
    (s.beside o x).examineKept r = (s.examineKept r).beside o x := by
  unfold examineKept
  cases hf : s.ls.find r.block <;> simp only [beside_ls, hf]
  · exact beside_queueRead ..
  · refine beside_ite _ _ ?_ (beside_answerFromLine ..)
    cases s.ls.fill
    · rfl
    · exact beside_ite _ _ (beside_answerFromLine ..) rfl

theorem State.beside_serveReader : (s.beside o x).serveReader = s.serveReader.beside o x := by
  unfold serveReader
  cases hr : s.hru.request <;> cases hf : s.ls.fill <;> simp only [beside_hru, beside_ls, hr, hf]
  case some.some => exact beside_ite _ _ (beside_answerFromLine ..) rfl

theorem State.beside_releaseReader : (s.beside o x).releaseReader = s.releaseReader.beside o x := by
  unfold releaseReader
  cases hr : s.hru.request <;> simp only [beside_hru, hr]
  exact beside_ite _ _ (beside_examineKept ..) rfl

theorem State.beside_writeUpdate (b : Block) (m : Mask) (d : BlockData) :
    (s.beside o x).writeUpdate b m d = (s.writeUpdate b m d).beside o x :=
  beside_serveReader { s with ls := s.ls.writeUpdate b m d } ..

theorem State.beside_postWrite (r : Request) : (s.beside o x).postWrite r = (s.postWrite r).beside o x := by
  have h := beside_writeUpdate { s with pq := s.pq.append r.block r.mask (spreadWord r.data) r.snap } o x r.block
    r.mask (spreadWord r.data)
  exact (congrArg (answerOk · r (spreadWord r.data)) h).trans (beside_answerOk ..)

theorem State.beside_offerWrite (r : Request) : (s.beside o x).offerWrite r = (s.offerWrite r).beside o x := by
  have h := beside_writeUpdate { s with pq := s.pq.merge r.mask (spreadWord r.data) } o x r.block r.mask
    (spreadWord r.data)
  refine beside_ite _ _ ((congrArg (answerOk · r (spreadWord r.data)) h).trans (beside_answerOk ..))
    (beside_ite _ _ (beside_postWrite ..) ?_)
  cases hs : s.pq.state <;> simp only [beside_pq, hs]
  · rfl
  · exact beside_answerFault ..

theorem State.beside_openLock (r : Request) : (s.beside o x).openLock r = (s.openLock r).beside o x := by
  exact beside_ite _ _ (beside_answerFault ..) (beside_emptyQueueDemand { s with hru := { s.hru with
    lock := some ⟨.opening, wordOf r.addr, r.addr, r.count, r.snap.index, .stopped⟩ } } ..)

theorem State.beside_closeLock (r : Request) : (s.beside o x).closeLock r = (s.closeLock r).beside o x := by
  have h := beside_answerFault { s with hru := { s.hru with lock := s.hru.lock.map LockRecord.close } } o x r
    .writeProtect none
  exact beside_ite _ _ (congrArg dropLock h)
    (beside_handOver { s with hru := { s.hru with lock := s.hru.lock.map LockRecord.close } } ..)

theorem State.beside_followRoute (r : Request) :
    (s.beside o x).followRoute r = (s.followRoute r).beside o x := by
  unfold followRoute
  cases r.route
  case refused => exact beside_answerFault ..
  case lock => exact beside_ite _ _ (beside_answerFault ..) (beside_openLock ..)
  case posted => exact beside_offerWrite ..
  case ordered => exact beside_emptyQueueDemand ..
  case unposted => exact beside_emptyQueueDemand ..
  case kept => exact beside_examineKept ..
  case unkept => exact beside_queueRead ..

/-- The take of a request is the same behind other outputs and beside another request at the H-port. -/
theorem State.beside_take (h : HostRequest) : (s.beside o x).take h = (s.take h).beside o x := by
  have rest (u : State) :
      (if h.illegal then ((u.beside o x).answerFault (s.requestOf h) .illegalRequest none).abandonLock
        else if (u.beside o x).hru.matchesLock h then (u.beside o x).closeLock (s.requestOf h)
        else (u.beside o x).abandonLock.followRoute (s.requestOf h)) =
      (if h.illegal then (u.answerFault (s.requestOf h) .illegalRequest none).abandonLock
        else if u.hru.matchesLock h then u.closeLock (s.requestOf h)
        else u.abandonLock.followRoute (s.requestOf h)).beside o x := by
    refine beside_ite _ _ ?_ (beside_ite _ _ (beside_closeLock ..) ?_)
    · rw [beside_answerFault, beside_abandonLock]
    · rw [beside_abandonLock, beside_followRoute]
  let merging (v : State) : State :=
    let v := { v with hru := { v.hru with request := some (s.requestOf h) } }
    if (s.requestOf h).route == .posted then v else v.closeMerge
  have hm : merging (s.beside o x) = (merging s).beside o x := beside_ite _ _ rfl rfl
  have hr := rest (merging s)
  rw [← hm] at hr
  exact hr

/-! ## The settling of the M-port -/

theorem State.beside_issue (t : Txn) : (s.beside o x).issue t = (s.issue t).beside o x := rfl

theorem State.beside_resume (t : Txn) : (s.beside o x).resume t = (s.resume t).beside o x := by
  unfold resume
  cases hf : s.ls.fill <;> simp only [beside_ls, hf]
  · cases t.kind <;> rfl
  · cases t.kind <;> simp only []
    case fill =>
      exact beside_ite _ _ rfl
        (beside_ite _ _ (beside_releaseReader { s.endTxn with ls := s.ls.endFill false } ..) rfl)
    all_goals rfl

theorem State.beside_start (w : Next) : (s.beside o x).start w = (s.start w).beside o x := by
  cases w with
  | resume t => exact beside_resume ..
  | drain =>
    simp only [start, startDrain, beside_pq]
    split <;> rfl
  | locked w => rfl
  | host w => exact beside_ite _ _ (beside_ite _ _ rfl rfl) rfl

theorem State.beside_arbitrate (n : Nat) :
    State.arbitrate n (s.beside o x) = (State.arbitrate n s).beside o x := by
  induction n generalizing s with
  | zero => rfl
  | succ n ih =>
    unfold arbitrate
    cases ho : s.oar.owner <;> simp only [beside_oar, ho]
    case bridge =>
      refine beside_ite _ _ rfl (beside_ite _ _ ?_ (ih { s with oar := { s.oar with owner := .none } }))
      cases hn : s.nextWork <;> simp only [beside_nextWork, hn]
      rw [beside_start, ih]
    case none =>
      cases hw : s.roundWinner with
      | none => simp only [beside_roundWinner, hw]
      | some w =>
        cases w <;> simp only [beside_roundWinner, hw]
        case bridge => exact ih { s with oar := s.oar.grantBridge }
        case peer => rfl

theorem State.beside_checkTenure : (s.beside o x).checkTenure = s.checkTenure.beside o x := by
  unfold checkTenure
  cases ho : s.oar.owner <;> simp only [beside_oar, ho]
  case peer => exact beside_ite _ _ rfl rfl

/-- The settling of the M-port is the same behind other outputs and beside another request at the H-port. -/
theorem State.beside_settle : (s.beside o x).settle = s.settle.beside o x := by
  unfold settle
  rw [beside_arbitrate, beside_checkTenure]

/-- The settling of the M-port leaves the H-port alone. -/
theorem State.settle_presented : s.settle.hru.presented = s.hru.presented := by
  have h := beside_settle s ⟨[], s.out.peerRetry, s.out.mdo⟩ s.hru.presented
  rw [beside_self] at h
  rw [h]
  rfl

/-- The take of a request leaves the H-port alone. -/
theorem State.take_presented (h : HostRequest) : (s.take h).hru.presented = s.hru.presented := by
  have h := beside_take s ⟨[], s.out.peerRetry, s.out.mdo⟩ s.hru.presented h
  rw [beside_self] at h
  rw [h]
  rfl

/-- With no request at the H-port the end of a step settles the M-port, and does nothing more. -/
theorem State.finish_of_none (h : s.hru.presented = none) : s.finish = s.settle := by
  unfold finish takePresented
  rw [settle_presented, h]

end Sys2Proof.Machine
end

