-- ==== Sys2Proof/Laws/Ownership.lean ====
section
/-! SUPPORT. The moves that end a step: what the work selection can find, what one move of `State.arbitrate` does in
each case, and why a bridge that wins a round keeps the M-port. -/

namespace Sys2Proof.Machine

/-! ## The work selection -/

/-- Without a transaction the selection finds nothing, a DRAIN of a head that can be drained, locked work, or handed
work (R112). -/
theorem State.nextWork_cases (s : State) (h : s.mpe.txn = none) :
    s.nextWork = none ∨ s.nextWork = some .drain ∧ s.pq.drainable = true ∨
      (∃ w, s.nextWork = some (.locked w)) ∨ ∃ w, s.nextWork = some (.host w) := by
  unfold nextWork
  rw [h]
  dsimp only
  repeat' split
  all_goals simp_all

/-- A DRAIN starts only with a head post (R33). -/
theorem PostQueue.posts_of_drainable (q : PostQueue) (h : q.drainable = true) : ∃ p rest, q.posts = p :: rest := by
  cases hp : q.posts with
  | nil => simp [drainable, hp] at h
  | cons p rest => exact ⟨p, rest, rfl⟩

/-- Selected work other than a resumption runs from its start (R113). -/
theorem State.start_runs (s : State) (w : Next) (ht : s.mpe.txn = none) (hw : s.nextWork = some w) :
    (s.start w).mpe.running = true ∧ (s.start w).oar = s.oar := by
  have host (w : Work) : (s.startHost w).mpe.running = true ∧ (s.startHost w).oar = s.oar := by
    simp only [startHost]
    repeat' split
    all_goals exact ⟨rfl, rfl⟩
  rcases s.nextWork_cases ht with h | ⟨h, hd⟩ | ⟨v, h⟩ | ⟨v, h⟩ <;> rw [hw] at h <;> cases h
  · obtain ⟨p, rest, hp⟩ := s.pq.posts_of_drainable hd
    simp [start, startDrain, hp, issue, Mpe.running, Post.txn]
  · exact ⟨rfl, rfl⟩
  · exact host v

/-! ## One move -/

/-- An owning peer stays. -/
theorem State.arbitrate_peer (n : Nat) (s : State) (p : Peer) (h : s.oar.owner = .peer p) : s.arbitrate n = s := by
  cases n with
  | zero => rfl
  | succ n =>
    rw [arbitrate]
    simp only [h]

/-- A running transaction goes on. -/
theorem State.arbitrate_running (n : Nat) (s : State) (ho : s.oar.owner = .bridge) (hr : s.mpe.running = true) :
    s.arbitrate n = s := by
  cases n with
  | zero => rfl
  | succ n =>
    rw [arbitrate]
    simp [ho, hr]

/-- A bridge that holds or keeps the M-port starts its selected work, or idles under the hold (R112, R115). -/
theorem State.arbitrate_keeps (n : Nat) (s : State) (ho : s.oar.owner = .bridge) (hr : s.mpe.running = false)
    (hk : (s.lockHold || s.keeps) = true) :
    s.arbitrate (n + 1) = match s.nextWork with
      | some w => (s.start w).arbitrate n
      | none => s := by
  cases hw : s.nextWork <;> rw [arbitrate] <;> simp only [ho, hr, Bool.false_eq_true, if_false, if_pos hk, hw]

/-- Any other bridge with nothing running releases the M-port (R115). -/
theorem State.arbitrate_releases (n : Nat) (s : State) (ho : s.oar.owner = .bridge) (hr : s.mpe.running = false)
    (hk : (s.lockHold || s.keeps) = false) :
    s.arbitrate (n + 1) = State.arbitrate n { s with oar := { s.oar with owner := .none } } := by
  rw [arbitrate]
  simp only [ho, hr, hk, Bool.false_eq_true, if_false]

/-- A free M-port goes to the winner of a round, if there is one (R134). -/
theorem State.arbitrate_round (n : Nat) (s : State) (ho : s.oar.owner = .none) :
    s.arbitrate (n + 1) = match s.roundWinner with
      | some .bridge => State.arbitrate n { s with oar := s.oar.grantBridge }
      | some (.peer p) => { s with oar := s.oar.grantPeer p }
      | _ => s := by
  rcases hw : s.roundWinner with _ | (_ | _ | _) <;> rw [arbitrate] <;> simp only [ho, hw]

/-! ## The bridge as the winner -/

/-- The regarded requests: the bridge's while it stands, and each regarded peer's (R134). -/
theorem State.mem_requesters (s : State) (o : Owner) (l : Nat) :
    (o, l) ∈ s.requesters ↔ o = .bridge ∧ s.bridgeRequest = true ∧ l = s.bridgeLevel ∨
      ∃ p, o = .peer p ∧ (s.oar.peers.get p).regarded = true ∧ l = (s.oar.peers.get p).level := by
  have all (p : Peer) : p ∈ allPeers := by cases p <;> decide
  simp only [requesters, List.mem_append, List.mem_map, List.mem_filter, all, true_and, Prod.mk.injEq]
  constructor
  · rintro (h | ⟨p, hp, rfl, rfl⟩)
    · split at h <;> simp_all
    · exact .inr ⟨p, rfl, hp, rfl⟩
  · rintro (⟨rfl, hb, rfl⟩ | ⟨p, rfl, hp, rfl⟩)
    · simp [hb]
    · exact .inr ⟨p, hp, rfl, rfl⟩

/-- The bridge wins with its request standing, and with no regarded peer above its level (R134). -/
theorem State.roundWinner_bridge (s : State) (h : s.roundWinner = some .bridge) :
    s.bridgeRequest = true ∧
      ∀ p, (s.oar.peers.get p).regarded = true → (s.oar.peers.get p).level ≤ s.bridgeLevel := by
  obtain ⟨l, h1, h2⟩ := winnerOf_mem _ _ h
  have := (s.mem_requesters _ _).mp h1
  simp only [true_and, reduceCtorEq, false_and, exists_false, or_false] at this
  obtain ⟨hb, rfl⟩ := this
  exact ⟨hb, fun p hp => h2 _ ((s.mem_requesters _ _).mpr (.inr ⟨p, rfl, hp, rfl⟩))⟩

/-- No regarded peer above the bridge's level: the bridge is not outranked (R115). -/
theorem State.not_outranked (s : State)
    (h : ∀ p, (s.oar.peers.get p).regarded = true → (s.oar.peers.get p).level ≤ s.bridgeLevel) :
    s.outranked = false := by
  simp only [outranked, List.any_eq_false, Bool.and_eq_true, decide_eq_true_eq, not_and, Nat.not_lt]
  intro p _ hw
  exact h p (by simp_all [Arbiter.waits])

/-- The end of the yield round does not lower the bridge's level (R132, R133). -/
theorem State.bridgeLevel_le_grant (s : State) :
    s.bridgeLevel ≤ State.bridgeLevel { s with oar := s.oar.grantBridge } := by
  cases hy : s.oar.yieldRound with
  | true => simp [bridgeLevel, hy]
  | false =>
    have : State.bridgeLevel { s with oar := s.oar.grantBridge } = s.bridgeLevel := by
      simp only [bridgeLevel, hy]
      rfl
    omega

/-- A bridge that is granted the M-port holds or keeps it in that step (R112, R115). -/
theorem State.grantBridge_keeps (s : State) (h : s.roundWinner = some .bridge) :
    (State.lockHold { s with oar := s.oar.grantBridge } || State.keeps { s with oar := s.oar.grantBridge }) = true := by
  obtain ⟨h1, h2⟩ := s.roundWinner_bridge h
  have ho : State.outranked { s with oar := s.oar.grantBridge } = false :=
    State.not_outranked _ fun p hp => (h2 p hp).trans s.bridgeLevel_le_grant
  have hl : State.lockHold { s with oar := s.oar.grantBridge } = s.lockHold := rfl
  have hw : State.hasWork { s with oar := s.oar.grantBridge } = s.hasWork := rfl
  simp only [bridgeRequest, Bool.and_eq_true, Bool.or_eq_true] at h1
  rcases h1.2 with h1 | h1
  · simp [keeps, hw, h1, ho]
  · simp [hl, h1]

end Sys2Proof.Machine
end

