-- ==== Sys2Proof/Tests/Slice0.lean ====
section
/-! SUPPORT. Small tests: the refusals of the well-formedness checks, one or two steps of each command with
results read from the spec's text and examples, and for each obligation with hypotheses a state that meets them. -/

namespace Sys2Proof.Tests

open Sys2Proof Sys2Proof.Machine

/-! ## Small states -/

/-- The map of Table 1-7. -/
def table17 : RegionMap :=
  ⟨Vector.ofFn fun i => match i.val with
    | 0 => ⟨true, 0x10008, 0, .w16, ⟨false, false, false, true, false⟩⟩
    | 1 => ⟨true, 0x00000, 7, .w8, ⟨false, false, true, false, true⟩⟩
    | 2 => ⟨true, 0x10000, 8, .w16, ⟨true, true, true, false, false⟩⟩
    | 3 => ⟨true, 0x30000, 6, .w32, ⟨true, true, true, false, false⟩⟩
    | _ => .zero,
   .powerOn .w8⟩

/-- The part with that map, at rest. -/
def board : State := { State.reset with rmap := table17 }

/-- The part with a D region of 32 bits and the attributes given. -/
def flat (attrs : Attrs) : State := { State.reset with rmap := { State.reset.rmap with d := ⟨.w32, attrs⟩ } }

/-- A part whose D region gives POST, MERGE and KEEP. -/
def posting : State := flat ⟨true, true, true, false, false⟩

/-- A post of 4 bytes of a block, under the map of Table 1-7. -/
def post4 (seq : Seq) (block : Block) (word : Word) : Post :=
  ⟨seq, block, 0x000F, spreadWord word, table17.lookup (blockAddr block), .waiting, 0, 0, 1⟩

/-- The queue holds these posts, HALTED so that none drains. -/
def halted (ps : List Post) (next : Seq) (s : State) : State :=
  { s with pq := { s.pq with posts := ps, nextSeq := next, state := .halted } }

/-- The bridge owns the M-port and runs this transaction. -/
def running (t : Txn) (s : State) : State :=
  { s with
    mpe := { s.mpe with txn := some t, beatTimer := .running 3 }
    port := t.phase, oar := { s.oar with owner := .bridge } }

/-- Peer 1 owns the M-port. -/
def ownedByP1 (s : State) : State :=
  { s with oar := { s.oar with owner := .peer .p1, peers := { s.oar.peers with p1 := ⟨true, 5, false⟩ } } }

/-- The host's request to read 4 bytes at an address, waiting. -/
def reading (a : Addr) (route : Route) (wait : Wait) (s : State) : State :=
  let r : Request := ⟨.read, a, 4, 0xF, 0, false, false, s.rmap.lookup a, route, wait⟩
  { s with hru := { s.hru with request := some r } }

/-- A fetch of 4 bytes at an address. -/
def fetchOf (a : Addr) (s : State) : Txn := Work.txn ⟨.fetch, a, 4, 0, s.rmap.lookup a⟩ .fetch

/-- A transaction of 4 bytes at an address, of any kind. -/
def txnOf (k : TxnKind) (a : Addr) (s : State) : Txn := Work.txn ⟨k, a, 4, 0x44332211, s.rmap.lookup a⟩ k

/-- A FILL of block 0 for a read of its first 4 bytes, in `posting`, before its first beat. -/
def filling : State :=
  running (txnOf .fill 0 posting) (reading 0 .kept .port { posting with ls := posting.ls.allocate 0 0 4 })

/-- The lock record of a locked word at 3000_0100h, region 3. -/
def lock (phase : LockPhase) (timer : Timer) : LockRecord := ⟨phase, 0x0C000040, 0x30000100, 4, .entry 3, timer⟩

/-- The part holds an open lock of that word. -/
def locked (timer : Timer) : State :=
  { board with
    hru := { board.hru with lock := some (lock .opened timer) }, oar := { board.oar with owner := .bridge } }

/-- A VALID line of a block in way 0 of its set. -/
def withLine (b : Block) (word : Word) (s : State) : State :=
  { s with ls := s.ls.setLine (setOf b) 0 ⟨.valid, b, spreadWord word⟩ }

/-- The state after a command. -/
def after (c : Instr) (s : State) : State :=
  match exec c s with
  | .next t => t
  | _ => s

/-! ## Ill-formed commands -/

theorem test_wf_read_unaligned : (Instr.read 2 0xF false).wf = false := by decide
theorem test_wf_write_unaligned : (Instr.write 1 0xF 0 false).wf = false := by decide
theorem test_wf_lockRead_unaligned : (Instr.lockRead 3 0xF false).wf = false := by decide
theorem test_wf_lockWrite_unaligned : (Instr.lockWrite 2 0xF 0 false).wf = false := by decide
theorem test_wf_held_unaligned :
    (Instr.powerOn false false false false (some ⟨.read, 1, 0xF, 0, false, false⟩)).wf = false := by decide
theorem test_wf_set_own_row : (Instr.set 0x26 4).wf = false := by decide
theorem test_wf_set_region : (Instr.set 0x10 4).wf = false := by decide
theorem test_wf_region_item : (Instr.regionRewrite 0x11 0).wf = false := by decide
theorem test_wf_bad_command_real : (Instr.badCommand 0x22).wf = false := by decide
theorem test_wf_accepts : (Instr.read 0x10000004 0x5 true).wf = true ∧ (Instr.set 0x21 300).wf = true ∧
    (Instr.regionRewrite 0x10 0).wf = true ∧ (Instr.badCommand 0xFF).wf = true ∧
    (Instr.answerPoint [true]).wf = true := by decide

/-! ## One step of each command -/

/-- Straps 10 select 32 bits (Table 1-2), MCS asserted leaves the link BLOCKED (R173). -/
theorem test_powerOn_straps :
    (after (.powerOn true false true false none) board).rmap.d.width = .w32 ∧
    (after (.powerOn true false true false none) board).link = .blocked := by decide

/-- A request that the host presents as power-on ends is taken in that step (R185): boot reads one byte a beat. -/
theorem test_powerOn_takes_held :
    ((after (.powerOn false false false false (some ⟨.read, 0, 0xF, 0, false, false⟩)) board).mpe.txn.map
      fun t => (t.kind, t.beats.length)) = some (.fetch, 4) := by decide

/-- HOST_RESET drops the waiting request without an answer (R89) and leaves posts (R20). -/
theorem test_hostReset_drops_request :
    let s := after .hostReset (reading 0x10000000 .kept .through (halted [post4 0 0x1000000 0] 1 board))
    s.hru.request = none ∧ s.out.answers = [] ∧ s.pq.posts.length = 1 := by decide

/-- HOST_RESET leaves every line INVALID (R66). -/
theorem test_hostReset_lines :
    (after .hostReset (withLine 0x1000911 0 board)).ls.validCount = 0 := by decide

/-- Example 11.5, event 3: the read hits the line and is answered OK with the post's bytes. -/
theorem test_read_hits_line :
    (after (.read 0x10009110 0xF false)
      (withLine 0x1000911 0x44332211 (halted [post4 7 0x1000911 0x44332211] 8 board))).out.answers =
      [⟨.ok, [0x11, 0x22, 0x33, 0x44]⟩] := by decide

/-- A read whose bytes a post holds is forwarded (R29), on the lanes it enables. -/
theorem test_read_forwarded :
    (after (.read 0x10009110 0x6 false) (halted [post4 7 0x1000911 0x44332211] 8 board)).out.answers =
      [⟨.ok, [0x22, 0x33]⟩] := by decide

/-- Example 11.3, event 1: a FETCH of 16 beats, M_KIND MORE on the first, which stands at the lowest byte. -/
theorem test_read16_boot :
    let s := after (.read16 0 0xF false false) State.reset
    (s.mpe.txn.map fun t => (t.kind, t.beats.length)) = some (.fetch, 16) ∧
    s.port = some ⟨0, false, 0x1, true, none⟩ ∧ s.oar.owner = .bridge := by decide

/-- A READ16 off its block is illegal (R72): FAULT with FFh in its sixteen bytes, and a record. -/
theorem test_read16_illegal :
    let s := after (.read16 0x10000004 0xF false false) board
    s.out.answers = [⟨.fault, List.replicate 16 0xFF⟩] ∧
    s.flt.log.map FaultRecord.kind = [.illegalRequest] := by decide

/-- Example 11.3, event 5: the write is post 0, answered OK at once, and drains in 2 beats on lanes 0-1 and 2-3. -/
theorem test_write_posted :
    let s := after (.write 0x10000000 0xF 0x44332211 false) board
    s.out.answers = [⟨.ok, []⟩] ∧ s.pq.posts.map Post.seq = [0] ∧
    (s.mpe.txn.map fun t => (t.kind, t.beats)) = some (.drain, [⟨0, 0x3⟩, ⟨1, 0xC⟩]) := by decide

/-- Example 11.4, event 4: a second write merges; the post holds bytes 0 to 3, writes merged 2. -/
theorem test_write_merges :
    let p : Post := { post4 5 0x1000900 0 with mask := 0x0003 }
    let s := halted [p] 6 board
    ((after (.write 0x10009000 0xC 0x44332211 false) { s with pq := { s.pq with mergeOpen := true } }).pq.posts.map
      fun p => (p.seq, p.mask, p.merged)) = [(5, 0x000F, 2)] := by decide

/-- Example 11.6, event 1: the LOCK READ's demand is met and the round grants the bridge over P1. -/
theorem test_lockRead_granted :
    let p1 : PeerLine := ⟨true, 5, false⟩
    let s := after (.lockRead 0x30000100 0xF false)
      { board with oar := { board.oar with owner := .bridge, peers := { board.oar.peers with p1 := p1 } } }
    s.oar.owner = .bridge ∧ (s.mpe.txn.map fun t => (t.kind, t.beats.length)) = some (.lockedRead, 1) ∧
    s.hru.lock.map LockRecord.phase = some .opening := by decide

/-- Example 11.6, event 4: no lock is open, so FAULT with LOCK_LOST. -/
theorem test_lockWrite_lost :
    let s := after (.lockWrite 0x30000100 0xF 0x00000001 false) board
    s.out.answers = [⟨.fault, []⟩] ∧ s.flt.log.map FaultRecord.kind = [.lockLost] := by decide

/-- A matching LOCK WRITE closes the lock and stops its timer (R126). -/
theorem test_lockWrite_closes :
    let s := after (.lockWrite 0x30000100 0xF 0x00000001 false) (locked (.running 16))
    s.hru.lock = some (lock .closing .stopped) ∧ s.mpe.txn.map Txn.kind = some .lockedWrite := by decide

/-- Example 11.6, event 1: the LOCKED READ's one beat opens the lock, and its timer runs 16 ticks. -/
theorem test_mAck_opens_lock :
    let s : State := reading 0x30000100 .lock .lock board
    let s := { s with hru := { s.hru with lock := some (lock .opening .stopped) } }
    let t := after (.mAck 0 false) (running (txnOf .lockedRead 0x30000100 board) s)
    t.out.answers = [⟨.ok, [0, 0, 0, 0]⟩] ∧ t.hru.lock = some (lock .opened (.running 16)) := by decide

/-- A FETCH of 4 bytes at 32 bits is answered with the beat's bytes (R108), and the bridge releases (R115). -/
theorem test_mAck_fetch :
    let s := flat ⟨false, false, false, false, false⟩
    let t := after (.mAck 0x44332211 false) (running (fetchOf 0 s) (reading 0 .unkept .port s))
    t.out.answers = [⟨.ok, [0x11, 0x22, 0x33, 0x44]⟩] ∧ t.oar.owner = .none := by decide

/-- A retry below the limit fractures the transaction (R99); P1, at a higher level than the bridge, is granted. -/
theorem test_mRetry_fractures :
    let s := running (fetchOf 0 board) (reading 0 .unkept .port board)
    let p1 : PeerLine := ⟨true, 5, false⟩
    let t := after (.mRetry true false)
      { s with oar := { s.oar with peers := { s.oar.peers with p1 := p1 } } }
    (t.mpe.txn.map fun t => (t.state, t.retryCount)) = some (.fractured, 1) ∧ t.oar.owner = .peer .p1 := by decide

/-- Example 11.5, event 1: post 6 leaves with a DEFERRED record, and the queue halts. -/
theorem test_mFail_drain :
    let p := { post4 6 0x1000910 0 with state := .draining }
    let s := after (.mFail false false false) (running p.txn
      { board with pq := { board.pq with posts := [p, post4 7 0x1000911 0], nextSeq := 8 } })
    (s.flt.log.map fun r => (r.kind, r.seq, r.cause)) = [(.deferred, some 6, some .fail)] ∧
    s.pq.state = .halted ∧ s.pq.posts.map Post.seq = [7] ∧ s.flt.pend.halted = true ∧ s.oar.owner = .none := by decide

/-- The due beat timer ends a FETCH with READ_FAULT and cause TIMEOUT (R101, R86). -/
theorem test_beatTimeout_fetch :
    let s := running (fetchOf 0 board) (reading 0 .unkept .port board)
    let t := after .beatTimeout { s with mpe := { s.mpe with beatTimer := .running 0 } }
    t.out.answers = [⟨.fault, [0xFF, 0xFF, 0xFF, 0xFF]⟩] ∧
    (t.flt.log.map fun r => (r.kind, r.cause)) = [(.readFault, some .timeout)] := by decide

/-- A tick counts the running timers (R102). -/
theorem test_tick_counts : (after .tick (locked (.running 16))).hru.lock = some (lock .opened (.running 15)) := by decide

/-- The prescaler's 64th host clock makes a tick, and the 63rd does not (R102). -/
theorem test_hostClock_wraps :
    let s := locked (.running 16)
    (after .hostClock { s with tb := ⟨63, 64⟩ }).hru.lock = some (lock .opened (.running 15)) ∧
    (after .hostClock { s with tb := ⟨62, 64⟩ }).hru.lock = some (lock .opened (.running 16)) ∧
    (after .hostClock { s with tb := ⟨62, 64⟩ }).tb.count = 63 := by decide

/-- Example 11.6, event 2: LOCK_EXPIRED with its bytes and region; the hold ends and P1 is granted. -/
theorem test_lockHoldExpiry :
    let s := locked (.running 0)
    let p1 : PeerLine := ⟨true, 5, false⟩
    let t := after .lockHoldExpiry { s with oar := { s.oar with peers := { s.oar.peers with p1 := p1 } } }
    t.flt.log = [{ kind := .lockExpired, origin := .host, bytes := some ⟨0x30000100, 4⟩, region := some (.entry 3) }] ∧
    t.hru.lock = none ∧ t.oar.owner = .peer .p1 := by decide

/-- A regarded request to a free port is granted in its step, with its tenure timer running (R134, R138). -/
theorem test_peerRequest_granted :
    let p1 : PeerLine := ⟨false, 5, false⟩
    let s := after (.peerRequest .p1) { board with oar := { board.oar with peers := { board.oar.peers with p1 := p1 } } }
    s.oar.owner = .peer .p1 ∧ s.oar.tenureTimer = .running 32 := by decide

/-- At level 0 a peer is disabled (R131). -/
theorem test_peerRequest_disabled : (after (.peerRequest .p1) board).oar.owner = .none := by decide

/-- The owner's release ends P_REL and its timers (R135). -/
theorem test_peerRelease :
    let s := ownedByP1 board
    let t := after (.peerRelease .p1) { s with oar := { s.oar with pRel := true, yieldTimer := .running 8 } }
    t.oar.owner = .none ∧ t.oar.pRel = false ∧ t.oar.yieldTimer = .stopped := by decide

/-- With another requester waiting, the tenure ends in P_REL and the yield timer (R138). -/
theorem test_tenureExpiry :
    let s := ownedByP1 board
    let p0 : PeerLine := ⟨true, 1, false⟩
    let t := after .tenureExpiry
      { s with oar := { s.oar with tenureTimer := .running 0, peers := { s.oar.peers with p0 := p0 } } }
    t.oar.pRel = true ∧ t.oar.yieldTimer = .running 8 := by decide

/-- The yield's end bars the owner with its record; it keeps its grant (R141). -/
theorem test_yieldExpiry :
    let s := ownedByP1 board
    let t := after .yieldExpiry { s with oar := { s.oar with pRel := true, yieldTimer := .running 0 } }
    t.oar.peers.p1.barred = true ∧ t.flt.log.map FaultRecord.kind = [.peerOverstay] ∧ t.oar.grant .p1 = true := by decide

/-- Example 11.4, event 11: the peer's read overlaps post 5, is retried, and makes the obligation. -/
theorem test_peerAddressPhase_retried :
    let s := ownedByP1 { board with pq := { board.pq with posts := [post4 5 0x1000900 0], nextSeq := 6 } }
    let t := after (.peerAddressPhase 0x10009000 false 0xF false) s
    t.out.peerRetry = true ∧ t.mpe.obligation = some 5 ∧ t.oar.pRel = true ∧
    t.oar.yieldTimer = .running 8 := by decide

/-- Example 11.6, event 3: the peer's write passes and its line becomes INVALID. -/
theorem test_peerAddressPhase_passes :
    let t := after (.peerAddressPhase 0x30000100 true 0xF false) (ownedByP1 (withLine 0x3000010 0 board))
    t.out.peerRetry = false ∧ t.port.isSome = true ∧ t.ls.validCount = 0 := by decide

/-- 11.2, step 1: after power-on all six bytes of the status item read 00h. -/
theorem test_get_status : (after (.get 0x30) State.reset).out.mdo = [0, 0, 0, 0, 0, 0, 0] := by decide

/-- A number that names no item is answered BAD_ITEM (R176). -/
theorem test_get_bad_item : (after (.get 0x11) State.reset).out.mdo = [0x02] := by decide

/-- The beat limit takes 1 to 255 (Table 10-4). -/
theorem test_set_beat_limit :
    (after (.set 0x21 255) board).mpe.beatLimit = 255 ∧ (after (.set 0x21 256) board).mpe.beatLimit = 64 ∧
    (after (.set 0x21 256) board).out.mdo = [0x03] := by decide

/-- Entry 2 of Table 1-7, written by its item (Table 10-5); a line in its range goes (R12). -/
theorem test_regionRewrite_entry :
    let s := after (.regionRewrite 2 0xA80100001C) (withLine 0x1000911 0 State.reset)
    s.rmap.entries[2] = table17.entries[2] ∧ s.ls.validCount = 0 := by decide

/-- Width code 11 is refused (R179). -/
theorem test_regionRewrite_bad_width :
    (after (.regionRewrite 2 0xE80100001C) State.reset).out.mdo = [0x03] := by decide

/-- The prescaler's SET returns the count to 0 (R102). -/
theorem test_setPrescaler : (after (.setPrescaler 1024) { board with tb := ⟨9, 64⟩ }).tb = ⟨0, 1024⟩ := by decide

/-- The high-water mark takes 1 to 8 (R27, Table 10-4). -/
theorem test_setHighWaterMark :
    (after (.setHighWaterMark 8) board).pq.highWater = 8 ∧ (after (.setHighWaterMark 9) board).pq.highWater = 6 := by decide

/-- A level that makes a standing request regarded lets a round run (R131, R134). -/
theorem test_setPeerLevel :
    (after (.setPeerLevel .p2 3) (after (.peerRequest .p2) board)).oar.owner = .peer .p2 := by decide

/-- The base level takes 0 to 7 (R132, Table 10-4). -/
theorem test_setBaseLevel :
    (after (.setBaseLevel 0) board).oar.baseLevel = 0 ∧ (after (.setBaseLevel 8) board).oar.baseLevel = 4 := by decide

/-- A pending bit asserts INT once it is enabled (R165). -/
theorem test_setInterruptEnables :
    let s := { board with flt := { board.flt with pend := ⟨true, false, false⟩ } }
    s.flt.int = false ∧ (after (.setInterruptEnables 1) s).flt.int = true := by decide

/-- A record of a log. -/
def overstay : FaultRecord := overstayRecord .p1

/-- POP_FAULT returns the record's sixteen bytes (Table 10-7) and removes it. -/
theorem test_popFault :
    let s := after .popFault { board with flt := { board.flt with log := [overstay] } }
    s.out.mdo = [0x00, 0x0B, 0x03, 0x40, 0, 0, 0, 0, 0, 0, 0, 0, 0, 0, 0, 0, 0x01] ∧ s.flt.log = [] := by decide

/-- 10.6: entry 3 of Table 1-7 reads C6h 03h 00h 00h 1Ch, KEEP set. -/
theorem test_get_entry : (after (.get 0x03) board).out.mdo = [0x00, 0xC6, 0x03, 0x00, 0x00, 0x1C] := by decide

/-- A FILL that fails after its early answer in a HALTED queue, with a read waiting on its line that a post's byte
overlaps: FILL_TAIL, then DRAIN_HALTED (log entry 25). -/
theorem test_mFail_fillTail_first :
    let s := reading 4 .kept .line (halted [{ post4 0 0 0 with mask := 0x0010 }] 1 filling)
    let s := { s with ls := { s.ls with fill := s.ls.fill.map fun f => { f with answered := true } } }
    let t := after (.mFail false false false) s
    t.flt.log.map FaultRecord.kind = [.fillTail, .drainHalted] := by decide

/-- POP_FAULT of an empty log answers EMPTY (R162). -/
theorem test_popFault_empty : (after .popFault board).out.mdo = [0x04] := by decide

/-- Example 11.5, event 4: VIEW_POST past the last post answers EMPTY, and within the queue gives its seq. -/
theorem test_viewPost :
    let s := halted [post4 7 0x1000911 0x44332211] 8 board
    (after (.viewPost 1) s).out.mdo = [0x04] ∧
    (after (.viewPost 0) s).out.mdo.take 6 = [0x00, 0x07, 0x10, 0x00, 0x91, 0x10] := by decide

/-- ACK_INT clears the named bits alone (R166). -/
theorem test_ackInt :
    (after (.ackInt 0x02) { board with flt := { board.flt with pend := ⟨true, true, true⟩ } }).flt.pend =
      ⟨true, false, true⟩ := by decide

/-- RESUME makes the queue RUNNING and its head drains (R38). -/
theorem test_resume :
    let s := after .resume (halted [post4 7 0x1000911 0] 8 board)
    s.pq.state = .running ∧ s.mpe.txn.map Txn.kind = some .drain := by decide

/-- Example 11.5, event 4: DISCARD of posts 7, 8, 9. -/
theorem test_discard :
    let s := after .discard (withLine 0x1000911 0
      (halted [post4 7 0x1000911 0, post4 8 0x1000912 0, post4 9 0x1000913 0] 10 board))
    s.pq.posts = [] ∧ s.pq.nextSeq = 7 ∧ s.pq.state = .running ∧ s.ls.validCount = 0 ∧
    (s.flt.log.map fun r => (r.kind, r.range)) = [(.discarded, some ⟨7, 9, 3⟩)] := by decide

/-- DRAIN_MARK on an empty queue sets DRAIN_DONE pending at once (R40). -/
theorem test_drainMark_empty : (after .drainMark board).flt.pend.drainDone = true := by decide

/-- DRAIN_MARK marks the tail (R40). -/
theorem test_drainMark_tail :
    (after .drainMark (halted [post4 7 0x1000911 0, post4 8 0x1000912 0] 9 board)).pq.mark = some 8 := by decide

/-- INVALIDATE (R65). -/
theorem test_invalidate : (after .invalidate (withLine 0x1000911 0 board)).ls.validCount = 0 := by decide

/-- RESTORE_PEER clears the bar and gives the owner a fresh yield period (R143); peer 3 is refused. -/
theorem test_restorePeer :
    let s := ownedByP1 board
    let s := { s with oar := { s.oar with pRel := true, peers := { s.oar.peers with p1 := ⟨true, 5, true⟩ } } }
    (after (.restorePeer 1) s).oar.peers.p1.barred = false ∧
    (after (.restorePeer 1) s).oar.yieldTimer = .running 8 ∧ (after (.restorePeer 3) s).out.mdo = [0x03] := by decide

/-- CLEAR_LOG empties the log and clears LOST (R163). -/
theorem test_clearLog :
    let s := after .clearLog { board with flt := { board.flt with log := [overstay], lost := true } }
    s.flt.log = [] ∧ s.flt.lost = false := by decide

/-- A command byte that names no command is answered BAD_COMMAND (R176). -/
theorem test_badCommand : (after (.badCommand 0x7F) board).out.mdo = [0x01] := by decide

/-- A frame cut short in ANSWERING has no effect (R175). -/
theorem test_frameCutShort :
    let s := after .frameCutShort (halted [] 0 { board with link := .answering .resume .ok [] 0 })
    s.link = .idle ∧ s.pq.state = .halted := by decide

/-- The request that stands at the H-port is taken as H_RST is negated (R89). -/
theorem test_hostResetNegation :
    let s := { board with hru := { board.hru with hRst := true, presented := some ⟨.read, 0, 0xF, 0, false, false⟩ } }
    let t := after .hostResetNegation s
    t.hru.hRst = false ∧ t.hru.presented = none ∧ t.hru.request.isSome = true := by decide

/-- The negation of MCS ends BLOCKED (R173). -/
theorem test_mcsNegatedInBlocked :
    (after .mcsNegatedInBlocked { board with link := .blocked }).link = .idle := by decide

/-- The answer point settles the status, and the effect waits for the completion (R174, R175). -/
theorem test_answerPoint :
    let s := after (.answerPoint (bitsOf [0x21])) (halted [] 0 board)
    s.link = .answering .resume .ok [] 0 ∧ s.pq.state = .halted ∧ (after .resume s).pq.state = .running := by decide

/-- A GET of the tenure, bit by bit: MDO high up to the answer point, then 00h 00h 20h (32 at power-on), the most
significant bit first, then high again in DONE (Tables 10-1, 10-2 and 10-4). -/
theorem test_answerPoint_bits :
    let clock (n : Nat) (s : State) := after (.answerPoint (List.replicate n true)) s
    let s := after (.answerPoint (bitsOf [0x01, 0x23])) board
    (clock 0 board).link = .receiving [] ∧ (clock 7 board).link.mdo = some true ∧ board.link.mdo = none ∧
    (s.link.mdo, (clock 17 s).link.mdo, (clock 18 s).link.mdo, (clock 19 s).link.mdo) =
      (some false, some false, some true, some false) ∧
    (clock 23 s).link = .answering (.get 0x23) .ok [0x00, 0x20] 23 ∧
    (clock 24 s).link = .done (.get 0x23) .ok [0x00, 0x20] ∧ (clock 24 s).link.mdo = some true := by decide

/-! ## States that meet the hypotheses of the obligations

Each theorem is named after its obligation. `r4` reads and `w4` writes 4 bytes at an address. -/

/-- A READ of 4 bytes. -/
def r4 (a : Addr) : Instr := .read a 0xF false

/-- A WRITE of 4 bytes. -/
def w4 (a : Addr) : Instr := .write a 0xF 0x44332211 false

/-- The request of `r4`. -/
def r4Request (a : Addr) : HostRequest := ⟨.read, a, 0xF, 0, false, false⟩

/-- The request of `w4`. -/
def w4Request (a : Addr) : HostRequest := ⟨.write, a, 0xF, 0x44332211, false, false⟩

/-- What `posting` governs every address with. -/
def snapD : Snapshot := ⟨.d, .w32, ⟨true, true, true, false, false⟩⟩

/-- A post of the first 4 bytes of a block in `posting`. -/
def postD (seq : Seq) (block : Block) : Post := ⟨seq, block, 0x000F, spreadWord 0x44332211, snapD, .waiting, 0, 0, 1⟩

/-- The queue holds these posts and is RUNNING. -/
def queued (ps : List Post) (s : State) : State :=
  { s with pq := { s.pq with posts := ps, nextSeq := BitVec.ofNat 8 ps.length } }

/-- Eight posts. -/
def eight : List Post := (List.range 8).map fun i => postD (BitVec.ofNat 8 i) (BitVec.ofNat 28 (16 + i))

/-- The state with commands waiting. -/
def waiting (cs : List Instr) (s : State) : State := { s with pending := cs }

theorem meets_StepRunsFrontCommand :
    (waiting [.hostClock, .tick] board).pending = .hostClock :: [.tick] ∧ State.reset.pending = [] := by decide

theorem meets_HostResetKeeps : exec .hostReset board = .next (after .hostReset board) := rfl

theorem meets_HeldRequestStandsUntilTaken :
    board.hru.presented = none ∧
    (let s := reading 0 .kept .line board; s.hru.presented = none ∧ s.hru.request.isSome) ∧
    (let s := { board with hru := { board.hru with hRst := true } }; s.hru.presented = none ∧ s.hru.hRst = true) ∧
    (let s := { board with hru := { board.hru with hRst := true, presented := some (r4Request 0) } }
     (r4 0).request = some (r4Request 0) ∧ s.hru.presented = some (r4Request 0) ∧ s.hru.request = none) ∧
    exec (.powerOn true true false false none) board = .next (after (.powerOn true true false false none) board) ∧
    exec (.powerOn true true false true none) board = .next (after (.powerOn true true false true none) board) :=
  ⟨by decide, by decide, by decide, by decide, rfl, rfl⟩

/-- Entry 0 governs at the top of its 4 KiB, entry 3 beside lower entries that do not cover, and D elsewhere. -/
theorem meets_RegionLookup :
    table17.entries[0].covers 0x10008FFF = true ∧
    (table17.entries[3].covers 0x30000100 = true ∧ ∀ j : Fin 16, j < 3 → table17.entries[j].covers 0x30000100 = false) ∧
    (∀ j : Fin 16, table17.entries[j].covers 0xFFFFFFFF = false) ∧
    table17.entries[0].covers 0x10009000 = false := by decide

/-- At the first and the last byte of a block, the first and the last slot, and the first and the last lane. -/
theorem meets_BeatLists :
    (⟨0, 0x1⟩ ∈ beatsFor .w8 0x8001 ∧ ⟨15, 0x8⟩ ∈ beatsFor .w8 0x8001) ∧
    (0x8001 : Mask).getLsbD (0 : Fin 16).val = true ∧ (0x8001 : Mask).getLsbD (15 : Fin 16).val = true ∧
    (fillBeats .w16 (15 : Fin 16).val)[0]? = some ⟨7, 0xC⟩ ∧ (fillBeats .w16 (15 : Fin 16).val)[7]? = some ⟨6, 0x3⟩ ∧
    15 < 16 / Width.bytes .w8 ∧ (0x8 : Lanes).getLsbD (0 : Fin 4).val = false ∧
    (0x8 : Lanes).getLsbD (3 : Fin 4).val = true ∧ (15 : Fin 16).val = 15 * Width.bytes .w8 / 4 * 4 + (3 : Fin 4).val ∧
    12 + 4 ≤ 16 ∧ 3 < 4 ∧ (15 : Fin 16).val = 12 + 3 ∧ (∀ k : Fin 4, k < 3 → (0x8 : Lanes).getLsbD k.val = false) ∧
    (fetchOf 0 board).beats[(fetchOf 0 board).beatsDone]? = some ⟨0, 0x1⟩ := by decide

/-- Byte lanes and FFh (R92, R93): byte 13 of a block behind 8-bit memory is slot 13, on lane 1. -/
theorem test_beatData :
    beatData .w8 (spreadWord 0x44332211) ⟨13, 0x2⟩ = 0xFFFF22FF ∧ beatAddr .w8 0x1000900 13 = 0x1000900D := by decide

/-- No lane, lanes 0 and 2, one lane, all lanes; a READ16 of one lane. -/
theorem meets_IllegalRequestRefused :
    (let h : HostRequest := ⟨.read, 0, 0x0, 0, false, false⟩; h.kind ≠ .read16 ∧ h.be = 0 ∧ h.illegal = true) ∧
    (let h : HostRequest := ⟨.write, 0, 0x5, 0, false, false⟩
     h.illegal = true ∧ h.be.getLsbD (0 : Fin 4).val = true ∧ h.be.getLsbD (2 : Fin 4).val = true ∧
       ∀ k : Fin 4, h.be.getLsbD k.val = true → 0 ≤ k ∧ k ≤ 2) ∧
    (let h : HostRequest := ⟨.read, 0, 0x8, 0, false, false⟩
     h.be.getLsbD (3 : Fin 4).val = true ∧ ∀ k : Fin 4, h.be.getLsbD k.val = true → 3 ≤ k ∧ k ≤ 3) ∧
    (let h : HostRequest := ⟨.read16, 0, 0x1, 0, false, false⟩
     (Instr.read16 0 0x1 false false).request = some h ∧ h.kind = .read16 ∧ h.illegal = true) ∧
    board.hru.takes ∧ board.hru.lock = none := by decide

theorem meets_WriteRefusedAtTake :
    ((w4 0).request = some (w4Request 0) ∧ (w4Request 0).kind = .write ∧ (w4Request 0).illegal = false ∧
      (w4Request 0).lock = false ∧ (table17.lookup (w4Request 0).address).attrs.protect = true ∧ board.hru.takes ∧
      board.hru.lock = none) ∧
    (let h : HostRequest := ⟨.write, 0, 0xF, 0, false, true⟩
     (Instr.lockWrite 0 0xF 0 false).request = some h ∧ h.kind = .write ∧ h.lock = true ∧ h.illegal = false) := by
  decide

theorem meets_PostedWriteMerges :
    let s := queued [postD 0 7, postD 1 0] { posting with pq := { posting.pq with mergeOpen := true } }
    let h := w4Request 4
    (w4 4).request = some h ∧ h.kind = .write ∧ h.plain ∧ (s.rmap.lookup h.address).attrs.post = true ∧
    (s.rmap.lookup h.address).attrs.protect = false ∧ s.hru.takes ∧ s.hru.lock = none ∧
    s.pq.posts = [postD 0 7] ++ [postD 1 0] ∧ (postD 1 0).state = .waiting ∧ s.pq.mergeOpen = true ∧
    (postD 1 0).block = blockOf h.address ∧ (postD 1 0).snap.index = (s.rmap.lookup h.address).index ∧
    (s.rmap.lookup h.address).attrs.merge = true := by decide

/-- On an empty queue, and with seven posts. -/
theorem meets_PostedWriteMakesPost :
    let h := w4Request 4
    (w4 4).request = some h ∧ h.kind = .write ∧ h.plain ∧ (posting.rmap.lookup h.address).attrs.post = true ∧
    (posting.rmap.lookup h.address).attrs.protect = false ∧ posting.hru.takes ∧ posting.hru.lock = none ∧
    (posting.pq.canMerge (blockOf h.address) (posting.rmap.lookup h.address) = false ∧ posting.pq.posts.length < 8) ∧
    (let s := queued (eight.take 7) posting
     s.pq.canMerge (blockOf h.address) (s.rmap.lookup h.address) = false ∧ s.pq.posts.length = 7) := by decide

theorem meets_PostedWriteMeetsFullQueue :
    let h := w4Request 4
    let s := queued eight posting
    let t := halted eight 8 posting
    (w4 4).request = some h ∧ h.plain ∧ s.hru.takes ∧ s.hru.lock = none ∧ s.pq.posts.length = 8 ∧
    s.pq.canMerge (blockOf h.address) (s.rmap.lookup h.address) = false ∧ s.pq.state = .running ∧
    t.pq.posts.length = 8 ∧ t.pq.canMerge (blockOf h.address) (t.rmap.lookup h.address) = false ∧
    t.pq.state = .halted := by decide

/-- An ordered read of a DEVICE region, and a write of one without POST, with an empty queue and posts. -/
theorem meets_EmptyQueueDemand :
    let plainD := flat ⟨false, false, false, false, false⟩
    let h : HostRequest := ⟨.write, 0, 0xF, 0, false, false⟩
    ((r4Request 0).illegal = false ∧ (r4Request 0).lock = false ∧ (r4Request 0).kind ≠ .write ∧
      (State.reset.rmap.lookup (r4Request 0).address).attrs.device = true ∧ State.reset.pq.posts = []) ∧
    ((plainD.rmap.lookup h.address).attrs.protect = false ∧ h.kind = .write ∧ h.order = false ∧
      (plainD.rmap.lookup h.address).attrs.device = false ∧ (plainD.rmap.lookup h.address).attrs.post = false) ∧
    (queued [postD 0 7] plainD).pq.posts = [] ++ [postD 0 7] ∧ (queued [postD 0 7] plainD).pq.state = .running ∧
    (halted [postD 0 7] 1 plainD).pq.posts ≠ [] ∧ (halted [postD 0 7] 1 plainD).pq.state = .halted := by decide

/-- A VALID line of the block; a FILLING line whose bytes have not arrived. -/
theorem meets_KeptReadFindsLine :
    let h := r4Request 0
    let s := withLine 0 0 posting
    let t := { posting with ls := posting.ls.allocate 0 0 4 }
    h.kind ≠ .write ∧ h.plain ∧ s.hru.takes ∧ s.hru.lock = none ∧ s.ls.distinct = true ∧
    (s.rmap.lookup h.address).attrs.keep = true ∧ (s.ls.line (setOf (blockOf h.address)) 0).state = .valid ∧
    (s.ls.line (setOf (blockOf h.address)) 0).block = blockOf h.address ∧
    t.hru.takes ∧ t.ls.distinct = true ∧ t.ls.wf = true ∧
    t.ls.fill = some ⟨0, 0, 0, 0, 4, false, 0, 0, false, false⟩ := by decide

/-- A kept read that misses and an unkept read; forwarded, free of the queue, and overlapped. -/
theorem meets_ReadGoesToPostQueue :
    let h := r4Request 0
    let unkept := flat ⟨true, false, false, false, false⟩
    h.kind ≠ .write ∧ h.plain ∧ posting.hru.takes ∧ posting.hru.lock = none ∧
    (posting.rmap.lookup h.address).attrs.device = false ∧ (posting.rmap.lookup h.address).attrs.keep = true ∧
    posting.ls.find (blockOf h.address) = none ∧ (unkept.rmap.lookup h.address).attrs.keep = false ∧
    maskWithin 0x000F ((queued [postD 0 0] posting).pq.held 0).1 = true ∧
    maskWithin 0x000F (posting.pq.held 0).1 = false ∧ posting.pq.youngestOverlap 0 allBytes = none ∧
    (let p : Post := { postD 0 0 with mask := 0x8000 }
     let s := queued [p] posting
     maskWithin 0x000F (s.pq.held 0).1 = false ∧ s.pq.youngestOverlap 0 allBytes = some p ∧
     s.pq.youngestOverlap 0 0x000F = none ∧ s.pq.state = .running ∧ (halted [p] 1 posting).pq.state = .halted) := by
  decide

theorem meets_ForwardedBytesAreYoungest :
    let p := postD 1 0
    let q := (queued [postD 0 0, p, postD 2 7] posting).pq
    q.posts = [postD 0 0] ++ p :: [postD 2 7] ∧ p.block = 0 ∧ p.mask.getLsbD (3 : Fin 16).val = true ∧
    ∀ x ∈ [postD 2 7], ¬(x.block = 0 ∧ x.mask.getLsbD (3 : Fin 16).val = true) := by decide

theorem meets_LockReadOpens :
    let h : HostRequest := ⟨.read, 0x30000100, 0xF, 0, false, true⟩
    (Instr.lockRead 0x30000100 0xF false).request = some h ∧ h.kind = .read ∧ h.lock = true ∧ h.illegal = false ∧
    board.hru.takes ∧ board.hru.lock = none ∧ (table17.lookup h.address).attrs.protect = false ∧
    (table17.lookup 0).attrs.protect = true ∧ board.pq.posts = [] ∧
    (queued [postD 0 7] board).pq.posts = [] ++ [postD 0 7] ∧ (queued [postD 0 7] board).pq.state = .running ∧
    (halted [postD 0 7] 1 board).pq.posts ≠ [] ∧ (halted [postD 0 7] 1 board).pq.state = .halted := by decide

theorem meets_RequestAbandonsOpenLock :
    let s := locked (.running 16)
    s.hru.takes ∧ s.hru.lock = some (lock .opened (.running 16)) ∧ (lock .opened (.running 16)).phase = .opened ∧
    (r4Request 0).illegal = false ∧ ¬((r4Request 0).kind = .write ∧ (r4Request 0).lock = true ∧
      wordOf (r4Request 0).addr = (lock .opened (.running 16)).word) ∧
    (⟨.read, 0, 0x0, 0, false, false⟩ : HostRequest).illegal = true := by decide

theorem meets_MatchingLockWriteCloses :
    let h : HostRequest := ⟨.write, 0x30000100, 0x1, 0, false, true⟩
    let s := locked (.running 16)
    (Instr.lockWrite 0x30000100 0x1 0 false).request = some h ∧ h.illegal = false ∧ h.kind = .write ∧ h.lock = true ∧
    s.hru.takes ∧ s.hru.lock = some (lock .opened (.running 16)) ∧
    wordOf h.addr = (lock .opened (.running 16)).word ∧ (s.rmap.lookup h.address).attrs.protect = false ∧
    (({ s with rmap := State.reset.rmap }.rmap.rewrite 0x10 0x0000000001).lookup h.address).attrs.protect = true := by
  decide

/-- A FETCH of 4 bytes behind 8-bit memory: beats 0 and 2 of its four. -/
theorem meets_AckMakesNextAddressPhase :
    let t := fetchOf 0 board
    let u := { t with beatsDone := 2 }
    (running t board).runs t ∧ (running u board).runs u ∧ t.kind ≠ .fill ∧ t.beats[0]? = some ⟨0, 0x1⟩ ∧
    t.beats[1]? = some ⟨1, 0x2⟩ ∧ t.beats[2]? = some ⟨2, 0x4⟩ ∧ t.beats[3]? = some ⟨3, 0x8⟩ := by decide

/-- The DRAIN of a post behind 32-bit memory, its only beat. -/
theorem meets_DrainCompletes :
    let p := { postD 0 7 with state := .draining }
    let s := running p.txn (queued [p, postD 1 8] posting)
    s.runs p.txn ∧ p.txn.kind = .drain ∧ p.txn.beats[p.txn.beatsDone]? = some ⟨0, 0xF⟩ ∧
    p.txn.beats.length = p.txn.beatsDone + 1 ∧ s.pq.posts = p :: [postD 1 8] := by decide

/-- The three ways to fail. -/
theorem meets_DrainFails :
    let p := { postD 0 7 with state := .draining }
    let s := running p.txn (queued [p, postD 1 8] posting)
    let due := { s with mpe := { s.mpe with beatTimer := .running 0 } }
    let last := { s with mpe := { s.mpe with retryLimit := 1 } }
    s.runs p.txn ∧ due.runs p.txn ∧ last.runs p.txn ∧ p.txn.kind = .drain ∧ s.pq.posts = p :: [postD 1 8] ∧
    (Instr.mFail true true true).beatFailure s p.txn = some .fail ∧
    Instr.beatTimeout.beatFailure due p.txn = some .timeout ∧
    (Instr.mRetry false false).beatFailure last p.txn = some .retryLimit := by decide

/-- One request for each wait: room in a queue of seven, the queue empty, and a demand met, by its queue and
through its post, the seqs about to count past 255; the same refused in a HALTED queue; and each that waits on: for
room behind eight posts, for the queue and through a post while it is RUNNING. -/
theorem meets_LeavingSettlesWaitingRequest :
    let room := queued (eight.take 7) (reading 0 .posted .room posting)
    let queue := reading 0 .ordered .queue posting
    let locked := reading 0 .lock .queue posting
    let through := reading 0 .kept .through (queued [postD 0 7] posting)
    let through := { through with mpe := { through.mpe with demand := some 255 } }
    let stopped := reading 0 .ordered .queue (halted [postD 0 7] 1 posting)
    let blocked := reading 0 .kept .through (halted [postD 255 7] 0 posting)
    let blocked := { blocked with mpe := { blocked.mpe with demand := some 255 } }
    let full := queued eight (reading 0 .posted .room posting)
    let behind := reading 0 .ordered .queue (queued [postD 0 7] posting)
    let drains := reading 0 .kept .through (queued [postD 0 7] posting)
    let drains := { drains with mpe := { drains.mpe with demand := some 7 } }
    (posting.hru.request = none ∧ full.hru.request.isSome ∧ 8 ≤ full.pq.posts.length) ∧
    ((behind.hru.request.map fun r => r.wait) = some .queue ∧ behind.pq.posts ≠ [] ∧ behind.pq.state = .running) ∧
    ((drains.hru.request.map fun r => r.wait) = some .through ∧ drains.pq.state = .running ∧
      drains.mpe.demand = some 7 ∧ ∃ p ∈ drains.pq.posts, ((7 : Seq) - p.seq).toNat < 8) ∧
    (room.hru.request.map fun r => r.wait) = some .room ∧ room.pq.posts.length < 8 ∧
    (queue.hru.request.map fun r => (r.route, r.wait)) = some (.ordered, .queue) ∧ queue.pq.posts = [] ∧
    (locked.hru.request.map fun r => (r.route, r.wait)) = some (.lock, .queue) ∧ locked.pq.posts = [] ∧
    (through.hru.request.map fun r => (r.route, r.wait)) = some (.kept, .through) ∧
    through.mpe.demand = some 255 ∧ (∀ p ∈ through.pq.posts, 8 ≤ ((255 : Seq) - p.seq).toNat) ∧
    (stopped.hru.request.isSome ∧ stopped.pq.state = .halted ∧ stopped.pq.posts ≠ []) ∧
    blocked.pq.state = .halted ∧ blocked.mpe.demand = some 255 ∧
    ∃ p ∈ blocked.pq.posts, ((255 : Seq) - p.seq).toNat < 8 := by decide

/-- The host's request to write 4 bytes at an address, waiting. -/
def writing (a : Addr) (route : Route) (wait : Wait) (s : State) : State :=
  let r : Request := ⟨.write, a, 4, 0xF, 0x44332211, false, route == .lock, s.rmap.lookup a, route, wait⟩
  { s with hru := { s.hru with request := some r } }

/-- The four kinds, each on its only beat, for a READ and, where the kind writes, for a WRITE. -/
theorem meets_HostTransactionCompletes :
    (∀ k ∈ [TxnKind.fetch, .lockedRead],
      let t := txnOf k 0 posting
      let s := running t (reading 0 .unkept .port posting)
      s.runs t ∧ t.kind = k ∧ t.beats[t.beatsDone]? = some ⟨0, 0xF⟩ ∧ t.beats.length = t.beatsDone + 1 ∧
      ∃ r, s.hru.request = some r ∧ r.kind = .read ∧ r.wait ≠ .line) ∧
    ∀ x ∈ [(TxnKind.write, Route.unposted, Wait.port), (.lockedWrite, .lock, .lock)],
      let t := txnOf x.1 0 posting
      let s := running t (writing 0 x.2.1 x.2.2 posting)
      s.runs t ∧ t.kind = x.1 ∧ t.beats[t.beatsDone]? = some ⟨0, 0xF⟩ ∧ t.beats.length = t.beatsDone + 1 ∧
      ∃ r, s.hru.request = some r ∧ r.kind = .write ∧ r.wait ≠ .line := by
  constructor <;> intro k hk <;> fin_cases hk <;>
    exact ⟨by decide, rfl, by decide, by decide, _, rfl, by decide, by decide⟩

theorem meets_HostTransactionFails :
    ∀ k ∈ [TxnKind.fetch, .write, .lockedRead, .lockedWrite],
      let t := txnOf k 0 posting
      let s := running t (reading 0 .unkept .port posting)
      s.runs t ∧ t.kind = k ∧ (Instr.mFail false false false).beatFailure s t = some .fail ∧
      s.hru.request.isSome := by decide

/-- The state of `filling`, and with its own request answered. -/
theorem meets_FillFails :
    let t := txnOf .fill 0 posting
    let f : FillContext := ⟨0, 0, 0, 0, 4, false, 0, 0, false, false⟩
    let tail := { filling with ls := { filling.ls with fill := some { f with answered := true } } }
    filling.runs t ∧ t.kind = .fill ∧ (Instr.mFail false false false).beatFailure filling t = some .fail ∧
    filling.ls.fill = some f ∧ f.answered = false ∧ filling.hru.request.isSome ∧
    tail.runs t ∧ tail.ls.fill = some { f with answered := true } := by decide

/-- The first beat without M_VOLATILE, and the last one with it. -/
theorem meets_FillBeatArrives :
    let t := txnOf .fill 0 posting
    let u := { t with beatsDone := 3 }
    let last := running u filling
    filling.runs t ∧ t.kind = .fill ∧ t.beats[0]? = some ⟨0, 0xF⟩ ∧ t.beats[1]? = some ⟨1, 0xF⟩ ∧
    filling.ls.fill.isSome ∧ last.runs u ∧ 0 < u.beatsDone ∧ u.beats[u.beatsDone]? = some ⟨3, 0xF⟩ ∧
    u.beats.length = u.beatsDone + 1 ∧ last.ls.fill.isSome := by decide

/-- A read of 4 bytes, whose first beat is its last, and one of 8 bytes, which goes on. -/
theorem meets_VolatileVetoCutsFill :
    let t := txnOf .fill 0 posting
    let u := { t with mask := 0x00FF }
    filling.runs t ∧ (running u filling).runs u ∧ t.kind = .fill ∧ t.beatsDone = 0 ∧
    t.beats = ⟨0, 0xF⟩ :: [⟨1, 0xF⟩, ⟨2, 0xF⟩, ⟨3, 0xF⟩] ∧ filling.ls.fill.isSome ∧
    (cutBeats t.snap.width t.mask t.beats).length = 1 ∧ (cutBeats u.snap.width u.mask u.beats)[1]? = some ⟨1, 0xF⟩ := by
  decide

/-- The fill's own request with its bytes arrived; a read that waits on the line; and a read whose line has left
FILLING: VALID, or gone, with its bytes in a post, no post, and a post of another byte, RUNNING and HALTED. -/
theorem meets_FillAnswersReads :
    let f : FillContext := ⟨0, 0, 0, 0, 4, false, 0x000F, 0, true, false⟩
    let g : FillContext := ⟨0, 0, 0, 0, 4, true, 0x000F, 0, false, false⟩
    let own := { filling with ls := { filling.ls with fill := some f } }
    let waits := reading 0 .kept .line { filling with ls := { filling.ls with fill := some g } }
    let hit := reading 0 .kept .line (withLine 0 0x44332211 posting)
    let miss := reading 0 .kept .line posting
    let other := { postD 0 0 with mask := 0x8000 }
    (hit.ls.distinct = true ∧ (hit.ls.line (setOf 0) 0).state = .valid ∧ (hit.ls.line (setOf 0) 0).block = blockOf 0) ∧
    (∀ w, (miss.ls.line (setOf 0) w).state = .invalid) ∧
    (miss.hru.request.map fun r => (r.kind, r.route, r.wait)) = some (.read, .kept, .line) ∧
    maskWithin 0x000F ((queued [postD 0 0] miss).pq.held 0).1 = true ∧
    maskWithin 0x000F (miss.pq.held 0).1 = false ∧ miss.pq.youngestOverlap 0 allBytes = none ∧
    maskWithin 0x000F ((queued [other] miss).pq.held 0).1 = false ∧
    (queued [other] miss).pq.youngestOverlap 0 allBytes = some other ∧ (queued [other] miss).pq.state = .running ∧
    (halted [other] 1 miss).pq.youngestOverlap 0 allBytes = some other ∧ (halted [other] 1 miss).pq.state = .halted ∧
    own.hru.request.isSome ∧ own.ls.fill = some f ∧ maskWithin (byteMask f.first f.count) f.arrived = true ∧
    waits.ls.fill = some g ∧ (waits.hru.request.map fun r => (r.kind, r.wait)) = some (.read, .line) ∧
    maskWithin 0x000F (g.arrived ||| g.written) = true := by decide

/-- Without and with a lock hold. -/
theorem meets_RetryFracturesOrReissues :
    let t := fetchOf 0 board
    let s := running t board
    let l := txnOf .lockedRead 0x30000100 board
    let u := running l { board with hru := { board.hru with lock := some (lock .opening .stopped) } }
    s.runs t ∧ t.beats[t.beatsDone]? = some ⟨0, 0x1⟩ ∧ t.retryCount + 1 < s.mpe.retryLimit ∧ s.lockHold = false ∧
    u.runs l ∧ l.beats[l.beatsDone]? = some ⟨0, 0xF⟩ ∧ l.retryCount + 1 < u.mpe.retryLimit ∧ u.lockHold = true := by
  decide

theorem meets_BeatEndingsWithoutOutcome :
    (let t := { fetchOf 0 board with abandoned := true }
     let s := running t board
     s.oar.owner = .bridge ∧ s.port.isSome ∧ s.mpe.txn = some t ∧ t.state = .current ∧ t.abandoned = true) ∧
    board.port = none ∧ (ownedByP1 board).oar.owner = .peer .p1 ∧ board.mpe.beatTimer ≠ .running 0 ∧
    (running (fetchOf 0 board) board).mpe.beatTimer ≠ .running 0 := by decide

/-- One clock before the wrap, and at it. -/
theorem meets_ClockMakesTicks :
    (let s := { board with tb := ⟨62, 64⟩ }; s.tb.count + 1 < s.tb.prescaler) ∧
    (let s := { board with tb := ⟨63, 64⟩ }; s.tb.prescaler ≤ s.tb.count + 1) ∧
    (let s := { board with tb := ⟨0, 1⟩ }; s.tb.prescaler ≤ s.tb.count + 1) := by decide

theorem meets_ExpiriesTakeEffect :
    (locked (.running 0)).hru.lock = some (lock .opened (.running 0)) ∧ board.hru.lock = none ∧
    (let s := ownedByP1 board
     let due := { s with oar := { s.oar with tenureTimer := .running 0 } }
     let late := { s with oar := { s.oar with yieldTimer := .running 0 } }
     let p0 : PeerLine := ⟨true, 1, false⟩
     due.oar.owner = .peer .p1 ∧ due.oar.tenureTimer = .running 0 ∧ due.otherWaits = false ∧
     { due with oar := { due.oar with peers := { due.oar.peers with p0 := p0 } } }.otherWaits = true ∧
     late.oar.owner = .peer .p1 ∧ late.oar.yieldTimer = .running 0 ∧ s.oar.tenureTimer ≠ .running 0 ∧
     s.oar.yieldTimer ≠ .running 0) := by decide

theorem meets_PeerLinesMove :
    (ownedByP1 board).oar.owner = .peer .p1 ∧ (ownedByP1 board).oar.owner ≠ .peer .p0 := by decide

/-- An unbarred owner without and with an overlapped post, RUNNING and HALTED; a barred one; no peer owner. Of two
overlapped posts the younger is found; the target of an obligation stands ahead of it, or is it, or stands behind it,
the seqs about to count past 255. -/
theorem meets_SnoopCheck :
    let s := ownedByP1 board
    let bar := { s with oar := { s.oar with peers := s.oar.peers.put .p1 ⟨true, 5, true⟩ } }
    let p := post4 0 0x1000900 0
    let two (a b : Post) := { s with pq := { s.pq with posts := [a, b], nextSeq := 1 } }
    let older := post4 255 0x1000900 0
    let other := post4 0 0x1000901 0
    s.oar.owner = .peer .p1 ∧ (s.oar.peers.get .p1).barred = false ∧ (bar.oar.peers.get .p1).barred = true ∧
    s.pq.youngestOverlap 0x1000900 0x000F = none ∧ s.mpe.obligation = none ∧
    (queued [p] s).pq.youngestOverlap 0x1000900 0x000F = some p ∧ (queued [p] s).pq.state = .running ∧
    (halted [p] 1 s).pq.youngestOverlap 0x1000900 0x000F = some p ∧ (halted [p] 1 s).pq.state = .halted ∧
    ((two older p).pq.wf = true ∧ (two older p).pq.youngestOverlap 0x1000900 0x000F = some p ∧
      (two older p).pq.posts = [] ++ older :: [p] ∧ p ∈ [p] ∧ (two older p).pq.posts = [older] ++ p :: [] ∧ p ∉ [] ∧
      { (two older p).mpe with obligation := some older.seq }.obligation = some older.seq) ∧
    ((two older other).pq.wf = true ∧ (two older other).pq.youngestOverlap 0x1000900 0x000F = some older ∧
      (two older other).pq.posts = [older] ++ other :: [] ∧ older ∉ []) ∧
    ∀ p : Peer, board.oar.owner ≠ .peer p := by
  refine ⟨by decide, by decide, by decide, by decide, by decide, by decide, by decide, by decide, by decide, by decide,
    by decide, fun p => ?_⟩
  cases p <;> decide

/-- Where nothing is left to do; a bridge that has just ended its transaction with an answer, a request standing, which
is taken; and the same under H_RST. -/
theorem meets_FinishTakesHeldRequest :
    let ended (hRst : Bool) := { board with
      hru := { board.hru with presented := some (r4Request 0), hRst := hRst }
      oar := { board.oar with owner := .bridge }, out := ⟨[⟨.ok, []⟩], false, []⟩ }
    let alone (s : State) := { s with hru := { s.hru with presented := none } }
    board.settled = true ∧ board.hru.presented = none ∧ (ended false).settled = false ∧
    (r4 0).request = some (r4Request 0) ∧ (ended false).hru.presented = some (r4Request 0) ∧
    (alone (ended false)).finish.hru.canTake = true ∧ (alone (ended false)).finish.out.answers = [⟨.ok, []⟩] ∧
    (ended true).hru.presented = some (r4Request 0) ∧ (alone (ended true)).finish.hru.canTake = false := by
  decide

/-- A READ that stands at the H-port while a WRITE waits is taken as the WRITE's last beat is acknowledged: the
write is answered, and the read's FILL starts in the same step (R74). -/
theorem test_mAck_takes_held :
    let s := running (txnOf .write 0 posting) (writing 0 .unposted .port posting)
    let t := after (.mAck 0 false) { s with hru := { s.hru with presented := some (r4Request 0) } }
    t.out.answers = [⟨.ok, []⟩] ∧ t.hru.presented = none ∧ t.hru.request.isSome ∧
      (t.mpe.txn.map Txn.kind) = some .fill := by decide

/-- The yield-round flag, each reason for level 7 (the high-water mark reached exactly), and none. -/
theorem meets_RoundsAndLevels :
    { board with oar := { board.oar with yieldRound := true } }.oar.yieldRound = true ∧
    (queued (eight.take 6) posting).pq.highWater ≤ (queued (eight.take 6) posting).pq.posts.length ∧
    { board with mpe := { board.mpe with obligation := some 0 } }.mpe.obligation.isSome ∧
    (locked (.running 16)).lockHold = true ∧
    (∃ r, (reading 0 .ordered .port board).hru.request = some r ∧ (r.route = .ordered ∨ r.route = .lock)) ∧
    ((queued (eight.take 5) posting).pq.posts.length < (queued (eight.take 5) posting).pq.highWater ∧
      (queued (eight.take 5) posting).mpe.obligation = none ∧ (queued (eight.take 5) posting).lockHold = false ∧
      (queued (eight.take 5) posting).hru.request = none) :=
  ⟨by decide, by decide, by decide, by decide, ⟨_, rfl, by decide⟩, by decide⟩

/-- A winning peer; the bridge granted with a post, locked work, handed work of each kind and a FRACTURED transaction;
the bridge that keeps the M-port against a peer of its own level, and holds it for a lock with and without work; the
two releases; a spent tenure that meets the bridge, another peer, and no one. -/
theorem meets_PortGrantAndRelease :
    let peer := { board with oar := { board.oar with peers := board.oar.peers.put .p1 ⟨true, 5, false⟩ } }
    let host (k : TxnKind) (s : State) := { s with mpe := { s.mpe with handed := some ⟨k, 0, 4, 0, s.rmap.lookup 0⟩ } }
    let lockWork := { board with mpe := { board.mpe with locked := some ⟨.lockedRead, 0, 4, 0, table17.lookup 0⟩ } }
    peer.oar.owner = .none ∧ peer.hru.presented = none ∧ peer.roundWinner = some (.peer .p1) ∧
    (queued [postD 0 7] board).roundWinner = some .bridge ∧ (queued [postD 0 7] board).mpe.txn = none ∧
    (queued [postD 0 7] board).nextWork = some .drain ∧ lockWork.roundWinner = some .bridge ∧
    lockWork.nextWork.isSome ∧ (host .fetch board).roundWinner = some .bridge ∧
    (host .fetch board).nextWork.isSome ∧ (host .fill posting).roundWinner = some .bridge ∧
    posting.rmap.keepCheck 0 = true ∧ (host .fill State.reset).roundWinner = some .bridge ∧
    State.reset.rmap.keepCheck 0 = false ∧
    (let idle := { board with oar := { board.oar with owner := .bridge } }
     idle.oar.owner = .bridge ∧ idle.mpe.running = false ∧ idle.lockHold = false ∧ idle.hasWork = false) ∧
    (let s := queued [postD 0 7] { peer with oar := { peer.oar with owner := .bridge } }
     s.mpe.running = false ∧ s.lockHold = false ∧ s.hasWork = true ∧ s.bridgeLevel < (s.oar.peers.get .p1).level) ∧
    (let t := { fetchOf 0 board with state := .fractured }
     let s := { board with mpe := { board.mpe with txn := some t } }
     s.roundWinner = some .bridge ∧ s.nextWork = some (.resume t)) ∧
    (let s := queued [postD 0 7] { peer with oar := { peer.oar with
       owner := .bridge, peers := peer.oar.peers.put .p1 ⟨true, 4, false⟩ } }
     s.mpe.running = false ∧ s.lockHold = false ∧ s.nextWork = some .drain ∧
     ∀ p ∈ allPeers, (s.oar.peers.get p).level ≤ s.bridgeLevel) ∧
    (let s := locked (.running 16)
     let t := { s with mpe := { s.mpe with locked := lockWork.mpe.locked } }
     s.oar.owner = .bridge ∧ s.mpe.running = false ∧ s.lockHold = true ∧ s.nextWork = none ∧
     t.lockHold = true ∧ t.nextWork = lockWork.mpe.locked.map Next.locked) ∧
    (let s := ownedByP1 board
     let spent := { s with oar := { s.oar with tenureTimer := .spent } }
     let p0 := { spent with oar := { spent.oar with peers := spent.oar.peers.put .p0 ⟨true, 1, false⟩ } }
     spent.oar.owner = .peer .p1 ∧ spent.hru.presented = none ∧ spent.bridgeRequest = false ∧
     (queued [postD 0 7] spent).bridgeRequest = true ∧ (queued [postD 0 7] spent).oar.tenureTimer = .spent ∧
     p0.bridgeRequest = false ∧ (p0.oar.peers.get .p0).req = true ∧ s.oar.tenureTimer ≠ .spent) := by
  decide

theorem meets_WorkSelectionAndResumption :
    (running (fetchOf 0 board) board).mpe.txn = some (fetchOf 0 board) ∧ board.mpe.txn = none ∧
    (fetchOf 0 board).kind ≠ .fill ∧ (txnOf .fill 0 posting).kind = .fill ∧
    (filling.ls.fill.map fun f => (f.stale, f.answered)) = some (false, false) ∧
    (∀ b : Bool, ({ filling.ls with fill := filling.ls.fill.map fun f => { f with stale := true, answered := b } } :
      LineStore).fill.map (fun f => (f.stale, f.answered)) = some (true, b)) := by decide

/-- A SET short of its answer point by one bit, at it, and past it by one; the last bit of a status byte and of an
answer. -/
theorem meets_LinkMovesWithoutEffect :
    let sent := bitsOf [0x02, 0x21, 0x00, 0x03]
    let got := sent.take 9
    let first := (sent.drop 9).take 22
    { board with link := .receiving got }.link = .receiving got ∧ board.link = .idle ∧
    Frame.parse (bytesOf ([] ++ [])) = none ∧ Frame.parse (bytesOf (got ++ first)) = none ∧
    Frame.parse (bytesOf (got ++ first ++ [true])) = some (.set 0x21 3) ∧
    sent.drop 9 ++ [false] = first ++ true :: [false] ∧
    { board with link := .answering .resume .ok [] 7 }.link = .answering .resume .ok [] 7 ∧
    7 < 8 * (([] : List Byte).length + 1) ∧
    { board with link := .answering (.get 0x21) .ok [0, 3] 23 }.link = .answering (.get 0x21) .ok [0, 3] 23 ∧
    23 < 8 * (([0, 3] : List Byte).length + 1) ∧ (Status.ok.byte :: ([0, 3] : List Byte))[2]? = some 3 ∧
    { board with link := .blocked }.link = .blocked ∧
    { board with link := .done .resume .ok [] }.link = .done .resume .ok [] ∧
    Instr.resume.frame = some .resume ∧ (Instr.set 0x21 3).frame = some (.set 0x21 3) ∧
    bytesOf (bitsOf [0x21]) = Frame.resume.input ∧ 7 < (bitsOf [0x21]).length ∧ board.link ≠ .blocked := by decide

/-- Command byte 0 names none; the item numbers at the ends of the gaps; the log and the queue empty and not. -/
theorem meets_FrameStatus :
    namesCommand 0x00 = false ∧ (0x10 : Byte).toNat ≤ 0x10 ∧ 0x10 < (0x11 : Byte).toNat ∧ (0x1F : Byte).toNat < 0x20 ∧
    0x2C < (0x2D : Byte).toNat ∧ board.items[(12 : Fin 13).val]? = some 0 ∧ board.items[(0 : Fin 13).val]? = some 64 ∧
    board.flt.log = [] ∧ { board.flt with log := [overstay] }.log = overstay :: [] ∧
    board.pq.posts.length ≤ (0 : Byte).toNat ∧
    (queued [postD 0 7] board).pq.posts[(0 : Byte).toNat]? = some (postD 0 7) := by decide

/-- A refused SET, a VIEW_POST, and a frame that meets a BLOCKED link. -/
theorem meets_FrameWithoutEffect :
    (Instr.setHighWaterMark 9).frame = some (.set 0x26 9) ∧
    board.frameAnswer (.set 0x26 9) = some (.badValue, []) ∧ (Instr.viewPost 0).frame = some (.viewPost 0) ∧
    (queued [postD 0 7] board).frameAnswer (.viewPost 0) = some (.ok, (postD 0 7).bytes28) ∧
    { board with link := .blocked }.frameAnswer (.viewPost 0) = none := by decide

/-- Every item accepts its lowest value. -/
theorem meets_SetReplacesItem :
    ∀ item ∈ ([0x20, 0x21, 0x22, 0x23, 0x24, 0x25, 0x26, 0x27, 0x28, 0x29, 0x2A, 0x2B, 0x2C] : List Byte),
      board.frameAnswer (.set item 1) = some (.ok, []) := by decide

/-- The first and the last entry, and D, at each width. -/
theorem meets_RegionRewriteEffect :
    board.frameAnswer (.setRegion (BitVec.ofNat 8 (0 : Fin 16).val) 0x8000000000) = some (.ok, []) ∧
    board.frameAnswer (.setRegion (BitVec.ofNat 8 (15 : Fin 16).val) 0xB400000000) = some (.ok, []) ∧
    board.frameAnswer (.setRegion 0x10 0x4000000002) = some (.ok, []) ∧
    (0x8000000000 : BitVec 40).extractLsb' 37 2 = 0 ∧ (0xB400000000 : BitVec 40).extractLsb' 37 2 = 1 ∧
    (0x4000000002 : BitVec 40).extractLsb' 37 2 = 2 := by decide

theorem meets_RecoveryCommandEffects :
    (let s := { board with flt := { board.flt with log := [overstay] } }
     s.flt.log = overstay :: [] ∧ s.frameAnswer .popFault = some (.ok, overstay.bytes16)) ∧
    board.frameAnswer .clearLog = some (.ok, []) ∧ board.frameAnswer (.ackInt 7) = some (.ok, []) ∧
    (∀ p ∈ allPeers, (BitVec.ofNat 8 (peerIndex p)).toNat = peerIndex p ∧
      board.frameAnswer (.restorePeer (BitVec.ofNat 8 (peerIndex p))) = some (.ok, [])) := by decide

/-- DISCARD with no WAITING post, with one, and with all but a DRAINING head. -/
theorem meets_QueueCommandEffects :
    let s := queued [{ postD 0 7 with state := .draining }, postD 1 8, postD 2 9] posting
    let gone (s : State) := s.pq.posts.filter fun p => p.state == .waiting
    board.frameAnswer .resume = some (.ok, []) ∧ board.frameAnswer .drainMark = some (.ok, []) ∧
    board.frameAnswer .invalidate = some (.ok, []) ∧ s.frameAnswer .discard = some (.ok, []) ∧
    s.pq.posts = [{ postD 0 7 with state := .draining }, postD 1 8] ++ [postD 2 9] ∧ board.pq.posts = [] ∧ gone board = [] ∧
    (gone s).head? = some (postD 1 8) ∧ (gone s).getLast? = some (postD 2 9) ∧
    gone (queued [postD 0 7] posting) = [postD 0 7] := by decide

/-- A way in the middle of its order; a set with an INVALID way behind VALID ones, and one without; a block without a
line, with a VALID one, and with the FILLING one, STALE. -/
theorem meets_LineStoreUpdates :
    let l := (withLine 0 0 posting).ls
    let f : FillContext := ⟨0, 0, 0, 0, 4, false, 0, 0, true, false⟩
    let stale : LineStore := { filling.ls with fill := some f }
    let used (i : Nat) : Line := ⟨.valid, BitVec.ofNat 28 (8 * i), spreadWord 0⟩
    let full : LineSet := ⟨#v[used 0, used 1, used 2, used 3], [3, 0, 2, 1]⟩
    l.sets[(0 : Fin 8)].recency = [0, 1] ++ 2 :: [3] ∧ 2 ∉ [0, (1 : Fin 4)] ∧ 2 ∉ [(3 : Fin 4)] ∧
    l.sets[(0 : Fin 8)].ways[(1 : Fin 4)].state = .invalid ∧
    (∀ v : Fin 4, v < 1 → l.sets[(0 : Fin 8)].ways[v].state ≠ .invalid) ∧
    (∀ w : Fin 4, full.ways[w].state ≠ .invalid) ∧ full.recency = [3, 0, 2] ++ [1] ∧
    (∀ w, (l.line (setOf 8) w).state = .invalid ∨ (l.line (setOf 8) w).block ≠ 8) ∧
    (l.distinct = true ∧ (l.line (setOf 0) 0).state ≠ .invalid ∧ (l.line (setOf 0) 0).block = 0) ∧
    (stale.distinct = true ∧ (stale.line (setOf 0) 0).state = .filling ∧ (stale.line (setOf 0) 0).block = 0) ∧
    stale.fill = some f := by decide

theorem meets_ItemsChangeOnlyBySet :
    exec (.setHighWaterMark 8) board = .next (after (.setHighWaterMark 8) board) ∧
    (Instr.setHighWaterMark 8).frame = some (.set 0x26 8) ∧ (0x26 : Byte) ≠ BitVec.ofNat 8 (0x20 + (12 : Fin 13).val) ∧
    exec .tick board = .next (after .tick board) :=
  ⟨rfl, by decide, by decide, rfl⟩

/-- Eight records, where one more is lost, and seven, where it joins. -/
theorem meets_LogLosesRecordsOnlyByCommand :
    let s := { board with flt := { board.flt with log := List.replicate 8 overstay } }
    exec (.lockWrite 0 0xF 0 false) s = .next (after (.lockWrite 0 0xF 0 false) s) ∧
    (s.flt.log.length ≤ 8 ∧ 8 ≤ s.flt.log.length ∧ (List.replicate 7 overstay).length < 8) ∧
    exec .popFault s = .next (after .popFault s) ∧ exec .hostReset s = .next (after .hostReset s) ∧
    exec (.powerOn false false false false none) s = .next (after (.powerOn false false false false none) s) :=
  ⟨rfl, by decide, rfl, rfl, rfl⟩

theorem meets_PostsLeaveFromTheHead :
    exec (w4 0x10000000) board = .next (after (w4 0x10000000) board) ∧ w4 0x10000000 ≠ .discard :=
  ⟨rfl, by decide⟩

theorem meets_PeerKeepsPortUntilRelease :
    exec .tenureExpiry (ownedByP1 board) = .next (after .tenureExpiry (ownedByP1 board)) ∧
    (ownedByP1 board).oar.owner = .peer .p1 ∧ Instr.tenureExpiry ≠ .peerRelease .p1 :=
  ⟨rfl, by decide, by decide⟩

/-- A read of two of the bytes of a post in a HALTED queue, with an older post of the block. -/
theorem meets_ReadsAreNeverStale :
    let p := postD 1 0
    let s := halted [postD 0 0, p] 2 posting
    let h : HostRequest := ⟨.read, 0, 0x6, 0, false, false⟩
    s.inv = true ∧ (Instr.read 0 0x6 false).request = some h ∧ h.kind ≠ .write ∧ s.hru.takes ∧
    (after (.read 0 0x6 false) s).out.answers = [⟨.ok, [0x22, 0x33]⟩] ∧ s.pq.posts = [postD 0 0] ++ p :: [] ∧
    p.block = blockOf h.address ∧ (1 : Nat) < h.byteCount ∧ (2 : Fin 16).val = offsetOf h.address + 1 ∧
    p.mask.getLsbD (2 : Fin 16).val = true := by decide

/-- A full queue in a part that meets every invariant, with a write waiting for the step: for StepKeepsQueueForm,
StepKeepsItemsInRange, StepLeavesPortSettled and StepKeepsInvariant. -/
theorem meets_StepKeepsInvariant :
    let s := waiting [w4 4] (halted eight 8 posting)
    s.pq.wf = true ∧ s.itemsWf = true ∧ s.settled = true ∧ s.inv = true ∧ step s = .next (after (w4 4) (waiting [] s)) :=
  ⟨by decide, by decide, by decide, by decide, rfl⟩

/-- A VALID line in a KEEP region, and a SET of D that takes its KEEP away. -/
theorem meets_StepKeepsLinesInKeepRegions :
    let s := waiting [.regionRewrite 0x10 0x4000000000] (withLine 0 0 posting)
    s.inv = true ∧ s.linesKept = true ∧ s.ls.validCount = 1 ∧
    step s = .next (after (.regionRewrite 0x10 0x4000000000) (waiting [] s)) :=
  ⟨by decide, by decide, by decide, rfl⟩

end Sys2Proof.Tests
end

section
/-! The Post Queue: what the overlap test reports, when a write merges into the tail, and what the merge leaves. -/

namespace Sys2Proof.Machine

/-! ## The overlap test -/

/-- A post overlaps a range where it is of the range's block and has one of the range's bytes (R28). -/
theorem Post.overlaps_iff (p : Post) (b : Block) (m : Mask) :
    p.overlaps b m = true ↔ p.block = b ∧ ∃ i : Fin 16, p.mask.getLsbD i.val = true ∧ m.getLsbD i.val = true := by
  rw [Post.overlaps, Bool.and_eq_true, beq_iff_eq, masksMeet_iff]

/-- The reported post overlaps and no younger one does: the search from the tail stops at it (R28). -/
theorem PostQueue.youngestOverlap_eq_some (q : PostQueue) (b : Block) (m : Mask) (p : Post) :
    q.youngestOverlap b m = some p ↔
      ∃ older younger : List Post, q.posts = older ++ p :: younger ∧ p.overlaps b m = true ∧
        ∀ x ∈ younger, ¬x.overlaps b m = true := by
  rw [youngestOverlap, List.find?_eq_some_iff_append]
  constructor
  · rintro ⟨hp, before, after, hq, hb⟩
    exact ⟨after.reverse, before.reverse, by simpa using congrArg List.reverse hq, hp, by simpa using hb⟩
  · rintro ⟨older, younger, hq, hp, hy⟩
    exact ⟨hp, younger.reverse, older.reverse, by simp [hq], by simpa using hy⟩

theorem PostQueue.youngestOverlap_eq_none (q : PostQueue) (b : Block) (m : Mask) :
    q.youngestOverlap b m = none ↔ ∀ x ∈ q.posts, ¬x.overlaps b m = true := by
  simp only [youngestOverlap, List.find?_eq_none, List.mem_reverse]

/-- Settles O17: the search from the tail, with the overlap of one post said byte by byte. -/
theorem overlapTestReportsYoungest : Obligations.OverlapTestReportsYoungest := by
  intro q b m
  constructor
  · intro p
    simp only [PostQueue.youngestOverlap_eq_some, Post.overlaps_iff, and_assoc]
  · simp only [PostQueue.youngestOverlap_eq_none, Post.overlaps_iff]

/-! ## The merge of a write into the tail -/

/-- The merge test is of the tail post (R22). -/
theorem PostQueue.canMerge_concat (q : PostQueue) (b : Block) (snap : Snapshot) (older : List Post) (tail : Post)
    (hq : q.posts = older ++ [tail]) :
    q.canMerge b snap = true ↔ tail.state = .waiting ∧ q.mergeOpen = true ∧ tail.block = b ∧
      tail.snap.index = snap.index ∧ snap.attrs.merge = true := by
  simp [canMerge, hq, and_assoc]

theorem PostQueue.canMerge_nil (q : PostQueue) (b : Block) (snap : Snapshot) (hq : q.posts = []) :
    q.canMerge b snap = false := by
  simp [canMerge, hq]

/-- The merge conditions of R22, for every queue: there is a tail, and it meets them. -/
theorem PostQueue.canMerge_iff (q : PostQueue) (b : Block) (snap : Snapshot) :
    q.canMerge b snap = true ↔
      ∃ (older : List Post) (tail : Post), q.posts = older ++ [tail] ∧ tail.state = .waiting ∧
        q.mergeOpen = true ∧ tail.block = b ∧ tail.snap.index = snap.index ∧ snap.attrs.merge = true := by
  constructor
  · intro h
    rcases List.eq_nil_or_concat q.posts with hq | ⟨older, tail, hq⟩
    · simp [q.canMerge_nil b snap hq] at h
    · rw [List.concat_eq_append] at hq
      exact ⟨older, tail, hq, (q.canMerge_concat b snap older tail hq).mp h⟩
  · rintro ⟨older, tail, hq, hc⟩
    exact (q.canMerge_concat b snap older tail hq).mpr hc

/-- A merge folds the write's bytes into the tail and leaves the older posts (R22). -/
theorem PostQueue.merge_concat (q : PostQueue) (m : Mask) (d : BlockData) (older : List Post) (tail : Post)
    (hq : q.posts = older ++ [tail]) : q.merge m d = { q with posts := older ++ [tail.fold m d] } := by
  simp [merge, hq]

/-! ## The take of a postable write -/

/-- A plain write to a POST region that is not PROTECT takes the posted route (R77, R79). -/
theorem classify_posted (h : HostRequest) (snap : Snapshot) (hk : h.kind = .write) (hp : h.plain)
    (hpost : snap.attrs.post = true) (hdev : snap.attrs.device = false) (hprot : snap.attrs.protect = false) :
    classify h snap = .posted := by
  obtain ⟨hill, hlock, hord⟩ := hp
  simp [classify, postable, hk, hill, hlock, hord, hpost, hdev, hprot]

/-- Without a lock there is none to abandon. -/
theorem State.abandonLock_of_none (s : State) (hl : s.hru.lock = none) : s.abandonLock = s := by
  simp [abandonLock, hl]

/-- Without a lock no request matches one. -/
theorem Hru.matchesLock_of_none (u : Hru) (h : HostRequest) (hl : u.lock = none) : u.matchesLock h = false := by
  simp [matchesLock, hl]

/-- The take of a legal request on the posted route, with no lock open, offers it to the queue and leaves the merge
flag (R24, R79). -/
theorem State.take_posted (s : State) (h : HostRequest) (hill : h.illegal = false) (hl : s.hru.lock = none)
    (hr : classify h (s.rmap.lookup h.address) = .posted) :
    s.take h = State.offerWrite { s with hru := { s.hru with request := some (s.requestOf h) } } (s.requestOf h) := by
  simp [take, hill, hr, Hru.matchesLock_of_none, abandonLock_of_none, hl, followRoute]

/-- An HRU without a request, after it has taken and released one, is as before. -/
theorem Hru.release_taken (u : Hru) (r : Option Request) (hu : u.request = none) :
    { { u with request := r } with request := none } = u := by
  rw [← hu]

/-- A write is answered OK without data (R75). -/
theorem State.answerOk_write (s : State) (r : Request) (d : BlockData) (hk : r.kind = .write) :
    s.answerOk r d = s.answer .ok [] := by
  simp [answerOk, hk]

/-- A write that can merge folds into the tail, updates the line of its block and is answered OK (R22, R63, R79). -/
theorem State.offerWrite_merges (s : State) (r : Request) (older : List Post) (tail : Post)
    (hk : r.kind = .write) (hq : s.pq.posts = older ++ [tail])
    (hc : s.pq.canMerge r.block (s.rmap.lookup r.addr) = true)
    (hw : ∀ x, s.hru.request = some x → x.wait ≠ .line) :
    s.offerWrite r = State.answer { s with
      pq := { s.pq with posts := older ++ [tail.fold r.mask (spreadWord r.data)] }
      ls := s.ls.writeUpdate r.block r.mask (spreadWord r.data) } .ok [] := by
  have hupdate := writeUpdate_of_wait { s with pq := s.pq.merge r.mask (spreadWord r.data) } r.block r.mask
    (spreadWord r.data) hw
  rw [offerWrite, if_pos hc, answerOk_write _ _ _ hk, hupdate, s.pq.merge_concat _ _ older tail hq]

/-- The take of a postable write that meets the tail's merge conditions merges it and answers it (R22, R63, R79). -/
theorem State.take_merges (s : State) (h : HostRequest) (older : List Post) (tail : Post) (hk : h.kind = .write)
    (hp : h.plain) (hpost : (s.rmap.lookup h.address).attrs.post = true)
    (hprot : (s.rmap.lookup h.address).attrs.protect = false) (hreq : s.hru.request = none)
    (hl : s.hru.lock = none) (hq : s.pq.posts = older ++ [tail])
    (hc : s.pq.canMerge (blockOf h.address) (s.rmap.lookup h.address) = true) :
    s.take h = { s with
      pq := { s.pq with
        posts := older ++ [tail.fold (byteMask (offsetOf h.address) h.byteCount) (spreadWord h.data)] }
      ls := s.ls.writeUpdate (blockOf h.address) (byteMask (offsetOf h.address) h.byteCount) (spreadWord h.data)
      out := { s.out with answers := s.out.answers ++ [⟨.ok, []⟩] } } := by
  have hdev := s.rmap.device_of_post h.address hpost
  have hroute := classify_posted h (s.rmap.lookup h.address) hk hp hpost hdev hprot
  have hmerge := offerWrite_merges { s with hru := { s.hru with request := some (s.requestOf h) } } (s.requestOf h)
    older tail hk hq hc (by simp)
  rw [s.take_posted h hp.1 hl hroute, hmerge, State.answer, Hru.release_taken s.hru _ hreq]
  rfl

/-- Settles O11: the merge test by the tail of the queue, the next state by the take on the posted route. -/
theorem postedWriteMerges : Obligations.PostedWriteMerges := by
  refine ⟨PostQueue.canMerge_iff, ?_⟩
  intro c h s older tail hc hk hp hpost hprot ht hl hq hwait hopen hblock hindex hmerge
  have hcan : s.pq.canMerge (blockOf h.address) (s.rmap.lookup h.address) = true :=
    (s.pq.canMerge_concat _ _ older tail hq).mpr ⟨hwait, hopen, hblock, hindex, hmerge⟩
  rw [exec_takes c h s hc ht, s.begin.take_merges h older tail hk hp hpost hprot ht.1 hl hq hcan]
  rfl

end Sys2Proof.Machine
end

section
/-! The Line Store: every line, every recency order and the fill context after each of its operations. -/

namespace Sys2Proof.Machine

/-! ## A change of one line -/

/-- A change of one line reaches no other (R44). -/
theorem LineStore.line_setLine_map (l : LineStore) (s i : Fin 8) (v w : Fin 4) (g : Line → Line) :
    (l.setLine s v (g (l.line s v))).line i w = if i = s ∧ w = v then g (l.line i w) else l.line i w := by
  rw [line_setLine]
  by_cases h : i = s ∧ w = v
  · obtain ⟨rfl, rfl⟩ := h
    simp
  · rw [if_neg h, if_neg fun hc => h ⟨hc.1.symm, hc.2.symm⟩]

/-- The fill context holds no part of a line. -/
theorem LineStore.line_withFill (l : LineStore) (f : Option FillContext) (i : Fin 8) (w : Fin 4) :
    ({ l with fill := f } : LineStore).line i w = l.line i w := rfl

/-! ## Line invalidation -/

/-- A VALID line becomes INVALID, and a line in another state stays (R47). -/
theorem Line.invalidate_eq (x : Line) :
    x.invalidate = if x.state = .valid then { x with state := .invalid } else x := by
  unfold invalidate
  cases x.state <;> rfl

theorem LineStore.line_invalidateWhere (l : LineStore) (p : Block → Bool) (i : Fin 8) (w : Fin 4) :
    (l.invalidateWhere p).line i w =
      if p (l.line i w).block = true ∧ (l.line i w).state = .valid then { l.line i w with state := .invalid }
      else l.line i w := by
  have hline : (l.invalidateWhere p).line i w =
      if p (l.line i w).block then (l.line i w).invalidate else l.line i w := by
    simp [line, invalidateWhere]
  rw [hline, Line.invalidate_eq, ite_and]

/-- A line invalidation changes no recency order (R47). -/
theorem LineStore.recency_invalidateWhere (l : LineStore) (p : Block → Bool) (i : Fin 8) :
    (l.invalidateWhere p).sets[i].recency = l.sets[i].recency := by
  simp [invalidateWhere]

/-! ## Recency and the victim -/

/-- In a set without an INVALID way the victim is the way at the back of the order (R55). -/
theorem LineSet.victim_of_full_concat (s : LineSet) (h : ∀ w : Fin 4, s.ways[w].state ≠ .invalid)
    (before : List (Fin 4)) (w : Fin 4) (hr : s.recency = before ++ [w]) : s.victim = w := by
  simp [s.victim_of_full h, hr]

/-! ## Allocation -/

/-- An allocation writes the victim's line, moves its way to the front and occupies the fill context (R56). -/
theorem LineStore.allocate_eq (l : LineStore) (b : Block) (first count : Nat) :
    l.allocate b first count =
      { (l.setLine (setOf b) l.sets[setOf b].victim
          { l.line (setOf b) l.sets[setOf b].victim with state := .filling, block := b }).touch
            (setOf b) l.sets[setOf b].victim with
        fill := some ⟨setOf b, l.sets[setOf b].victim, b, first, count, false, 0, 0, false, false⟩ } := rfl

/-- The victim becomes the FILLING line of the block and keeps its data; every other line stays (R56). -/
theorem LineStore.line_allocate (l : LineStore) (b : Block) (first count : Nat) (i : Fin 8) (w : Fin 4) :
    (l.allocate b first count).line i w =
      if i = setOf b ∧ w = l.sets[setOf b].victim then { l.line i w with state := .filling, block := b }
      else l.line i w := by
  rw [allocate_eq, line_withFill, line_touch]
  exact l.line_setLine_map (setOf b) i _ w fun x => { x with state := .filling, block := b }

/-- An allocation moves the victim to the front of its own set's order (R56). -/
theorem LineStore.recency_allocate (l : LineStore) (b : Block) (first count : Nat) (i : Fin 8) :
    (l.allocate b first count).sets[i].recency =
      if i = setOf b then (l.touch i l.sets[setOf b].victim).sets[i].recency else l.sets[i].recency := by
  rw [allocate_eq]
  simp only [recency_touch, recency_setLine, if_true, eq_comm]

/-! ## Write updates -/

/-- A write update without a line of its block does nothing (R63). -/
theorem LineStore.writeUpdate_of_find_none (l : LineStore) (b : Block) (m : Mask) (d : BlockData)
    (h : l.find b = none) : l.writeUpdate b m d = l := by
  simp only [writeUpdate, h]

/-- A write update of the line of its block: its bytes are laid over the line's data, and join the write mask where the
line is FILLING (R63, R64). -/
theorem LineStore.writeUpdate_of_find (l : LineStore) (b : Block) (m : Mask) (d : BlockData) (w : Fin 4)
    (h : l.find b = some w) :
    l.writeUpdate b m d =
      { l.setLine (setOf b) w { l.line (setOf b) w with data := overlay m d (l.line (setOf b) w).data } with
        fill := if (l.line (setOf b) w).state = .filling then
            l.fill.map fun f => { f with written := f.written ||| m }
          else l.fill } := by
  by_cases hf : (l.line (setOf b) w).state = .filling <;> simp [writeUpdate, h, hf, setLine]

/-- A write update reaches the data of the found line alone (R63). -/
theorem LineStore.line_writeUpdate (l : LineStore) (b : Block) (m : Mask) (d : BlockData) (w : Fin 4)
    (h : l.find b = some w) (i : Fin 8) (v : Fin 4) :
    (l.writeUpdate b m d).line i v =
      if i = setOf b ∧ v = w then { l.line i v with data := overlay m d (l.line i v).data } else l.line i v := by
  rw [l.writeUpdate_of_find b m d w h, line_withFill]
  exact l.line_setLine_map (setOf b) i w v fun x => { x with data := overlay m d x.data }

/-! ## The end of a fill -/

theorem LineStore.endFill_of_fill (l : LineStore) (f : FillContext) (valid : Bool) (hf : l.fill = some f) :
    l.endFill valid =
      { l.setLine f.set f.way { l.line f.set f.way with state := if valid then .valid else .invalid } with
        fill := none } := by
  simp only [endFill, hf]

/-- The line of the fill leaves FILLING with its data, and every other line stays (R60). -/
theorem LineStore.line_endFill (l : LineStore) (f : FillContext) (valid : Bool) (i : Fin 8) (w : Fin 4)
    (hf : l.fill = some f) :
    (l.endFill valid).line i w =
      if i = f.set ∧ w = f.way then { l.line i w with state := if valid then .valid else .invalid }
      else l.line i w := by
  rw [l.endFill_of_fill f valid hf, line_withFill]
  exact l.line_setLine_map f.set i f.way w fun x => { x with state := if valid then .valid else .invalid }

/-- The end of a fill changes no recency order (R60). -/
theorem LineStore.recency_endFill (l : LineStore) (f : FillContext) (valid : Bool) (i : Fin 8)
    (hf : l.fill = some f) : (l.endFill valid).sets[i].recency = l.sets[i].recency := by
  rw [l.endFill_of_fill f valid hf]
  exact l.recency_setLine f.set i f.way _

/-! ## The whole Line Store -/

/-- Settles O49: one case for each operation; a write update by the line found for its block. -/
theorem lineStoreUpdates : Obligations.LineStoreUpdates := by
  refine ⟨?invalidation, ?recency, ?victim, ?allocation, ?writeUpdate, ?endFill⟩
  case invalidation =>
    exact fun l p i w => ⟨l.line_invalidateWhere p i w, l.recency_invalidateWhere p i, rfl⟩
  case recency =>
    intro l i w
    refine ⟨fun j v => l.line_touch i j w v, rfl, fun j hj => ?other, fun before after hr hb ha => ?own⟩
    case other => rw [l.recency_touch, if_neg hj.symm]
    case own => rw [l.recency_touch, if_pos rfl, hr, toFront_append w before after hb ha]
  case victim => exact fun s => ⟨s.victim_of_invalid, s.victim_of_full_concat⟩
  case allocation =>
    exact fun l b first count i w => ⟨l.line_allocate b first count i w, l.recency_allocate b first count i, rfl⟩
  case writeUpdate =>
    intro l b m d
    refine ⟨fun h => l.writeUpdate_of_find_none b m d (l.find_eq_none b h), fun w hdistinct hstate hblock => ?_⟩
    have hfind := l.find_of_line b w hdistinct hstate hblock
    have hline := l.line_writeUpdate b m d w hfind
    refine ⟨⟨_, ?own, overlay_get m d _⟩, fun i v hother => ?other, fun i => ?order, ?fill⟩
    case own => rw [hline, if_pos ⟨rfl, rfl⟩]
    case other => rw [hline, if_neg (not_and_or.mpr hother)]
    case order =>
      rw [l.writeUpdate_of_find b m d w hfind]
      exact l.recency_setLine (setOf b) i w _
    case fill => rw [l.writeUpdate_of_find b m d w hfind]
  case endFill =>
    intro l f valid i w hf
    exact ⟨l.line_endFill f valid i w hf, l.recency_endFill f valid i hf, by rw [l.endFill_of_fill f valid hf]⟩

end Sys2Proof.Machine
end

section
/-! Writes answered FAULT at their take: the routes that refuse a write, and what is left of the part afterwards. -/

namespace Sys2Proof.Machine

/-! ## The routes that refuse a write -/

/-- A legal write without LOCK to a PROTECT region takes the refused route, whatever its ORDER (R77, R78). -/
theorem classify_writeProtected (h : HostRequest) (snap : Snapshot) (hk : h.kind = .write) (hill : h.illegal = false)
    (hlock : h.lock = false) (hprot : snap.attrs.protect = true) : classify h snap = .refused := by
  simp [classify, hk, hill, hlock, hprot]

/-- A legal request with LOCK takes the lock route, PROTECT or not (R77). -/
theorem classify_lock (h : HostRequest) (snap : Snapshot) (hill : h.illegal = false) (hlock : h.lock = true) :
    classify h snap = .lock := by
  simp [classify, hill, hlock]

/-- The refused route answers FAULT with WRITE_PROTECT (R78). -/
theorem State.followRoute_refused (s : State) (r : Request) (hr : r.route = .refused) :
    s.followRoute r = s.answerFault r .writeProtect none := by
  simp [followRoute, hr]

/-- A write on the lock route, where no open lock matched it, is answered FAULT with LOCK_LOST (R128). -/
theorem State.followRoute_lockWrite (s : State) (r : Request) (hr : r.route = .lock) (hk : r.kind = .write) :
    s.followRoute r = s.answerFault r .lockLost none := by
  simp [followRoute, lockRoute, hr, hk]

/-! ## The take of a refused write -/

/-- The take of a legal request off the posted route, with no lock, closes tail merging and follows the route
(R24, R77). -/
theorem State.take_off_posted (s : State) (h : HostRequest) (hill : h.illegal = false) (hl : s.hru.lock = none)
    (hr : classify h (s.rmap.lookup h.address) ≠ .posted) :
    s.take h =
      State.followRoute { s with hru := { s.hru with request := some (s.requestOf h) }, pq := s.pq.closeMerge }
        (s.requestOf h) := by
  simp [take, hill, hr, Hru.matchesLock_of_none, abandonLock_of_none, hl, closeMerge]

/-- The FAULT answer of a write just taken leaves its record of Table 9-2 and, the closed merge flag apart, the part as
it was before the take (R75, R76). -/
theorem State.answerFault_takenWrite (s : State) (h : HostRequest) (kind : FaultKind) (hk : h.kind = .write)
    (hreq : s.hru.request = none) :
    State.answerFault { s with hru := { s.hru with request := some (s.requestOf h) }, pq := s.pq.closeMerge }
        (s.requestOf h) kind none =
      { s with
        pq := { s.pq with mergeOpen := false }
        flt := s.flt.take
          { kind, origin := .host, bytes := some ⟨h.address, h.byteCount⟩
            region := some (s.rmap.lookup h.address).index }
        out := { s.out with answers := s.out.answers ++ [⟨.fault, []⟩] } } := by
  have hdata : (s.requestOf h).faultData = [] := by simp [Request.faultData, hk]
  rw [answerFault, hdata, answer]
  simp only [record, Hru.release_taken s.hru _ hreq]
  rfl

/-- Settles O10: the write's route, what that route answers, and what the answer leaves. -/
theorem writeRefusedAtTake : Obligations.WriteRefusedAtTake := by
  refine ⟨?writeProtect, ?lockLost⟩
  case writeProtect =>
    intro c h s hc hk hill hlock hprot ht hl
    have hroute := classify_writeProtected h (s.rmap.lookup h.address) hk hill hlock hprot
    rw [exec_takes c h s hc ht, s.begin.take_off_posted h hill hl (by simp [hroute]),
      State.followRoute_refused _ _ hroute, s.begin.answerFault_takenWrite h _ hk ht.1]
    rfl
  case lockLost =>
    intro c h s hc hk hlock hill ht hl
    have hroute := classify_lock h (s.rmap.lookup h.address) hill hlock
    rw [exec_takes c h s hc ht, s.begin.take_off_posted h hill hl (by simp [hroute]),
      State.followRoute_lockWrite _ _ hroute hk, s.begin.answerFault_takenWrite h _ hk ht.1]
    rfl

end Sys2Proof.Machine
end

section
/-! The fault log: which commands a record can leave it by, and what every other command leaves of it. -/

namespace Sys2Proof.Machine

/-! ## The take of a record -/

/-- A record joins a log with room at its end (R160, R161). -/
theorem FaultUnit.take_of_room (f : FaultUnit) (r : FaultRecord) (h : f.log.length < 8) :
    f.take r = { f with log := f.log ++ [r], pend := { f.pend with record := true } } :=
  if_pos h

/-- A record that meets a full log is dropped, and LOST is set (R161). -/
theorem FaultUnit.take_of_full (f : FaultUnit) (r : FaultRecord) (h : 8 ≤ f.log.length) :
    f.take r = { f with lost := true, pend := { f.pend with record := true } } :=
  if_neg (Nat.not_lt.mpr h)

/-! ## The growth of the log -/

/-- A change of the pending set or the enables is none of the log. -/
theorem FaultUnit.Grows.of_log {f g : FaultUnit} (hlog : g.log = f.log) (hlost : g.lost = f.lost) : f.Grows g :=
  ⟨hlog ▸ (Grows.refl f).log, hlost ▸ id, hlog ▸ id⟩

/-- An operation that keeps the records, after an update of other blocks. -/
theorem State.Keeps.grows_of_flt {s t : State} {f : FaultUnit} (h : s.Keeps t) (hf : s.flt = f) : f.Grows t.flt :=
  hf ▸ h.grows

theorem FaultUnit.grows_ite {p : Prop} [Decidable p] {f : FaultUnit} {a b : State} (ha : f.Grows a.flt)
    (hb : f.Grows b.flt) : f.Grows (if p then a else b).flt := by
  split
  · exact ha
  · exact hb

/-! ## The log through the events -/

theorem State.grows_beatExpires (s : State) : s.flt.Grows s.beatExpires.flt := by
  unfold beatExpires
  repeat' split
  · exact State.Keeps.grows (.comp (keeps_finish _) (keeps_failBeat ..))
  · exact .refl _
  · exact .refl _

theorem State.grows_lockExpires (s : State) : s.flt.Grows s.lockExpires.flt := by
  unfold lockExpires
  repeat' split
  · exact State.Keeps.grows (.comp (keeps_finish _) (.comp (keeps_dropLock _) (keeps_record ..)))
  · exact .refl _
  · exact .refl _

/-- The end of a tenure makes no record (R138). -/
theorem State.tenureExpires_flt (s : State) : s.tenureExpires.flt = s.flt := by
  unfold tenureExpires
  repeat' split
  all_goals rfl

theorem State.grows_yieldExpires (s : State) : s.flt.Grows s.yieldExpires.flt := by
  unfold yieldExpires
  repeat' split
  · exact s.flt.grows_take _
  all_goals exact .refl _

/-- The snoop-drain obligation is no matter of the Fault Unit (R149, R150). -/
theorem State.oblige_flt (s : State) (p : Post) : (s.oblige p).flt = s.flt := by
  unfold oblige
  repeat' split
  all_goals rfl

/-- Of the rows of Table 8-1, the one that finds a HALTED queue makes a record (R153). -/
theorem State.grows_snoop (s : State) (p : Peer) (ph : AddressPhase) : s.flt.Grows (s.snoop p ph).flt := by
  unfold snoop
  repeat' split
  · exact .refl _
  · exact .refl _
  · rw [retryPeer_flt, oblige_flt]
    exact .refl _
  · exact s.flt.grows_take _

/-! ## The log through the frames -/

/-- A completed frame leaves the Fault Unit as it was, or as the frame's effect leaves it. -/
theorem State.completeFrame_flt {motive : FaultUnit → Prop} (s : State) (f : Frame) (e : State → State)
    (unchanged : motive s.flt) (effect : ∀ t : State, t.flt = s.flt → motive (e t).flt) :
    motive (s.begin.completeFrame f e).flt := by
  cases h : s.frameAnswer f with
  | none =>
    rw [s.begin.completeFrame_none f e h]
    exact unchanged
  | some answer =>
    obtain ⟨st, d⟩ := answer
    rw [s.completeFrame_begin f st d e h]
    split
    · exact effect _ rfl
    · exact unchanged

theorem State.grows_completeFrame (s : State) (f : Frame) (e : State → State)
    (he : ∀ t : State, t.flt.Grows (e t).flt) : s.flt.Grows (s.begin.completeFrame f e).flt :=
  s.completeFrame_flt f e (.refl _) fun t ht => ht ▸ he t

theorem State.grows_completeInput (s : State) (input : List Byte) (e : State → State)
    (he : ∀ t : State, t.flt.Grows (e t).flt) : s.flt.Grows (s.begin.completeInput input e).flt := by
  unfold completeInput
  split
  · exact s.grows_completeFrame _ e he
  · exact .refl _

theorem State.grows_setPeerLevelItem (s : State) (p : Peer) (v : Nat) :
    s.flt.Grows (s.setPeerLevelItem p v).flt := (keeps_finish _).grows_of_flt rfl

/-- Of the items, a peer's level alone can run a round, and the enables alone lie in the Fault Unit (R131, R165). -/
theorem State.grows_setItem (s : State) (item : Byte) (v : BitVec 16) : s.flt.Grows (s.setItem item v).flt := by
  unfold setItem
  repeat' with_reducible refine FaultUnit.grows_ite ?_ ?_
  all_goals first
    | exact grows_setPeerLevelItem ..
    | exact .of_log rfl rfl

theorem State.grows_markTail (s : State) : s.flt.Grows s.markTail.flt := by
  unfold markTail
  split
  · exact .refl _
  · exact .of_log rfl rfl

/-! ## Host reset -/

/-- Where no request is taken, the work that starts leaves the HRU and the Fault Unit alone: a dropped fill has no
reader to examine again (R53, R68). -/
theorem State.start_of_request_none (s : State) (w : Next) (h : s.hru.request = none) :
    (s.start w).hru = s.hru ∧ (s.start w).flt = s.flt := by
  cases w with
  | resume t =>
    have hdrop : s.dropFill = { s.endTxn with ls := s.ls.endFill false } :=
      releaseReader_of_wait _ (by simp [h])
    simp only [start, resume, hdrop]
    repeat' split
    all_goals exact ⟨rfl, rfl⟩
  | drain =>
    simp only [start, startDrain]
    split <;> exact ⟨rfl, rfl⟩
  | locked w => exact ⟨rfl, rfl⟩
  | host w =>
    simp only [start, startHost]
    repeat' split
    all_goals exact ⟨rfl, rfl⟩

theorem State.arbitrate_of_request_none (n : Nat) (s : State) (h : s.hru.request = none) :
    (s.arbitrate n).hru = s.hru ∧ (s.arbitrate n).flt = s.flt := by
  induction n generalizing s with
  | zero => exact ⟨rfl, rfl⟩
  | succ n ih =>
    unfold arbitrate
    split
    · exact ⟨rfl, rfl⟩
    · split
      · exact ⟨rfl, rfl⟩
      · split
        · split
          · rename_i w _
            obtain ⟨hhru, hflt⟩ := s.start_of_request_none w h
            rw [← hhru, ← hflt]
            exact ih _ (hhru ▸ h)
          · exact ⟨rfl, rfl⟩
        · exact ih _ h
    · split
      · exact ih _ h
      all_goals exact ⟨rfl, rfl⟩

theorem State.settle_of_request_none (s : State) (h : s.hru.request = none) :
    s.settle.hru = s.hru ∧ s.settle.flt = s.flt := by
  rw [← (s.arbitrate_of_request_none movesPerStep h).1, ← (s.arbitrate_of_request_none movesPerStep h).2]
  unfold settle checkTenure
  repeat' split
  all_goals exact ⟨rfl, rfl⟩

/-- A request stays at the H-port while the HRU cannot take it (R74). -/
theorem State.takePresented_of_canTake (s : State) (h : s.hru.canTake = false) : s.takePresented = s := by
  unfold takePresented
  split
  · exact if_neg (by simp [h])
  · rfl

/-- While H_RST is asserted no request is taken, and host reset drops the one that was: nothing makes a record
(R89). -/
theorem State.finish_hostReset_flt (s : State) : s.hostReset.finish.flt = s.flt := by
  obtain ⟨hhru, hflt⟩ := s.hostReset.settle_of_request_none rfl
  have hstands : s.hostReset.settle.hru.canTake = false := by
    rw [hhru]
    simp [hostReset, Hru.canTake]
  rw [finish, takePresented_of_canTake _ hstands, hflt]
  rfl

/-! ## Every command -/

/-- POP_FAULT, CLEAR_LOG and POWER_ON apart, the log loses no record and LOST stays set (R161). -/
theorem exec_grows (c : Instr) (s t : State) (h : exec c s = .next t) (hpop : c ≠ .popFault) (hclear : c ≠ .clearLog)
    (hpower : ∀ w1 w0 mcs hRst held, c ≠ .powerOn w1 w0 mcs hRst held) : s.flt.Grows t.flt := by
  cases c
  all_goals obtain rfl := Host.Outcome.next.inj h
  case powerOn => exact absurd rfl (hpower _ _ _ _ _)
  case popFault => exact absurd rfl hpop
  case clearLog => exact absurd rfl hclear
  case read | read16 | write | lockRead | lockWrite => exact (s.begin.keeps_present _).grows
  case mAck | mRetry | mFail => exact (s.begin.keeps_terminate _).grows
  case beatTimeout => exact s.begin.grows_beatExpires
  case tick => exact .refl _
  case hostClock => split <;> exact .refl _
  case lockHoldExpiry => exact s.begin.grows_lockExpires
  case tenureExpiry => exact s.begin.tenureExpires_flt ▸ .refl _
  case yieldExpiry => exact s.begin.grows_yieldExpires
  case peerRequest => exact (State.keeps_finish _).grows_of_flt rfl
  case peerRelease => split <;> exact (State.keeps_finish _).grows_of_flt rfl
  case peerAddressPhase =>
    split
    · exact s.begin.grows_snoop _ _
    · exact .refl _
  case hostReset => exact s.begin.finish_hostReset_flt ▸ .refl _
  case hostResetNegation => exact (State.keeps_takePresented _).grows_of_flt rfl
  case frameCutShort | mcsNegatedInBlocked => split <;> exact .refl _
  case answerPoint input =>
    obtain ⟨l, hl⟩ := s.begin.clockIn_eq input
    exact hl ▸ .refl _
  case get | viewPost | invalidate | setPrescaler | setHighWaterMark | setBaseLevel =>
    exact s.grows_completeInput _ _ fun _ => .refl _
  case set => exact s.grows_completeInput _ _ fun t => t.grows_setItem ..
  case setPeerLevel => exact s.grows_completeInput _ _ fun t => t.grows_setPeerLevelItem ..
  case regionRewrite | badCommand =>
    split
    · exact s.grows_completeFrame _ _ fun _ => .refl _
    · exact .refl _
  case setInterruptEnables | ackInt => exact s.grows_completeInput _ _ fun _ => .of_log rfl rfl
  case resume => exact s.grows_completeInput _ _ fun _ => (State.keeps_finish _).grows_of_flt rfl
  case discard =>
    exact s.grows_completeInput _ _ fun t => State.Keeps.grows (.comp (State.keeps_finish _) t.keeps_discardPosts)
  case drainMark => exact s.grows_completeInput _ _ State.grows_markTail
  case restorePeer =>
    refine s.grows_completeInput _ _ fun t => ?_
    split
    · exact (State.keeps_finish _).grows_of_flt rfl
    · exact .refl _

/-- POP_FAULT removes at most the oldest record (R162). -/
theorem exec_popFault_flt (s t : State) (h : exec .popFault s = .next t) :
    (t.flt.log = s.flt.log ∨ t.flt.log = s.flt.log.tail) ∧ t.flt.lost = s.flt.lost := by
  obtain rfl := Host.Outcome.next.inj h
  exact s.completeFrame_flt (motive := fun f => (f.log = s.flt.log ∨ f.log = s.flt.log.tail) ∧ f.lost = s.flt.lost)
    _ _ ⟨.inl rfl, rfl⟩ fun _ ht => ⟨.inr (congrArg (·.log.tail) ht), congrArg (·.lost) ht⟩

/-- CLEAR_LOG leaves the log as it was, or empty (R163). -/
theorem exec_clearLog_log (s t : State) (h : exec .clearLog s = .next t) :
    t.flt.log = s.flt.log ∨ t.flt.log = [] := by
  obtain rfl := Host.Outcome.next.inj h
  exact s.completeFrame_flt (motive := fun f => f.log = s.flt.log ∨ f.log = []) _ _ (.inl rfl) fun _ _ => .inr rfl

/-- After power-on the log holds at most the records of the request that the host presents (R161, R187). -/
theorem exec_powerOn_grows (s t : State) (w1 w0 mcs hRst : Bool) (held : Option HostRequest)
    (h : exec (.powerOn w1 w0 mcs hRst held) s = .next t) : State.reset.flt.Grows t.flt := by
  obtain rfl := Host.Outcome.next.inj h
  cases held with
  | none => exact .refl _
  | some request => exact (State.keeps_present _ request).grows_of_flt rfl

/-- No command takes the log past its capacity (R161). -/
theorem exec_keeps_capacity (c : Instr) (s t : State) (h : exec c s = .next t) (hs : s.flt.log.length ≤ 8) :
    t.flt.log.length ≤ 8 := by
  obtain rfl | hpop := eq_or_ne c .popFault
  · obtain ⟨hlog | hlog, -⟩ := exec_popFault_flt s t h
    · exact hlog ▸ hs
    · rw [hlog, List.length_tail]
      omega
  obtain rfl | hclear := eq_or_ne c .clearLog
  · obtain hlog | hlog := exec_clearLog_log s t h
    · exact hlog ▸ hs
    · simp [hlog]
  by_cases hpower : ∃ w1 w0 mcs hRst held, c = .powerOn w1 w0 mcs hRst held
  · obtain ⟨w1, w0, mcs, hRst, held, rfl⟩ := hpower
    exact (exec_powerOn_grows s t w1 w0 mcs hRst held h).capacity (Nat.zero_le 8)
  · simp only [not_exists] at hpower
    exact (exec_grows c s t h hpop hclear hpower).capacity hs

/-! ## The status item -/

/-- A flag above a count of four bits: both are read back from the byte. -/
theorem flagged_count (flag : Bool) (count : BitVec 4) :
    (0#3 ++ BitVec.ofBool flag ++ count : Byte).toNat % 16 = count.toNat ∧
      (0#3 ++ BitVec.ofBool flag ++ count : Byte).getLsbD 4 = flag := by
  revert flag count
  decide

/-- Byte 4 of the status item counts the records, with LOST above the count (Table 10-6). -/
theorem State.statusItem_log (s : State) (h : s.flt.log.length ≤ 8) :
    ∃ byte4, s.statusItem[4]? = some byte4 ∧ byte4.toNat % 16 = s.flt.log.length ∧
      byte4.getLsbD 4 = s.flt.lost := by
  obtain ⟨hcount, hlost⟩ := flagged_count s.flt.lost (BitVec.ofNat 4 s.flt.log.length)
  have hfits : (BitVec.ofNat 4 s.flt.log.length).toNat = s.flt.log.length := by
    rw [BitVec.toNat_ofNat]
    omega
  exact ⟨_, rfl, hcount.trans hfits, hlost⟩

/-- Settles O51: the commands that remove records one by one, and every other command by the growth of the log. -/
theorem logLosesRecordsOnlyByCommand : Obligations.LogLosesRecordsOnlyByCommand := by
  intro c s t h
  refine ⟨exec_keeps_capacity c s t h, ?others, ?popFault, ?take, ?powerOn, ?hostReset, rfl, s.statusItem_log⟩
  case others =>
    intro hpop hclear hpower
    have hgrows := exec_grows c s t h hpop hclear hpower
    exact ⟨hgrows.log, hgrows.lost⟩
  case popFault =>
    rintro rfl
    exact exec_popFault_flt s t h
  case take => exact fun r => ⟨s.flt.take_of_room r, s.flt.take_of_full r⟩
  case powerOn =>
    rintro ⟨w1, w0, mcs, hRst, rfl⟩
    obtain rfl := Host.Outcome.next.inj h
    exact ⟨rfl, rfl⟩
  case hostReset =>
    rintro rfl
    obtain rfl := Host.Outcome.next.inj h
    have hflt : s.begin.hostReset.finish.flt = s.flt := s.begin.finish_hostReset_flt
    exact ⟨congrArg (·.log) hflt, congrArg (·.lost) hflt⟩

end Sys2Proof.Machine
end

section
/-! The part's invariant is not inductive: it does not tie the kind of the transaction in hand to the taken request. -/

namespace Sys2Proof.Machine

/-! ## A WRITE in hand for an unkept read -/

/-- A region of 32 bits with POST and KEEP. -/
def strayWriteSnapshot : Snapshot := ⟨.d, .w32, ⟨true, false, true, false, false⟩⟩

/-- A WRITE of zeros to the first word of block 0, before its one beat. -/
def strayWrite : Txn := Work.txn ⟨.write, 0, 4, 0, strayWriteSnapshot⟩ .write

/-- The request that the transaction answers is a READ on the unkept route, so the queue need not be empty (R83). -/
def strayWriteRequest : Request :=
  ⟨.read, 0, 4, 0xF, 0, false, false, strayWriteSnapshot, .unkept, .port⟩

/-- A post of FFh in the first word of block 0 and a VALID line of that block with the same bytes; the bridge runs
`strayWrite` for `strayWriteRequest`, and the beat's acknowledgement is the command to come. -/
def strayWriteState : State :=
  { State.reset with
    pq := { State.reset.pq with
      posts := [⟨0, 0, 0x000F, spreadWord 0xFFFFFFFF, strayWriteSnapshot, .waiting, 0, 0, 1⟩], nextSeq := 1 }
    ls := State.reset.ls.setLine 0 0 ⟨.valid, 0, spreadWord 0xFFFFFFFF⟩
    hru := { State.reset.hru with request := some strayWriteRequest }
    mpe := { State.reset.mpe with txn := some strayWrite, beatTimer := .running 1 }
    port := strayWrite.phase
    oar := { State.reset.oar with owner := .bridge }
    pending := [.mAck 0 false] }

/-- The part after the acknowledgement: the line holds the zeros written, and the post, still pending, FFh. -/
def strayWriteDone : State :=
  State.finish (State.ackBeat (State.begin { strayWriteState with pending := [] }) strayWrite 0 false)

theorem strayWriteState_inv : strayWriteState.inv = true := by decide

theorem step_strayWriteState : step strayWriteState = .next strayWriteDone := rfl

theorem strayWriteDone_not_coherent : strayWriteDone.coherent = false := by decide

/-- Refutes O58: `strayWriteState` keeps the invariant, and the WRITE's update leaves the line of block 0 behind the
pending post of its block. No run reaches such a state: a WRITE is handed over with the queue empty (R31). -/
theorem not_stepKeepsInvariant : ¬ Obligations.StepKeepsInvariant := by
  intro h
  have hinv := h strayWriteState strayWriteDone strayWriteState_inv step_strayWriteState
  rw [State.inv, strayWriteDone_not_coherent, Bool.and_false] at hinv
  cases hinv

end Sys2Proof.Machine
end

section
/-! The moves that settle the M-port: one move at a time, how many there can be, and why more fuel changes nothing. -/

namespace Sys2Proof.Machine

/-! ## One move -/

/-- The move that `State.arbitrate` makes next, if one is left: a release, a grant, or the start of work. -/
def State.nextMove (s : State) : Option State :=
  match s.oar.owner with
  | .peer _ => none
  | .bridge =>
    if s.mpe.running then none
    else if s.lockHold || s.keeps then s.nextWork.map s.start
    else some { s with oar := { s.oar with owner := .none } }
  | .none =>
    match s.roundWinner with
    | some .bridge => some { s with oar := s.oar.grantBridge }
    | some (.peer p) => some { s with oar := s.oar.grantPeer p }
    | _ => none

theorem State.nextMove_peer (s : State) (p : Peer) (h : s.oar.owner = .peer p) : s.nextMove = none := by
  simp only [nextMove, h]

theorem State.nextMove_running (s : State) (ho : s.oar.owner = .bridge) (hr : s.mpe.running = true) :
    s.nextMove = none := by
  simp only [nextMove, ho, hr, if_true]

theorem State.nextMove_keeps (s : State) (ho : s.oar.owner = .bridge) (hr : s.mpe.running = false)
    (hk : (s.lockHold || s.keeps) = true) : s.nextMove = s.nextWork.map s.start := by
  simp only [nextMove, ho, hr, hk, if_true, Bool.false_eq_true, if_false]

theorem State.nextMove_releases (s : State) (ho : s.oar.owner = .bridge) (hr : s.mpe.running = false)
    (hk : (s.lockHold || s.keeps) = false) :
    s.nextMove = some { s with oar := { s.oar with owner := .none } } := by
  simp only [nextMove, ho, hr, hk, Bool.false_eq_true, if_false]

theorem State.nextMove_round (s : State) (ho : s.oar.owner = .none) :
    s.nextMove = match s.roundWinner with
      | some .bridge => some { s with oar := s.oar.grantBridge }
      | some (.peer p) => some { s with oar := s.oar.grantPeer p }
      | _ => none := by
  simp only [nextMove, ho]

/-- `State.arbitrate` makes the next move and goes on, or stops where none is left. -/
theorem State.arbitrate_succ (n : Nat) (s : State) :
    s.arbitrate (n + 1) = match s.nextMove with
      | some t => t.arbitrate n
      | none => s := by
  cases ho : s.oar.owner with
  | peer p => rw [s.arbitrate_peer _ p ho, s.nextMove_peer p ho]
  | bridge =>
    cases hr : s.mpe.running with
    | true => rw [s.arbitrate_running _ ho hr, s.nextMove_running ho hr]
    | false =>
      cases hk : s.lockHold || s.keeps with
      | true =>
        rw [s.arbitrate_keeps n ho hr hk, s.nextMove_keeps ho hr hk]
        cases s.nextWork <;> rfl
      | false => rw [s.arbitrate_releases n ho hr hk, s.nextMove_releases ho hr hk]
  | none =>
    rw [s.arbitrate_round n ho, s.nextMove_round ho]
    rcases s.roundWinner with _ | (_ | _ | p)
    case some.peer => exact (arbitrate_peer n _ p rfl).symm
    all_goals rfl

theorem State.arbitrate_of_nextMove_none (n : Nat) (s : State) (h : s.nextMove = none) : s.arbitrate n = s := by
  cases n with
  | zero => rfl
  | succ n => rw [s.arbitrate_succ, h]

/-! ## How many moves there can be -/

/-- At most `k` moves are left. -/
def State.SettlesIn : Nat → State → Prop
  | 0, s => s.nextMove = none
  | k + 1, s => ∀ t, s.nextMove = some t → t.SettlesIn k

theorem State.SettlesIn.of_nextMove_none {s : State} (h : s.nextMove = none) (k : Nat) : s.SettlesIn k := by
  cases k with
  | zero => exact h
  | succ k =>
    intro t ht
    rw [h] at ht
    cases ht

theorem State.SettlesIn.succ {k : Nat} {s : State} (h : s.SettlesIn k) : s.SettlesIn (k + 1) := by
  induction k generalizing s with
  | zero => exact .of_nextMove_none h 1
  | succ k ih => exact fun t ht => ih (h t ht)

theorem State.SettlesIn.mono {k n : Nat} {s : State} (h : s.SettlesIn k) (hn : k ≤ n) : s.SettlesIn n := by
  induction hn with
  | refl => exact h
  | step _ ih => exact ih.succ

/-- With fuel for the moves that are left none is left at the end. -/
theorem State.SettlesIn.nextMove_arbitrate {k n : Nat} {s : State} (h : s.SettlesIn k) (hn : k ≤ n) :
    (s.arbitrate n).nextMove = none := by
  induction n generalizing s k with
  | zero =>
    obtain rfl := Nat.le_zero.mp hn
    exact h
  | succ n ih =>
    rw [s.arbitrate_succ]
    cases hm : s.nextMove with
    | none => exact hm
    | some t => exact ih (h.mono hn t hm) le_rfl

/-- More fuel than the moves that are left changes nothing. -/
theorem State.SettlesIn.arbitrate_succ {k n : Nat} {s : State} (h : s.SettlesIn k) (hn : k ≤ n) :
    s.arbitrate (n + 1) = s.arbitrate n := by
  induction n generalizing s k with
  | zero =>
    obtain rfl := Nat.le_zero.mp hn
    exact s.arbitrate_of_nextMove_none _ h
  | succ n ih =>
    rw [s.arbitrate_succ, s.arbitrate_succ]
    cases hm : s.nextMove with
    | none => rfl
    | some t => exact ih (h.mono hn t hm) le_rfl

/-- A bridge that starts work without a transaction runs it. -/
theorem State.settlesIn_keeps (s : State) (ho : s.oar.owner = .bridge) (ht : s.mpe.txn = none)
    (hk : (s.lockHold || s.keeps) = true) : s.SettlesIn 1 := by
  intro t hm
  rw [s.nextMove_keeps ho (by simp [Mpe.running, ht]) hk] at hm
  obtain ⟨w, hw, rfl⟩ := Option.map_eq_some_iff.mp hm
  obtain ⟨hruns, hoar⟩ := s.start_runs w ht hw
  exact nextMove_running _ (hoar ▸ ho) hruns

/-- A free M-port goes to a peer, to a bridge that holds or keeps it, or to nobody. -/
theorem State.settlesIn_free {k : Nat} (s : State) (ho : s.oar.owner = .none)
    (h : s.roundWinner = some .bridge → State.SettlesIn k { s with oar := s.oar.grantBridge }) :
    s.SettlesIn (k + 1) := by
  intro t hm
  rw [s.nextMove_round ho] at hm
  rcases hw : s.roundWinner with _ | (_ | _ | p) <;> rw [hw] at hm <;> cases hm
  · exact h hw
  · exact .of_nextMove_none (nextMove_peer _ p rfl) k

theorem State.settlesIn_free_of_txn_none (s : State) (ho : s.oar.owner = .none) (ht : s.mpe.txn = none) :
    s.SettlesIn 2 :=
  s.settlesIn_free ho fun hw => settlesIn_keeps _ rfl ht (s.grantBridge_keeps hw)

theorem State.settlesIn_bridge_of_txn_none (s : State) (ho : s.oar.owner = .bridge) (ht : s.mpe.txn = none) :
    s.SettlesIn 3 := by
  cases hk : s.lockHold || s.keeps with
  | true => exact (s.settlesIn_keeps ho ht hk).mono (by decide)
  | false =>
    intro t hm
    rw [s.nextMove_releases ho (by simp [Mpe.running, ht]) hk] at hm
    cases hm
    exact settlesIn_free_of_txn_none _ rfl ht

/-! ## Resumption -/

/-- The HRU and the queue leave the transaction and the ownership alone when a read that waited on a line is examined. -/
theorem State.examineKept_txn (s : State) (r : Request) :
    (s.examineKept r).mpe.txn = s.mpe.txn ∧ (s.examineKept r).oar = s.oar := by
  have handOver : (s.handOver r).mpe.txn = s.mpe.txn ∧ (s.handOver r).oar = s.oar := by
    unfold handOver
    split <;> exact ⟨rfl, rfl⟩
  have refuse : (s.refuseDemand r).mpe.txn = s.mpe.txn ∧ (s.refuseDemand r).oar = s.oar := by
    simp only [refuseDemand]
    split <;> exact ⟨rfl, rfl⟩
  have queueRead : (s.queueRead r).mpe.txn = s.mpe.txn ∧ (s.queueRead r).oar = s.oar := by
    rcases s.queueRead_cases r with ⟨-, h⟩ | ⟨-, ⟨-, h⟩ | ⟨p, -, ⟨-, h⟩ | ⟨-, h⟩⟩⟩ <;> rw [h]
    · exact ⟨rfl, rfl⟩
    · exact handOver
    · exact ⟨rfl, rfl⟩
    · exact refuse
  unfold examineKept
  repeat' split
  · exact queueRead
  all_goals exact ⟨rfl, rfl⟩

theorem State.releaseReader_txn (s : State) :
    s.releaseReader.mpe.txn = s.mpe.txn ∧ s.releaseReader.oar = s.oar := by
  unfold releaseReader
  repeat' split
  · exact s.examineKept_txn _
  all_goals exact ⟨rfl, rfl⟩

/-- A resumption runs the transaction on, or ends it with the fill it was (R68, R105). -/
theorem State.resume_txn (s : State) (t : Txn) :
    (s.resume t).oar = s.oar ∧ ((s.resume t).mpe.running = true ∨ (s.resume t).mpe.txn = none) := by
  have drop : s.dropFill.mpe.txn = none ∧ s.dropFill.oar = s.oar := releaseReader_txn _
  unfold resume
  repeat' split
  · exact ⟨rfl, .inl rfl⟩
  · exact ⟨drop.2, .inr drop.1⟩
  · exact ⟨rfl, .inl rfl⟩
  · exact ⟨rfl, .inr rfl⟩
  · exact ⟨rfl, .inl rfl⟩

/-- The work selection finds the fractured transaction, or nothing beside a transaction (R112). -/
theorem State.nextWork_of_txn (s : State) (t : Txn) (ht : s.mpe.txn = some t) :
    s.nextWork = if t.state = .fractured then some (.resume t) else none := by
  simp [nextWork, ht]

/-- A bridge that holds or keeps the M-port: a resumption that ends a fill is the one start after which moves are
left. -/
theorem State.settlesIn_bridge_keeps (s : State) (ho : s.oar.owner = .bridge)
    (hk : (s.lockHold || s.keeps) = true) : s.SettlesIn 4 := by
  cases hr : s.mpe.running with
  | true => exact .of_nextMove_none (s.nextMove_running ho hr) 4
  | false =>
    cases ht : s.mpe.txn with
    | none => exact (s.settlesIn_keeps ho ht hk).mono (by decide)
    | some t =>
      intro u hm
      rw [s.nextMove_keeps ho hr hk, s.nextWork_of_txn t ht] at hm
      split at hm
      · cases hm
        obtain ⟨hoar, hruns | hends⟩ := s.resume_txn t
        · exact .of_nextMove_none (nextMove_running _ (hoar ▸ ho) hruns) 3
        · exact settlesIn_bridge_of_txn_none _ (hoar ▸ ho) hends
      · cases hm

theorem State.settlesIn_owner_none (s : State) (ho : s.oar.owner = .none) : s.SettlesIn 5 :=
  s.settlesIn_free ho fun hw => settlesIn_bridge_keeps _ rfl (s.grantBridge_keeps hw)

/-- Release, grant, a dropped fill, release, grant, start: no step needs more (R112, R115, R134). -/
theorem State.settlesIn_six (s : State) : s.SettlesIn 6 := by
  cases ho : s.oar.owner with
  | peer p => exact .of_nextMove_none (s.nextMove_peer p ho) 6
  | none => exact (s.settlesIn_owner_none ho).mono (by decide)
  | bridge =>
    cases hk : s.lockHold || s.keeps with
    | true => exact (s.settlesIn_bridge_keeps ho hk).mono (by decide)
    | false =>
      cases hr : s.mpe.running with
      | true => exact .of_nextMove_none (s.nextMove_running ho hr) 6
      | false =>
        intro t hm
        rw [s.nextMove_releases ho hr hk] at hm
        cases hm
        exact settlesIn_owner_none _ rfl

/-! ## The settling of the M-port -/

/-- The M-port settles by one move and the settling of what it leaves. -/
theorem State.settle_of_nextMove (s t : State) (h : s.nextMove = some t) : s.settle = t.settle := by
  have hsucc : s.arbitrate 8 = t.arbitrate 7 := by rw [s.arbitrate_succ, h]
  have hfuel : t.arbitrate 8 = t.arbitrate 7 := t.settlesIn_six.arbitrate_succ (by decide)
  rw [settle, settle, movesPerStep, hsucc, hfuel]

/-- Without a move left, only a spent tenure can end (R138). -/
theorem State.settle_of_nextMove_none (s : State) (h : s.nextMove = none) : s.settle = s.checkTenure := by
  rw [settle, s.arbitrate_of_nextMove_none _ h]

/-- A bridge that runs a transaction has nothing to settle. -/
theorem State.settle_of_running (s : State) (ho : s.oar.owner = .bridge) (hr : s.mpe.running = true) :
    s.settle = s := by
  rw [s.settle_of_nextMove_none (s.nextMove_running ho hr), checkTenure, ho]

/-- The chain of requesters is empty exactly where a round finds no winner (R134). -/
theorem State.roundWinner_eq_none (s : State) : s.roundWinner = none ↔ s.requesters = [] := by
  constructor
  · intro h
    by_contra hne
    have := winnerOf_isSome _ hne
    rw [roundWinner] at h
    simp [h] at this
  · intro h
    rw [roundWinner, h, winnerOf]

theorem State.roundWinner_ne_none_owner (s : State) : s.roundWinner ≠ some .none := by
  intro h
  obtain ⟨l, hl, -⟩ := winnerOf_mem _ _ h
  simpa using (s.mem_requesters _ _).mp hl

/-- A settled M-port has no move left. -/
theorem State.nextMove_of_settled (s : State) (h : s.settled = true) : s.nextMove = none := by
  cases ho : s.oar.owner with
  | peer p => exact s.nextMove_peer p ho
  | none =>
    simp only [settled, ho, List.isEmpty_iff] at h
    rw [s.nextMove_round ho, s.roundWinner_eq_none.mpr h]
  | bridge =>
    cases hr : s.mpe.running with
    | true => exact s.nextMove_running ho hr
    | false =>
      simp only [settled, ho, hr, Bool.false_or, Bool.and_eq_true, Option.isNone_iff_eq_none] at h
      obtain ⟨hhold, hwork⟩ := h
      rw [s.nextMove_keeps ho hr (by simp [hhold]), hwork, Option.map_none]

/-- A settled M-port stays as it is at the end of a step. -/
theorem State.settle_of_settled (s : State) (h : s.settled = true) : s.settle = s := by
  rw [s.settle_of_nextMove_none (s.nextMove_of_settled h), checkTenure]
  split
  · rename_i p ho
    rw [settled, ho] at h
    exact if_neg (by simpa only [Bool.not_eq_true', Bool.not_eq_true] using h)
  · rfl

/-- Without a move left, the check of a spent tenure leaves the M-port settled (R138). -/
theorem State.settled_checkTenure (s : State) (h : s.nextMove = none) : s.checkTenure.settled = true := by
  unfold checkTenure
  split
  · rename_i p ho
    split
    · simp [settled, ho, Arbiter.askRelease]
    · rename_i hspent
      rw [settled, ho]
      simpa only [Bool.not_eq_true', Bool.not_eq_true] using hspent
  · cases ho : s.oar.owner with
    | peer p => exact absurd ho (by simp_all)
    | none =>
      rw [s.nextMove_round ho] at h
      have hw : s.roundWinner = none := by
        rcases hw : s.roundWinner with _ | (_ | _ | p)
        · rfl
        · exact absurd hw s.roundWinner_ne_none_owner
        all_goals simp [hw] at h
      simp only [settled, ho, s.roundWinner_eq_none.mp hw, List.isEmpty_nil]
    | bridge =>
      simp only [settled, ho]
      cases hr : s.mpe.running with
      | true => rfl
      | false =>
        cases hk : s.lockHold || s.keeps with
        | false => simp [s.nextMove_releases ho hr hk] at h
        | true =>
          rw [s.nextMove_keeps ho hr hk, Option.map_eq_none_iff] at h
          simpa [keeps, hasWork, h] using hk

theorem State.settled_settle (s : State) : s.settle.settled = true :=
  settled_checkTenure _ (s.settlesIn_six.nextMove_arbitrate (by decide))

/-- The end of a step leaves the M-port settled, a request taken there or not. -/
theorem State.settled_finish (s : State) : s.finish.settled = true := by
  unfold finish takePresented
  repeat' split
  · exact settled_settle _
  all_goals exact s.settled_settle

end Sys2Proof.Machine
end

section
/-! The settled M-port: what it depends on, and every command that does not end with `State.finish`. -/

namespace Sys2Proof.Machine

/-! ## What the settling depends on -/

/-- The bridge has work exactly with a fractured transaction, or without one and with a head that can be drained,
locked work or handed work (R111). -/
theorem State.hasWork_eq (s : State) :
    s.hasWork = match s.mpe.txn with
      | some t => t.state == .fractured
      | none => s.pq.drainable || s.mpe.locked.isSome || s.mpe.handed.isSome := by
  unfold hasWork nextWork
  cases s.mpe.txn with
  | some t => cases hst : t.state <;> simp [hst]
  | none =>
    cases hd : s.pq.drainable with
    | true => grind
    | false => cases s.mpe.locked <;> cases s.mpe.handed <;> simp

/-- What the settled M-port depends on: owner, spent tenure, regarded peers, running transaction, work, lock hold. -/
def State.busView (s : State) :=
  (s.oar.owner, s.oar.tenureTimer == .spent, allPeers.map fun p => (s.oar.peers.get p).regarded, s.mpe.running,
    s.hasWork, s.lockHold)

theorem State.bridgeRequest_congr {s t : State} (h : t.busView = s.busView) : t.bridgeRequest = s.bridgeRequest := by
  simp only [busView, Prod.mk.injEq] at h
  obtain ⟨howner, -, -, -, hwork, hhold⟩ := h
  rw [bridgeRequest, bridgeRequest, howner, hwork, hhold]

theorem State.regarded_congr {s t : State} (h : t.busView = s.busView) (p : Peer) :
    (t.oar.peers.get p).regarded = (s.oar.peers.get p).regarded := by
  simp only [busView, allPeers, List.map_cons, Prod.mk.injEq, List.cons.injEq] at h
  obtain ⟨-, -, ⟨h0, h1, h2, -⟩, -⟩ := h
  cases p <;> assumption

theorem State.otherWaits_congr {s t : State} (h : t.busView = s.busView) : t.otherWaits = s.otherWaits := by
  have howner : t.oar.owner = s.oar.owner := congrArg Prod.fst h
  have hwaits : t.oar.waits = s.oar.waits := by
    funext p
    rw [Arbiter.waits, Arbiter.waits, regarded_congr h, howner]
  rw [otherWaits, otherWaits, bridgeRequest_congr h, hwaits]

/-- No request is regarded where the bridge's does not stand and no peer's is. -/
theorem State.requesters_isEmpty (s : State) :
    s.requesters.isEmpty = (!s.bridgeRequest && !allPeers.any fun p => (s.oar.peers.get p).regarded) := by
  have hpeers : (allPeers.filter fun p => (s.oar.peers.get p).regarded).isEmpty =
      !allPeers.any fun p => (s.oar.peers.get p).regarded := by
    rw [Bool.eq_iff_iff]
    simp
  rw [← hpeers, ← List.isEmpty_map (f := fun p => (Owner.peer p, (s.oar.peers.get p).level)), requesters]
  cases s.bridgeRequest <;> rfl

theorem State.settled_peer (s : State) (p : Peer) (ho : s.oar.owner = .peer p) :
    s.settled = !(s.oar.tenureTimer == .spent && s.otherWaits) := by
  simp only [settled, ho]

/-- An owning peer whose spent tenure meets no other requester leaves nothing to settle (R138). -/
theorem State.settled_of_peer (s : State) (p : Peer) (ho : s.oar.owner = .peer p)
    (h : s.oar.tenureTimer = .spent → s.otherWaits = false) : s.settled = true := by
  rw [s.settled_peer p ho, Bool.not_eq_true', Bool.and_eq_false_imp, beq_iff_eq]
  exact h

theorem State.settled_congr {s t : State} (h : t.busView = s.busView) : t.settled = s.settled := by
  have hregarded := funext (regarded_congr h)
  have hbridge := bridgeRequest_congr h
  have hother := otherWaits_congr h
  simp only [busView, Prod.mk.injEq] at h
  obtain ⟨howner, hspent, -, hrunning, hwork, hhold⟩ := h
  have hnext (u : State) : u.nextWork.isNone = !u.hasWork := by
    rw [hasWork]
    cases u.nextWork <;> rfl
  simp only [settled, howner, hspent, hother, hrunning, hhold, hnext, hwork, requesters_isEmpty, hbridge, hregarded]

/-! ## The commands -/

/-- The lock hold counts no ticks. -/
theorem State.busView_makeTick (s : State) : s.makeTick.busView = s.busView := by
  have hspent : (s.oar.tenureTimer.tick == .spent) = (s.oar.tenureTimer == .spent) := by
    cases s.oar.tenureTimer <;> rfl
  have hhold : s.makeTick.lockHold = s.lockHold := by
    unfold lockHold makeTick
    cases s.hru.lock <;> rfl
  simp only [busView, hhold]
  simp only [makeTick, hspent]
  rfl

/-- A tenure ends as spent only where no other requester waits (R138). -/
theorem State.settled_tenureExpires (s : State) (h : s.settled = true) : s.tenureExpires.settled = true := by
  unfold tenureExpires
  split
  · rename_i p ho
    repeat' split
    · exact settled_of_peer _ p ho nofun
    · rename_i hwaits
      exact settled_of_peer _ p ho fun _ => (Bool.not_eq_true _).mp hwaits
    · exact h
  · exact h

/-- The bar of the owner leaves the requests of the others as they stand (R141). -/
theorem State.otherWaits_bar (s : State) (p : Peer) (ho : s.oar.owner = .peer p) :
    State.otherWaits { s with oar := s.oar.bar p } = s.otherWaits := by
  have hwaits : (s.oar.bar p).waits = s.oar.waits := by
    funext q
    by_cases hq : p = q
    · subst hq
      simp [Arbiter.waits, Arbiter.bar, ho]
    · simp [Arbiter.waits, Arbiter.bar, hq]
  have hbridge : State.bridgeRequest { s with oar := s.oar.bar p } = s.bridgeRequest := rfl
  rw [otherWaits, otherWaits, hbridge, hwaits]

theorem State.settled_yieldExpires (s : State) (h : s.settled = true) : s.yieldExpires.settled = true := by
  unfold yieldExpires
  split
  · rename_i p ho
    split
    · rw [s.settled_peer p ho, ← s.otherWaits_bar p ho] at h
      rw [Bool.not_eq_true', Bool.and_eq_false_imp, beq_iff_eq] at h
      exact settled_of_peer _ p ho h
    · exact h
  · exact h

/-- The obligation only orders the bridge's work (R111, R149). -/
theorem State.busView_oblige (s : State) (p : Post) : (s.oblige p).busView = s.busView := by
  have hview (o : Option Seq) : State.busView { s with mpe := { s.mpe with obligation := o } } = s.busView := by
    simp only [busView, hasWork_eq]
    rfl
  unfold oblige
  repeat' split
  · exact hview _
  · exact hview _
  · rfl

/-- The Snoop Check leaves an owning peer's M-port settled: a snoop retry stops the tenure (R142). -/
theorem State.settled_snoop (s : State) (p : Peer) (ph : AddressPhase) (ho : s.oar.owner = .peer p)
    (h : s.settled = true) : (s.snoop p ph).settled = true := by
  have hretry : State.settled { s with oar := s.oar.snoopRetry p } = true := by
    unfold Arbiter.snoopRetry
    split
    · exact h
    · exact settled_of_peer _ p ho nofun
  unfold snoop
  repeat' split
  · exact h
  · exact h
  · exact (settled_congr (busView_oblige _ _)).trans hretry
  · exact h

theorem State.settled_takePresented (s : State) (h : s.settled = true) : s.takePresented.settled = true := by
  unfold takePresented
  repeat' split
  · exact settled_settle _
  all_goals exact h

theorem State.settled_present (s : State) (r : HostRequest) (h : s.settled = true) : (s.present r).settled = true := by
  unfold present
  repeat' split
  · exact h
  · exact settled_finish _
  · exact h

theorem State.settled_terminate (s : State) (x : Signals) (h : s.settled = true) : (s.terminate x).settled = true := by
  unfold terminate
  repeat' split
  all_goals first
    | exact h
    | exact settled_finish _

theorem State.settled_beatExpires (s : State) (h : s.settled = true) : s.beatExpires.settled = true := by
  unfold beatExpires
  repeat' split
  · exact settled_finish _
  all_goals exact h

theorem State.settled_lockExpires (s : State) (h : s.settled = true) : s.lockExpires.settled = true := by
  unfold lockExpires
  repeat' split
  · exact settled_finish _
  all_goals exact h

/-- A part at power-on has no work and regards no peer (R145). -/
theorem State.settled_powerUp (s : State) (w1 w0 mcs hRst : Bool) : (s.powerUp w1 w0 mcs hRst).settled = true := by
  have hreg (p : Peer) : ((s.powerUp w1 w0 mcs hRst).oar.peers.get p).regarded = false := by
    cases p <;> exact Bool.and_eq_false_iff.mpr (.inl (Bool.and_false _))
  have howner : (s.powerUp w1 w0 mcs hRst).oar.owner = .none := rfl
  have hbridge : (s.powerUp w1 w0 mcs hRst).bridgeRequest = false := rfl
  simp [settled, howner, requesters_isEmpty, hbridge, hreg]

/-! ## The frames -/

/-- A completed frame leaves the part as it was but for the outputs, or with the link IDLE and the frame's output, and
with the frame's effect where its status is OK. -/
theorem State.completeFrame_cases {motive : State → Prop} (s : State) (f : Frame) (e : State → State)
    (without : motive s.begin) (framed : ∀ st d, motive (s.framed st d))
    (effect : ∀ d, s.frameAnswer f = some (.ok, d) → motive (e (s.framed .ok d))) :
    motive (s.begin.completeFrame f e) := by
  cases h : s.frameAnswer f with
  | none =>
    rw [s.begin.completeFrame_none f e h]
    exact without
  | some answer =>
    obtain ⟨st, d⟩ := answer
    rw [s.completeFrame_begin f st d e h]
    split
    · rename_i hok
      subst hok
      exact effect d h
    · exact framed st d

/-- The same for a frame given by its input bytes. -/
theorem State.completeInput_cases {motive : State → Prop} (s : State) (input : List Byte) (e : State → State)
    (without : motive s.begin) (framed : ∀ st d, motive (s.framed st d))
    (effect : ∀ f d, Frame.parse input = some f → s.frameAnswer f = some (.ok, d) → motive (e (s.framed .ok d))) :
    motive (s.begin.completeInput input e) := by
  unfold completeInput
  split
  · exact s.completeFrame_cases _ e without framed fun d => effect _ d ‹_›
  · exact without

theorem State.settled_completeFrame (s : State) (f : Frame) (e : State → State) (h : s.settled = true)
    (he : ∀ t : State, t.settled = true → (e t).settled = true) : (s.begin.completeFrame f e).settled = true :=
  s.completeFrame_cases (motive := fun t => t.settled = true) f e h (fun _ _ => h) fun _ _ => he _ h

theorem State.settled_completeInput (s : State) (input : List Byte) (e : State → State) (h : s.settled = true)
    (he : ∀ t : State, t.settled = true → (e t).settled = true) : (s.begin.completeInput input e).settled = true :=
  s.completeInput_cases (motive := fun t => t.settled = true) input e h (fun _ _ => h) fun _ _ _ _ => he _ h

/-- The high-water mark begins or ends escalation, which only orders the bridge's work (R27, R111). -/
theorem State.settled_setHighWaterItem (s : State) (v : Nat) (h : s.settled = true) :
    (s.setHighWaterItem v).settled = true := by
  have hview : (s.setHighWaterItem v).busView = s.busView := by
    simp only [busView, hasWork_eq]
    rfl
  exact (settled_congr hview).trans h

/-- The base level counts in a round, and settles nothing by itself (R132). -/
theorem State.settled_setBaseLevelItem (s : State) (v : Nat) (h : s.settled = true) :
    (s.setBaseLevelItem v).settled = true :=
  (settled_congr (s := s) (t := s.setBaseLevelItem v) rfl).trans h

theorem State.settled_setPeerLevelItem (s : State) (p : Peer) (v : Nat) : (s.setPeerLevelItem p v).settled = true :=
  settled_finish _

theorem State.settled_ite {p : Prop} [Decidable p] {a b : State} (ha : a.settled = true) (hb : b.settled = true) :
    (if p then a else b).settled = true := by
  split
  · exact ha
  · exact hb

theorem State.settled_setItem (s : State) (item : Byte) (v : BitVec 16) (h : s.settled = true) :
    (s.setItem item v).settled = true := by
  unfold setItem
  repeat' with_reducible refine settled_ite ?_ ?_
  all_goals first
    | exact settled_setPeerLevelItem ..
    | exact s.settled_setHighWaterItem _ h
    | exact s.settled_setBaseLevelItem _ h

theorem State.settled_markTail (s : State) (h : s.settled = true) : s.markTail.settled = true := by
  unfold markTail
  split <;> exact h

/-! ## Every command -/

/-- Every command leaves a settled M-port settled. -/
theorem exec_settled (c : Instr) (s t : State) (hs : s.settled = true) (h : exec c s = .next t) :
    t.settled = true := by
  cases c
  all_goals obtain rfl := Host.Outcome.next.inj h
  case powerOn =>
    split
    · exact State.settled_present _ _ (s.settled_powerUp ..)
    · exact s.settled_powerUp ..
  case hostReset | peerRequest => exact State.settled_finish _
  case peerRelease => split <;> exact State.settled_finish _
  case read | read16 | write | lockRead | lockWrite => exact s.begin.settled_present _ hs
  case mAck | mRetry | mFail => exact s.begin.settled_terminate _ hs
  case beatTimeout => exact s.begin.settled_beatExpires hs
  case tick => exact (State.settled_congr s.begin.busView_makeTick).trans hs
  case hostClock =>
    split
    · exact hs
    · exact (State.settled_congr s.begin.busView_makeTick).trans hs
  case lockHoldExpiry => exact s.begin.settled_lockExpires hs
  case tenureExpiry => exact s.begin.settled_tenureExpires hs
  case yieldExpiry => exact s.begin.settled_yieldExpires hs
  case peerAddressPhase =>
    split
    · rename_i p ho
      exact s.begin.settled_snoop p _ ho hs
    · exact hs
  case hostResetNegation => exact State.settled_takePresented _ hs
  case frameCutShort | mcsNegatedInBlocked => split <;> exact hs
  case answerPoint input =>
    obtain ⟨l, hl⟩ := s.begin.clockIn_eq input
    rw [hl]
    exact hs
  case get | viewPost | popFault | ackInt | clearLog | invalidate | setPrescaler | setInterruptEnables =>
    exact s.settled_completeInput _ _ hs fun _ => id
  case set => exact s.settled_completeInput _ _ hs fun t => t.settled_setItem _ _
  case setHighWaterMark => exact s.settled_completeInput _ _ hs fun t => t.settled_setHighWaterItem _
  case setBaseLevel => exact s.settled_completeInput _ _ hs fun t => t.settled_setBaseLevelItem _
  case setPeerLevel | resume | discard => exact s.settled_completeInput _ _ hs fun _ _ => State.settled_finish _
  case drainMark => exact s.settled_completeInput _ _ hs State.settled_markTail
  case restorePeer =>
    refine s.settled_completeInput _ _ hs fun t ht => ?_
    split
    · exact State.settled_finish _
    · exact ht
  case regionRewrite | badCommand =>
    split
    · exact s.settled_completeFrame _ _ hs fun _ => id
    · exact hs

/-- A step is the run of a command, or idles. -/
theorem step_cases (s t : State) (h : step s = .next t) :
    t = s ∨ ∃ c rest, s.pending = c :: rest ∧ exec c { s with pending := rest } = .next t := by
  unfold step at h
  split at h
  · exact .inl (Host.Outcome.next.inj h).symm
  · exact .inr ⟨_, _, ‹_›, h⟩

/-- Settles O57: the end of a step settles the M-port, and a command without one leaves it settled. -/
theorem stepLeavesPortSettled : Obligations.StepLeavesPortSettled := by
  intro s t hs h
  rcases step_cases s t h with rfl | ⟨c, rest, -, hexec⟩
  · exact hs
  · exact exec_settled c { s with pending := rest } t hs hexec

end Sys2Proof.Machine
end

section
/-! What the shared operations do to the queue, the lines and an owning peer: a run of small edits of each, one lemma for
each operation, so that a rule of the queue or of the lines is proved edit by edit. -/

namespace Sys2Proof.Machine

/-! ## The edits -/

/-- One edit of the Post Queue, short of a post that leaves. -/
inductive PostQueue.Edit : PostQueue → PostQueue → Prop
  | flags {q q' : PostQueue} (posts : q'.posts = q.posts) (nextSeq : q'.nextSeq = q.nextSeq) : Edit q q'
  | append (q : PostQueue) (b : Block) (m : Mask) (d : BlockData) (snap : Snapshot) (room : q.posts.length < 8) :
    Edit q (q.append b m d snap)
  | merge (q : PostQueue) (m : Mask) (d : BlockData) : Edit q (q.merge m d)
  | startDrain (q : PostQueue) : Edit q q.startDrain
  | progress (q : PostQueue) (done retries : Nat) : Edit q (q.progress done retries)

/-- One edit of the Line Store under a map: a line is allocated behind a passed keep check (R16, R55), and becomes VALID
only from a fill that is not STALE (R60). -/
inductive LineStore.Edit (map : RegionMap) : LineStore → LineStore → Prop
  | touch (l : LineStore) (i : Fin 8) (w : Fin 4) : Edit map l (l.touch i w)
  | writeUpdate (l : LineStore) (b : Block) (m : Mask) (d : BlockData) : Edit map l (l.writeUpdate b m d)
  | invalidateWhere (l : LineStore) (p : Block → Bool) : Edit map l (l.invalidateWhere p)
  | allocate (l : LineStore) (b : Block) (first count : Nat) (keep : map.keepCheck b = true) :
    Edit map l (l.allocate b first count)
  | deliver (l : LineStore) (m : Mask) (d : BlockData) : Edit map l (l.deliver m d)
  | veto (l : LineStore) : Edit map l l.veto
  | answered (l : LineStore) : Edit map l l.answered
  | drop (l : LineStore) : Edit map l (l.endFill false)
  | complete (l : LineStore) (f : FillContext) (fill : l.fill = some f) (fresh : f.stale = false) :
    Edit map l (l.endFill true)
  | restart (l : LineStore) (f : FillContext) (fill : l.fill = some f) :
    Edit map l (l.restart (map.keepCheck f.block))
  | empty (l : LineStore) : Edit map l .powerOn

theorem LineStore.Edit.invalidate (map : RegionMap) (l : LineStore) (b : Block) : Edit map l (l.invalidate b) :=
  .invalidateWhere l (· == b)

/-- `t` comes from `s` by edits of the queue and the lines; the map stands, and so does an owning peer. -/
structure State.Edits (s t : State) : Prop where
  rmap : t.rmap = s.rmap
  queue : Relation.ReflTransGen PostQueue.Edit s.pq t.pq
  lines : Relation.ReflTransGen (LineStore.Edit s.rmap) s.ls t.ls
  owner : ∀ p, s.oar.owner = .peer p → t.oar.owner = .peer p

namespace State.Edits

theorem refl (s : State) : s.Edits s := ⟨rfl, .refl, .refl, fun _ => id⟩

/-- Two operations, the later one first, as they are read in `s.first.second`. -/
theorem comp {s t u : State} (b : t.Edits u) (a : s.Edits t) : s.Edits u :=
  ⟨b.rmap.trans a.rmap, a.queue.trans b.queue, a.lines.trans (a.rmap ▸ b.lines), fun p h => b.owner p (a.owner p h)⟩

/-- An update that leaves the map, the queue, the lines and the owner alone. -/
theorem of_eq {s t : State} (h : (t.rmap, t.pq, t.ls, t.oar.owner) = (s.rmap, s.pq, s.ls, s.oar.owner)) :
    s.Edits t := by
  simp only [Prod.mk.injEq] at h
  obtain ⟨hmap, hpq, hls, howner⟩ := h
  exact ⟨hmap, hpq ▸ .refl, hls ▸ .refl, fun _ h => howner.trans h⟩

/-- An operation before such an update. -/
theorem update {s t u : State} (a : s.Edits t)
    (h : (u.rmap, u.pq, u.ls, u.oar.owner) = (t.rmap, t.pq, t.ls, t.oar.owner)) : s.Edits u :=
  (of_eq h).comp a

/-- One edit of the queue. -/
theorem of_queue {s t : State} (e : PostQueue.Edit s.pq t.pq)
    (h : (t.rmap, t.ls, t.oar.owner) = (s.rmap, s.ls, s.oar.owner)) : s.Edits t := by
  simp only [Prod.mk.injEq] at h
  obtain ⟨hmap, hls, howner⟩ := h
  exact ⟨hmap, .single e, hls ▸ .refl, fun _ h => howner.trans h⟩

/-- One edit of the lines. -/
theorem of_lines {s t : State} (e : LineStore.Edit s.rmap s.ls t.ls)
    (h : (t.rmap, t.pq, t.oar.owner) = (s.rmap, s.pq, s.oar.owner)) : s.Edits t := by
  simp only [Prod.mk.injEq] at h
  obtain ⟨hmap, hpq, howner⟩ := h
  exact ⟨hmap, hpq ▸ .refl, .single e, fun _ h => howner.trans h⟩

end State.Edits

/-! ## Answers, demands, reads -/

theorem State.edits_record (s : State) (r : FaultRecord) : s.Edits (s.record r) := .of_eq rfl

theorem State.edits_answerFault (s : State) (r : Request) (k : FaultKind) (c : Option Cause) :
    s.Edits (s.answerFault r k c) := .of_eq rfl

theorem State.edits_dropLock (s : State) : s.Edits s.dropLock := .of_eq rfl

theorem State.edits_abandonLock (s : State) : s.Edits s.abandonLock := by
  unfold abandonLock
  repeat' split
  all_goals exact .of_eq rfl

theorem State.edits_handOver (s : State) (r : Request) : s.Edits (s.handOver r) := by
  unfold handOver
  split <;> exact .of_eq rfl

theorem State.edits_refuseDemand (s : State) (r : Request) : s.Edits (s.refuseDemand r) := by
  simp only [refuseDemand]
  split <;> exact .of_eq rfl

theorem State.edits_emptyQueueDemand (s : State) (r : Request) : s.Edits (s.emptyQueueDemand r) := by
  rcases s.emptyQueueDemand_cases r with ⟨-, h⟩ | ⟨_, _, -, -, h⟩ | ⟨-, -, h⟩ <;> rw [h]
  · exact edits_handOver ..
  · exact .of_eq rfl
  · exact edits_refuseDemand ..

theorem State.edits_queueRead (s : State) (r : Request) : s.Edits (s.queueRead r) := by
  rcases s.queueRead_cases r with ⟨-, h⟩ | ⟨-, ⟨-, h⟩ | ⟨_, -, ⟨-, h⟩ | ⟨-, h⟩⟩⟩ <;> rw [h]
  · exact .of_eq rfl
  · exact edits_handOver ..
  · exact .of_eq rfl
  · exact edits_refuseDemand ..

theorem State.edits_answerFromLine (s : State) (r : Request) (i : Fin 8) (w : Fin 4) :
    s.Edits (s.answerFromLine r i w) := .of_lines (.touch s.ls i w) rfl

theorem State.edits_examineKept (s : State) (r : Request) : s.Edits (s.examineKept r) := by
  unfold examineKept
  repeat' split
  all_goals first
    | exact edits_queueRead ..
    | exact edits_answerFromLine ..
    | exact .of_eq rfl

theorem State.edits_serveReader (s : State) : s.Edits s.serveReader := by
  unfold serveReader
  repeat' split
  all_goals first
    | exact edits_answerFromLine ..
    | exact .refl s

theorem State.edits_releaseReader (s : State) : s.Edits s.releaseReader := by
  unfold releaseReader
  repeat' split
  all_goals first
    | exact edits_examineKept ..
    | exact .refl s

/-! ## Writes -/

theorem State.edits_writeUpdate (s : State) (b : Block) (m : Mask) (d : BlockData) : s.Edits (s.writeUpdate b m d) :=
  .comp (edits_serveReader _) (.of_lines (.writeUpdate s.ls b m d) rfl)

theorem State.edits_postWrite (s : State) (r : Request) (h : s.pq.posts.length < 8) : s.Edits (s.postWrite r) :=
  have happend : s.Edits { s with pq := s.pq.append r.block r.mask (spreadWord r.data) r.snap } :=
    .of_queue (.append s.pq _ _ _ _ h) rfl
  .update (.comp (edits_writeUpdate _ r.block r.mask (spreadWord r.data)) happend) rfl

theorem State.edits_offerWrite (s : State) (r : Request) : s.Edits (s.offerWrite r) := by
  rcases s.offerWrite_cases r with ⟨-, h⟩ | ⟨-, ⟨hroom, h⟩ | ⟨-, ⟨-, h⟩ | ⟨-, h⟩⟩⟩ <;> rw [h]
  · have hmerge : s.Edits { s with pq := s.pq.merge r.mask (spreadWord r.data) } := .of_queue (.merge s.pq _ _) rfl
    exact .update (.comp (edits_writeUpdate _ r.block r.mask (spreadWord r.data)) hmerge) rfl
  · exact s.edits_postWrite r hroom
  · exact .of_eq rfl
  · exact edits_answerFault ..

/-! ## The take of a request -/

theorem State.edits_followRoute (s : State) (r : Request) : s.Edits (s.followRoute r) := by
  unfold followRoute lockRoute openLock
  repeat' split
  all_goals first
    | exact edits_answerFault ..
    | exact edits_offerWrite ..
    | exact edits_emptyQueueDemand ..
    | exact edits_examineKept ..
    | exact edits_queueRead ..
    | exact .comp (edits_emptyQueueDemand ..) (.of_eq rfl)

theorem State.edits_closeLock (s : State) (r : Request) : s.Edits (s.closeLock r) := by
  unfold closeLock
  split
  · exact .of_eq rfl
  · exact .comp (edits_handOver ..) (.of_eq rfl)

theorem State.edits_take (s : State) (h : HostRequest) : s.Edits (s.take h) := by
  unfold take
  extract_lets r hru t u
  have hu : s.Edits u := by
    simp only [u]
    split
    · exact .of_eq rfl
    · exact .of_queue (.flags rfl rfl) rfl
  repeat' split
  · exact .comp (edits_abandonLock _) (.comp (edits_answerFault ..) hu)
  · exact .comp (edits_closeLock ..) hu
  · exact .comp (edits_followRoute ..) (.comp (edits_abandonLock _) hu)

/-! ## Posts leave -/

theorem State.edits_settleMark (s : State) (gone : List Seq) (how : Leave) : s.Edits (s.settleMark gone how) := by
  unfold settleMark
  repeat' split
  all_goals first
    | exact .refl s
    | exact .of_queue (.flags rfl rfl) rfl

theorem State.edits_settleObligation (s : State) (gone : List Seq) (how : Leave) :
    s.Edits (s.settleObligation gone how) := by
  unfold settleObligation
  repeat' split
  all_goals exact .of_eq rfl

theorem State.edits_admitWrite (s : State) : s.Edits s.admitWrite := by
  unfold admitWrite
  repeat' split
  · rename_i hroom
    obtain ⟨-, hroom⟩ := Bool.and_eq_true_iff.mp hroom
    exact s.edits_postWrite _ (of_decide_eq_true hroom)
  all_goals exact .refl s

theorem State.edits_settleDemand (s : State) : s.Edits s.settleDemand := by
  unfold settleDemand
  split
  · exact .refl s
  · extract_lets met
    repeat' split
    · exact edits_handOver ..
    · exact edits_refuseDemand ..
    · exact .refl s

theorem State.edits_leaving (s : State) (gone : List Seq) (how : Leave) : s.Edits (s.leaving gone how) :=
  .comp (edits_settleDemand _)
    (.comp (edits_admitWrite _) (.comp (edits_settleObligation ..) (edits_settleMark ..)))

theorem State.edits_haltOnPolicy (s : State) : s.Edits s.haltOnPolicy := by
  unfold haltOnPolicy
  split
  · exact .of_queue (.flags rfl rfl) rfl
  · exact .refl s

/-! ## Transactions and ownership -/

theorem State.edits_issue (s : State) (t : Txn) : s.Edits (s.issue t) := .of_eq rfl

theorem State.edits_startDrain (s : State) : s.Edits s.startDrain := by
  unfold startDrain
  split
  · exact .refl s
  · exact .comp (edits_issue ..) (.of_queue (.startDrain s.pq) rfl)

theorem State.edits_startHost (s : State) (w : Work) : s.Edits (s.startHost w) := by
  simp only [startHost]
  repeat' split
  · exact .of_lines (.allocate s.ls _ _ _ ‹_›) rfl
  all_goals exact .of_eq rfl

theorem State.edits_resume (s : State) (t : Txn) : s.Edits (s.resume t) := by
  unfold resume
  repeat' split
  · exact .of_eq rfl
  · exact .comp (edits_releaseReader _) (.of_lines (.drop s.ls) rfl)
  · exact .comp (edits_issue ..) (.of_lines (.restart s.ls _ ‹_›) rfl)
  all_goals exact .of_eq rfl

theorem State.edits_start (s : State) (w : Next) : s.Edits (s.start w) := by
  cases w with
  | resume t => exact edits_resume ..
  | drain => exact edits_startDrain _
  | locked w => exact .of_eq rfl
  | host w => exact edits_startHost ..

/-- A move leaves a peer that owns the M-port its owner: none is left while one owns it. -/
theorem State.edits_nextMove (s t : State) (h : s.nextMove = some t) : s.Edits t := by
  have owned (p : Peer) (ho : s.oar.owner = .peer p) : t.oar.owner = .peer p := by
    rw [s.nextMove_peer p ho] at h
    cases h
  have of_oar (a : Arbiter) (ht : { s with oar := a } = t) : s.Edits t :=
    ⟨ht ▸ rfl, ht ▸ .refl, ht ▸ .refl, owned⟩
  unfold nextMove at h
  repeat' split at h
  · cases h
  · cases h
  · obtain ⟨w, -, rfl⟩ := Option.map_eq_some_iff.mp h
    exact edits_start ..
  · exact of_oar _ (Option.some.inj h)
  · exact of_oar _ (Option.some.inj h)
  · exact of_oar _ (Option.some.inj h)
  · cases h

theorem State.edits_arbitrate (n : Nat) (s : State) : s.Edits (s.arbitrate n) := by
  induction n generalizing s with
  | zero => exact .refl s
  | succ n ih =>
    rw [s.arbitrate_succ]
    cases hm : s.nextMove with
    | none => exact .refl s
    | some t => exact .comp (ih t) (s.edits_nextMove t hm)

theorem State.edits_settle (s : State) : s.Edits s.settle := by
  unfold settle checkTenure
  repeat' split
  · exact .update (s.edits_arbitrate movesPerStep) rfl
  all_goals exact s.edits_arbitrate movesPerStep

theorem State.edits_takePresented (s : State) : s.Edits s.takePresented := by
  unfold takePresented
  repeat' split
  · exact .comp (edits_settle _) (.comp (edits_take ..) (.of_eq rfl))
  all_goals exact .refl s

theorem State.edits_finish (s : State) : s.Edits s.finish := .comp (edits_takePresented _) (edits_settle _)

theorem State.edits_present (s : State) (h : HostRequest) : s.Edits (s.present h) := by
  unfold present
  repeat' split
  · exact .refl s
  · exact .comp (edits_finish _) (edits_take ..)
  · exact .of_eq rfl

/-! ## The endings of beats -/

/-- The same posts, whatever a merge or a DRAIN's progress has made of them. -/
def PostQueue.SamePosts (q q' : PostQueue) : Prop :=
  q'.posts.map Post.identity = q.posts.map Post.identity ∧ q'.nextSeq = q.nextSeq

theorem PostQueue.SamePosts.trans {q q' q'' : PostQueue} (a : q.SamePosts q') (b : q'.SamePosts q'') :
    q.SamePosts q'' :=
  ⟨b.1.trans a.1, b.2.trans a.2⟩

/-- `t` comes from `s` by edits, among which the head of the queue may leave once, before any post joins. -/
def State.EditsOnce (s t : State) : Prop :=
  s.Edits t ∨ ∃ u : State, s.Edits u ∧ s.pq.SamePosts u.pq ∧ State.Edits { u with pq := u.pq.dropHead } t

theorem State.EditsOnce.comp {s t u : State} (b : t.EditsOnce u) (a : s.Edits t) (hposts : s.pq.SamePosts t.pq) :
    s.EditsOnce u := by
  rcases b with b | ⟨v, b, hv, c⟩
  · exact .inl (.comp b a)
  · exact .inr ⟨v, .comp b a, hposts.trans hv, c⟩

theorem State.EditsOnce.before {s t u : State} (b : t.Edits u) (a : s.EditsOnce t) : s.EditsOnce u := by
  rcases a with a | ⟨v, a, hv, c⟩
  · exact .inl (.comp b a)
  · exact .inr ⟨v, a, hv, .comp b c⟩

theorem State.edits_syncPost (s : State) (t : Txn) : s.Edits (s.syncPost t) := by
  unfold syncPost
  split
  · exact .of_queue (.progress s.pq _ _) rfl
  · exact .refl s

/-- A DRAIN's progress leaves the posts the same (R34). -/
theorem State.samePosts_syncPost (s : State) (t : Txn) : s.pq.SamePosts (s.syncPost t).pq := by
  unfold syncPost PostQueue.progress
  repeat' split
  · exact ⟨rfl, rfl⟩
  · rename_i p rest hp
    exact ⟨by simp [hp, Post.identity], rfl⟩
  · exact ⟨rfl, rfl⟩

theorem State.edits_answerTxn (s : State) (t : Txn) : s.Edits (s.answerTxn t) := by
  unfold answerTxn
  split
  · exact .of_eq rfl
  · exact .refl s

theorem State.edits_failTxn (s : State) (k : FaultKind) (c : Cause) : s.Edits (s.failTxn k c) := by
  unfold failTxn
  split
  · exact edits_answerFault ..
  · exact .refl s

theorem State.edits_earlyAnswer (s : State) : s.Edits s.earlyAnswer := by
  unfold earlyAnswer
  repeat' split
  · exact .comp (edits_answerFromLine ..) (.of_lines (.answered s.ls) rfl)
  all_goals exact .refl s

theorem State.edits_openedLock (s : State) (t : Txn) : s.Edits (s.openedLock t) := by
  unfold openedLock
  split
  · exact .of_eq rfl
  · exact .refl s

/-- A fill completes with its line VALID only where it is not STALE (R60). -/
theorem State.edits_completeFill (s : State) : s.Edits s.completeFill := by
  refine .comp (edits_releaseReader _) (.of_lines ?_ rfl)
  cases hf : s.ls.fill with
  | none => exact .drop s.ls
  | some f =>
    cases hok : !f.stale && !f.veto with
    | true =>
      simp only [hok]
      exact .complete s.ls f hf (by simp_all)
    | false =>
      simp only [hok]
      exact .drop s.ls

theorem State.edits_failFill (s : State) (t : Txn) (c : Cause) : s.Edits (s.failFill t c) := by
  unfold failFill
  split
  · extract_lets u
    have hu : s.Edits u := .of_lines (.drop s.ls) rfl
    split
    · exact .comp (edits_releaseReader _) (.comp (edits_record ..) hu)
    · exact .comp (edits_failTxn ..) hu
  · exact .refl s

/-- The head leaves with the completion of its DRAIN (R35). -/
theorem State.editsOnce_drainComplete (s : State) : s.EditsOnce s.drainComplete := by
  unfold drainComplete
  split
  · exact .inl (.refl s)
  · exact .inr ⟨s, .refl s, ⟨rfl, rfl⟩, edits_leaving ..⟩

/-- The head leaves with the failure of its DRAIN (R36). -/
theorem State.editsOnce_drainFail (s : State) (c : Cause) : s.EditsOnce (s.drainFail c) := by
  unfold drainFail
  split
  · exact .inl (.refl s)
  · rename_i p rest _
    have hleft := edits_record { s with pq := s.pq.dropHead, ls := s.ls.invalidate p.block } (deferredRecord p c)
    exact .inr ⟨{ s with ls := s.ls.invalidate p.block }, .of_lines (.invalidate _ s.ls _) rfl, ⟨rfl, rfl⟩,
      .comp (edits_leaving ..) (.comp (edits_haltOnPolicy _) hleft)⟩

theorem State.editsOnce_complete (s : State) (t : Txn) : s.EditsOnce (s.complete t) := by
  unfold complete
  split
  · exact s.editsOnce_drainComplete
  · exact .inl s.edits_completeFill
  · exact .inl (edits_answerTxn ..)
  · exact .inl (.comp (edits_answerTxn ..) (edits_writeUpdate ..))
  · exact .inl (edits_openedLock ..)
  · exact .inl (.comp (edits_dropLock _) (.comp (edits_answerTxn ..) (edits_writeUpdate ..)))

theorem State.editsOnce_fail (s : State) (t : Txn) (c : Cause) : s.EditsOnce (s.fail t c) := by
  unfold fail
  split
  · exact s.editsOnce_drainFail c
  · exact .inl (edits_failFill ..)
  · exact .inl (edits_failTxn ..)
  · exact .inl (.comp (edits_failTxn ..) (.of_lines (.invalidate _ s.ls _) rfl))
  · exact .inl (.comp (edits_dropLock _) (edits_failTxn ..))
  · exact .inl (.comp (edits_dropLock _) (.comp (edits_failTxn ..) (.of_lines (.invalidate _ s.ls _) rfl)))

theorem State.edits_deliverBeat (s : State) (t : Txn) (b : Beat) (d : Word) (v : Bool) :
    s.Edits (s.deliverBeat t b d v) := by
  unfold deliverBeat
  split
  · extract_lets u
    have hu : s.Edits u := by
      simp only [u]
      split
      · exact .of_lines (.veto s.ls) rfl
      · exact .refl s
    exact .comp (edits_serveReader _) (.comp (.comp (edits_earlyAnswer _) (.of_lines (.deliver u.ls _ _) rfl)) hu)
  · exact .refl s

theorem State.serveReader_pq (s : State) : s.serveReader.pq = s.pq := by
  unfold serveReader
  repeat' split
  all_goals rfl

theorem State.earlyAnswer_pq (s : State) : s.earlyAnswer.pq = s.pq := by
  unfold earlyAnswer
  repeat' split
  all_goals rfl

/-- The delivery of a beat to a line is no matter of the queue. -/
theorem State.deliverBeat_pq (s : State) (t : Txn) (b : Beat) (d : Word) (v : Bool) :
    (s.deliverBeat t b d v).pq = s.pq := by
  simp only [deliverBeat]
  repeat' split
  · rw [serveReader_pq, earlyAnswer_pq]
  · rw [serveReader_pq, earlyAnswer_pq]
  · rfl

theorem State.editsOnce_ackBeat (s : State) (t : Txn) (d : Word) (v : Bool) : s.EditsOnce (s.ackBeat t d v) := by
  unfold ackBeat
  split
  · exact .inl (.of_eq rfl)
  · split
    · exact .inl (.of_eq rfl)
    · extract_lets t' u
      have hu : s.Edits u := .comp (edits_syncPost ..) (edits_deliverBeat ..)
      have hposts : s.pq.SamePosts u.pq := s.deliverBeat_pq t _ d v ▸ samePosts_syncPost _ t'
      split
      · exact .inl (.comp (edits_issue ..) hu)
      · exact (editsOnce_complete _ t').comp (.update hu rfl) hposts

theorem State.editsOnce_failBeat (s : State) (t : Txn) (c : Cause) : s.EditsOnce (s.failBeat t c) := by
  unfold failBeat
  split
  · exact .inl (.of_eq rfl)
  · exact (editsOnce_fail _ t c).comp (.of_eq rfl) ⟨rfl, rfl⟩

/-- A retry can take the M-port from the bridge alone (R99). -/
theorem State.editsOnce_retryBeat (s : State) (t : Txn) (ho : s.oar.owner = .bridge) :
    s.EditsOnce (s.retryBeat t) := by
  unfold retryBeat
  split
  · exact .inl (.of_eq rfl)
  · extract_lets t' u
    have hu : s.Edits u := s.edits_syncPost t'
    repeat' split
    · exact (editsOnce_fail _ t' _).comp (.update hu rfl) (s.samePosts_syncPost t')
    · exact .inl (.comp (edits_issue ..) hu)
    · exact .inl ⟨hu.rmap, hu.queue, hu.lines, fun p hp => by simp [ho] at hp⟩

theorem State.beatInProgress_owner (s : State) (t : Txn) (h : s.beatInProgress = some t) :
    s.oar.owner = .bridge := by
  unfold beatInProgress at h
  split at h
  · simp_all
  · cases h

theorem State.editsOnce_terminate (s : State) (x : Signals) : s.EditsOnce (s.terminate x) := by
  unfold terminate
  repeat' split
  · exact .inl (.refl s)
  · exact .before (edits_finish _) (editsOnce_ackBeat ..)
  · exact .before (edits_finish _) (s.editsOnce_retryBeat _ (s.beatInProgress_owner _ ‹_›))
  · exact .before (edits_finish _) (editsOnce_failBeat ..)
  · exact .inl (.refl s)
  · exact .inl (.of_eq rfl)

theorem State.editsOnce_beatExpires (s : State) : s.EditsOnce s.beatExpires := by
  unfold beatExpires
  repeat' split
  · exact .before (edits_finish _) (editsOnce_failBeat ..)
  all_goals exact .inl (.refl s)

end Sys2Proof.Machine
end

section
/-! The edits of every command, and the rules of the whole part that follow from them edit by edit: the order of the
queue, its form, the owning peer, and the KEEP regions of the lines. -/

namespace Sys2Proof.Machine

/-! ## The commands -/

theorem State.edits_lockExpires (s : State) : s.Edits s.lockExpires := by
  unfold lockExpires
  repeat' split
  · exact .comp (edits_finish _) (.of_eq rfl)
  all_goals exact .refl s

theorem State.edits_tenureExpires (s : State) : s.Edits s.tenureExpires := by
  unfold tenureExpires
  repeat' split
  all_goals exact .of_eq rfl

theorem State.edits_yieldExpires (s : State) : s.Edits s.yieldExpires := by
  unfold yieldExpires
  repeat' split
  all_goals exact .of_eq rfl

theorem State.edits_oblige (s : State) (p : Post) : s.Edits (s.oblige p) := by
  unfold oblige
  repeat' split
  all_goals exact .of_eq rfl

theorem State.edits_passPeer (s : State) (ph : AddressPhase) : s.Edits (s.passPeer ph) := by
  unfold passPeer
  split
  · exact .of_lines (.invalidate _ s.ls _) rfl
  · exact .of_eq rfl

theorem State.edits_snoop (s : State) (p : Peer) (ph : AddressPhase) : s.Edits (s.snoop p ph) := by
  have hretry : s.Edits { s with oar := s.oar.snoopRetry p } := by
    unfold Arbiter.snoopRetry
    split <;> exact .of_eq rfl
  unfold snoop
  repeat' split
  · exact .of_eq rfl
  · exact edits_passPeer ..
  · exact .update (.comp (edits_oblige ..) hretry) rfl
  · exact .comp (edits_passPeer ..) (edits_record ..)

theorem State.edits_completeFrame (s : State) (f : Frame) (e : State → State) (he : ∀ t : State, t.Edits (e t)) :
    s.Edits (s.begin.completeFrame f e) :=
  s.completeFrame_cases f e (.of_eq rfl) (fun _ _ => .of_eq rfl) fun _ _ => .comp (he _) (.of_eq rfl)

theorem State.edits_completeInput (s : State) (input : List Byte) (e : State → State)
    (he : ∀ t : State, t.Edits (e t)) : s.Edits (s.begin.completeInput input e) :=
  s.completeInput_cases input e (.of_eq rfl) (fun _ _ => .of_eq rfl) fun _ _ _ _ => .comp (he _) (.of_eq rfl)

theorem State.edits_ite {p : Prop} [Decidable p] {s a b : State} (ha : s.Edits a) (hb : s.Edits b) :
    s.Edits (if p then a else b) := by
  split
  · exact ha
  · exact hb

theorem State.edits_setPeerLevelItem (s : State) (p : Peer) (v : Nat) : s.Edits (s.setPeerLevelItem p v) :=
  .comp (edits_finish _) (.of_eq rfl)

theorem State.edits_setItem (s : State) (item : Byte) (v : BitVec 16) : s.Edits (s.setItem item v) := by
  unfold setItem
  repeat' with_reducible refine edits_ite ?_ ?_
  all_goals first
    | exact edits_setPeerLevelItem ..
    | exact .of_eq rfl
    | exact .of_queue (.flags rfl rfl) rfl

theorem State.edits_markTail (s : State) : s.Edits s.markTail := by
  unfold markTail
  split <;> exact .of_queue (.flags rfl rfl) rfl

theorem State.edits_hostReset (s : State) : s.Edits s.hostReset :=
  ⟨rfl, .single (.flags rfl rfl), .single (.empty s.ls), fun _ => id⟩

/-- Every command but POWER_ON, DISCARD, a region rewrite and the owning peer's release comes to edits, among which the
head of the queue leaves once at most. -/
theorem exec_editsOnce (c : Instr) (s t : State) (h : exec c s = .next t)
    (hpower : ∀ w1 w0 mcs hRst held, c ≠ .powerOn w1 w0 mcs hRst held) (hdiscard : c ≠ .discard)
    (hrewrite : ∀ item v, c ≠ .regionRewrite item v)
    (hrelease : ∀ p, s.oar.owner = .peer p → c ≠ .peerRelease p) : s.EditsOnce t := by
  have hbegin : s.Edits s.begin := .of_eq rfl
  cases c
  all_goals obtain rfl := Host.Outcome.next.inj h
  case powerOn => exact absurd rfl (hpower _ _ _ _ _)
  case discard => exact absurd rfl hdiscard
  case regionRewrite => exact absurd rfl (hrewrite _ _)
  case hostReset => exact .inl (.comp (State.edits_finish _) (.comp s.begin.edits_hostReset hbegin))
  case read | read16 | write | lockRead | lockWrite => exact .inl (.comp (s.begin.edits_present _) hbegin)
  case mAck | mRetry | mFail => exact (s.begin.editsOnce_terminate _).comp hbegin ⟨rfl, rfl⟩
  case beatTimeout => exact s.begin.editsOnce_beatExpires.comp hbegin ⟨rfl, rfl⟩
  case tick => exact .inl (.of_eq rfl)
  case hostClock => split <;> exact .inl (.of_eq rfl)
  case lockHoldExpiry => exact .inl (.comp s.begin.edits_lockExpires hbegin)
  case tenureExpiry => exact .inl (.comp s.begin.edits_tenureExpires hbegin)
  case yieldExpiry => exact .inl (.comp s.begin.edits_yieldExpires hbegin)
  case peerRequest => exact .inl (.comp (State.edits_finish _) (.of_eq rfl))
  case peerRelease p =>
    split
    · rename_i howner
      exact absurd rfl (hrelease p (beq_iff_eq.mp howner))
    · exact .inl (.comp (State.edits_finish _) (.of_eq rfl))
  case peerAddressPhase =>
    split
    · exact .inl (.comp (s.begin.edits_snoop _ _) hbegin)
    · exact .inl hbegin
  case hostResetNegation => exact .inl (.comp (State.edits_takePresented _) (.of_eq rfl))
  case frameCutShort | mcsNegatedInBlocked => split <;> exact .inl (.of_eq rfl)
  case answerPoint input =>
    obtain ⟨l, hl⟩ := s.begin.clockIn_eq input
    rw [hl]
    exact .inl (.of_eq rfl)
  case get | viewPost | popFault | ackInt | clearLog | setPrescaler | setBaseLevel | setInterruptEnables =>
    exact .inl (s.edits_completeInput _ _ fun _ => .of_eq rfl)
  case setHighWaterMark => exact .inl (s.edits_completeInput _ _ fun _ => .of_queue (.flags rfl rfl) rfl)
  case invalidate => exact .inl (s.edits_completeInput _ _ fun t => .of_lines (.invalidateWhere t.ls fun _ => true) rfl)
  case set => exact .inl (s.edits_completeInput _ _ fun t => t.edits_setItem ..)
  case setPeerLevel => exact .inl (s.edits_completeInput _ _ fun t => t.edits_setPeerLevelItem ..)
  case drainMark => exact .inl (s.edits_completeInput _ _ State.edits_markTail)
  case resume =>
    exact .inl (s.edits_completeInput _ _ fun _ => .comp (State.edits_finish _) (.of_queue (.flags rfl rfl) rfl))
  case restorePeer =>
    refine .inl (s.edits_completeInput _ _ fun t => ?_)
    split
    · refine .comp (State.edits_finish _) ?_
      unfold Arbiter.restore
      split <;> exact .of_eq rfl
    · exact .refl t
  case badCommand =>
    split
    · exact .inl (s.edits_completeFrame _ _ fun t => .refl t)
    · exact .inl hbegin

/-- The owning peer's release frees the M-port before the end of the step, and edits nothing by itself (R135). -/
theorem exec_peerRelease_edits (s t : State) (p : Peer) (h : exec (.peerRelease p) s = .next t) :
    ∃ u : State, u.rmap = s.rmap ∧ u.pq = s.pq ∧ u.ls = s.ls ∧ u.Edits t := by
  obtain rfl := Host.Outcome.next.inj h
  dsimp only
  split
  all_goals
    refine ⟨_, ?_, ?_, ?_, State.edits_finish _⟩
    all_goals rfl

/-- A region rewrite closes merging, rewrites the map and invalidates the lines of its range, or does nothing to
them (R12). -/
theorem exec_regionRewrite_cases (s t : State) (item : Byte) (v : BitVec 40)
    (h : exec (.regionRewrite item v) s = .next t) :
    (t.rmap = s.rmap ∧ t.pq = s.pq ∧ t.ls = s.ls ∧ t.oar = s.oar) ∨
    (t.rmap = s.rmap.rewrite item v ∧ t.pq = s.pq.closeMerge ∧ t.oar = s.oar ∧
      t.ls = s.ls.invalidateWhere (inInvalidationRange item s.rmap (s.rmap.rewrite item v))) := by
  obtain rfl := Host.Outcome.next.inj h
  split
  · exact s.completeFrame_cases (motive := fun t =>
      (t.rmap = s.rmap ∧ t.pq = s.pq ∧ t.ls = s.ls ∧ t.oar = s.oar) ∨
      (t.rmap = s.rmap.rewrite item v ∧ t.pq = s.pq.closeMerge ∧ t.oar = s.oar ∧
        t.ls = s.ls.invalidateWhere (inInvalidationRange item s.rmap (s.rmap.rewrite item v))))
      _ _ (.inl ⟨rfl, rfl, rfl, rfl⟩) (fun _ _ => .inl ⟨rfl, rfl, rfl, rfl⟩) fun _ _ => .inr ⟨rfl, rfl, rfl, rfl⟩
  · exact .inl ⟨rfl, rfl, rfl, rfl⟩

/-- DISCARD takes the WAITING posts from the queue and invalidates their lines; the rest are edits (R39). -/
theorem State.edits_discardPosts (s : State) :
    State.Edits { s with
      pq := s.pq.discard
      ls := s.ls.invalidateWhere fun b => s.pq.waiting.any fun p => p.block == b } s.discardPosts := by
  simp only [discardPosts]
  split
  · exact .comp (edits_leaving ..) (edits_record ..)
  · exact .refl _

/-- DISCARD removes posts before it edits, or does nothing to queue, lines and owner. -/
theorem exec_discard_edits (s t : State) (h : exec .discard s = .next t) :
    s.Edits t ∨ ∃ u : State, u.rmap = s.rmap ∧ u.pq = s.pq.discard ∧ u.oar.owner = s.oar.owner ∧
      (∃ p, u.ls = s.ls.invalidateWhere p) ∧ u.Edits t := by
  obtain rfl := Host.Outcome.next.inj h
  exact s.completeInput_cases (motive := fun t => s.Edits t ∨ ∃ u : State, u.rmap = s.rmap ∧ u.pq = s.pq.discard ∧
      u.oar.owner = s.oar.owner ∧ (∃ p, u.ls = s.ls.invalidateWhere p) ∧ u.Edits t)
    _ _ (.inl (.of_eq rfl)) (fun _ _ => .inl (.of_eq rfl)) fun _ d _ _ => by
      have hdiscard := (s.framed .ok d).edits_discardPosts
      refine .inr ⟨_, ?_, ?_, ?_, ⟨fun b => s.pq.waiting.any fun p => p.block == b, ?_⟩,
        .comp (State.edits_finish _) hdiscard⟩
      all_goals rfl

/-- POWER_ON starts from the power-on state of every block (R185). -/
theorem exec_powerOn_edits (s t : State) (w1 w0 mcs hRst : Bool) (held : Option HostRequest)
    (h : exec (.powerOn w1 w0 mcs hRst held) s = .next t) : (s.powerUp w1 w0 mcs hRst).Edits t := by
  obtain rfl := Host.Outcome.next.inj h
  split
  · exact State.edits_present _ _
  · exact .refl _

/-! ## The order of the queue -/

/-- Posts join at the tail, and the counter advances by one for each (R19). -/
def PostQueue.Extends (q q' : PostQueue) : Prop :=
  ∃ new : List (Seq × Block × Snapshot), q'.posts.map Post.identity = q.posts.map Post.identity ++ new ∧
    q'.nextSeq = q.nextSeq + BitVec.ofNat 8 new.length

theorem PostQueue.SamePosts.extends {q q' : PostQueue} (h : q.SamePosts q') : q.Extends q' :=
  ⟨[], by simp [h.1], by simp [h.2]⟩

theorem PostQueue.Extends.trans {q q' q'' : PostQueue} (a : q.Extends q') (b : q'.Extends q'') : q.Extends q'' := by
  obtain ⟨new, ha, hna⟩ := a
  obtain ⟨new', hb, hnb⟩ := b
  refine ⟨new ++ new', by rw [hb, ha, List.append_assoc], ?_⟩
  rw [hnb, hna, List.length_append, BitVec.ofNat_add, BitVec.add_assoc]

/-- A merge keeps the identity of the tail (R22). -/
theorem PostQueue.samePosts_merge (q : PostQueue) (m : Mask) (d : BlockData) : q.SamePosts (q.merge m d) := by
  rcases List.eq_nil_or_concat q.posts with hq | ⟨older, tail, hq⟩
  · simp [SamePosts, merge, hq]
  · rw [List.concat_eq_append] at hq
    rw [q.merge_concat m d older tail hq]
    exact ⟨by simp [hq, Post.fold, Post.identity], rfl⟩

theorem PostQueue.Edit.extends {q q' : PostQueue} (h : PostQueue.Edit q q') : q.Extends q' := by
  cases h with
  | flags hposts hseq => exact SamePosts.extends ⟨by rw [hposts], hseq⟩
  | append b m d snap room => exact ⟨[(q.nextSeq, b, snap)], by simp [PostQueue.append, Post.identity], rfl⟩
  | merge m d => exact (q.samePosts_merge m d).extends
  | startDrain =>
    unfold PostQueue.startDrain
    split
    · exact SamePosts.extends ⟨rfl, rfl⟩
    · exact SamePosts.extends ⟨by simp [*, Post.identity], rfl⟩
  | progress done retries =>
    unfold PostQueue.progress
    split
    · exact SamePosts.extends ⟨rfl, rfl⟩
    · exact SamePosts.extends ⟨by simp [*, Post.identity], rfl⟩

theorem State.Edits.extends {s t : State} (h : s.Edits t) : s.pq.Extends t.pq := by
  have run {q : PostQueue} (hq : Relation.ReflTransGen PostQueue.Edit s.pq q) : s.pq.Extends q := by
    induction hq with
    | refl => exact PostQueue.SamePosts.extends ⟨rfl, rfl⟩
    | tail _ e ih => exact ih.trans e.extends
  exact run h.queue

/-- Settles O52: edits extend the queue at its tail, and the head leaves before any post joins. -/
theorem postsLeaveFromTheHead : Obligations.PostsLeaveFromTheHead := by
  intro c s t h hdiscard hpower
  have keeps (hext : s.pq.Extends t.pq) :
      ∃ (n : Nat) (new : List (Seq × Block × Snapshot)), n ≤ 1 ∧
        t.pq.posts.map Post.identity = (s.pq.posts.map Post.identity).drop n ++ new ∧
        t.pq.nextSeq = s.pq.nextSeq + BitVec.ofNat 8 new.length :=
    ⟨0, hext.choose, Nat.zero_le 1, hext.choose_spec⟩
  by_cases hrewrite : ∃ item v, c = .regionRewrite item v
  · obtain ⟨item, v, rfl⟩ := hrewrite
    rcases exec_regionRewrite_cases s t item v h with ⟨-, hpq, -⟩ | ⟨-, hpq, -⟩
    all_goals exact keeps (PostQueue.SamePosts.extends ⟨congrArg (List.map Post.identity ·.posts) hpq, congrArg (·.nextSeq) hpq⟩)
  by_cases hrelease : ∃ p, c = .peerRelease p
  · obtain ⟨p, rfl⟩ := hrelease
    obtain ⟨u, -, hpq, -, hu⟩ := exec_peerRelease_edits s t p h
    exact keeps (hpq ▸ hu.extends)
  simp only [not_exists] at hrewrite hrelease
  rcases exec_editsOnce c s t h hpower hdiscard hrewrite fun p _ => hrelease p with hu | ⟨u, -, hsame, hu⟩
  · exact keeps hu.extends
  · obtain ⟨new, hnew, hseq⟩ := hu.extends
    refine ⟨1, new, le_rfl, ?_, by rw [hseq, PostQueue.dropHead, hsame.2]⟩
    rw [hnew, PostQueue.dropHead, List.map_tail, hsame.1, List.drop_one]

/-- Settles O53: an owning peer stays through every edit. -/
theorem peerKeepsPortUntilRelease : Obligations.PeerKeepsPortUntilRelease := by
  intro c s t p h ho hrelease hpower
  suffices howner : t.oar.owner = .peer p from ⟨howner, by simp [Arbiter.grant, howner]⟩
  by_cases hrewrite : ∃ item v, c = .regionRewrite item v
  · obtain ⟨item, v, rfl⟩ := hrewrite
    rcases exec_regionRewrite_cases s t item v h with ⟨-, -, -, hoar⟩ | ⟨-, -, hoar, -⟩
    all_goals rw [hoar, ho]
  by_cases hdiscard : c = .discard
  · subst hdiscard
    rcases exec_discard_edits s t h with hu | ⟨u, -, -, howner, -, hu⟩
    · exact hu.owner p ho
    · exact hu.owner p (howner.trans ho)
  simp only [not_exists] at hrewrite
  have hother (q : Peer) (hq : s.oar.owner = .peer q) : c ≠ .peerRelease q := by
    rw [ho] at hq
    cases hq
    exact hrelease
  rcases exec_editsOnce c s t h hpower hdiscard hrewrite hother with hu | ⟨u, hsu, -, hu⟩
  · exact hu.owner p ho
  · exact hu.owner p (hsu.owner p ho)

end Sys2Proof.Machine
end

section
/-! The Post Queue's form, edit by edit. -/

namespace Sys2Proof.Machine

/-! ## The form, post by post -/

/-- The Post Queue's form: at most eight posts, each with the seq of its distance from the counter, and only the head
DRAINING (R19, R33). -/
theorem PostQueue.wf_iff (q : PostQueue) :
    q.wf = true ↔ q.posts.length ≤ 8 ∧
      (∀ (i : Nat) (p : Post), q.posts[i]? = some p → p.seq = q.nextSeq - BitVec.ofNat 8 (q.posts.length - i)) ∧
      ∀ p ∈ q.posts.tail, p.state = .waiting := by
  have hseqs : q.posts.map Post.seq =
        ((List.range q.posts.length).map fun i => q.nextSeq - BitVec.ofNat 8 (q.posts.length - i)) ↔
      ∀ (i : Nat) (p : Post), q.posts[i]? = some p → p.seq = q.nextSeq - BitVec.ofNat 8 (q.posts.length - i) := by
    constructor
    · intro h i p hp
      obtain ⟨hi, rfl⟩ := List.getElem?_eq_some_iff.mp hp
      have hseq := congrArg (·[i]?) h
      simpa [hi] using hseq
    · intro h
      apply List.ext_getElem?
      intro i
      rw [List.getElem?_map, List.getElem?_map]
      by_cases hi : i < q.posts.length
      · simp [hi, h i q.posts[i] (List.getElem?_eq_getElem hi)]
      · simp [Nat.le_of_not_lt hi]
  simp only [wf, Bool.and_eq_true, decide_eq_true_eq, hseqs, List.all_eq_true, beq_iff_eq, and_assoc]
  rfl

/-- The form is a matter of the posts' seqs and states and of the counter. -/
theorem PostQueue.wf_congr {q q' : PostQueue}
    (hposts : (q'.posts.map fun p => (p.seq, p.state)) = q.posts.map fun p => (p.seq, p.state))
    (hseq : q'.nextSeq = q.nextSeq) : q'.wf = q.wf := by
  have hlength : q'.posts.length = q.posts.length := by
    simpa using congrArg List.length hposts
  have hseqs : q'.posts.map Post.seq = q.posts.map Post.seq := by
    simpa [Function.comp_def] using congrArg (List.map Prod.fst) hposts
  have hstates : (q'.posts.tail.all fun p => p.state == .waiting) = q.posts.tail.all fun p => p.state == .waiting := by
    have htails := congrArg (fun x => x.tail.all fun y => y.2 == PostState.waiting) hposts
    simpa only [← List.map_tail, List.all_map, Function.comp_def] using htails
  simp only [wf, hlength, hseqs, hseq, hstates]

/-! ## Edit by edit -/

/-- A new post takes the counter's seq, and the counter goes on (R23). -/
theorem PostQueue.wf_append (q : PostQueue) (b : Block) (m : Mask) (d : BlockData) (snap : Snapshot)
    (room : q.posts.length < 8) (h : q.wf = true) : (q.append b m d snap).wf = true := by
  obtain ⟨-, hseq, hstate⟩ := q.wf_iff.mp h
  rw [wf_iff]
  simp only [append, List.length_append, List.length_singleton]
  refine ⟨by omega, fun i p hp => ?_, fun p hp => ?_⟩
  · rcases Nat.lt_or_ge i q.posts.length with hi | hi
    · rw [List.getElem?_append_left hi] at hp
      rw [hseq i p hp, show q.posts.length + 1 - i = (q.posts.length - i) + 1 by omega]
      generalize q.posts.length - i = n
      bv_omega
    · rw [List.getElem?_append_right hi] at hp
      obtain ⟨hi', hp⟩ := List.getElem?_eq_some_iff.mp hp
      simp only [List.length_singleton] at hi'
      rw [show q.posts.length + 1 - i = 1 by omega]
      simp only [List.getElem_singleton] at hp
      subst hp
      bv_omega
  · cases hq : q.posts with
    | nil => simp [hq] at hp
    | cons x rest =>
      simp only [hq, List.cons_append, List.tail_cons, List.mem_append, List.mem_singleton] at hp hstate
      rcases hp with hp | rfl
      · exact hstate p hp
      · rfl

/-- The head, when it starts or goes on DRAINING, keeps its seq (R33, R34). -/
theorem PostQueue.wf_head {q : PostQueue} {x y : Post} {rest : List Post} (hq : q.posts = x :: rest)
    (hseq : y.seq = x.seq) (h : q.wf = true) (merging : Bool) :
    PostQueue.wf { q with posts := y :: rest, mergeOpen := merging } = true := by
  obtain ⟨hlength, hseqs, hstate⟩ := q.wf_iff.mp h
  rw [wf_iff]
  rw [hq] at hlength hseqs hstate
  refine ⟨hlength, fun i p hp => ?_, hstate⟩
  cases i with
  | zero =>
    cases hp
    exact hseq.trans (hseqs 0 x rfl)
  | succ i => exact hseqs (i + 1) p hp

theorem PostQueue.wf_merge (q : PostQueue) (m : Mask) (d : BlockData) : (q.merge m d).wf = q.wf := by
  rcases List.eq_nil_or_concat q.posts with hq | ⟨older, tail, hq⟩
  · simp [merge, hq]
  · rw [List.concat_eq_append] at hq
    rw [q.merge_concat m d older tail hq]
    exact wf_congr (by simp [hq, Post.fold]) rfl

theorem PostQueue.Edit.wf {q q' : PostQueue} (e : PostQueue.Edit q q') (h : q.wf = true) : q'.wf = true := by
  cases e with
  | flags hposts hseq => exact (wf_congr (by rw [hposts]) hseq).trans h
  | append b m d snap room => exact q.wf_append b m d snap room h
  | merge m d => exact (q.wf_merge m d).trans h
  | startDrain =>
    unfold PostQueue.startDrain
    split
    · exact h
    · rename_i p rest hq
      exact wf_head hq rfl h (q.mergeOpen && !rest.isEmpty)
  | progress done retries =>
    unfold PostQueue.progress
    split
    · exact h
    · rename_i hq
      exact wf_head hq rfl h q.mergeOpen

theorem State.Edits.wf_pq {s t : State} (e : s.Edits t) (h : s.pq.wf = true) : t.pq.wf = true := by
  have run {q : PostQueue} (hq : Relation.ReflTransGen PostQueue.Edit s.pq q) : q.wf = true := by
    induction hq with
    | refl => exact h
    | tail _ e ih => exact e.wf ih
  exact run e.queue

/-! ## Posts that leave -/

theorem PostQueue.wf_dropHead (q : PostQueue) (h : q.wf = true) : q.dropHead.wf = true := by
  obtain ⟨hlength, hseqs, hstate⟩ := q.wf_iff.mp h
  rw [wf_iff]
  simp only [dropHead, List.length_tail, List.getElem?_tail]
  refine ⟨by omega, fun i p hp => ?_, fun p hp => hstate p (List.mem_of_mem_tail hp)⟩
  rw [hseqs (i + 1) p hp, Nat.sub_add_eq, Nat.sub_right_comm]

/-- What DISCARD leaves: nothing, or a DRAINING head one seq below the counter (R39). -/
theorem PostQueue.wf_discard (q : PostQueue) (h : q.wf = true) : q.discard.wf = true := by
  obtain ⟨-, hseqs, hstate⟩ := q.wf_iff.mp h
  cases hq : q.posts with
  | nil => simp [wf_iff, discard, hq]
  | cons p rest =>
    rw [hq] at hseqs hstate
    simp only [List.tail_cons] at hstate
    have hkept : rest.filter (fun x => x.state == .draining) = [] :=
      List.filter_eq_nil_iff.mpr fun x hx => by simp [hstate x hx]
    have hgone : rest.filter (fun x => x.state == .waiting) = rest :=
      List.filter_eq_self.mpr fun x hx => by simp [hstate x hx]
    cases hp : p.state with
    | waiting => simp [wf_iff, discard, hq, hp, hkept]
    | draining =>
      have hposts : q.discard.posts = [p] := by simp [discard, hq, hp, hkept]
      have hnext : q.discard.nextSeq = (rest.head?.map Post.seq).getD q.nextSeq := by
        simp [discard, waiting, hq, hp, hgone]
      have hseq : p.seq = q.discard.nextSeq - 1 := by
        rw [hnext]
        cases rest with
        | nil => exact hseqs 0 p rfl
        | cons x younger =>
          have h0 := hseqs 0 p rfl
          have h1 := hseqs 1 x rfl
          simp only [List.length_cons, Nat.sub_zero, Nat.add_sub_cancel] at h0 h1
          simp only [List.head?_cons, Option.map_some, Option.getD_some, h0, h1]
          generalize younger.length = n
          bv_omega
      rw [wf_iff, hposts]
      refine ⟨by simp, fun i x hx => ?_, by simp⟩
      obtain ⟨hi, hx⟩ := List.getElem?_eq_some_iff.mp hx
      obtain rfl : i = 0 := by simpa using hi
      subst hx
      exact hseq

/-- Every command keeps the Post Queue's form. -/
theorem exec_wf_pq (c : Instr) (s t : State) (hs : s.pq.wf = true) (h : exec c s = .next t) : t.pq.wf = true := by
  by_cases hpower : ∃ w1 w0 mcs hRst held, c = .powerOn w1 w0 mcs hRst held
  · obtain ⟨w1, w0, mcs, hRst, held, rfl⟩ := hpower
    exact (exec_powerOn_edits s t w1 w0 mcs hRst held h).wf_pq rfl
  by_cases hrewrite : ∃ item v, c = .regionRewrite item v
  · obtain ⟨item, v, rfl⟩ := hrewrite
    rcases exec_regionRewrite_cases s t item v h with ⟨-, hpq, -⟩ | ⟨-, hpq, -⟩
    all_goals exact hpq ▸ hs
  by_cases hrelease : ∃ p, c = .peerRelease p
  · obtain ⟨p, rfl⟩ := hrelease
    obtain ⟨u, -, hpq, -, hu⟩ := exec_peerRelease_edits s t p h
    exact hu.wf_pq (hpq ▸ hs)
  by_cases hdiscard : c = .discard
  · subst hdiscard
    rcases exec_discard_edits s t h with hu | ⟨u, -, hpq, -, -, hu⟩
    · exact hu.wf_pq hs
    · exact hu.wf_pq (hpq ▸ s.pq.wf_discard hs)
  simp only [not_exists] at hpower hrewrite hrelease
  rcases exec_editsOnce c s t h hpower hdiscard hrewrite fun p _ => hrelease p with hu | ⟨u, hsu, -, hu⟩
  · exact hu.wf_pq hs
  · exact hu.wf_pq (u.pq.wf_dropHead (hsu.wf_pq hs))

/-- Settles O55: edit by edit, with the head that leaves and the posts that DISCARD removes. -/
theorem stepKeepsQueueForm : Obligations.StepKeepsQueueForm := by
  intro s t hs h
  rcases step_cases s t h with rfl | ⟨c, rest, -, hexec⟩
  · exact hs
  · exact exec_wf_pq c { s with pending := rest } t hs hexec

end Sys2Proof.Machine
end

section
/-! The KEEP regions of the lines, edit by edit, and through a rewrite of the map. -/

namespace Sys2Proof.Machine

/-- Every VALID line lies in a block that passes the keep check, and so does the block of the fill while STALE is clear;
the fill's line holds the fill's block (R16, R45). -/
structure LineStore.Kept (map : RegionMap) (l : LineStore) : Prop where
  valid : ∀ i w, (l.line i w).state = .valid → map.keepCheck (l.line i w).block = true
  fill : ∀ f, l.fill = some f → f.stale = false → map.keepCheck f.block = true
  block : ∀ f, l.fill = some f → (l.line f.set f.way).block = f.block

theorem State.linesKept_iff (s : State) :
    s.linesKept = true ↔
      (∀ i w, (s.ls.line i w).state = .valid → s.rmap.keepCheck (s.ls.line i w).block = true) ∧
      ∀ f, s.ls.fill = some f → f.stale = false → s.rmap.keepCheck f.block = true := by
  simp only [linesKept, Bool.and_eq_true, List.all_eq_true, List.mem_finRange, true_implies, Bool.or_eq_true,
    bne_iff_ne, ne_eq, Option.all_eq_true, or_iff_not_imp_left, not_not, Bool.eq_false_iff]

theorem LineStore.Kept.of_linesKept (s : State) (hwf : s.ls.wf = true) (h : s.linesKept = true) :
    s.ls.Kept s.rmap := by
  obtain ⟨hvalid, hfill⟩ := s.linesKept_iff.mp h
  refine ⟨hvalid, hfill, fun f hf => ?_⟩
  simp only [LineStore.wf, hf, Bool.and_eq_true, beq_iff_eq] at hwf
  exact hwf.2.1

theorem State.linesKept_of_kept (s : State) (h : s.ls.Kept s.rmap) : s.linesKept = true :=
  s.linesKept_iff.mpr ⟨h.valid, h.fill⟩

/-! ## Edit by edit -/

/-- A change of data or of flags alone: no line becomes VALID and no fill less STALE. -/
theorem LineStore.Kept.of_same {map : RegionMap} {l l' : LineStore} (h : l.Kept map)
    (hblock : ∀ i w, (l'.line i w).block = (l.line i w).block)
    (hstate : ∀ i w, (l'.line i w).state = .valid → (l.line i w).state = .valid)
    (hfill : ∀ f', l'.fill = some f' → ∃ f, l.fill = some f ∧ f'.set = f.set ∧ f'.way = f.way ∧ f'.block = f.block ∧
      (f'.stale = false → f.stale = false)) : l'.Kept map where
  valid i w hv := hblock i w ▸ h.valid i w (hstate i w hv)
  fill f' hf' hs := by
    obtain ⟨f, hf, -, -, hb, hstale⟩ := hfill f' hf'
    exact hb ▸ h.fill f hf (hstale hs)
  block f' hf' := by
    obtain ⟨f, hf, hset, hway, hb, -⟩ := hfill f' hf'
    rw [hblock, hset, hway, hb]
    exact h.block f hf

theorem LineStore.kept_writeUpdate {map : RegionMap} {l : LineStore} (h : l.Kept map) (b : Block) (m : Mask)
    (d : BlockData) : (l.writeUpdate b m d).Kept map := by
  cases hfind : l.find b with
  | none => rwa [l.writeUpdate_of_find_none b m d hfind]
  | some w =>
    have hline := l.line_writeUpdate b m d w hfind
    refine h.of_same (fun i v => ?_) (fun i v hv => ?_) fun f' hf' => ?_
    · rw [hline]
      split <;> rfl
    · rw [hline] at hv
      split at hv <;> exact hv
    · rw [l.writeUpdate_of_find b m d w hfind] at hf'
      dsimp only at hf'
      split at hf'
      · obtain ⟨f, hf, rfl⟩ := Option.map_eq_some_iff.mp hf'
        exact ⟨f, hf, rfl, rfl, rfl, id⟩
      · exact ⟨f', hf', rfl, rfl, rfl, id⟩

theorem LineStore.kept_invalidateWhere {map : RegionMap} {l : LineStore} (h : l.Kept map) (p : Block → Bool) :
    (l.invalidateWhere p).Kept map := by
  refine h.of_same (fun i v => ?_) (fun i v hv => ?_) fun f' hf' => ?_
  · rw [l.line_invalidateWhere]
    split <;> rfl
  · rw [l.line_invalidateWhere] at hv
    split at hv
    · cases hv
    · exact hv
  · obtain ⟨f, hf, rfl⟩ := Option.map_eq_some_iff.mp hf'
    refine ⟨f, hf, ?_⟩
    split <;> simp

theorem LineStore.kept_allocate {map : RegionMap} {l : LineStore} (h : l.Kept map) (b : Block) (first count : Nat)
    (keep : map.keepCheck b = true) : (l.allocate b first count).Kept map where
  valid i w hv := by
    rw [l.line_allocate] at hv ⊢
    split at hv
    · cases hv
    · exact if_neg ‹_› ▸ h.valid i w hv
  fill f hf _ := by
    obtain rfl := Option.some.inj hf
    exact keep
  block f hf := by
    obtain rfl := Option.some.inj hf
    rw [l.line_allocate, if_pos ⟨rfl, rfl⟩]

theorem LineStore.kept_deliver {map : RegionMap} {l : LineStore} (h : l.Kept map) (m : Mask) (d : BlockData) :
    (l.deliver m d).Kept map := by
  cases hfill : l.fill with
  | none => simpa only [deliver, hfill] using h
  | some f =>
    have hline (i : Fin 8) (w : Fin 4) : (l.deliver m d).line i w =
        if i = f.set ∧ w = f.way then
          { l.line i w with data := overlay (m &&& ~~~f.written) d (l.line i w).data } else l.line i w := by
      simp only [deliver, hfill, line_withFill]
      exact l.line_setLine_map f.set i f.way w fun x => { x with data := overlay (m &&& ~~~f.written) d x.data }
    refine h.of_same (fun i v => ?_) (fun i v hv => ?_) fun f' hf' => ⟨f, hfill, ?_⟩
    · rw [hline]
      split <;> rfl
    · rw [hline] at hv
      split at hv <;> exact hv
    · simp only [deliver, hfill, Option.some.injEq] at hf'
      subst hf'
      exact ⟨rfl, rfl, rfl, id⟩

/-- A flag of the fill context. -/
theorem LineStore.kept_flag {map : RegionMap} {l : LineStore} (h : l.Kept map) (g : FillContext → FillContext)
    (hg : ∀ f, (g f).set = f.set ∧ (g f).way = f.way ∧ (g f).block = f.block ∧ (g f).stale = f.stale) :
    LineStore.Kept map { l with fill := l.fill.map g } := by
  refine h.of_same (fun _ _ => rfl) (fun _ _ => id) fun f' hf' => ?_
  obtain ⟨f, hf, rfl⟩ := Option.map_eq_some_iff.mp hf'
  obtain ⟨hset, hway, hblock, hstale⟩ := hg f
  exact ⟨f, hf, hset, hway, hblock, fun h => hstale ▸ h⟩

/-- The end of a fill: its line is VALID only where the fill's block passes the keep check (R16, R60). -/
theorem LineStore.kept_endFill {map : RegionMap} {l : LineStore} (h : l.Kept map) (valid : Bool)
    (hv : ∀ f, l.fill = some f → valid = true → f.stale = false) : (l.endFill valid).Kept map := by
  cases hfill : l.fill with
  | none => simpa only [endFill, hfill] using h
  | some f =>
    have hnone : (l.endFill valid).fill = none := by rw [l.endFill_of_fill f valid hfill]
    refine ⟨fun i w hstate => ?_, fun g hg => ?_, fun g hg => ?_⟩
    · rw [l.line_endFill f valid i w hfill] at hstate ⊢
      split at hstate
      · rename_i hline
        obtain ⟨rfl, rfl⟩ := hline
        cases valid with
        | false => cases hstate
        | true =>
          rw [if_pos ⟨rfl, rfl⟩]
          exact (h.block f hfill).symm ▸ h.fill f hfill (hv f hfill rfl)
      · exact if_neg ‹_› ▸ h.valid i w hstate
    all_goals
      rw [hnone] at hg
      cases hg

/-- A restart clears STALE only behind a passed keep check (R69). -/
theorem LineStore.kept_restart {map : RegionMap} {l : LineStore} (h : l.Kept map) (f : FillContext)
    (hfill : l.fill = some f) : (l.restart (map.keepCheck f.block)).Kept map := by
  have hafter : (l.restart (map.keepCheck f.block)).fill =
      some { f with arrived := 0, veto := false, stale := f.stale && !map.keepCheck f.block } := by
    simp [restart, hfill]
  refine ⟨h.valid, fun g hg hs => ?_, fun g hg => ?_⟩ <;> obtain rfl := Option.some.inj (hafter.symm.trans hg)
  · cases hk : map.keepCheck f.block with
    | true => rfl
    | false =>
      rw [hk, Bool.not_false, Bool.and_true] at hs
      exact hk.symm.trans (h.fill f hfill hs)
  · exact h.block f hfill

/-- The lines at power-on are INVALID (R48). -/
theorem LineStore.line_powerOn (i : Fin 8) (w : Fin 4) : LineStore.powerOn.line i w = Line.powerOn := by
  simp [line, powerOn, LineSet.powerOn]

theorem LineStore.kept_powerOn (map : RegionMap) : LineStore.powerOn.Kept map where
  valid i w hv := by
    rw [line_powerOn] at hv
    cases hv
  fill f hf := nomatch hf
  block f hf := nomatch hf

theorem LineStore.Edit.kept {map : RegionMap} {l l' : LineStore} (e : LineStore.Edit map l l') (h : l.Kept map) :
    l'.Kept map := by
  cases e with
  | touch i w => exact h.of_same (fun _ _ => by simp) (fun _ _ => by simp) fun f hf => ⟨f, hf, rfl, rfl, rfl, id⟩
  | writeUpdate b m d => exact kept_writeUpdate h b m d
  | invalidateWhere p => exact kept_invalidateWhere h p
  | allocate b first count keep => exact kept_allocate h b first count keep
  | deliver m d => exact kept_deliver h m d
  | veto => exact kept_flag h _ fun f => ⟨rfl, rfl, rfl, rfl⟩
  | answered => exact kept_flag h _ fun f => ⟨rfl, rfl, rfl, rfl⟩
  | drop => exact kept_endFill h false fun _ _ hv => nomatch hv
  | complete f hfill fresh =>
    refine kept_endFill h true fun g hg _ => ?_
    rw [hfill] at hg
    exact Option.some.inj hg ▸ fresh
  | restart f hfill => exact kept_restart h f hfill
  | empty => exact kept_powerOn map

theorem State.Edits.kept {s t : State} (e : s.Edits t) (h : s.ls.Kept s.rmap) : t.ls.Kept t.rmap := by
  have run {l : LineStore} (hl : Relation.ReflTransGen (LineStore.Edit s.rmap) s.ls l) : l.Kept s.rmap := by
    induction hl with
    | refl => exact h
    | tail _ e ih => exact e.kept ih
  exact e.rmap ▸ run e.lines

/-! ## A rewrite of the map -/

/-- Outside the invalidation range of a rewrite a block is governed as before (R12). -/
theorem RegionMap.keepCheck_rewrite (m : RegionMap) (item : Byte) (v : BitVec 40) (b : Block)
    (h : inInvalidationRange item m (m.rewrite item v) b = false) : (m.rewrite item v).keepCheck b = m.keepCheck b := by
  suffices hlookup : (m.rewrite item v).lookup (blockAddr b) = m.lookup (blockAddr b) by
    rw [keepCheck, keepCheck, hlookup]
  cases hw : itemWidth v with
  | none => simp only [rewrite, hw]
  | some w =>
    cases hn : entryNumber item with
    | none =>
      have hmap : m.rewrite item v = { m with d := ⟨w, attrsOfItem v⟩ } := by simp only [rewrite, hw, hn]
      rw [hmap] at h ⊢
      simp only [inInvalidationRange, hn] at h
      obtain ⟨i, hi⟩ := Option.isSome_iff_exists.mp (Option.isNone_eq_false_iff.mp h)
      have hi' : m.governing (blockAddr b) = some i := hi
      simp only [lookup, hi, hi']
    | some i =>
      have hmap : m.rewrite item v = { m with entries := m.entries.set i (entryOfItem v w) } := by
        simp only [rewrite, hw, hn]
      rw [hmap] at h ⊢
      simp only [inInvalidationRange, hn, Bool.or_eq_false_iff] at h
      obtain ⟨hold, hnew⟩ := h
      have hother (j : Fin 16) (hj : j ≠ i) : (m.entries.set i (entryOfItem v w))[j] = m.entries[j] := by
        simp [Fin.val_ne_of_ne hj.symm]
      have hcovers (j : Fin 16) :
          (m.entries.set i (entryOfItem v w))[j].covers (blockAddr b) = m.entries[j].covers (blockAddr b) := by
        by_cases hj : j = i
        · rw [hj, hold, hnew]
        · rw [hother j hj]
      have hgov : RegionMap.governing { m with entries := m.entries.set i (entryOfItem v w) } (blockAddr b) =
          m.governing (blockAddr b) := by
        simp only [governing, hcovers]
      cases hg : m.governing (blockAddr b) with
      | none => simp only [lookup, hgov, hg]
      | some j =>
        have hj : j ≠ i := by
          rintro rfl
          have hcov := List.find?_some hg
          rw [hold] at hcov
          cases hcov
        simp only [lookup, hgov, hg, hother j hj]

/-- A rewrite invalidates every line whose block it may take from its KEEP region (R12, R14). -/
theorem LineStore.kept_rewrite {l : LineStore} (m : RegionMap) (item : Byte) (v : BitVec 40) (h : l.Kept m) :
    (l.invalidateWhere (inInvalidationRange item m (m.rewrite item v))).Kept (m.rewrite item v) := by
  have hkept := kept_invalidateWhere h (inInvalidationRange item m (m.rewrite item v))
  refine ⟨fun i w hv => ?_, fun f hf hs => ?_, hkept.block⟩
  · have hblock := hkept.valid i w hv
    rw [l.line_invalidateWhere] at hv hblock ⊢
    split at hv
    · cases hv
    · rename_i hout
      rw [if_neg hout] at hblock ⊢
      rw [m.keepCheck_rewrite item v _ (by simpa [hv] using hout)]
      exact hblock
  · have hblock := hkept.fill f hf hs
    obtain ⟨g, -, rfl⟩ := Option.map_eq_some_iff.mp hf
    split at hs
    · cases hs
    · rename_i hout
      rw [if_neg hout] at hblock ⊢
      rw [m.keepCheck_rewrite item v _ ((Bool.not_eq_true _).mp hout)]
      exact hblock

/-! ## Every command -/

/-- Every command keeps the lines in KEEP regions. -/
theorem exec_kept (c : Instr) (s t : State) (hs : s.ls.Kept s.rmap) (h : exec c s = .next t) : t.ls.Kept t.rmap := by
  by_cases hpower : ∃ w1 w0 mcs hRst held, c = .powerOn w1 w0 mcs hRst held
  · obtain ⟨w1, w0, mcs, hRst, held, rfl⟩ := hpower
    exact (exec_powerOn_edits s t w1 w0 mcs hRst held h).kept (LineStore.kept_powerOn _)
  by_cases hrewrite : ∃ item v, c = .regionRewrite item v
  · obtain ⟨item, v, rfl⟩ := hrewrite
    rcases exec_regionRewrite_cases s t item v h with ⟨hmap, -, hls, -⟩ | ⟨hmap, -, -, hls⟩
    · rwa [hmap, hls]
    · rw [hmap, hls]
      exact LineStore.kept_rewrite s.rmap item v hs
  by_cases hrelease : ∃ p, c = .peerRelease p
  · obtain ⟨p, rfl⟩ := hrelease
    obtain ⟨u, hmap, -, hls, hu⟩ := exec_peerRelease_edits s t p h
    exact hu.kept (by rwa [hmap, hls])
  by_cases hdiscard : c = .discard
  · subst hdiscard
    rcases exec_discard_edits s t h with hu | ⟨u, hmap, -, -, ⟨p, hls⟩, hu⟩
    · exact hu.kept hs
    · exact hu.kept (by rw [hmap, hls]; exact LineStore.kept_invalidateWhere hs p)
  simp only [not_exists] at hpower hrewrite hrelease
  rcases exec_editsOnce c s t h hpower hdiscard hrewrite fun p _ => hrelease p with hu | ⟨u, hsu, -, hu⟩
  · exact hu.kept hs
  · exact hu.kept (hsu.kept hs)

/-- Settles O59: edit by edit, with the rewrite of the map; of the invariant it needs the form of the Line Store. -/
theorem stepKeepsLinesInKeepRegions : Obligations.StepKeepsLinesInKeepRegions := by
  intro s t hinv hkept h
  rcases step_cases s t h with rfl | ⟨c, rest, -, hexec⟩
  · exact hkept
  · have hwf : s.ls.wf = true := by
      simp only [State.inv, Bool.and_eq_true] at hinv
      tauto
    exact t.linesKept_of_kept (exec_kept c { s with pending := rest } t (.of_linesKept s hwf hkept) hexec)

end Sys2Proof.Machine
end

section
/-! The map, the items, the clock count, the link and the waiting commands: which command changes which, and to what. -/

namespace Sys2Proof.Machine

/-! ## SET frames -/

/-- The value that an accepted SET gives its item: HALT_ON_DEFERRED takes a flag, the enables the low three bits
(R178). -/
def itemOf (item : Byte) (v : BitVec 16) : Nat :=
  if item = Config.itemHaltOnDeferred then (v != 0).toNat
  else if item = Config.itemInterruptEnables then (bitsOfByte (v.extractLsb' 0 8)).byte.toNat
  else v.toNat

/-- A two-byte item is one of the thirteen of Table 10-4. -/
theorem isPlainItem_iff (item : Byte) : isPlainItem item = true ↔ ∃ i : Fin 13, item = BitVec.ofNat 8 (0x20 + i.val) := by
  simp only [isPlainItem, Bool.and_eq_true, decide_eq_true_eq]
  constructor
  · rintro ⟨hlow, hhigh⟩
    exact ⟨⟨item.toNat - 0x20, by omega⟩, by bv_omega⟩
  · rintro ⟨i, rfl⟩
    have := i.isLt
    simp only [BitVec.toNat_ofNat]
    omega

/-- A two-byte item is no region item. -/
theorem isRegionItem_of_plain (item : Byte) (h : isPlainItem item = true) : isRegionItem item = false := by
  simp only [isPlainItem, isRegionItem, Bool.and_eq_true, decide_eq_true_eq, decide_eq_false_iff_not] at h ⊢
  omega

/-- The SET frame of an item that is no two-byte item does not carry a value (Table 10-2, R176). -/
theorem parse_setInput_of_not_plain (item : Byte) (v : BitVec 16) (h : isPlainItem item = false) :
    Frame.parse (setInput item v) = none ∨ Frame.parse (setInput item v) = some (.setRefused item) := by
  have hparse : Frame.parse (setInput item v) = parseSet item [v.extractLsb' 8 8, v.extractLsb' 0 8] := rfl
  rw [hparse]
  cases hr : isRegionItem item with
  | true => exact .inl (by simp [parseSet, hr])
  | false => exact .inr (by simp [parseSet, hr, h])

/-- A SET of an item with no row of Table 10-4 does nothing. -/
theorem State.setItem_of_not_plain (s : State) (item : Byte) (v : BitVec 16) (h : isPlainItem item = false) :
    s.setItem item v = s := by
  have hne (i : Byte) (hi : isPlainItem i = true) : item ≠ i := by
    rintro rfl
    rw [h] at hi
    cases hi
  simp (disch := decide) only [setItem, hne, if_false]

/-- The frame of a SET command is of a two-byte item, and the command completes it with the item's effect (R178). -/
theorem exec_set (c : Instr) (item : Byte) (v : BitVec 16) (s : State) (h : c.frame = some (.set item v)) :
    isPlainItem item = true ∧
      exec c s = .next (s.begin.completeFrame (.set item v) fun t => t.setItem item v) := by
  have complete (e : State → State) (hp : isPlainItem item = true) :
      s.begin.completeInput (setInput item v) e = s.begin.completeFrame (.set item v) e :=
    State.completeInput_of_parse _ _ _ _ (parse_setInput item v (isRegionItem_of_plain item hp) hp)
  cases c
  case set item' v' =>
    cases hp : isPlainItem item' with
    | false => rcases parse_setInput_of_not_plain item' v' hp with hnone | hnone <;> simp [Instr.frame, hnone] at h
    | true =>
      have hparse := parse_setInput item' v' (isRegionItem_of_plain item' hp) hp
      simp only [Instr.frame, hparse, Option.some.injEq, Frame.set.injEq] at h
      obtain ⟨rfl, rfl⟩ := h
      exact ⟨hp, congrArg _ (complete _ hp)⟩
  case setPeerLevel p v' =>
    simp only [Instr.frame, Option.some.injEq, Frame.set.injEq] at h
    obtain ⟨rfl, rfl⟩ := h
    cases p <;> exact ⟨by decide, congrArg _ (complete _ (by decide))⟩
  case regionRewrite | badCommand =>
    simp only [Instr.frame] at h
    split at h <;> simp at h
  case setPrescaler | setHighWaterMark | setBaseLevel | setInterruptEnables =>
    simp only [Instr.frame, Option.some.injEq, Frame.set.injEq] at h
    obtain ⟨rfl, rfl⟩ := h
    exact ⟨by decide, congrArg _ (complete _ (by decide))⟩
  all_goals simp [Instr.frame] at h

/-! ## What the shared operations keep -/

/-- The map, the items, the Timebase and the waiting commands. -/
def State.config (s : State) := (s.rmap, s.items, s.tb, s.pending)

theorem State.config_of_fixed {s t : State} (h : t.fixed = s.fixed) : t.config = s.config := by
  simp only [fixed, Prod.mk.injEq] at h
  obtain ⟨hmap, htb, -, hpending, -, hlock, hbeat, hretry, hhigh, hhalt, hpeers, hbase, htenure, hyield, henables⟩ := h
  simp only [config, items, hmap, htb, hpending, hlock, hbeat, hretry, hhigh, hhalt, hpeers, hbase, htenure, hyield,
    henables]

theorem State.Keeps.config {s t : State} (h : s.Keeps t) : t.config = s.config := config_of_fixed h.fixed

theorem State.Keeps.link {s t : State} (h : s.Keeps t) : t.link = s.link := congrArg (·.2.2.1) h.fixed

/-- An accepted SET of a level: the item, then the end of the step (R131). -/
theorem State.setPeerLevelItem_keeps (s : State) (p : Peer) (v : Nat) :
    State.Keeps { s with oar := { s.oar with peers := s.oar.peers.put p { s.oar.peers.get p with level := v } } }
      (s.setPeerLevelItem p v) := keeps_finish _

/-- An accepted SET replaces its own item, and the Timebase only by the prescaler, with the count returned to 0. -/
theorem State.setItem_config (s : State) (i : Fin 13) (v : BitVec 16) :
    let t := s.setItem (BitVec.ofNat 8 (0x20 + i.val)) v
    t.rmap = s.rmap ∧ t.items = s.items.set i.val (itemOf (BitVec.ofNat 8 (0x20 + i.val)) v) ∧
      (t.tb = s.tb ∨ t.tb.count = 0) ∧ t.pending = s.pending ∧ t.link = s.link := by
  have level (p : Peer) :
      let t := s.setPeerLevelItem p v.toNat
      t.rmap = s.rmap ∧ t.items = s.items.set (8 + peerIndex p) v.toNat ∧ (t.tb = s.tb ∨ t.tb.count = 0) ∧
        t.pending = s.pending ∧ t.link = s.link := by
    have hkeeps := s.setPeerLevelItem_keeps p v.toNat
    have hconfig := hkeeps.config
    simp only [config, Prod.mk.injEq] at hconfig
    obtain ⟨hmap, hitems, htb, hpending⟩ := hconfig
    refine ⟨hmap, hitems.trans ?_, .inl htb, hpending, hkeeps.link⟩
    cases p <;> rfl
  fin_cases i
  · exact ⟨rfl, rfl, .inr rfl, rfl, rfl⟩
  iterate 7 exact ⟨rfl, rfl, .inl rfl, rfl, rfl⟩
  · exact level .p0
  · exact level .p1
  · exact level .p2
  all_goals exact ⟨rfl, rfl, .inl rfl, rfl, rfl⟩

end Sys2Proof.Machine
end

section
/-! Every command on the map, the items, the clock count, the link and the waiting commands. -/

namespace Sys2Proof.Machine

/-! ## The link -/

/-- Each frame answered OK at its answer point is accepted (R176). -/
theorem State.accepted_settleFrame (s : State) (f : Frame) : f.accepted (s.settleFrame f).1 = true := by
  cases f with
  | set item v =>
    cases hv : itemRange item v.toNat <;> simp [settleFrame, hv, Frame.accepted]
  | setRegion item v =>
    cases hv : regionAccepts item v <;> simp [settleFrame, hv, Frame.accepted]
  | _ => rfl

/-- A rising edge keeps the link's form (Table 10-1, R174). -/
theorem State.clockBit_link_wf (s : State) (b : Bool) (h : s.link.wf = true) : (s.clockBit b).link.wf = true := by
  cases hl : s.link with
  | receiving got =>
    rw [s.clockBit_receiving got b hl]
    cases hp : Frame.parse (bytesOf (got ++ [b])) with
    | none => simp [Link.wf, hp]
    | some f => simp [Link.wf, s.accepted_settleFrame f]
  | answering f st d n =>
    rw [s.clockBit_other b (by simp [hl]), hl]
    simp only [hl, Link.wf, Bool.and_eq_true] at h
    simp only [Link.sendBit_answering]
    split
    · simp [Link.wf, h.1, *]
    · exact h.1
  | idle | blocked | done =>
    rw [s.clockBit_other b (by simp [hl])]
    show s.link.sendBit.wf = true
    rw [hl] at h ⊢
    exact h

theorem State.clockIn_link_wf (s : State) (input : List Bool) (h : s.link.wf = true) :
    (s.clockIn input).link.wf = true := by
  have fold (t : State) (ht : t.link.wf = true) : (input.foldl State.clockBit t).link.wf = true := by
    induction input generalizing t with
    | nil => exact ht
    | cons b rest ih => exact ih _ (t.clockBit_link_wf b ht)
  refine fold _ ?_
  cases hl : s.link <;> simp only [hl, Link.assertMcs] at h ⊢
  case idle => rfl
  all_goals exact h

/-- A frame that completes with status OK carries a value that its item accepts (R176). -/
theorem State.accepted_of_frameAnswer (s : State) (f : Frame) (d : List Byte) (hl : s.link.wf = true)
    (h : s.frameAnswer f = some (.ok, d)) : f.accepted .ok = true := by
  have hsettle := s.accepted_settleFrame f
  unfold frameAnswer at h
  split at h
  · rw [Option.some.inj h] at hsettle
    exact hsettle
  · split at h
    · rw [Option.some.inj h] at hsettle
      exact hsettle
    · cases h
  · rename_i hlink
    split at h
    · obtain ⟨rfl, rfl⟩ := Prod.mk.inj (Option.some.inj h)
      simp_all [Link.wf]
    · cases h
  · rename_i hlink
    split at h
    · obtain ⟨rfl, rfl⟩ := Prod.mk.inj (Option.some.inj h)
      simp_all [Link.wf]
    · cases h
  · cases h

/-! ## The commands -/

/-- What a command but POWER_ON does to the map, the items, the clock count, the link and the waiting commands: of the
items only its own, by an accepted SET; of the map only a region, by an accepted rewrite. -/
structure State.Configures (c : Instr) (s t : State) : Prop where
  pending : t.pending = s.pending
  clock : t.tb = s.tb ∨ t.tb.count = 0 ∨ t.tb.count < t.tb.prescaler
  link : s.link.wf = true → t.link.wf = true
  items : t.rmap = s.rmap ∧ t.items = s.items ∨
    (∃ item v d, c = .regionRewrite item v ∧ isRegionItem item = true ∧
      s.frameAnswer (.setRegion item v) = some (.ok, d) ∧ t.rmap = s.rmap.rewrite item v ∧ t.items = s.items) ∨
    ∃ (i : Fin 13) (v : BitVec 16) (d : List Byte), c.frame = some (.set (BitVec.ofNat 8 (0x20 + i.val)) v) ∧
      s.frameAnswer (.set (BitVec.ofNat 8 (0x20 + i.val)) v) = some (.ok, d) ∧ t.rmap = s.rmap ∧
      t.items = s.items.set i.val (itemOf (BitVec.ofNat 8 (0x20 + i.val)) v)

/-- A command that changes none of them, or leaves the link IDLE. -/
theorem State.Configures.of_config {c : Instr} {s t : State} (h : t.config = s.config)
    (hl : t.link = s.link ∨ t.link = .idle) : Configures c s t := by
  simp only [config, Prod.mk.injEq] at h
  obtain ⟨hmap, hitems, htb, hpending⟩ := h
  refine ⟨hpending, .inl htb, fun hwf => ?_, .inl ⟨hmap, hitems⟩⟩
  rcases hl with hl | hl
  · exact hl ▸ hwf
  · exact hl ▸ rfl

/-- An operation of the part, after an update that changes none of them. -/
theorem State.Configures.of_keeps {c : Instr} {s u t : State} (h : u.Keeps t) (hu : u.config = s.config)
    (hl : u.link = s.link) : Configures c s t :=
  .of_config (h.config.trans hu) (.inl (h.link.trans hl))

/-- A completed frame whose effect changes none of them. -/
theorem State.configures_completeFrame (c : Instr) (s : State) (f : Frame) (e : State → State)
    (he : ∀ t : State, (e t).config = t.config ∧ (e t).link = t.link) :
    Configures c s (s.begin.completeFrame f e) :=
  s.completeFrame_cases f e (.of_config rfl (.inl rfl)) (fun _ _ => .of_config rfl (.inr rfl)) fun _ _ =>
    .of_config (he _).1 (.inr (he _).2)

theorem State.configures_completeInput (c : Instr) (s : State) (input : List Byte) (e : State → State)
    (he : ∀ t : State, (e t).config = t.config ∧ (e t).link = t.link) :
    Configures c s (s.begin.completeInput input e) := by
  unfold completeInput
  split
  · exact s.configures_completeFrame c _ e he
  · exact .of_config rfl (.inl rfl)

theorem State.Keeps.both {s u t : State} (h : u.Keeps t) (hu : u.config = s.config) (hl : u.link = s.link) :
    t.config = s.config ∧ t.link = s.link :=
  ⟨h.config.trans hu, h.link.trans hl⟩

theorem State.configures_tick (c : Instr) (s : State) : Configures c s s.begin.makeTick :=
  ⟨rfl, .inr (.inl rfl), id, .inl ⟨rfl, rfl⟩⟩

theorem State.configures_beatExpires (c : Instr) (s : State) : Configures c s s.begin.beatExpires := by
  unfold beatExpires
  repeat' split
  · exact .of_keeps (.comp (keeps_finish _) (keeps_failBeat ..)) rfl rfl
  all_goals exact .of_config rfl (.inl rfl)

theorem State.configures_lockExpires (c : Instr) (s : State) : Configures c s s.begin.lockExpires := by
  unfold lockExpires
  repeat' split
  · exact .of_keeps (.comp (keeps_finish _) (.comp (keeps_dropLock _) (keeps_record ..))) rfl rfl
  all_goals exact .of_config rfl (.inl rfl)

theorem State.configures_tenureExpires (c : Instr) (s : State) : Configures c s s.begin.tenureExpires := by
  unfold tenureExpires
  repeat' split
  all_goals exact .of_config rfl (.inl rfl)

/-- A change of the arbiter that leaves its items: the levels, the base level, the tenure and the yield. -/
theorem State.config_oar (s : State) (a : Arbiter) (hlevel : ∀ p, (a.peers.get p).level = (s.oar.peers.get p).level)
    (hrest : (a.baseLevel, a.tenure, a.yield) = (s.oar.baseLevel, s.oar.tenure, s.oar.yield)) :
    State.config { s with oar := a } = s.config := by
  simp only [Prod.mk.injEq] at hrest
  obtain ⟨hbase, htenure, hyield⟩ := hrest
  have h0 : a.peers.p0.level = s.oar.peers.p0.level := hlevel .p0
  have h1 : a.peers.p1.level = s.oar.peers.p1.level := hlevel .p1
  have h2 : a.peers.p2.level = s.oar.peers.p2.level := hlevel .p2
  simp only [config, items, h0, h1, h2, hbase, htenure, hyield]

/-- A peer's line in another state, at the same level. -/
theorem Peers.level_put (ps : Peers) (p q : Peer) (x : PeerLine) (h : x.level = (ps.get p).level) :
    ((ps.put p x).get q).level = (ps.get q).level := by
  rw [Peers.get_put]
  split
  · rename_i hpq
    exact hpq ▸ h
  · rfl

theorem State.configures_yieldExpires (c : Instr) (s : State) : Configures c s s.begin.yieldExpires := by
  unfold yieldExpires
  repeat' split
  · rename_i p _ _
    have hbar : State.config { s.begin with oar := s.oar.bar p } = s.config :=
      config_oar s.begin _ (fun q => s.oar.peers.level_put p q _ rfl) rfl
    exact .of_keeps (keeps_record ..) hbar rfl
  all_goals exact .of_config rfl (.inl rfl)

theorem State.configures_snoop (c : Instr) (s : State) (p : Peer) (ph : AddressPhase) :
    Configures c s (s.begin.snoop p ph) := by
  have hretry : State.config { s.begin with oar := s.oar.snoopRetry p } = s.config := by
    unfold Arbiter.snoopRetry
    split <;> rfl
  have hoblige (t : State) (x : Post) : (t.oblige x).config = t.config ∧ (t.oblige x).link = t.link := by
    unfold oblige
    repeat' split
    all_goals exact ⟨rfl, rfl⟩
  unfold snoop
  repeat' split
  · exact .of_config rfl (.inl rfl)
  · exact .of_config rfl (.inl rfl)
  · exact .of_config ((hoblige _ _).1.trans hretry) (.inl (hoblige _ _).2)
  · have hpass (u : State) (h : s.begin.Keeps u) : Configures c s (u.passPeer ph) :=
      .of_config h.config (.inl h.link)
    exact hpass _ (keeps_record ..)

/-- An accepted SET, or a SET frame without effect. -/
theorem State.configures_set (c : Instr) (s : State) (item : Byte) (v : BitVec 16) (hp : isPlainItem item = true)
    (hc : c.frame = some (.set item v)) :
    Configures c s (s.begin.completeFrame (.set item v) fun t => t.setItem item v) := by
  obtain ⟨i, rfl⟩ := (isPlainItem_iff item).mp hp
  refine s.completeFrame_cases _ _ (.of_config rfl (.inl rfl)) (fun _ _ => .of_config rfl (.inr rfl)) fun d hd => ?_
  obtain ⟨hmap, hitems, htb, hpending, hlink⟩ := (s.framed .ok d).setItem_config i v
  refine ⟨hpending, ?_, fun _ => ?_, .inr (.inr ⟨i, v, d, hc, hd, hmap, hitems⟩)⟩
  · rcases htb with htb | htb
    · exact .inl htb
    · exact .inr (.inl htb)
  · rw [hlink]
    rfl

/-- Every command but POWER_ON. -/
theorem exec_configures (c : Instr) (s t : State) (h : exec c s = .next t)
    (hpower : ∀ w1 w0 mcs hRst held, c ≠ .powerOn w1 w0 mcs hRst held) : State.Configures c s t := by
  by_cases hset : ∃ item v, c.frame = some (.set item v)
  · obtain ⟨item, v, hc⟩ := hset
    obtain ⟨hp, hexec⟩ := exec_set c item v s hc
    obtain rfl := Host.Outcome.next.inj (hexec.symm.trans h)
    exact s.configures_set c item v hp hc
  simp only [not_exists] at hset
  cases c
  all_goals obtain rfl := Host.Outcome.next.inj h
  case powerOn => exact absurd rfl (hpower _ _ _ _ _)
  case hostReset => exact .of_keeps (State.keeps_finish _) rfl rfl
  case read | read16 | write | lockRead | lockWrite => exact .of_keeps (s.begin.keeps_present _) rfl rfl
  case mAck | mRetry | mFail => exact .of_keeps (s.begin.keeps_terminate _) rfl rfl
  case beatTimeout => exact s.configures_beatExpires _
  case tick => exact s.configures_tick _
  case hostClock =>
    split
    · exact ⟨rfl, .inr (.inr ‹_›), id, .inl ⟨rfl, rfl⟩⟩
    · exact s.configures_tick _
  case lockHoldExpiry => exact s.configures_lockExpires _
  case tenureExpiry => exact s.configures_tenureExpires _
  case yieldExpiry => exact s.configures_yieldExpires _
  case peerRequest p =>
    have hreq : State.config { s.begin with oar := s.oar.setReq p true } = s.config :=
      s.begin.config_oar _ (fun q => s.oar.peers.level_put p q _ rfl) rfl
    exact .of_keeps (State.keeps_finish _) hreq rfl
  case peerRelease p =>
    have hreq : State.config { s.begin with oar := s.oar.setReq p false } = s.config :=
      s.begin.config_oar _ (fun q => s.oar.peers.level_put p q _ rfl) rfl
    split
    · exact .of_keeps (State.keeps_finish _) hreq rfl
    · exact .of_keeps (State.keeps_finish _) hreq rfl
  case peerAddressPhase =>
    split
    · exact s.configures_snoop _ _ _
    · exact .of_config rfl (.inl rfl)
  case hostResetNegation => exact .of_keeps (State.keeps_takePresented _) rfl rfl
  case frameCutShort | mcsNegatedInBlocked =>
    split
    all_goals first
      | exact .of_config rfl (.inr rfl)
      | exact .of_config rfl (.inl rfl)
  case answerPoint input =>
    obtain ⟨l, hl⟩ := s.begin.clockIn_eq input
    have hwf := s.begin.clockIn_link_wf input
    rw [hl] at hwf ⊢
    exact ⟨rfl, .inl rfl, hwf, .inl ⟨rfl, rfl⟩⟩
  case set item v =>
    cases hp : isPlainItem item with
    | true => exact absurd (parse_setInput item v (isRegionItem_of_plain item hp) hp) (hset item v)
    | false =>
      refine s.configures_completeInput _ _ _ fun t => ?_
      rw [t.setItem_of_not_plain item v hp]
      exact ⟨rfl, rfl⟩
  case setPrescaler | setHighWaterMark | setPeerLevel | setBaseLevel | setInterruptEnables =>
    exact absurd rfl (hset _ _)
  case regionRewrite item v =>
    split
    · rename_i hr
      exact s.completeFrame_cases _ _ (.of_config rfl (.inl rfl)) (fun _ _ => .of_config rfl (.inr rfl)) fun d hd =>
        ⟨rfl, .inl rfl, fun _ => rfl, .inr (.inl ⟨item, v, d, rfl, hr, hd, rfl, rfl⟩)⟩
    · exact .of_config rfl (.inl rfl)
  case get | viewPost | popFault | ackInt | clearLog | invalidate =>
    exact s.configures_completeInput _ _ _ fun _ => ⟨rfl, rfl⟩
  case drainMark =>
    refine s.configures_completeInput _ _ _ fun t => ?_
    unfold State.markTail
    split <;> exact ⟨rfl, rfl⟩
  case resume => exact s.configures_completeInput _ _ _ fun _ => (State.keeps_finish _).both rfl rfl
  case discard =>
    exact s.configures_completeInput _ _ _ fun t =>
      State.Keeps.both (.comp (State.keeps_finish _) t.keeps_discardPosts) rfl rfl
  case restorePeer =>
    refine s.configures_completeInput _ _ _ fun t => ?_
    split
    · rename_i p _
      refine (State.keeps_finish _).both (t.config_oar _ (fun q => ?_) ?_) rfl
      all_goals unfold Arbiter.restore
      · split
        · exact t.oar.peers.level_put p q _ rfl
        · rfl
      · split <;> rfl
    · exact ⟨rfl, rfl⟩
  case badCommand =>
    split
    · exact s.configures_completeFrame _ _ _ fun _ => ⟨rfl, rfl⟩
    · exact .of_config rfl (.inl rfl)

/-- POWER_ON with a request keeps what the power-on state gives. -/
theorem exec_powerOn_config (s t : State) (w1 w0 mcs hRst : Bool) (held : Option HostRequest)
    (h : exec (.powerOn w1 w0 mcs hRst held) s = .next t) :
    t.config = (s.powerUp w1 w0 mcs hRst).config ∧ t.link = (s.powerUp w1 w0 mcs hRst).link := by
  obtain rfl := Host.Outcome.next.inj h
  split
  · exact (State.keeps_present _ _).both rfl rfl
  · exact ⟨rfl, rfl⟩

/-! ## The statements -/

/-- Settles O2: every arm of `exec` answers a next state, and none touches the waiting commands. -/
theorem everyCommandCompletes : Obligations.EveryCommandCompletes := by
  intro c s
  have hnext : ∃ t, exec c s = .next t := by
    cases c <;> exact ⟨_, rfl⟩
  obtain ⟨t, h⟩ := hnext
  refine ⟨t, h, ?_⟩
  by_cases hpower : ∃ w1 w0 mcs hRst held, c = .powerOn w1 w0 mcs hRst held
  · obtain ⟨w1, w0, mcs, hRst, held, rfl⟩ := hpower
    exact congrArg (·.2.2.2) (exec_powerOn_config s t w1 w0 mcs hRst held h).1
  · simp only [not_exists] at hpower
    exact (exec_configures c s t h hpower).pending

/-- Settles O50: the map by its rewrite, each item by its own SET. -/
theorem itemsChangeOnlyBySet : Obligations.ItemsChangeOnlyBySet := by
  intro c s t h hpower
  rcases (exec_configures c s t h hpower).items with ⟨hmap, hitems⟩ | ⟨item, v, d, rfl, -, -, hmap, hitems⟩ |
    ⟨i, v, d, hc, -, hmap, hitems⟩
  · exact ⟨fun _ => hmap, fun _ => hitems, fun _ _ _ _ _ => by rw [hitems]⟩
  · exact ⟨fun hc => absurd rfl (hc item v), fun _ => hitems, fun _ _ _ _ _ => by rw [hitems]⟩
  · refine ⟨fun _ => hmap, fun hother => absurd hc (hother _ v), fun j item w hc' hne => ?_⟩
    obtain ⟨rfl, -⟩ := Frame.set.inj (Option.some.inj (hc.symm.trans hc'))
    have hij : i.val ≠ j.val := fun hij => hne (by rw [hij])
    rw [hitems, List.getElem?_set_ne hij]

end Sys2Proof.Machine
end

section
/-! The ranges of the items, the clock count, the size codes and the link's form, after every step. -/

namespace Sys2Proof.Machine

/-- The ranges of Table 10-4, by the items' numbers. -/
theorem itemRange_iff (i : Fin 13) (n : Nat) (hn : n ≤ 65535) :
    itemRange (BitVec.ofNat 8 (0x20 + i.val)) n = true ↔
      [1, 1, 1, 0, 1, 1, 1, 0, 0, 0, 0, 0, 0].getD i.val 0 ≤ n ∧
        n ≤ [1024, 255, 255, 255, 255, 255, 8, 7, 7, 7, 7, 1, 65535].getD i.val 0 := by
  fin_cases i
  all_goals
    simp [itemRange, Config.itemPrescaler, Config.itemTenure, Config.itemHighWater, Config.itemBaseLevel,
      Config.itemLevelP0, Config.itemLevelP1, Config.itemLevelP2, Config.itemHaltOnDeferred,
      Config.itemInterruptEnables]
  exact hn

/-- The items in their ranges, by their numbers (Table 10-4). -/
theorem State.itemsWf_iff (s : State) :
    s.itemsWf = true ↔ s.tb.count < s.tb.prescaler ∧
      (∀ (i : Fin 13) (n : Nat), s.items[i.val]? = some n → n ≤ 65535 ∧
        itemRange (BitVec.ofNat 8 (0x20 + i.val)) n = true) ∧
      (∀ i : Fin 16, s.rmap.entries[i].size.toNat ≤ 20) ∧ s.link.wf = true := by
  have hhalt : s.pq.haltOnDeferred.toNat ≤ 1 := Bool.toNat_le _
  have henables : s.flt.enables.byte.toNat ≤ 255 := by omega
  have hrange (i : Fin 13) (n : Nat) : n ≤ 65535 ∧ itemRange (BitVec.ofNat 8 (0x20 + i.val)) n = true ↔
      [1, 1, 1, 0, 1, 1, 1, 0, 0, 0, 0, 0, 0].getD i.val 0 ≤ n ∧
        n ≤ [1024, 255, 255, 255, 255, 255, 8, 7, 7, 7, 7, 1, 65535].getD i.val 0 := by
    refine ⟨fun ⟨hn, h⟩ => (itemRange_iff i n hn).mp h, fun h => ?_⟩
    have hn : n ≤ 65535 := le_trans h.2 (by fin_cases i <;> decide)
    exact ⟨hn, (itemRange_iff i n hn).mpr h⟩
  have hlevels : (allPeers.all fun p => decide ((s.oar.peers.get p).level ≤ 7)) = true ↔
      s.oar.peers.p0.level ≤ 7 ∧ s.oar.peers.p1.level ≤ 7 ∧ s.oar.peers.p2.level ≤ 7 := by
    simp only [allPeers, List.all_cons, List.all_nil, Bool.and_true, Bool.and_eq_true, decide_eq_true_iff]
    exact Iff.rfl
  have hsizes : ((List.finRange 16).all fun i => decide (s.rmap.entries[i].size.toNat ≤ 20)) = true ↔
      ∀ i : Fin 16, s.rmap.entries[i].size.toNat ≤ 20 := by
    simp only [List.all_eq_true, List.mem_finRange, decide_eq_true_iff, forall_const]
  simp only [itemsWf, hrange, Bool.and_eq_true, hlevels, hsizes, decide_eq_true_iff]
  generalize (∀ i : Fin 16, s.rmap.entries[i].size.toNat ≤ 20) = sizes
  simp [Fin.forall_fin_succ, items]
  constructor
  · intro h
    exact ⟨by omega, by omega, h.1.2, h.2⟩
  · intro h
    refine ⟨⟨?_, h.2.2.1⟩, h.2.2.2⟩
    omega

/-- The value that an accepted SET gives its item is in the item's range. -/
theorem itemRange_itemOf (i : Fin 13) (v : BitVec 16)
    (h : itemRange (BitVec.ofNat 8 (0x20 + i.val)) v.toNat = true) :
    itemOf (BitVec.ofNat 8 (0x20 + i.val)) v ≤ 65535 ∧
      itemRange (BitVec.ofNat 8 (0x20 + i.val)) (itemOf (BitVec.ofNat 8 (0x20 + i.val)) v) = true := by
  have henables : (bitsOfByte (v.extractLsb' 0 8)).byte.toNat ≤ 65535 := by omega
  have hhalt : (v != 0).toNat ≤ 1 := Bool.toNat_le _
  unfold itemOf
  split
  · rename_i hi
    exact ⟨by omega, by rw [hi]; exact decide_eq_true hhalt⟩
  split
  · rename_i hi
    exact ⟨henables, by rw [hi]; rfl⟩
  · exact ⟨by omega, h⟩

/-- The size codes stay at or below 20 in an accepted rewrite (R1, R179). -/
theorem RegionMap.size_rewrite (m : RegionMap) (item : Byte) (v : BitVec 40)
    (ha : regionAccepts item v = true) (h : ∀ i : Fin 16, m.entries[i].size.toNat ≤ 20) (i : Fin 16) :
    (m.rewrite item v).entries[i].size.toNat ≤ 20 := by
  unfold rewrite
  split
  · exact h i
  split
  · rename_i w _ _ j hj
    have hsize : (v.extractLsb' 32 5).toNat ≤ 20 := by
      have hd : item ≠ Config.itemRegionD := by
        rintro rfl
        cases hj
      simp only [regionAccepts, Bool.and_eq_true, Bool.or_eq_true, beq_iff_eq, hd, false_or, decide_eq_true_iff] at ha
      exact ha.2
    by_cases hij : j = i
    · subst hij
      have hset : (m.entries.set j (entryOfItem v w))[j] = entryOfItem v w := Vector.getElem_set_self j.isLt
      exact le_of_eq_of_le (congrArg (fun e => e.size.toNat) hset) hsize
    · have hval : j.val ≠ i.val := fun e => hij (Fin.ext e)
      simpa [Vector.getElem_set, hval] using h i
  · exact h i

/-- The power-on items are in range. -/
theorem State.itemsWf_powerUp (s : State) (w1 w0 mcs hRst : Bool) : (s.powerUp w1 w0 mcs hRst).itemsWf = true := by
  cases mcs <;> rfl

/-- The form is one of the map, the items, the Timebase and the link. -/
theorem State.itemsWf_of_config (s t : State) (hc : t.config = s.config) (hl : t.link = s.link)
    (h : s.itemsWf = true) : t.itemsWf = true := by
  simp only [config, Prod.mk.injEq] at hc
  obtain ⟨hmap, hitems, htb, -⟩ := hc
  simpa only [itemsWf_iff, hmap, hitems, htb, hl] using h

/-- Every command but POWER_ON keeps the form. -/
theorem State.Configures.itemsWf {c : Instr} {s t : State} (h : Configures c s t) (hs : s.itemsWf = true) :
    t.itemsWf = true := by
  obtain ⟨hcount, hitems, hsizes, hlink⟩ := s.itemsWf_iff.mp hs
  have hrange : ∀ (i : Fin 13) (n : Nat), t.items[i.val]? = some n →
      n ≤ 65535 ∧ itemRange (BitVec.ofNat 8 (0x20 + i.val)) n = true := by
    rcases h.items with ⟨-, heq⟩ | ⟨item, v, d, -, -, -, -, heq⟩ | ⟨j, v, d, -, hanswer, -, heq⟩
    · exact heq ▸ hitems
    · exact heq ▸ hitems
    · intro i n hn
      rw [heq] at hn
      by_cases hij : j = i
      · subst hij
        rw [List.getElem?_set_self j.isLt, Option.some.injEq] at hn
        exact hn ▸ itemRange_itemOf j v (s.accepted_of_frameAnswer _ d hlink hanswer)
      · rw [List.getElem?_set_ne (fun e => hij (Fin.ext e))] at hn
        exact hitems i n hn
  have hentries : ∀ i : Fin 16, t.rmap.entries[i].size.toNat ≤ 20 := by
    rcases h.items with ⟨heq, -⟩ | ⟨item, v, d, -, hr, hanswer, heq, -⟩ | ⟨j, v, d, -, -, heq, -⟩
    · exact heq ▸ hsizes
    · have ha : regionAccepts item v = true := s.accepted_of_frameAnswer _ d hlink hanswer
      exact heq ▸ s.rmap.size_rewrite item v ha hsizes
    · exact heq ▸ hsizes
  have hclock : t.tb.count < t.tb.prescaler := by
    have hprescaler : 1 ≤ t.tb.prescaler := by
      have := (itemRange_iff 0 _ (hrange 0 _ rfl).1).mp (hrange 0 _ rfl).2
      exact this.1
    rcases h.clock with htb | hzero | hbelow
    · exact htb ▸ hcount
    · omega
    · exact hbelow
  exact t.itemsWf_iff.mpr ⟨hclock, hrange, hentries, h.link hlink⟩

/-- Settles O56: a SET and a rewrite change an item only to an accepted value, and the count wraps. -/
theorem stepKeepsItemsInRange : Obligations.StepKeepsItemsInRange := by
  intro s t hs h
  rcases step_cases s t h with rfl | ⟨c, rest, -, hexec⟩
  · exact hs
  by_cases hpower : ∃ w1 w0 mcs hRst held, c = .powerOn w1 w0 mcs hRst held
  · obtain ⟨w1, w0, mcs, hRst, held, rfl⟩ := hpower
    obtain ⟨hconfig, hlink'⟩ := exec_powerOn_config _ t w1 w0 mcs hRst held hexec
    exact State.itemsWf_of_config _ t hconfig hlink' (State.itemsWf_powerUp _ w1 w0 mcs hRst)
  · simp only [not_exists] at hpower
    have hconf := exec_configures c { s with pending := rest } t hexec hpower
    exact hconf.itemsWf hs

end Sys2Proof.Machine
end

section
/-! Steps, power-on, host reset, and the request that stands at the H-port. -/

namespace Sys2Proof.Machine

/-- Settles O1: the two equations of `step`. -/
theorem stepRunsFrontCommand : Obligations.StepRunsFrontCommand := by
  refine ⟨fun c rest s h => ?_, fun s h => ?_⟩
  · simp only [step, h]
  · simp only [step, h]

/-- Settles O3: the power-on state, for each setting of the straps. -/
theorem powerOnState : Obligations.PowerOnState := by
  intro w1 w0 mcs hRst s
  cases w1 <;> cases w0 <;> rfl

/-- What a host reset does to the transaction, by its kind and state (R117). -/
theorem Txn.hostReset_eq (t : Txn) (inProgress : Bool) :
    t.hostReset inProgress =
      if t.kind = .drain then some t
      else if t.state = .current ∧ inProgress then some { t with abandoned := true } else none := by
  unfold hostReset
  cases hk : t.kind <;> cases ht : t.state <;> cases inProgress <;> rfl

/-- Settles O4. -/
theorem hostResetEffect : Obligations.HostResetEffect := by
  intro s
  have htxn : (s.mpe.txn.bind fun t => t.hostReset s.port.isSome) = s.mpe.txn.bind fun t =>
      if t.kind = .drain then some t
      else if t.state = .current ∧ s.port.isSome then some { t with abandoned := true } else none :=
    congrArg s.mpe.txn.bind (funext fun t => t.hostReset_eq s.port.isSome)
  rw [← htxn]
  rfl

/-- The HRU can take a request while it holds none and H_RST is negated (R73, R89). -/
theorem Hru.canTake_iff (u : Hru) : u.canTake = true ↔ u.request = none ∧ u.hRst = false := by
  simp [canTake]

/-- A request that an HRU cannot take stands at the H-port (R74, R89). -/
theorem State.present_stands (s : State) (h : HostRequest) (hp : s.hru.presented = none)
    (ht : s.hru.request.isSome ∨ s.hru.hRst = true) :
    s.present h = { s with hru := { s.hru with presented := some h } } := by
  have hcan : s.hru.canTake = false := by
    refine Bool.eq_false_iff.mpr fun hc => ?_
    obtain ⟨hreq, hrst⟩ := s.hru.canTake_iff.mp hc
    simp [hreq, hrst] at ht
  simp [present, hp, hcan]

/-- A take of a request, where none stands at the H-port, ends with the settling of the M-port. -/
theorem State.finish_take (s : State) (h : HostRequest) (hp : s.hru.presented = none) :
    (s.take h).finish = (s.take h).settle :=
  (s.take h).finish_of_none ((s.take_presented h).trans hp)

/-- Settles O6: what stands is set aside by `present`, and taken by `takePresented` or `present` as by its command. -/
theorem heldRequestStandsUntilTaken : Obligations.HeldRequestStandsUntilTaken := by
  refine ⟨?stands, ?negation, ?taken, ?powerOn⟩
  case stands =>
    intro c h s hc hp ht
    rw [exec_request c h s hc, s.begin.present_stands h hp ht]
    rfl
  case negation =>
    intro s hp
    have hnone : State.takePresented { s.begin with hru := { s.hru with hRst := false } } =
        { s.begin with hru := { s.hru with hRst := false } } := by
      simp [State.takePresented, hp]
    exact congrArg Host.Outcome.next hnone
  case taken =>
    intro c h s hc hp hr
    have htake : State.takePresented { s.begin with hru := { s.hru with hRst := false } } =
        (State.take { s.begin with hru := { s.hru with hRst := false, presented := none } } h).settle := by
      simp [State.takePresented, hp, Hru.canTake, hr]
    have hexec := exec_takes c h { s with hru := { s.hru with hRst := false, presented := none } } hc ⟨hr, rfl, rfl⟩
    rw [hexec, State.finish_take _ h rfl]
    exact congrArg Host.Outcome.next htake
  case powerOn =>
    intro c h w1 w0 mcs s t hc
    refine ⟨fun ht => ?_, fun ht => ?_⟩
    · obtain rfl := Host.Outcome.next.inj ht
      rw [exec_request c h _ hc]
      rfl
    · obtain rfl := Host.Outcome.next.inj ht
      exact congrArg Host.Outcome.next (State.present_stands _ h rfl (.inr rfl))

/-- Settles O60. -/
theorem resetKeepsInvariant : Obligations.ResetKeepsInvariant :=
  ⟨by decide, by decide, by decide, rfl⟩

end Sys2Proof.Machine
end

section
/-! The take of a request, route by route: what the demands, the answers and the hand-over make of a part that has just
taken it. -/

namespace Sys2Proof.Machine

/-! ## Demands and reads, an equation for each case -/

theorem State.emptyQueueDemand_empty (s : State) (r : Request) (hp : s.pq.posts = []) :
    s.emptyQueueDemand r = s.handOver r := by
  simp [emptyQueueDemand, PostQueue.tail?, hp]

theorem State.emptyQueueDemand_running (s : State) (r : Request) (older : List Post) (tail : Post)
    (hp : s.pq.posts = older ++ [tail]) (hs : s.pq.state = .running) :
    s.emptyQueueDemand r = { s with mpe := { s.mpe with demand := some tail.seq } }.setWait .queue := by
  simp [emptyQueueDemand, PostQueue.tail?, hp, hs]

theorem State.emptyQueueDemand_halted (s : State) (r : Request) (hp : s.pq.posts ≠ []) (hs : s.pq.state = .halted) :
    s.emptyQueueDemand r = s.refuseDemand r := by
  rcases s.emptyQueueDemand_cases r with ⟨hempty, -⟩ | ⟨_, _, -, hrunning, -⟩ | ⟨-, -, h⟩
  · exact absurd hempty hp
  · simp [hs] at hrunning
  · exact h

theorem State.queueRead_forwards (s : State) (r : Request) (hf : s.pq.forwards r.block r.mask = true) :
    s.queueRead r = s.answerOk r (s.pq.held r.block).2 := by
  simp [queueRead, hf]

theorem State.queueRead_clear (s : State) (r : Request) (hf : s.pq.forwards r.block r.mask = false)
    (ho : s.pq.youngestOverlap r.block r.testRange = none) : s.queueRead r = s.handOver r := by
  simp [queueRead, hf, ho]

theorem State.queueRead_running (s : State) (r : Request) (p : Post)
    (hf : s.pq.forwards r.block r.mask = false) (ho : s.pq.youngestOverlap r.block r.testRange = some p)
    (hs : s.pq.state = .running) :
    s.queueRead r = { s with mpe := { s.mpe with demand := some p.seq } }.setWait .through := by
  simp [queueRead, hf, ho, hs]

theorem State.queueRead_halted (s : State) (r : Request) (p : Post)
    (hf : s.pq.forwards r.block r.mask = false) (ho : s.pq.youngestOverlap r.block r.testRange = some p)
    (hs : s.pq.state = .halted) : s.queueRead r = s.refuseDemand r := by
  simp [queueRead, hf, ho, hs]

/-- A kept read whose block no line holds goes to the queue (R54). -/
theorem State.examineKept_miss (s : State) (r : Request) (h : s.ls.find r.block = none) :
    s.examineKept r = s.queueRead r := by
  simp only [examineKept, h]

/-! ## Routes -/

theorem classify_illegal (h : HostRequest) (snap : Snapshot) (hill : h.illegal = true) :
    classify h snap = .refused := by
  simp [classify, hill]

theorem classify_ordered (h : HostRequest) (snap : Snapshot) (hill : h.illegal = false) (hlock : h.lock = false)
    (hprot : snap.attrs.protect = false ∨ h.kind ≠ .write) (hdev : snap.attrs.device = true ∨ h.order = true) :
    classify h snap = .ordered := by
  have hpass : ¬(h.kind = .write ∧ snap.attrs.protect = true) := by
    rintro ⟨hk, hp⟩
    rcases hprot with hprot | hprot
    · simp [hp] at hprot
    · exact hprot hk
  simp [classify, hill, hlock, hpass, hdev]

theorem classify_unposted (h : HostRequest) (snap : Snapshot) (hk : h.kind = .write) (hp : h.plain)
    (hpost : snap.attrs.post = false) (hdev : snap.attrs.device = false) (hprot : snap.attrs.protect = false) :
    classify h snap = .unposted := by
  obtain ⟨hill, hlock, horder⟩ := hp
  simp [classify, postable, hk, hill, hlock, horder, hpost, hdev, hprot]

theorem classify_read (h : HostRequest) (snap : Snapshot) (hk : h.kind ≠ .write) (hp : h.plain)
    (hdev : snap.attrs.device = false) : classify h snap = if snap.attrs.keep then .kept else .unkept := by
  obtain ⟨hill, hlock, horder⟩ := hp
  simp [classify, postable, hk, hill, hlock, horder, hdev]

/-! ## The part that has just taken a request -/

/-- The part in a step that has taken a request off the posted route: merging is closed (R24, R73). -/
def State.taking (s : State) (h : HostRequest) : State :=
  { s.begin with hru := { s.hru with request := some (s.requestOf h) }, pq := s.pq.closeMerge }

/-- A legal request off the posted route, with no lock, follows its route (R77). -/
theorem exec_takes_route (c : Instr) (h : HostRequest) (s : State) (hc : c.request = some h) (ht : s.hru.takes)
    (hill : h.illegal = false) (hl : s.hru.lock = none) (hr : classify h (s.rmap.lookup h.address) ≠ .posted) :
    exec c s = .next ((s.taking h).followRoute (s.requestOf h)).finish := by
  rw [exec_takes c h s hc ht, s.begin.take_off_posted h hill hl hr]
  rfl

/-- The answer to a request just taken releases its record (R73). -/
theorem State.answer_taking (s : State) (h : HostRequest) (v : AnswerValue) (d : List Byte)
    (hreq : s.hru.request = none) :
    (s.taking h).answer v d = { s with pq := { s.pq with mergeOpen := false }, out := ⟨[⟨v, d⟩], false, []⟩ } := by
  rw [answer, taking, Hru.release_taken s.hru _ hreq]
  rfl

/-- A read is answered OK with bytes of its block. -/
theorem State.answerOk_read (s : State) (r : Request) (d : BlockData) (hk : r.kind ≠ .write) :
    s.answerOk r d = s.answer .ok (readBytes d (offsetOf r.addr) r.count) := by
  unfold answerOk
  cases hkind : r.kind <;> simp_all

/-- The FAULT answer of a request just taken leaves its record (R75, R76). -/
theorem State.answerFault_taking (s : State) (h : HostRequest) (kind : FaultKind) (hreq : s.hru.request = none) :
    (s.taking h).answerFault (s.requestOf h) kind none =
      { s with
        pq := { s.pq with mergeOpen := false }
        flt := s.flt.take
          { kind, origin := .host, bytes := some ⟨h.address, h.byteCount⟩
            region := some (s.rmap.lookup h.address).index }
        out := ⟨[⟨.fault, h.faultData⟩], false, []⟩ } := by
  have hrecord := State.answer_taking
    (s.record (hostRecord kind none h.address h.byteCount (s.rmap.lookup h.address).index)) h .fault h.faultData hreq
  rw [answerFault, requestOf_faultData]
  exact hrecord

/-- A request just taken that waits holds its record with its wait (Table 4-2). -/
theorem State.setWait_taking (s : State) (h : HostRequest) (w : Wait) :
    (s.taking h).setWait w =
      { s with
        pq := { s.pq with mergeOpen := false }
        hru := { s.hru with
          request := some (h.taken (s.rmap.lookup h.address) (classify h (s.rmap.lookup h.address)) w) }
        out := ⟨[], false, []⟩ } := rfl

/-- The hand-over of a request just taken, off the lock route (R85). -/
theorem State.handOver_taking (s : State) (h : HostRequest)
    (hr : classify h (s.rmap.lookup h.address) ≠ .lock) :
    (s.taking h).handOver (s.requestOf h) =
      { s with
        pq := { s.pq with mergeOpen := false }
        hru := { s.hru with
          request := some (h.taken (s.rmap.lookup h.address) (classify h (s.rmap.lookup h.address)) .port) }
        mpe := { s.mpe with
          handed := some ⟨(s.requestOf h).workKind, h.address, h.byteCount, h.data, s.rmap.lookup h.address⟩
          demand := none }
        out := ⟨[], false, []⟩ } := by
  rw [(s.taking h).handOver_port _ hr]
  rfl

/-- The refusal of a demand of a request just taken, off the lock route (R32, R87). -/
theorem State.refuseDemand_taking (s : State) (h : HostRequest)
    (hr : classify h (s.rmap.lookup h.address) ≠ .lock) (hreq : s.hru.request = none) :
    (s.taking h).refuseDemand (s.requestOf h) =
      { s with
        pq := { s.pq with mergeOpen := false }
        mpe := { s.mpe with demand := none }
        flt := s.flt.take
          { kind := .drainHalted, origin := .host, bytes := some ⟨h.address, h.byteCount⟩
            region := some (s.rmap.lookup h.address).index }
        out := ⟨[⟨.fault, h.faultData⟩], false, []⟩ } := by
  have hroute : ((s.requestOf h).route == .lock) = false := beq_false_of_ne hr
  have hanswer := State.answerFault_taking { s with mpe := { s.mpe with demand := none } } h .drainHalted hreq
  rw [refuseDemand, hroute]
  exact hanswer

/-! ## Empty-queue demands -/

/-- Settles O14: the route makes an empty-queue demand, and the queue settles it. -/
theorem emptyQueueDemand : Obligations.EmptyQueueDemand := by
  intro c h s route hc hill hlock hprot hroute ht hl
  have hclass : classify h (s.rmap.lookup h.address) = route := by
    rcases hroute with ⟨rfl, hdev⟩ | ⟨rfl, hk, hdev, horder, hpost⟩
    · exact classify_ordered h _ hill hlock hprot hdev
    · exact classify_unposted h _ hk ⟨hill, hlock, horder⟩ hpost hdev (hprot.resolve_right (by simp [hk]))
  have hne : route ≠ .posted ∧ route ≠ .lock := by
    rcases hroute with ⟨rfl, -⟩ | ⟨rfl, -⟩ <;> simp
  obtain ⟨hposted, hnotlock⟩ := hne
  have hfollow : (s.taking h).followRoute (s.requestOf h) = (s.taking h).emptyQueueDemand (s.requestOf h) := by
    unfold State.followRoute
    rw [s.requestOf_route h, hclass]
    rcases hroute with ⟨rfl, -⟩ | ⟨rfl, -⟩ <;> rfl
  have hexec := exec_takes_route c h s hc ht hill hl (by rwa [hclass])
  rw [hfollow] at hexec
  have hr : classify h (s.rmap.lookup h.address) ≠ .lock := by rwa [hclass]
  refine ⟨fun hp => ?handed, fun older tail hp hs => ?waits, fun hp hs => ?refused⟩
  case handed =>
    have hkind : (s.requestOf h).workKind = if h.kind = .write then .write else .fetch := by
      rcases hroute with ⟨rfl, -⟩ | ⟨rfl, -⟩ <;> simp [Request.workKind, hclass]
    rw [hexec, (s.taking h).emptyQueueDemand_empty _ hp, s.handOver_taking h hr, hclass, hkind]
  case waits =>
    rw [hexec, (s.taking h).emptyQueueDemand_running _ older tail hp hs, ← hclass]
    rfl
  case refused =>
    rw [hexec, (s.taking h).emptyQueueDemand_halted _ hp hs, s.refuseDemand_taking h hr ht.1]

/-! ## Reads that go to the Post Queue -/

/-- Settles O16: a kept read that misses and an unkept read go to the queue, which forwards, hands over, drains or
refuses them. -/
theorem readGoesToPostQueue : Obligations.ReadGoesToPostQueue := by
  intro c h s kept hc hk hp hdev hkeep hmiss ht hl
  have hclass : classify h (s.rmap.lookup h.address) = if kept then .kept else .unkept :=
    hkeep ▸ classify_read h _ hk hp hdev
  have hr : classify h (s.rmap.lookup h.address) ≠ .lock := by
    rw [hclass]
    cases kept <;> simp
  have hfollow : (s.taking h).followRoute (s.requestOf h) = (s.taking h).queueRead (s.requestOf h) := by
    unfold State.followRoute
    rw [s.requestOf_route h, hclass]
    cases kept with
    | false => rfl
    | true => exact (s.taking h).examineKept_miss (s.requestOf h) (hmiss rfl)
  have hexec := exec_takes_route c h s hc ht hp.1 hl (by rw [hclass]; cases kept <;> simp)
  rw [hfollow] at hexec
  have htest : (s.requestOf h).testRange = if kept then allBytes else byteMask (offsetOf h.address) h.byteCount := by
    simp only [Request.testRange, s.requestOf_route h, hclass, s.requestOf_mask h]
    cases kept <;> rfl
  have hforwards : (s.taking h).pq.forwards (s.requestOf h).block (s.requestOf h).mask =
      maskWithin (byteMask (offsetOf h.address) h.byteCount) (s.pq.held (blockOf h.address)).1 := by
    unfold PostQueue.forwards
    rfl
  have hoverlap : (s.taking h).pq.youngestOverlap (s.requestOf h).block (s.requestOf h).testRange =
      s.pq.youngestOverlap (blockOf h.address)
        (if kept then allBytes else byteMask (offsetOf h.address) h.byteCount) := by
    rw [htest]
    rfl
  refine ⟨fun hf => ?forwarded, fun hf => ⟨fun ho => ?handed, fun p ho => ⟨fun hs => ?waits, fun hs => ?refused⟩⟩⟩
  all_goals
    replace hf := hforwards.trans hf
  case forwarded =>
    rw [hexec, (s.taking h).queueRead_forwards _ hf, State.answerOk_read _ _ _ hk, s.answer_taking h _ _ ht.1]
    rfl
  all_goals
    replace ho := hoverlap.trans ho
  case handed =>
    have hkind : (s.requestOf h).workKind = if kept then .fill else .fetch := by
      simp only [Request.workKind, s.requestOf_route h, hclass, s.requestOf_kind h]
      cases kept <;> simp [hk]
    rw [hexec, (s.taking h).queueRead_clear _ hf ho, s.handOver_taking h hr, hclass, hkind]
  case waits =>
    rw [hexec, (s.taking h).queueRead_running _ p hf ho hs, ← hclass]
    rfl
  case refused =>
    rw [hexec, (s.taking h).queueRead_halted _ p hf ho hs, s.refuseDemand_taking h hr ht.1]

/-! ## Kept reads that find a line -/

/-- The line of the fill context: it is FILLING, with the context's block in its set (R45). -/
theorem LineStore.fillLine_of_wf (l : LineStore) (f : FillContext) (hwf : l.wf = true) (hf : l.fill = some f) :
    f.set = setOf f.block ∧ (l.line f.set f.way).block = f.block ∧ (l.line f.set f.way).state = .filling := by
  simp only [wf, hf, Bool.and_eq_true, List.all_eq_true, List.mem_finRange, forall_const, beq_iff_eq] at hwf
  obtain ⟨hlines, hblock, hset⟩ := hwf
  refine ⟨hset, hblock, ?_⟩
  have hline := (hlines f.set).2 f.way
  simpa [isFillLine, hf] using hline

/-- A kept read that finds a VALID line is answered from it (R51). -/
theorem State.examineKept_valid (s : State) (r : Request) (w : Fin 4) (hd : s.ls.distinct = true)
    (hs : (s.ls.line (setOf r.block) w).state = .valid) (hb : (s.ls.line (setOf r.block) w).block = r.block) :
    s.examineKept r = s.answerFromLine r (setOf r.block) w := by
  have hfind : s.ls.find r.block = some w := s.ls.find_of_line _ w hd (by simp [hs]) hb
  simp [examineKept, hfind, hs]

/-- A kept read that finds the FILLING line of its block is answered from it where the line serves it (R52). -/
theorem State.examineKept_filling (s : State) (r : Request) (f : FillContext) (hd : s.ls.distinct = true)
    (hwf : s.ls.wf = true) (hf : s.ls.fill = some f) (hb : f.block = r.block) :
    s.examineKept r = if f.serves r then s.answerFromLine r f.set f.way else s.setWait .line := by
  obtain ⟨hset, hblock, hstate⟩ := s.ls.fillLine_of_wf f hwf hf
  have hset' : f.set = setOf r.block := hb ▸ hset
  rw [hset'] at hblock hstate
  have hfind : s.ls.find r.block = some f.way := s.ls.find_of_line _ f.way hd (by simp [hstate]) (hblock.trans hb)
  simp [examineKept, hfind, hstate, hf]

/-- A read just taken, answered from a line (R51, R52). -/
theorem State.answerFromLine_taking (s : State) (h : HostRequest) (i : Fin 8) (w : Fin 4) (hk : h.kind ≠ .write)
    (hreq : s.hru.request = none) :
    (s.taking h).answerFromLine (s.requestOf h) i w =
      { s with
        pq := { s.pq with mergeOpen := false }
        ls := s.ls.touch i w
        out := ⟨[⟨.ok, readBytes (s.ls.line i w).data (offsetOf h.address) h.byteCount⟩], false, []⟩ } := by
  have hanswer := State.answer_taking { s with ls := s.ls.touch i w } h .ok
    (readBytes (s.ls.line i w).data (offsetOf h.address) h.byteCount) hreq
  rw [answerFromLine, answerOk_read _ _ _ hk]
  exact hanswer

/-- The kept route of a read just taken. -/
theorem exec_takes_kept (c : Instr) (h : HostRequest) (s : State) (hc : c.request = some h) (hk : h.kind ≠ .write)
    (hp : h.plain) (hkeep : (s.rmap.lookup h.address).attrs.keep = true) (ht : s.hru.takes)
    (hl : s.hru.lock = none) :
    classify h (s.rmap.lookup h.address) = .kept ∧
      exec c s = .next ((s.taking h).examineKept (s.requestOf h)).finish := by
  have hclass := classify_read h _ hk hp (s.rmap.device_of_keep h.address hkeep)
  rw [hkeep, if_pos rfl] at hclass
  have hfollow : (s.taking h).followRoute (s.requestOf h) = (s.taking h).examineKept (s.requestOf h) := by
    unfold State.followRoute
    rw [s.requestOf_route h, hclass]
  exact ⟨hclass, hfollow ▸ exec_takes_route c h s hc ht hp.1 hl (by simp [hclass])⟩

/-- Settles O15: the find gives the line of the block, VALID or FILLING. -/
theorem keptReadFindsLine : Obligations.KeptReadFindsLine := by
  refine ⟨?valid, ?filling⟩
  case valid =>
    intro c h s w hc hk hp hkeep ht hl hd hs hb
    rw [(exec_takes_kept c h s hc hk hp hkeep ht hl).2, (s.taking h).examineKept_valid (s.requestOf h) w hd hs hb,
      s.answerFromLine_taking h _ w hk ht.1]
    rfl
  case filling =>
    intro c h s f hc hk hp hkeep ht hl hd hwf hf hb
    obtain ⟨hclass, hexec⟩ := exec_takes_kept c h s hc hk hp hkeep ht hl
    rw [hexec, (s.taking h).examineKept_filling (s.requestOf h) f hd hwf hf hb,
      s.answerFromLine_taking h _ _ hk ht.1, s.setWait_taking h, hclass]
    simp [FillContext.serves, FillContext.available]

end Sys2Proof.Machine
end

section
/-! Posted writes, illegal requests and locked sequences at the take of a request. -/

namespace Sys2Proof.Machine

/-! ## Posted writes -/

/-- An OK answer carries bytes for a read alone (R75). -/
theorem State.answerOk_eq (s : State) (r : Request) (d : BlockData) :
    s.answerOk r d = s.answer .ok (if r.kind = .write then [] else readBytes d (offsetOf r.addr) r.count) := by
  unfold answerOk
  cases hk : r.kind <;> simp

/-- A new post while no read waits on the line (R23, R63). -/
theorem State.postWrite_of_wait (s : State) (r : Request) (h : ∀ x, s.hru.request = some x → x.wait ≠ .line) :
    s.postWrite r = State.answerOk { s with
      pq := s.pq.append r.block r.mask (spreadWord r.data) r.snap
      ls := s.ls.writeUpdate r.block r.mask (spreadWord r.data) } r (spreadWord r.data) :=
  congrArg (fun t => State.answerOk t r (spreadWord r.data))
    (writeUpdate_of_wait { s with pq := s.pq.append r.block r.mask (spreadWord r.data) r.snap } r.block r.mask
      (spreadWord r.data) h)

/-- A postable write offers itself to the queue (R21, R79). -/
theorem exec_takes_posted (c : Instr) (h : HostRequest) (s : State) (hc : c.request = some h) (hk : h.kind = .write)
    (hp : h.plain) (hpost : (s.rmap.lookup h.address).attrs.post = true)
    (hprot : (s.rmap.lookup h.address).attrs.protect = false) (ht : s.hru.takes) (hl : s.hru.lock = none) :
    classify h (s.rmap.lookup h.address) = .posted ∧
      exec c s = .next (State.offerWrite { s.begin with hru := { s.hru with request := some (s.requestOf h) } }
        (s.requestOf h)).finish := by
  have hdev := s.rmap.device_of_post h.address hpost
  have hroute := classify_posted h (s.rmap.lookup h.address) hk hp hpost hdev hprot
  rw [exec_takes c h s hc ht, s.begin.take_posted h hp.1 hl hroute]
  exact ⟨hroute, rfl⟩

/-- Settles O12. -/
theorem postedWriteMakesPost : Obligations.PostedWriteMakesPost := by
  intro c h s hc hk hp hpost hprot ht hl hmerge hroom
  obtain ⟨-, hexec⟩ := exec_takes_posted c h s hc hk hp hpost hprot ht hl
  set u : State := { s.begin with hru := { s.hru with request := some (s.requestOf h) } } with hu
  have hoffer : u.offerWrite (s.requestOf h) = u.postWrite (s.requestOf h) := by
    rcases u.offerWrite_cases (s.requestOf h) with ⟨hcan, -⟩ | ⟨-, ⟨-, hpw⟩ | ⟨hfull, -⟩⟩
    · exact absurd (hmerge.symm.trans hcan) (by simp)
    · exact hpw
    · exact absurd hroom (Nat.not_lt.mpr hfull)
  have hanswer := Hru.release_taken s.hru (some (s.requestOf h)) ht.1
  rw [hexec, hoffer, u.postWrite_of_wait _ (by simp [hu]), State.answerOk_write _ _ _ hk, State.answer]
  simp only [hu, hanswer]
  rfl

/-- Settles O13. -/
theorem postedWriteMeetsFullQueue : Obligations.PostedWriteMeetsFullQueue := by
  intro c h s hc hk hp hpost hprot ht hl hmerge hfull
  obtain ⟨hroute, hexec⟩ := exec_takes_posted c h s hc hk hp hpost hprot ht hl
  set u : State := { s.begin with hru := { s.hru with request := some (s.requestOf h) } } with hu
  have hoffer : (u.pq.state = .running ∧ u.offerWrite (s.requestOf h) = u.setWait .room) ∨
      (u.pq.state = .halted ∧ u.offerWrite (s.requestOf h) = u.answerFault (s.requestOf h) .drainHalted none) := by
    rcases u.offerWrite_cases (s.requestOf h) with ⟨hcan, -⟩ | ⟨-, ⟨hroom, -⟩ | ⟨-, hwait⟩⟩
    · exact absurd (hmerge.symm.trans hcan) (by simp)
    · exact absurd hfull (Nat.ne_of_lt hroom)
    · exact hwait
  refine ⟨fun hs => ?running, fun hs => ⟨?halted, ?refused⟩⟩
  case running =>
    have hwait := (hoffer.resolve_right fun hh => by simp [hu, hs] at hh).2
    rw [hexec, hwait, ← hroute]
    rfl
  case halted => simp [PostQueue.drainable, hs]
  case refused =>
    have hfault := (hoffer.resolve_left fun hh => by simp [hu, hs] at hh).2
    have hdata : (s.requestOf h).faultData = [] := by simp [Request.faultData, hk]
    have hanswer := Hru.release_taken s.hru (some (s.requestOf h)) ht.1
    rw [hexec, hfault, State.answerFault, hdata, State.answer]
    simp only [State.record, hu, hanswer]
    rfl

/-! ## Illegal requests -/

theorem wordOf_toNat (a : Addr) : (wordOf a).toNat = a.toNat / 4 := by
  have h := a.isLt
  simp only [wordOf, BitVec.extractLsb'_toNat, Nat.shiftRight_eq_div_pow]
  omega

theorem wordAddr_toNat (x : BitVec 30) : (wordAddr x).toNat = 4 * x.toNat := by
  rw [wordAddr, BitVec.toNat_append, Nat.shiftLeft_eq]
  simp
  omega

/-- The address of a READ or WRITE: the byte of its lowest enabled lane (R70). -/
theorem hostAddress_toNat (h : HostRequest) (hk : h.kind ≠ .read16) (hlow : lowLane h.be < 4) :
    h.address.toNat = h.addr.toNat / 4 * 4 + lowLane h.be := by
  have ha : h.address = wordAddr (wordOf h.addr) + BitVec.ofNat 32 (lowLane h.be) := by
    unfold HostRequest.address
    cases hkind : h.kind <;> simp_all
  have hword := wordAddr_toNat (wordOf h.addr)
  rw [wordOf_toNat] at hword
  have hlt := h.addr.isLt
  rw [ha, BitVec.toNat_add, hword, BitVec.toNat_ofNat]
  omega

/-- Lanes are not contiguous where none is enabled, or one between two others is not (R72). -/
theorem lanesContiguous_eq_false (be : Lanes) :
    lanesContiguous be = false ↔ be = 0 ∨ ∃ i j k : Fin 4, i < j ∧ j < k ∧
      be.getLsbD i.val = true ∧ be.getLsbD j.val = false ∧ be.getLsbD k.val = true := by
  revert be
  decide

/-- The lowest and the topmost enabled lane. -/
theorem lanes_bounds (be : Lanes) (i j : Fin 4) (hi : be.getLsbD i.val = true) (hj : be.getLsbD j.val = true)
    (h : ∀ k : Fin 4, be.getLsbD k.val = true → i ≤ k ∧ k ≤ j) : lowLane be = i.val ∧ topLane be = j.val + 1 := by
  revert be i j
  decide

/-- The take of an illegal request without a lock refuses it (R72). -/
theorem State.take_illegal (s : State) (h : HostRequest) (hill : h.illegal = true) :
    s.begin.take h = ((s.taking h).answerFault (s.requestOf h) .illegalRequest none).abandonLock := by
  have hroute := classify_illegal h (s.rmap.lookup h.address) hill
  simp only [take, hill, if_true]
  rw [s.begin.requestOf_route h, State.begin_rmap, hroute]
  rfl

/-- Settles O9: the forms by their lanes, the refusal by the take. -/
theorem illegalRequestRefused : Obligations.IllegalRequestRefused := by
  refine ⟨fun h => ⟨fun hk => ?read16, fun hk => ?lanes⟩, ?refused⟩
  case read16 =>
    refine ⟨?_, ?_, ?_⟩
    · simp [HostRequest.illegal, hk, offsetOf, or_assoc]
    · simp [HostRequest.address, hk]
    · simp [HostRequest.byteCount, hk]
  case lanes =>
    have hill : h.illegal = !lanesContiguous h.be := by
      unfold HostRequest.illegal
      cases hkind : h.kind <;> simp_all
    have hcount : h.byteCount = if h.be == 0 then 4 else topLane h.be - lowLane h.be := by
      unfold HostRequest.byteCount
      cases hkind : h.kind <;> simp_all
    refine ⟨?_, fun hbe => ?_, fun i j hi hj hbounds => ?_⟩
    · rw [hill, Bool.not_eq_true', lanesContiguous_eq_false]
    · have hlow : lowLane h.be = 0 := by
        rw [hbe]
        rfl
      rw [hostAddress_toNat h hk (by omega), hcount, hlow]
      simp [hbe]
    · obtain ⟨hlow, htop⟩ := lanes_bounds h.be i j hi hj hbounds
      have hbe : (h.be == 0) = false := by
        refine beq_false_of_ne fun hzero => ?_
        simp [hzero] at hi
      have hij := (hbounds j hj).1
      rw [hostAddress_toNat h hk (by omega), hcount, hlow, htop, hbe]
      simp only [Fin.le_def] at hij
      exact ⟨rfl, by simp; omega⟩
  case refused =>
    intro c h s hc hill ht hl
    rw [exec_takes c h s hc ht, s.take_illegal h hill, s.answerFault_taking h _ ht.1]
    exact congrArg (fun u => Host.Outcome.next (State.finish u)) (State.abandonLock_of_none _ hl)

/-! ## Locked sequences -/

/-- The HRU without its lock record, where it had none before. -/
theorem Hru.unlock_locked (u : Hru) (l : Option LockRecord) (hl : u.lock = none) :
    { { u with lock := l } with lock := none } = u := by
  rw [← hl]

/-- The part without a demand for the queue (R32). -/
def State.undemanded (s : State) : State := { s with mpe := { s.mpe with demand := none } }

/-- The lock record that a LOCK READ makes (R120). -/
def openingRecord (s : State) (h : HostRequest) : LockRecord :=
  ⟨.opening, wordOf h.address, h.address, h.byteCount, (s.rmap.lookup h.address).index, .stopped⟩

/-- The part with the lock record of a LOCK READ (R120). -/
def State.locking (s : State) (h : HostRequest) : State :=
  { s with hru := { s.hru with lock := some (openingRecord s h) } }

/-- A LOCK READ just taken in a region without PROTECT makes its lock record and an empty-queue demand (R120). -/
theorem State.openLock_taking (s : State) (h : HostRequest)
    (hprot : (s.rmap.lookup h.address).attrs.protect = false) :
    (s.taking h).openLock (s.requestOf h) = ((s.locking h).taking h).emptyQueueDemand (s.requestOf h) := by
  have hprot' : ¬(s.requestOf h).snap.attrs.protect = true := by
    rw [requestOf_snap, hprot]
    exact Bool.false_ne_true
  rw [openLock, if_neg hprot']
  rfl

theorem State.openLock_protected (s : State) (r : Request) (hprot : r.snap.attrs.protect = true) :
    s.openLock r = s.answerFault r .writeProtect none := if_pos hprot

/-- Settles O19: the lock route of a read, which the region and the queue settle. -/
theorem lockReadOpens : Obligations.LockReadOpens := by
  intro c h s hc hk hlock hill ht hl
  have hroute := classify_lock h (s.rmap.lookup h.address) hill hlock
  have hexec := exec_takes_route c h s hc ht hill hl (by simp [hroute])
  have hfollow : (s.taking h).followRoute (s.requestOf h) = (s.taking h).openLock (s.requestOf h) := by
    simp [State.followRoute, State.lockRoute, hroute, hk]
  rw [hfollow] at hexec
  refine ⟨fun hprot => ?inProtect, fun hprot => ⟨fun hp => ?handed, fun older tail hp hs => ?waits,
    fun hp hs => ?refused⟩⟩
  case inProtect =>
    rw [hexec, (s.taking h).openLock_protected (s.requestOf h) hprot, s.answerFault_taking h _ ht.1]
  all_goals rw [s.openLock_taking h hprot] at hexec
  case handed =>
    have hwork : (s.requestOf h).work = ⟨.lockedRead, h.address, h.byteCount, h.data, s.rmap.lookup h.address⟩ := by
      simp [Request.work, Request.workKind, hroute, hk]
    rw [hexec, ((s.locking h).taking h).emptyQueueDemand_empty _ hp, State.handOver_lock _ _ hroute, hwork, ← hroute]
    rfl
  case waits =>
    rw [hexec, ((s.locking h).taking h).emptyQueueDemand_running _ older tail hp hs, ← hroute]
    rfl
  case refused =>
    have hrefuse : ((s.locking h).taking h).refuseDemand (s.requestOf h) =
        (((s.locking h).undemanded.taking h).answerFault ((s.locking h).undemanded.requestOf h) .drainHalted
          none).dropLock := if_pos (beq_iff_eq.mpr hroute)
    have hunlock := Hru.unlock_locked s.hru (some (openingRecord s h)) hl
    rw [hexec, ((s.locking h).taking h).emptyQueueDemand_halted _ hp hs, hrefuse,
      (s.locking h).undemanded.answerFault_taking h _ ht.1]
    simp only [State.dropLock, State.undemanded, State.locking, hunlock]

/-- The part with the record of a request just taken; merging closes unless the route is the posted one (R24, R73). -/
def State.holding (s : State) (h : HostRequest) : State :=
  let t : State := { s with hru := { s.hru with request := some (s.requestOf h) } }
  if (s.requestOf h).route == .posted then t else t.closeMerge

theorem State.holding_lock (s : State) (h : HostRequest) : (s.holding h).hru.lock = s.hru.lock := by
  unfold holding
  split <;> rfl

/-- A legal request that does not match an open lock abandons it and follows its route (R77, R124). -/
theorem State.take_legal (s : State) (h : HostRequest) (hill : h.illegal = false)
    (hm : s.hru.matchesLock h = false) : s.take h = (s.holding h).abandonLock.followRoute (s.requestOf h) := by
  have hm' : (s.holding h).hru.matchesLock h = false := by
    rw [← hm, Hru.matchesLock, Hru.matchesLock, holding_lock]
  unfold take
  rw [if_neg (by simp [hill])]
  exact if_neg (by rw [Bool.not_eq_true]; exact hm')

/-- The part without an open lock, its LOCK_ABANDONED record made (R124). -/
def State.abandoned (s : State) (l : LockRecord) : State :=
  { s with hru := { s.hru with lock := none }, flt := s.flt.take (lockRecord .lockAbandoned l) }

theorem State.abandonLock_opened (s : State) (l : LockRecord) (hl : s.hru.lock = some l) (ho : l.phase = .opened) :
    s.abandonLock = s.abandoned l := by
  simp [abandonLock, hl, ho, abandoned, dropLock, record]

/-- A request that does not match the open lock is taken as with the lock gone and its record made (R124). -/
theorem State.take_abandons (s : State) (h : HostRequest) (l : LockRecord) (hill : h.illegal = false)
    (hl : s.hru.lock = some l) (ho : l.phase = .opened)
    (hmatch : ¬(h.kind = .write ∧ h.lock = true ∧ wordOf h.addr = l.word)) :
    s.take h = (s.abandoned l).take h := by
  have hm : s.hru.matchesLock h = false := by
    refine Bool.eq_false_iff.mpr fun hm => hmatch ?_
    simp only [Hru.matchesLock, hl, Bool.and_eq_true, beq_iff_eq] at hm
    obtain ⟨⟨⟨-, hk⟩, hlock⟩, hword⟩ := hm
    exact ⟨hk, hlock, hword.symm⟩
  have hgone : ((s.abandoned l).holding h).abandonLock = (s.abandoned l).holding h :=
    State.abandonLock_of_none _ ((s.abandoned l).holding_lock h)
  have hheld : (s.holding h).abandoned l = (s.abandoned l).holding h := by
    have hroute : ((s.abandoned l).requestOf h).route = (s.requestOf h).route := rfl
    unfold holding
    rw [hroute]
    cases (s.requestOf h).route == .posted <;> rfl
  have hm' : (s.abandoned l).hru.matchesLock h = false := Hru.matchesLock_of_none _ h rfl
  rw [s.take_legal h hill hm, (s.abandoned l).take_legal h hill hm', hgone, ← hheld,
    (s.holding h).abandonLock_opened l ((s.holding_lock h).trans hl) ho]
  rfl

/-- Settles O20: the take abandons the lock before the route, and after the refusal of an illegal request. -/
theorem requestAbandonsOpenLock : Obligations.RequestAbandonsOpenLock := by
  intro c h s l hc ht hl ho
  refine ⟨fun hill hmatch => ?legal, fun hill => ?illegal⟩
  case legal =>
    rw [exec_takes c h s hc ht, s.begin.take_abandons h l hill hl ho hmatch]
    exact (exec_takes c h (s.abandoned l) hc ht).symm
  case illegal =>
    rw [exec_takes c h s hc ht, s.take_illegal h hill, s.answerFault_taking h _ ht.1]
    exact congrArg (fun u => Host.Outcome.next (State.finish u)) (State.abandonLock_opened _ l hl ho)

/-- A LOCK WRITE to the word of an open lock closes it (R124, R126). -/
theorem State.take_matching (s : State) (h : HostRequest) (hill : h.illegal = false) (hlock : h.lock = true)
    (hm : s.hru.matchesLock h = true) : s.begin.take h = (s.taking h).closeLock (s.requestOf h) := by
  have hheld : s.begin.holding h = s.taking h := by
    unfold holding
    rw [s.begin.requestOf_route h, s.begin_rmap, classify_lock h _ hill hlock]
    rfl
  have hm' : (s.begin.holding h).hru.matchesLock h = true := by
    rw [← hm, Hru.matchesLock, Hru.matchesLock, holding_lock]
    rfl
  rw [← hheld]
  unfold take
  rw [if_neg (by simp [hill])]
  exact if_pos hm'

/-- The part with its lock CLOSING (R126). -/
def State.closing (s : State) : State := { s with hru := { s.hru with lock := s.hru.lock.map LockRecord.close } }

/-- Settles O21: the close of the lock, in a PROTECT region and in another. -/
theorem matchingLockWriteCloses : Obligations.MatchingLockWriteCloses := by
  intro c h s l hc hill hk hlock ht hl ho hword
  have hroute := classify_lock h (s.rmap.lookup h.address) hill hlock
  have hm : s.hru.matchesLock h = true := by
    simp [Hru.matchesLock, hl, ho, hk, hlock, hword]
  have hclosing : s.closing.hru.lock = some { l with phase := .closing, timer := .stopped } := by
    rw [State.closing, hl]
    rfl
  have hexec := exec_takes c h s hc ht
  rw [s.take_matching h hill hlock hm] at hexec
  refine ⟨fun hprot => ?refused, fun hprot => ?handed⟩
  case refused =>
    have hclose : (s.taking h).closeLock (s.requestOf h) =
        ((s.closing.taking h).answerFault (s.closing.requestOf h) .writeProtect none).dropLock := if_pos hprot
    have hdata : h.faultData = [] := by simp [HostRequest.faultData, hk]
    rw [hexec, hclose, s.closing.answerFault_taking h _ ht.1, hdata]
    rfl
  case handed =>
    have hclose : (s.taking h).closeLock (s.requestOf h) = (s.closing.taking h).handOver (s.requestOf h) :=
      if_neg (by rw [Bool.not_eq_true]; exact hprot)
    have hwork : (s.requestOf h).work = ⟨.lockedWrite, h.address, h.byteCount, h.data, s.rmap.lookup h.address⟩ := by
      simp [Request.work, Request.workKind, hroute, hk]
    rw [hexec, hclose, State.handOver_lock _ _ hroute, hwork, ← hclosing, ← hroute]
    rfl

end Sys2Proof.Machine
end

section
/-! The Region Map's lookup, and the bytes that forwarding gives. -/

namespace Sys2Proof.Machine

/-! ## Forwarding -/

/-- The bytes of a block that a list of posts holds, oldest first (R29). -/
def heldBy (posts : List Post) (b : Block) : Mask × BlockData :=
  posts.foldl (fun acc p => if p.block == b then (acc.1 ||| p.mask, overlay p.mask p.data acc.2) else acc)
    (0, Vector.replicate 16 0)

theorem PostQueue.held_eq (q : PostQueue) (b : Block) : q.held b = heldBy q.posts b := rfl

/-- A younger post is laid over the older ones, if it is of the block. -/
theorem heldBy_concat (posts : List Post) (p : Post) (b : Block) :
    heldBy (posts ++ [p]) b =
      if p.block = b then ((heldBy posts b).1 ||| p.mask, overlay p.mask p.data (heldBy posts b).2)
      else heldBy posts b := by
  simp only [heldBy, List.foldl_append, List.foldl_cons, List.foldl_nil, beq_iff_eq]

/-- A byte is held where some post of the block has it. -/
theorem heldBy_mask (posts : List Post) (b : Block) (i : Fin 16) :
    (heldBy posts b).1.getLsbD i.val = true ↔ ∃ p ∈ posts, p.block = b ∧ p.mask.getLsbD i.val = true := by
  induction posts using List.reverseRecOn with
  | nil => simp [heldBy]
  | append_singleton older p ih =>
    have hlast : (∃ x ∈ older ++ [p], x.block = b ∧ x.mask.getLsbD i.val = true) ↔
        (∃ x ∈ older, x.block = b ∧ x.mask.getLsbD i.val = true) ∨ p.block = b ∧ p.mask.getLsbD i.val = true := by
      simp only [List.mem_append, List.mem_singleton, or_and_right, exists_or, exists_eq_left]
    rw [heldBy_concat, hlast]
    by_cases hp : p.block = b
    · simp only [hp, if_true, BitVec.getLsbD_or, Bool.or_eq_true, ih, true_and]
    · simp only [hp, if_false, ih, false_and, or_false]

/-- A held byte has the value of the youngest post of the block that has it. -/
theorem heldBy_data (older younger : List Post) (p : Post) (b : Block) (i : Fin 16) (hb : p.block = b)
    (hm : p.mask.getLsbD i.val = true) (hy : ∀ x ∈ younger, ¬(x.block = b ∧ x.mask.getLsbD i.val = true)) :
    (heldBy (older ++ p :: younger) b).2[i] = p.data[i] := by
  induction younger using List.reverseRecOn with
  | nil => simp only [heldBy_concat, hb, if_true, overlay_get, hm]
  | append_singleton ys y ih =>
    have hrest := ih fun x hx => hy x (by simp [hx])
    have hlast := hy y (by simp)
    have hsplit : older ++ p :: (ys ++ [y]) = (older ++ p :: ys) ++ [y] := by simp
    rw [hsplit, heldBy_concat]
    split
    · rename_i hyb
      have hmask : ¬y.mask.getLsbD i.val = true := fun h => hlast ⟨hyb, h⟩
      rw [overlay_get, if_neg hmask, hrest]
    · exact hrest

/-- Settles O18. -/
theorem forwardedBytesAreYoungest : Obligations.ForwardedBytesAreYoungest := by
  intro q b i
  refine ⟨heldBy_mask q.posts b i, fun older younger p hq hb hm hy => ?_⟩
  rw [q.held_eq, hq]
  exact heldBy_data older younger p b i hb hm hy

/-! ## The lookup -/

/-- An entry covers the addresses of its aligned range (R1). -/
theorem RegionEntry.covers_iff (e : RegionEntry) (a : Addr) :
    e.covers a = true ↔ e.valid = true ∧
      e.base.toNat / 2 ^ e.size.toNat * 2 ^ e.size.toNat * 4096 ≤ a.toNat ∧
      a.toNat < (e.base.toNat / 2 ^ e.size.toNat + 1) * 2 ^ e.size.toNat * 4096 := by
  have hpos : 0 < 2 ^ e.size.toNat * 4096 := by positivity
  have hrange (c : Nat) : a.toNat / 4096 / 2 ^ e.size.toNat = c ↔
      c * 2 ^ e.size.toNat * 4096 ≤ a.toNat ∧ a.toNat < (c + 1) * 2 ^ e.size.toNat * 4096 := by
    have hlower := Nat.le_div_iff_mul_le hpos (x := c) (y := a.toNat)
    have hupper := Nat.div_lt_iff_lt_mul hpos (x := a.toNat) (y := c + 1)
    rw [Nat.div_div_eq_div_mul, Nat.mul_comm 4096, Nat.mul_assoc, Nat.mul_assoc, ← hlower, ← hupper]
    omega
  simp only [covers, Bool.and_eq_true, beq_iff_eq, hrange]

/-- The effective attributes, by DEVICE (Table 1-3). -/
theorem Attrs.effective_eq (x : Attrs) :
    x.effective = if x.device then ⟨false, false, false, true, x.protect⟩
      else ⟨x.post, x.merge && x.post, x.keep, false, x.protect⟩ := by
  unfold effective
  cases x.device <;> simp

/-- The governing entry is the lowest-numbered one that covers the address (R4). -/
theorem RegionMap.governing_of_lowest (m : RegionMap) (a : Addr) (i : Fin 16) (hi : m.entries[i].covers a = true)
    (hlow : ∀ j : Fin 16, j < i → m.entries[j].covers a = false) : m.governing a = some i := by
  unfold governing
  rw [List.find?_eq_some_iff_getElem]
  refine ⟨hi, i.val, by simp, by simp, fun j hj => ?_⟩
  simpa using hlow ⟨j, by omega⟩ hj

/-- Without a covering entry D governs (R4). -/
theorem RegionMap.governing_eq_none (m : RegionMap) (a : Addr) (h : ∀ j : Fin 16, m.entries[j].covers a = false) :
    m.governing a = none := by
  unfold governing
  rw [List.find?_eq_none]
  intro j _
  simpa using h j

/-- Settles O7. -/
theorem regionLookup : Obligations.RegionLookup := by
  refine ⟨RegionEntry.covers_iff, fun m a => ⟨fun i hi hlow => ?_, fun h => ?_⟩⟩
  · simp only [RegionMap.lookup, m.governing_of_lowest a i hi hlow, Attrs.effective_eq]
  · simp only [RegionMap.lookup, m.governing_eq_none a h, Attrs.effective_eq]

end Sys2Proof.Machine
end

section
/-! Bytes, lanes, slots and beat lists. -/

namespace Sys2Proof.Machine

/-! ## Addresses -/

theorem blockOf_toNat (a : Addr) : (blockOf a).toNat = a.toNat / 16 := by
  have h := a.isLt
  simp only [blockOf, BitVec.extractLsb'_toNat, Nat.shiftRight_eq_div_pow]
  omega

theorem blockAddr_toNat (b : Block) : (blockAddr b).toNat = 16 * b.toNat := by
  rw [blockAddr, BitVec.toNat_append, Nat.shiftLeft_eq]
  simp
  omega

theorem Width.slots_eq (w : Width) : w.slots = 16 / w.bytes := by
  cases w <;> rfl

/-- A slot's address does not leave its block. -/
theorem beatAddr_toNat (w : Width) (b : Block) (slot : Nat) (h : slot < 16 / w.bytes) :
    (beatAddr w b slot).toNat = 16 * b.toNat + slot * w.bytes := by
  have hslot : slot * w.bytes < 16 := by
    cases w <;> simp only [Width.bytes] at h ⊢ <;> omega
  have hb := b.isLt
  rw [beatAddr, BitVec.toNat_add, blockAddr_toNat, BitVec.toNat_ofNat]
  omega

/-! ## Masks -/

theorem byteMask_getLsbD (first count : Nat) (i : Fin 16) :
    (byteMask first count).getLsbD i.val = true ↔ first ≤ i.val ∧ i.val < first + count := by
  rw [byteMask, BitVec.getLsbD_ofNat, Nat.testBit_mul_two_pow, Nat.testBit_two_pow_sub_one]
  simp
  omega

/-- The bytes of a slot (Table 5-2). -/
theorem slotMask_getLsbD (w : Width) (slot : Nat) (i : Fin 16) :
    (slotMask w slot).getLsbD i.val = true ↔ i.val / w.bytes = slot := by
  rw [slotMask, byteMask_getLsbD]
  cases w <;> simp only [Width.bytes] <;> omega

/-- The number of set flags of a list of positions, as a cardinality. -/
theorem length_filter_range (n : Nat) (p : Nat → Bool) :
    ((List.range n).filter p).length = (Finset.univ.filter fun i : Fin n => p i.val = true).card := by
  induction n generalizing p with
  | zero => rfl
  | succ n ih =>
    have hrest := ih (p ∘ Nat.succ)
    rw [List.range_succ_eq_map, Fin.card_filter_univ_succ']
    simp only [List.filter_cons, List.filter_map, Function.comp_def] at hrest ⊢
    by_cases h : p 0
    · simp [h, hrest]
      omega
    · simp [h, hrest]

/-! ## Lanes -/

/-- The lanes of a beat over a slot that the block has. -/
theorem beatOn_lanes (w : Width) (m : Mask) (slot : Nat) (n : Fin 4) :
    (beatOn w m slot).lanes.getLsbD n.val = (m &&& slotMask w slot).getLsbD (slot * w.bytes / 4 * 4 + n.val) := by
  simp [beatOn, slotWord, Nat.mul_comm]

/-- The bytes of a beat over a slot are those of the mask in the slot (R95). -/
theorem beatOn_bytes (w : Width) (m : Mask) (slot : Nat) : (beatOn w m slot).bytes w = m &&& slotMask w slot := by
  refine BitVec.eq_of_getLsbD_eq fun i hi => ?_
  have hs := slotMask_getLsbD w slot ⟨i, hi⟩
  cases hbit : (slotMask w slot).getLsbD i with
  | false => simp only [Beat.bytes, BitVec.getLsbD_and, hbit, Bool.and_false, beatOn]
  | true =>
    have hword : 4 * slotWord w slot ≤ i ∧ i - 4 * slotWord w slot < 4 := by
      have hslot := hs.mp hbit
      cases w <;> simp only [Width.bytes, slotWord] at hslot ⊢ <;> omega
    obtain ⟨hle, hlt⟩ := hword
    simp [Beat.bytes, beatOn, hi, hlt, Nat.not_lt.mpr hle, Nat.add_sub_cancel' hle]

/-- A byte of a data word by its lane (R93). -/
theorem extractLsb'_lanes (l3 l2 l1 l0 : Byte) (n : Nat) (hn : n < 4) :
    (l3 ++ l2 ++ l1 ++ l0).extractLsb' (8 * n) 8 = [l0, l1, l2, l3].getD n 0 := by
  refine BitVec.eq_of_getLsbD_eq fun i hi => ?_
  rw [BitVec.getLsbD_extractLsb', BitVec.getLsbD_append, BitVec.getLsbD_append, BitVec.getLsbD_append,
    decide_eq_true hi, Bool.true_and]
  interval_cases n
  · rw [if_pos (by omega), Nat.mul_zero, Nat.zero_add]
    rfl
  · rw [if_neg (by omega), if_pos (by omega), Nat.mul_one, Nat.add_sub_cancel_left]
    rfl
  · rw [if_neg (by omega), if_neg (by omega), if_pos (by omega), show 8 * 2 + i - 8 - 8 = i by omega]
    rfl
  · rw [if_neg (by omega), if_neg (by omega), if_neg (by omega), show 8 * 3 + i - 8 - 8 - 8 = i by omega]
    rfl

theorem readBytes_length (d : BlockData) (first count : Nat) (h : first + count ≤ 16) :
    (readBytes d first count).length = count := by
  simp [readBytes]
  omega

theorem readBytes_get (d : BlockData) (first count k : Nat) (i : Fin 16) (hk : k < count) (hi : i.val = first + k) :
    (readBytes d first count)[k]? = some d[i] := by
  simp [readBytes, hk, ← hi]

/-! ## Beat lists -/

theorem mem_beatsFor (w : Width) (m : Mask) (b : Beat) :
    b ∈ beatsFor w m ↔ ∃ slot < w.slots, masksMeet m (slotMask w slot) = true ∧ beatOn w m slot = b := by
  simp only [beatsFor, List.mem_map, List.mem_filter, List.mem_range, and_assoc]

theorem beatsFor_slots (w : Width) (m : Mask) : ((beatsFor w m).map Beat.slot).Pairwise (· < ·) := by
  have hslots : (beatsFor w m).map Beat.slot =
      (List.range w.slots).filter fun slot => masksMeet m (slotMask w slot) := by
    simp [beatsFor, List.map_map, Function.comp_def, beatOn]
  rw [hslots]
  exact List.pairwise_lt_range.filter _

/-- The bytes of a beat of a list over a mask: those of the mask in its slot, of which there is one (R18, R95). -/
theorem beatsFor_bytes (w : Width) (m : Mask) (b : Beat) (h : b ∈ beatsFor w m) :
    b.bytes w ≠ 0 ∧ (∀ i : Fin 16, (b.bytes w).getLsbD i.val = true ↔
      m.getLsbD i.val = true ∧ i.val / w.bytes = b.slot) ∧
    ∀ n : Fin 4, b.lanes.getLsbD n.val = (b.bytes w).getLsbD (b.slot * w.bytes / 4 * 4 + n.val) := by
  obtain ⟨slot, -, hmeet, rfl⟩ := (mem_beatsFor w m b).mp h
  rw [beatOn_bytes]
  refine ⟨?_, fun i => ?_, beatOn_lanes w m slot⟩
  · rwa [masksMeet, bne_iff_ne] at hmeet
  · rw [BitVec.getLsbD_and, Bool.and_eq_true, slotMask_getLsbD]
    rfl

/-- Every byte of the mask has a beat over its slot (R18). -/
theorem beatsFor_covers (w : Width) (m : Mask) (i : Fin 16) (h : m.getLsbD i.val = true) :
    ∃ b ∈ beatsFor w m, b.slot = i.val / w.bytes := by
  have hslot : i.val / w.bytes < w.slots := by
    cases w <;> simp only [Width.bytes, Width.slots] <;> omega
  have hmeet : masksMeet m (slotMask w (i.val / w.bytes)) = true :=
    (masksMeet_iff _ _).mpr ⟨i, h, (slotMask_getLsbD w _ i).mpr rfl⟩
  exact ⟨_, (mem_beatsFor w m _).mpr ⟨_, hslot, hmeet, rfl⟩, rfl⟩

theorem fillBeats_length (w : Width) (first : Nat) : (fillBeats w first).length = 16 / w.bytes := by
  rw [fillBeats, wrapSlots, List.length_map, List.length_map, List.length_range, w.slots_eq]

/-- The beats of a FILL: whole slots, in wrap order (R57). -/
theorem fillBeats_get (w : Width) (first k : Nat) (b : Beat) (h : (fillBeats w first)[k]? = some b) :
    b = beatOn w allBytes ((first / w.bytes + k) % (16 / w.bytes)) := by
  have hk : k < 16 / w.bytes := by
    rw [← fillBeats_length w first]
    exact (List.getElem?_eq_some_iff.mp h).1
  rw [← w.slots_eq] at hk ⊢
  simpa [fillBeats, wrapSlots, hk] using h.symm

/-- A whole slot. -/
theorem beatOn_allBytes (w : Width) (slot : Nat) (i : Fin 16) :
    ((beatOn w allBytes slot).bytes w).getLsbD i.val = true ↔ i.val / w.bytes = slot := by
  have hall : allBytes.getLsbD i.val = true := by
    revert i
    decide
  rw [beatOn_bytes, BitVec.getLsbD_and, hall, Bool.true_and, slotMask_getLsbD]

/-- M_DATA lane by lane (R92). -/
theorem beatData_lane (w : Width) (d : BlockData) (b : Beat) (n : Fin 4) :
    (beatData w d b).extractLsb' (8 * n.val) 8 =
      if b.lanes.getLsbD n.val then d.toList.getD (4 * slotWord w b.slot + n.val) 0 else 0xFF := by
  refine (extractLsb'_lanes _ _ _ _ n.val n.isLt).trans ?_
  fin_cases n <;> rfl

theorem lowLane_eq (be : Lanes) (n : Fin 4) (hn : be.getLsbD n.val = true)
    (h : ∀ k : Fin 4, k < n → be.getLsbD k.val = false) : lowLane be = n.val := by
  revert be n
  decide

/-- Settles O8. -/
theorem beatLists : Obligations.BeatLists := by
  refine ⟨fun w m => ⟨beatsFor_slots w m, fun b hb => (beatsFor_bytes w m b hb).1,
      fun b hb => (beatsFor_bytes w m b hb).2.1, fun b hb => (beatsFor_bytes w m b hb).2.2, beatsFor_covers w m⟩,
    fun w first => ⟨fillBeats_length w first.val, fun k b hb => ?fill⟩, ⟨rfl, rfl, rfl⟩, beatAddr_toNat,
    fun w d b n => ⟨fun hn => ?idle, fun i hi hn => ?enabled⟩, fun x i => ⟨rfl, spreadWord_get x i⟩, overlay_get,
    byteMask_getLsbD, fun d first count h => ⟨readBytes_length d first count h, fun k i hk hi =>
      readBytes_get d first count k i hk hi⟩,
    fun a => ⟨blockOf_toNat a, rfl, wordOf_toNat a⟩, ⟨blockAddr_toNat, wordAddr_toNat⟩,
    ⟨fun m => length_filter_range 16 _, fun be => ⟨length_filter_range 4 _, lowLane_eq be⟩⟩, fun k => ?writes,
    fun t b hb => ?phase, fun p => rfl, fun w k => ?work⟩
  case fill =>
    obtain rfl := fillBeats_get w first.val k b hb
    exact ⟨rfl, beatOn_allBytes w _, fun n => by rw [beatOn_lanes, beatOn_bytes]; rfl⟩
  case idle => rw [beatData_lane, hn, if_neg Bool.false_ne_true]
  case enabled =>
    have hget : d.toList.getD (4 * slotWord w b.slot + n.val) 0 = d[i] := by
      have hindex : 4 * slotWord w b.slot + n.val = i.val := by
        rw [hi, slotWord, Nat.mul_comm]
      simp [hindex]
    rw [beatData_lane, hn, if_pos rfl, hget]
  case writes => cases k <;> simp [TxnKind.writes]
  case phase => simp [Txn.phase, hb]
  case work => simp [Work.txn, Work.mask]

end Sys2Proof.Machine
end

section
/-! Time, the peers' lines, the Snoop Check, and the rounds. -/

namespace Sys2Proof.Machine

/-! ## Ticks and expiries -/

theorem Timer.iterate_tick (n k : Nat) : Timer.tick^[k] (.running n) = .running (n - k) := by
  induction k generalizing n with
  | zero => rfl
  | succ k ih => rw [Function.iterate_succ_apply, Timer.tick, ih, Nat.sub_sub, Nat.add_comm]

theorem Tenure.iterate_tick (n k : Nat) : Tenure.tick^[k] (.running n) = .running (n - k) := by
  induction k generalizing n with
  | zero => rfl
  | succ k ih => rw [Function.iterate_succ_apply, Tenure.tick, ih, Nat.sub_sub, Nat.add_comm]

/-- Settles O34: one tick at the wrap, and each tick takes one from a running timer. -/
theorem clockMakesTicks : Obligations.ClockMakesTicks := by
  refine ⟨fun s => ⟨fun h => congrArg Host.Outcome.next (if_pos h), fun h =>
    congrArg Host.Outcome.next (if_neg (Nat.not_lt.mpr h)), rfl⟩, fun n k => ⟨?_, ?_, ?_, ?_, ?_⟩⟩
  · rw [Timer.iterate_tick, Timer.running.injEq, Nat.sub_eq_zero_iff_le]
  · rw [Tenure.iterate_tick, Tenure.running.injEq, Nat.sub_eq_zero_iff_le]
  · exact Function.iterate_fixed rfl k
  · exact Function.iterate_fixed rfl k
  · exact Function.iterate_fixed rfl k

/-- Settles O35: each expiry where it is due, and where it is not. -/
theorem expiriesTakeEffect : Obligations.ExpiriesTakeEffect := by
  refine ⟨⟨fun s l hl ho ht => ?lock, fun s h => ?lockNotDue⟩, fun s =>
    ⟨fun p ho ht => ⟨fun hw => ?tenure, fun hw => ?spent⟩, fun p ho ht => ?yield, fun ht => ?tenureNotDue,
      fun ht => ?yieldNotDue⟩⟩
  case lock =>
    have h : s.begin.lockExpires = ((s.begin.record (lockRecord .lockExpired l)).dropLock).finish := by
      simp [State.lockExpires, hl, ho, ht]
    exact congrArg Host.Outcome.next h
  case lockNotDue =>
    have hnone : s.begin.lockExpires = s.begin := by
      unfold State.lockExpires
      split
      · rename_i l hl
        refine if_neg fun hdue => ?_
        simp only [Bool.and_eq_true, beq_iff_eq] at hdue
        exact h l hl hdue.1 hdue.2
      · rfl
    exact congrArg Host.Outcome.next hnone
  case tenure =>
    have h : s.begin.tenureExpires = { s.begin with oar := s.oar.askRelease } := by
      have hw' : s.begin.otherWaits = true := hw
      simp [State.tenureExpires, ho, ht, hw']
    exact congrArg Host.Outcome.next h
  case spent =>
    have h : s.begin.tenureExpires = { s.begin with oar := { s.oar with tenureTimer := .spent } } := by
      have hw' : s.begin.otherWaits = false := hw
      simp [State.tenureExpires, ho, ht, hw']
    exact congrArg Host.Outcome.next h
  case yield =>
    have h : s.begin.yieldExpires = { s.begin with oar := s.oar.bar p }.record (overstayRecord p) := by
      simp [State.yieldExpires, ho, ht]
    exact congrArg Host.Outcome.next h
  case tenureNotDue =>
    have h : s.begin.tenureExpires = s.begin := by
      unfold State.tenureExpires
      split
      · simp [ht]
      · rfl
    exact congrArg Host.Outcome.next h
  case yieldNotDue =>
    have h : s.begin.yieldExpires = s.begin := by
      unfold State.yieldExpires
      split
      · simp [ht]
      · rfl
    exact congrArg Host.Outcome.next h

/-! ## The peers' lines -/

/-- Settles O36. -/
theorem peerLinesMove : Obligations.PeerLinesMove := by
  intro p s
  refine ⟨rfl, fun ho => ?owner, fun ho => ?other⟩
  case owner => exact congrArg Host.Outcome.next (if_pos (beq_iff_eq.mpr ho))
  case other => exact congrArg Host.Outcome.next (if_neg fun h => ho (beq_iff_eq.mp h))

/-! ## The Snoop Check -/

/-- Two posts of a well-formed queue have different seqs (R19). -/
theorem PostQueue.seqs_nodup (q : PostQueue) (hwf : q.wf = true) : (q.posts.map Post.seq).Nodup := by
  have hlen := (q.wf_iff.mp hwf).1
  simp only [wf, Bool.and_eq_true, decide_eq_true_eq] at hwf
  obtain ⟨⟨-, hseqs⟩, -⟩ := hwf
  rw [hseqs]
  refine List.nodup_range.map_on fun i hi j hj hij => ?_
  have hdistance : BitVec.ofNat 8 (q.posts.length - i) = BitVec.ofNat 8 (q.posts.length - j) := by
    simpa using hij
  have hnat := congrArg BitVec.toNat hdistance
  simp only [BitVec.toNat_ofNat, List.mem_range] at hnat hi hj
  omega

theorem PostQueue.position_append (q : PostQueue) (older rest : List Post) (hq : q.posts = older ++ rest) (s : Seq) :
    q.position s = if s ∈ older.map Post.seq then older.findIdx (fun p => p.seq == s)
      else rest.findIdx (fun p => p.seq == s) + older.length := by
  rw [position, hq, List.findIdx_append]
  simp

/-- The position of a post of the queue. -/
theorem PostQueue.position_lt_iff (q : PostQueue) (older younger : List Post) (target post : Post)
    (hwf : q.wf = true) (hq : q.posts = older ++ target :: younger) (hp : post ∈ q.posts) :
    q.position target.seq < q.position post.seq ↔ post ∈ younger := by
  have hnodup := q.seqs_nodup hwf
  simp only [hq, List.map_append, List.map_cons, List.nodup_append, List.nodup_cons] at hnodup
  obtain ⟨-, ⟨htarget, -⟩, hdisjoint⟩ := hnodup
  have hfresh (x : Post) (hx : x ∈ target :: younger) : x.seq ∉ older.map Post.seq := fun hold =>
    hdisjoint _ hold x.seq (by simpa using List.mem_map_of_mem (f := Post.seq) hx) rfl
  have hposition : q.position target.seq = older.length := by
    rw [q.position_append older _ hq, if_neg (hfresh target List.mem_cons_self), List.findIdx_cons]
    simp
  rw [hposition, q.position_append older _ hq]
  constructor
  · intro hlt
    rw [hq, List.mem_append, List.mem_cons] at hp
    rcases hp with hold | rfl | hyoung
    · have hbefore : older.findIdx (fun p => p.seq == post.seq) < older.length :=
        List.findIdx_lt_length_of_exists ⟨post, hold, by simp⟩
      rw [if_pos (List.mem_map_of_mem hold)] at hlt
      omega
    · rw [if_neg (hfresh post List.mem_cons_self), List.findIdx_cons] at hlt
      simp at hlt
    · exact hyoung
  · intro hyoung
    have hne : (target.seq == post.seq) = false :=
      beq_false_of_ne fun heq => htarget (heq ▸ List.mem_map_of_mem hyoung)
    rw [if_neg (hfresh post (List.mem_cons_of_mem _ hyoung)), List.findIdx_cons, hne]
    simp

/-- The post that the obligation of a snoop retry drains through: the one found, or the target if that is younger
(R149, R150). -/
def State.obligedTo (s : State) (post : Post) : Seq :=
  match s.mpe.obligation with
  | none => post.seq
  | some o => if s.pq.position o < s.pq.position post.seq then post.seq else o

theorem State.oblige_eq (s : State) (post : Post) :
    s.oblige post = { s with mpe := { s.mpe with obligation := some (s.obligedTo post) } } := by
  cases ho : s.mpe.obligation with
  | none => simp only [oblige, obligedTo, ho]
  | some o =>
    simp only [oblige, obligedTo, ho]
    split
    · rfl
    · rw [← ho]

/-- The Snoop Check of a barred owner (R156). -/
theorem State.snoop_barred (s : State) (p : Peer) (ph : AddressPhase) (hb : (s.oar.peers.get p).barred = true) :
    s.snoop p ph = s.retryPeer := if_pos hb

/-- The Snoop Check of a phase that overlaps no post (R154). -/
theorem State.snoop_clear (s : State) (p : Peer) (ph : AddressPhase) (hb : (s.oar.peers.get p).barred = false)
    (ho : s.pq.youngestOverlap (blockOf ph.addr) (checkRange ph.addr ph.be) = none) :
    s.snoop p ph = s.passPeer ph := by
  simp [snoop, hb, ho]

/-- The Snoop Check of a phase over a post of a RUNNING queue (R148, R149, R150). -/
theorem State.snoop_running (s : State) (p : Peer) (ph : AddressPhase) (post : Post)
    (hb : (s.oar.peers.get p).barred = false)
    (ho : s.pq.youngestOverlap (blockOf ph.addr) (checkRange ph.addr ph.be) = some post)
    (hs : s.pq.state = .running) :
    s.snoop p ph =
      { s with
        oar := if s.oar.pRel then s.oar else s.oar.askRelease
        mpe := { s.mpe with obligation := some (s.obligedTo post) }
        port := none
        out := { s.out with peerRetry := true } } := by
  have hask : s.oar.snoopRetry p = if s.oar.pRel then s.oar else s.oar.askRelease := by
    simp [Arbiter.snoopRetry, hb]
  have hsnoop : s.snoop p ph = (State.oblige { s with oar := s.oar.snoopRetry p } post).retryPeer := by
    simp [snoop, hb, ho, hs]
  rw [hsnoop, oblige_eq, hask]
  rfl

/-- The Snoop Check of a phase over a post of a HALTED queue (R153). -/
theorem State.snoop_halted (s : State) (p : Peer) (ph : AddressPhase) (post : Post)
    (hb : (s.oar.peers.get p).barred = false)
    (ho : s.pq.youngestOverlap (blockOf ph.addr) (checkRange ph.addr ph.be) = some post)
    (hs : s.pq.state = .halted) :
    s.snoop p ph = (s.record (overtakeRecord p (wordAddr (wordOf ph.addr) + BitVec.ofNat 32 (lowLane ph.be))
      (laneCount ph.be) post.seq)).passPeer ph := by
  simp [snoop, hb, ho, hs]

/-- A phase that passes (R154, R155). -/
theorem State.passPeer_eq (s : State) (addr : Addr) (wr : Bool) (be : Lanes) (more : Bool) :
    s.passPeer ⟨addr, wr, be, more, none⟩ =
      { s with
        port := some ⟨addr, wr, be, more, none⟩
        ls := if wr = true ∧ be ≠ 0 then s.ls.invalidate (blockOf addr) else s.ls } := by
  simp [passPeer]

/-- Settles O37: Table 8-1 row by row. -/
theorem snoopCheck : Obligations.SnoopCheck := by
  refine ⟨fun addr wr be more s p ho => ?owned, fun addr wr be more s ho => ?free⟩
  case free =>
    have hnone : (match s.oar.owner with
        | .peer p => s.begin.snoop p ⟨addr, wr, be, more, none⟩
        | _ => s.begin) = s.begin := by
      split
      · exact absurd ‹_› (ho _)
      · rfl
    exact congrArg Host.Outcome.next hnone
  case owned =>
    have hexec : exec (.peerAddressPhase addr wr be more) s =
        .next (s.begin.snoop p ⟨addr, wr, be, more, none⟩) := by
      show execPeerAddressPhase addr wr be more s = _
      simp only [execPeerAddressPhase, ho]
    refine ⟨fun hb => ?barred, fun hb => ⟨fun hover => ?passes, fun post hover =>
      ⟨fun hs => ?running, fun hs => ?halted⟩⟩⟩
    case barred =>
      rw [hexec, s.begin.snoop_barred p ⟨addr, wr, be, more, none⟩ hb]
      rfl
    case passes =>
      rw [hexec, s.begin.snoop_clear p ⟨addr, wr, be, more, none⟩ hb hover, State.passPeer_eq]
      rfl
    case halted =>
      rw [hexec, s.begin.snoop_halted p ⟨addr, wr, be, more, none⟩ post hb hover hs, State.passPeer_eq]
      rfl
    case running =>
      rw [hexec, s.begin.snoop_running p ⟨addr, wr, be, more, none⟩ post hb hover hs]
      refine ⟨fun hnone => ?created, fun older younger target hwf hq hsome => ?extended⟩
      case created =>
        have hto : s.begin.obligedTo post = post.seq := by
          simp [State.obligedTo, hnone]
        rw [hto]
        rfl
      case extended =>
        have hmem : post ∈ s.pq.posts := by
          obtain ⟨_, _, hposts, -⟩ := (s.pq.youngestOverlap_eq_some _ _ _).mp hover
          simp [hposts]
        have hto : s.begin.obligedTo post = if post ∈ younger then post.seq else target.seq := by
          simp only [State.obligedTo, State.begin_mpe, State.begin_pq, hsome,
            s.pq.position_lt_iff older younger target post hwf hq hmem]
        refine ⟨fun hy => ?_, fun hy => ?_⟩
        · rw [hto, if_pos hy]
          rfl
        · rw [hto, if_neg hy]
          rfl

end Sys2Proof.Machine
end

section
/-! Rounds and levels, the work selection, resumption, and the grant and release of the M-port. -/

namespace Sys2Proof.Machine

/-! ## Rounds and levels -/

/-- The winner is the first of the requesters at the highest level (R134). -/
theorem winnerOf_eq_some (x : List (Owner × Nat)) (o : Owner) :
    winnerOf x = some o ↔ ∃ (before after : List (Owner × Nat)) (l : Nat), x = before ++ (o, l) :: after ∧
      (∀ y ∈ before, y.2 < l) ∧ ∀ y ∈ after, y.2 ≤ l := by
  induction x with
  | nil => simp [winnerOf]
  | cons first rest ih =>
    obtain ⟨o', l'⟩ := first
    rw [winnerOf]
    by_cases htop : ∀ y ∈ rest, y.2 ≤ l'
    · rw [if_pos (by simpa using htop), Option.some.injEq]
      constructor
      · rintro rfl
        exact ⟨[], rest, l', rfl, by simp, htop⟩
      · rintro ⟨before, after, l, hx, hbefore, -⟩
        cases before with
        | nil => exact (Prod.mk.inj (List.cons.inj hx).1).1
        | cons y ys =>
          obtain ⟨rfl, hrest⟩ := List.cons.inj hx
          have hlt := hbefore _ List.mem_cons_self
          have hle := htop (o, l) (by simp [hrest])
          exact absurd hlt (Nat.not_lt.mpr hle)
    · rw [if_neg (by simpa using htop), ih]
      constructor
      · rintro ⟨before, after, l, rfl, hbefore, hafter⟩
        refine ⟨(o', l') :: before, after, l, rfl, fun y hy => ?_, hafter⟩
        rcases List.mem_cons.mp hy with rfl | hy
        · by_contra hle
          refine htop fun z hz => ?_
          have hl : l ≤ l' := Nat.not_lt.mp hle
          rcases List.mem_append.mp hz with hz | hz
          · exact (Nat.le_of_lt (hbefore z hz)).trans hl
          · rcases List.mem_cons.mp hz with rfl | hz
            · exact hl
            · exact (hafter z hz).trans hl
        · exact hbefore y hy
      · rintro ⟨before, after, l, hx, hbefore, hafter⟩
        cases before with
        | nil =>
          obtain ⟨hfirst, rfl⟩ := List.cons.inj hx
          obtain ⟨rfl, rfl⟩ := Prod.mk.inj hfirst
          exact absurd hafter htop
        | cons y ys =>
          obtain ⟨-, hrest⟩ := List.cons.inj hx
          exact ⟨ys, after, l, hrest, fun z hz => hbefore z (List.mem_cons_of_mem _ hz), hafter⟩

/-- A peer's request is regarded (R131). -/
theorem PeerLine.regarded_iff (x : PeerLine) :
    x.regarded = true ↔ x.req = true ∧ 1 ≤ x.level ∧ x.barred = false := by
  simp [regarded, and_assoc]

/-- The requesters stand in the chain order (R134). -/
theorem State.requesters_sublist (s : State) :
    (s.requesters.map Prod.fst).Sublist [.bridge, .peer .p0, .peer .p1, .peer .p2] := by
  have hpeers : ((allPeers.filter fun p => (s.oar.peers.get p).regarded).map Owner.peer).Sublist
      [.peer .p0, .peer .p1, .peer .p2] := List.filter_sublist.map Owner.peer
  unfold requesters
  rw [List.map_append, List.map_map]
  split
  · exact hpeers.cons_cons _
  · exact hpeers.cons _

/-- The lock hold by the lock's phase (R119). -/
theorem State.lockHold_iff (s : State) :
    s.lockHold = true ↔ ∃ l, s.hru.lock = some l ∧ (l.phase = .opened ∨ l.phase = .closing ∨
      l.phase = .opening ∧ ∃ t, s.mpe.txn = some t ∧ (t.kind = .lockedRead ∨ t.kind = .lockedWrite) ∧
        t.abandoned = false) := by
  have hrunning : s.mpe.lockedRunning = true ↔
      ∃ t, s.mpe.txn = some t ∧ (t.kind = .lockedRead ∨ t.kind = .lockedWrite) ∧ t.abandoned = false := by
    unfold Mpe.lockedRunning
    cases s.mpe.txn <;> simp
  unfold lockHold
  cases hl : s.hru.lock with
  | none => simp
  | some l => cases hp : l.phase <;> simp [hp, hrunning]

/-- The reasons for level 7 (R132). -/
theorem State.raised_iff (s : State) :
    s.raised = true ↔ s.pq.highWater ≤ s.pq.posts.length ∨ s.mpe.obligation.isSome ∨ s.lockHold = true ∨
      ∃ r, s.hru.request = some r ∧ (r.route = .ordered ∨ r.route = .lock) := by
  have hreports : s.hru.reportsWaiting = true ↔
      ∃ r, s.hru.request = some r ∧ (r.route = .ordered ∨ r.route = .lock) := by
    unfold Hru.reportsWaiting
    cases s.hru.request <;> simp
  simp only [raised, Bool.or_eq_true, hreports, or_assoc]
  exact or_congr decide_eq_true_iff Iff.rfl

/-- Settles O39. -/
theorem roundsAndLevels : Obligations.RoundsAndLevels := by
  refine ⟨⟨fun _ => rfl, fun s o l => ?members, State.requesters_sublist, winnerOf_eq_some⟩,
    fun s => ⟨?bridge, s.lockHold_iff⟩, fun s => ⟨fun hy => if_pos hy, fun hy => ⟨fun hr => ?raised, ?base⟩⟩⟩
  case members =>
    simp only [State.mem_requesters, PeerLine.regarded_iff, and_assoc]
  case bridge => simp [State.bridgeRequest, State.hasWork]
  case raised =>
    rw [State.bridgeLevel, if_neg (by simp [hy]), if_pos (s.raised_iff.mpr hr)]
  case base =>
    intro hcount hobligation hlock hrequest
    have hnot : ¬s.raised = true := by
      rw [s.raised_iff, hobligation, hlock]
      rintro (hc | hc | hc | ⟨r, hr, hc⟩)
      · exact absurd hcount (Nat.not_lt.mpr hc)
      · simp at hc
      · simp at hc
      · exact hc.elim (hrequest r hr).1 (hrequest r hr).2
    rw [State.bridgeLevel, if_neg (by simp [hy]), if_neg hnot]

/-! ## Work selection and resumption -/

theorem PostQueue.drainable_iff (q : PostQueue) :
    q.drainable = true ↔ q.state = .running ∧ ∃ p rest, q.posts = p :: rest ∧ p.state = .waiting := by
  unfold drainable
  cases q.posts <;> simp

/-- Settles O41. -/
theorem workSelectionAndResumption : Obligations.WorkSelectionAndResumption := by
  refine ⟨fun s => ⟨s.nextWork_of_txn, fun ht => ?selects, s.pq.drainable_iff⟩, fun s t => ⟨fun hk => ?other,
    fun f hk hf => ⟨fun hs => ?goesOn, fun hs ha => ?dropped, fun hs ha => ?restarts⟩⟩⟩
  case selects =>
    have hescalates : s.pq.escalation = true ↔ s.pq.highWater ≤ s.pq.posts.length := decide_eq_true_iff
    simp only [State.nextWork, ht, Bool.and_eq_true]
    cases hd : s.pq.drainable with
    | false => cases s.mpe.locked <;> cases s.mpe.handed <;> simp
    | true =>
      cases s.mpe.obligation <;> cases s.mpe.locked <;> cases s.mpe.demand <;> cases s.mpe.handed <;>
        simp [hescalates]
  case other =>
    unfold State.resume
    split
    · exact absurd ‹_› hk
    · exact absurd ‹_› hk
    · rfl
  case goesOn => simp [State.resume, hk, hf, hs, State.issue]
  case dropped =>
    simp [State.resume, hk, hf, hs, ha, State.dropFill, s.ls.endFill_of_fill f false hf, State.endTxn]
  case restarts =>
    simp [State.resume, hk, hf, hs, ha, State.restartFill, LineStore.restart, State.issue]

end Sys2Proof.Machine
end

section
/-! The grant, the keeping and the release of the M-port. -/

namespace Sys2Proof.Machine

/-- A transaction that runs leaves no work to select. -/
theorem State.running_of_nextWork (s : State) (w : Next) (h : s.nextWork = some w) : s.mpe.running = false := by
  cases ht : s.mpe.txn with
  | none => simp [Mpe.running, ht]
  | some t =>
    rw [s.nextWork_of_txn t ht] at h
    split at h
    · simp [Mpe.running, *]
    · cases h

/-- Work other than a resumption is selected without a transaction only. -/
theorem State.txn_of_nextWork (s : State) (w : Next) (h : s.nextWork = some w) (hw : ∀ t, w ≠ .resume t) :
    s.mpe.txn = none := by
  cases ht : s.mpe.txn with
  | none => rfl
  | some t =>
    rw [s.nextWork_of_txn t ht] at h
    split at h
    · exact absurd (Option.some.inj h).symm (hw t)
    · cases h

/-- The bridge that has been granted the M-port, or that keeps it with nothing running (R112, R115, R134). -/
def State.Holds (s u : State) : Prop :=
  s.oar.owner = .none ∧ s.roundWinner = some .bridge ∧
      u = { s with oar := { s.oar with owner := .bridge, yieldRound := false } } ∨
    s.oar.owner = .bridge ∧ s.mpe.running = false ∧
      (s.lockHold = true ∨ ∀ p, (s.oar.peers.get p).regarded = true → (s.oar.peers.get p).level ≤ s.bridgeLevel) ∧ u = s

theorem State.Holds.owner {s u : State} (h : s.Holds u) : u.oar.owner = .bridge := by
  rcases h with ⟨-, -, rfl⟩ | ⟨ho, -, -, rfl⟩
  · rfl
  · exact ho

/-- The grant leaves everything but the ownership alone. -/
theorem State.Holds.fields {s u : State} (h : s.Holds u) :
    u.mpe = s.mpe ∧ u.pq = s.pq ∧ u.ls = s.ls ∧ u.rmap = s.rmap := by
  rcases h with ⟨-, -, rfl⟩ | ⟨-, -, -, rfl⟩ <;> exact ⟨rfl, rfl, rfl, rfl⟩

/-- The M-port is settled as from the bridge's ownership. -/
theorem State.Holds.settle {s u : State} (h : s.Holds u) : s.settle = u.settle := by
  rcases h with ⟨ho, hr, rfl⟩ | ⟨-, -, -, rfl⟩
  · refine s.settle_of_nextMove _ ?_
    rw [s.nextMove_round ho, hr]
    rfl
  · rfl

/-- The bridge starts its selected work (R112, R113). -/
theorem State.Holds.nextMove {s u : State} (h : s.Holds u) (w : Next) (hw : s.nextWork = some w) :
    u.nextMove = some (u.start w) := by
  have hrunning := s.running_of_nextWork w hw
  rcases h with ⟨ho, hr, rfl⟩ | ⟨ho, -, hk, rfl⟩
  · exact (State.nextMove_keeps { s with oar := s.oar.grantBridge } rfl hrunning (s.grantBridge_keeps hr)).trans
      (congrArg (Option.map _) hw)
  · have hkeeps : (u.lockHold || u.keeps) = true := by
      rcases hk with hk | hk
      · simp [hk]
      · simp [State.keeps, State.hasWork, hw, u.not_outranked hk]
    rw [State.nextMove_keeps _ ho hrunning hkeeps, hw]
    rfl

/-- The step ends with the start of the selected work, if that runs (R113). -/
theorem State.Holds.starts {s u : State} (h : s.Holds u) (w : Next) (hw : s.nextWork = some w)
    (hne : ∀ t, w ≠ .resume t) : s.settle = u.start w := by
  have hu : u.mpe = s.mpe ∧ u.nextWork = s.nextWork := by
    rcases h with ⟨-, -, rfl⟩ | ⟨-, -, -, rfl⟩ <;> exact ⟨rfl, rfl⟩
  obtain ⟨hruns, hoar⟩ := u.start_runs w (hu.1 ▸ s.txn_of_nextWork w hw hne) (hu.2.trans hw)
  rw [h.settle, State.settle_of_nextMove u _ (h.nextMove w hw), State.settle_of_running _ (hoar ▸ h.owner) hruns]

/-- Under a lock hold the bridge keeps the M-port without work too (R115). -/
theorem State.Holds.idles {s u : State} (h : s.Holds u) (hl : s.lockHold = true) (hw : s.nextWork = none) :
    s.settle = u := by
  have hnone : u.nextMove = none := by
    cases hr : u.mpe.running with
    | true => exact u.nextMove_running h.owner hr
    | false =>
      have hu : u.lockHold = s.lockHold ∧ u.nextWork = s.nextWork := by
        rcases h with ⟨-, -, rfl⟩ | ⟨-, -, -, rfl⟩ <;> exact ⟨rfl, rfl⟩
      rw [u.nextMove_keeps h.owner hr (by simp [hu.1, hl]), hu.2, hw]
      rfl
  rw [h.settle, u.settle_of_nextMove_none hnone]
  simp [State.checkTenure, h.owner]

/-- A move of the M-port is part of the step's end. -/
theorem State.finish_of_settle {s u : State} (h : s.settle = u.settle) : s.finish = u.finish :=
  congrArg State.takePresented h

/-- The grant of a free M-port to a peer ends the moves of the step (R134, R138). -/
theorem State.settle_grantsPeer (s : State) (p : Peer) (ho : s.oar.owner = .none) (hw : s.roundWinner = some (.peer p)) :
    s.settle = { s with oar := s.oar.grantPeer p } := by
  have hmove : s.nextMove = some { s with oar := s.oar.grantPeer p } := by
    rw [s.nextMove_round ho, hw]
  have hspent : (s.oar.grantPeer p).tenureTimer ≠ .spent := by
    unfold Arbiter.grantPeer
    dsimp only
    split <;> nofun
  rw [s.settle_of_nextMove _ hmove, State.settle_of_nextMove_none _ (State.nextMove_peer _ p rfl)]
  refine if_neg ?_
  simp [hspent]

/-- Another requester waits beside an owning peer: the bridge, or another peer (R138). -/
theorem State.otherWaits_iff (s : State) (p : Peer) (ho : s.oar.owner = .peer p) :
    s.otherWaits = true ↔ s.bridgeRequest = true ∨ ∃ q, q ≠ p ∧ (s.oar.peers.get q).regarded = true := by
  have hmem (q : Peer) : q ∈ allPeers := by cases q <;> decide
  simp only [otherWaits, Bool.or_eq_true, List.any_eq_true, hmem, true_and, Arbiter.waits, ho, Bool.and_eq_true,
    bne_iff_ne, ne_eq, Owner.peer.injEq]
  exact or_congr_right (exists_congr fun q => by rw [and_comm, eq_comm])

/-- An owning peer keeps the M-port; only its spent tenure can end (R138). -/
theorem State.settle_of_peer (s : State) (p : Peer) (ho : s.oar.owner = .peer p) :
    s.settle = if s.oar.tenureTimer = .spent ∧ s.otherWaits = true then { s with oar := s.oar.askRelease } else s := by
  rw [s.settle_of_nextMove_none (s.nextMove_peer p ho)]
  simp only [checkTenure, ho, Bool.and_eq_true, beq_iff_eq]

/-- The bridge without work, or outranked, does not keep the M-port (R115). -/
theorem State.keeps_eq_false (s : State) (ho : s.oar.owner = .bridge)
    (h : s.nextWork = none ∨ ∃ p, (s.oar.peers.get p).regarded = true ∧ s.bridgeLevel < (s.oar.peers.get p).level) :
    s.keeps = false := by
  rcases h with h | ⟨p, hp, hlevel⟩
  · simp [keeps, hasWork, h]
  · have hout : s.outranked = true := by
      have hmem : p ∈ allPeers := by cases p <;> decide
      exact List.any_eq_true.mpr ⟨p, hmem, by simp [Arbiter.waits, ho, hp, hlevel]⟩
    simp [keeps, hout]

/-- A DRAIN's start shows on the head post, and leaves merging open only where another post is the tail (R24, R33). -/
theorem State.startDrain_of_head (s : State) (p : Post) (rest : List Post) (h : s.pq.posts = p :: rest) :
    s.startDrain = State.issue { s with pq := { s.pq with
      posts := { p with state := .draining, beatsDone := 0, retryCount := 0 } :: rest
      mergeOpen := s.pq.mergeOpen && !rest.isEmpty } } p.txn := by
  unfold startDrain PostQueue.startDrain
  rw [h]

theorem State.startHost_of_kind (s : State) (w : Work) (h : w.kind ≠ .fill) :
    s.startHost w = State.issue { s with mpe := { s.mpe with handed := none } } (w.txn w.kind) := by
  unfold startHost
  exact if_neg (by simpa using h)

/-- A FILL that fails the keep check starts as a FETCH (R55). -/
theorem State.startHost_unkept (s : State) (w : Work) (h : w.kind = .fill)
    (hk : s.rmap.keepCheck (blockOf w.addr) = false) :
    s.startHost w = State.issue { s with mpe := { s.mpe with handed := none } } (w.txn .fetch) := by
  simp [startHost, h, hk]

/-- A FILL that passes the keep check allocates its line (R55, R56). -/
theorem State.startHost_kept (s : State) (w : Work) (h : w.kind = .fill)
    (hk : s.rmap.keepCheck (blockOf w.addr) = true) :
    s.startHost w = State.issue
      { s with
        mpe := { s.mpe with handed := none }
        ls := s.ls.allocate (blockOf w.addr) (offsetOf w.addr) w.count } (w.txn .fill) := by
  simp [startHost, h, hk]

/-- Settles O40: every clause names the one move that settles the M-port, or that none is left. -/
theorem portGrantAndRelease : Obligations.PortGrantAndRelease := by
  unfold Obligations.PortGrantAndRelease
  simp only [and_comm (a := _ = false) (b := 1 ≤ _), ← PeerLine.regarded_iff]
  refine ⟨?_, ?_, ?_, ?_⟩
  case _ =>
    intro s p ho hp hw
    rw [s.finish_of_none hp, s.settle_grantsPeer p ho hw]
    rfl
  case _ =>
    intro s u hp hu
    have holds : s.Holds u := hu
    have finish (w : Next) (hw : s.nextWork = some w) (hne : ∀ t, w ≠ .resume t) : s.finish = u.start w := by
      rw [s.finish_of_none hp, holds.starts w hw hne]
    obtain ⟨hmpe, hpq, hls, hmap⟩ := holds.fields
    rw [← hmpe, ← hpq, ← hls, ← hmap]
    refine ⟨?_, ?_, ?_, ?_, ?_⟩
    case _ =>
      intro t hw
      exact State.finish_of_settle (holds.settle.trans (u.settle_of_nextMove _ (holds.nextMove _ hw)))
    case _ =>
      intro p rest hw hposts
      exact (finish _ hw fun _ h => Next.noConfusion h).trans (u.startDrain_of_head p rest hposts)
    case _ =>
      intro w hw
      exact finish _ hw fun _ h => Next.noConfusion h
    case _ =>
      intro w hw
      refine ⟨?_, ?_, ?_⟩
      · intro hk
        exact (finish _ hw fun _ h => Next.noConfusion h).trans (u.startHost_of_kind w hk)
      · intro hk hkeep
        exact (finish _ hw fun _ h => Next.noConfusion h).trans (u.startHost_unkept w hk hkeep)
      · intro hk hkeep
        exact (finish _ hw fun _ h => Next.noConfusion h).trans (u.startHost_kept w hk hkeep)
    case _ =>
      intro hl hw
      rw [s.finish_of_none hp, holds.idles hl hw]
  case _ =>
    intro s ho hr hl h
    have hkeeps : (s.lockHold || s.keeps) = false := by rw [hl, s.keeps_eq_false ho h, Bool.or_false]
    exact State.finish_of_settle (s.settle_of_nextMove _ (s.nextMove_releases ho hr hkeeps))
  case _ =>
    intro s p ho hp
    rw [s.finish_of_none hp, s.settle_of_peer p ho]
    refine ⟨?_, ?_⟩
    · intro hspent hwaits
      rw [if_pos ⟨hspent, (s.otherWaits_iff p ho).mpr hwaits⟩]
      rfl
    · rintro h
      refine if_neg ?_
      rintro ⟨hspent, hwaits⟩
      rcases h with h | ⟨hb, hq⟩
      · exact h hspent
      · rcases (s.otherWaits_iff p ho).mp hwaits with hb' | ⟨q, hne, hreg⟩
        · rw [hb] at hb'
          cases hb'
        · exact hq q hne hreg

end Sys2Proof.Machine
end

section
/-! The end of a step: what it leaves after a host reset, and how it takes the request that stands at the H-port. -/

namespace Sys2Proof.Machine

/-! ## Host reset -/

/-- The only work there can be is the DRAIN of the head post: nothing is handed over, and a fractured transaction is a
DRAIN. -/
def State.OnlyDrains (s : State) : Prop :=
  s.mpe.handed = none ∧ s.mpe.locked = none ∧ ∀ t, s.mpe.txn = some t → t.state = .fractured → t.kind = .drain

/-- What a DRAIN's start or resumption leaves as it stands. -/
def State.drainView (s : State) :=
  (s.pq.posts.map fun p => (p.identity, p.mask, p.data, p.merged), s.pq.nextSeq, s.pq.state, s.pq.mark,
    s.mpe.obligation, s.ls, s.out)

/-- A host reset leaves DRAINs as the only work (R89, R117). -/
theorem State.hostReset_onlyDrains (s : State) : s.hostReset.OnlyDrains := by
  refine ⟨rfl, rfl, fun t ht hstate => ?_⟩
  obtain ⟨u, -, hu⟩ := Option.bind_eq_some_iff.mp ht
  rw [u.hostReset_eq] at hu
  split at hu
  · cases hu
    assumption
  · split at hu
    · rename_i hcurrent
      cases hu
      exact absurd (hcurrent.1.symm.trans hstate) (by decide)
    · cases hu

theorem State.OnlyDrains.work {s : State} (h : s.OnlyDrains) {w : Next} (hw : s.nextWork = some w) :
    w = .drain ∨ ∃ t, w = .resume t ∧ t.kind = .drain := by
  obtain ⟨hhanded, hlocked, htxn⟩ := h
  cases ht : s.mpe.txn with
  | some t =>
    rw [s.nextWork_of_txn t ht] at hw
    split at hw
    · cases hw
      exact .inr ⟨t, rfl, htxn t ht ‹_›⟩
    · cases hw
  | none =>
    refine .inl ?_
    simp only [nextWork, ht, hlocked, hhanded] at hw
    repeat' split at hw
    all_goals cases hw
    all_goals rfl

theorem State.drainView_startDrain (s : State) : s.startDrain.drainView = s.drainView := by
  cases hp : s.pq.posts with
  | nil => simp only [startDrain, hp]
  | cons p rest =>
    rw [s.startDrain_of_head p rest hp]
    simp only [drainView, hp]
    rfl

theorem State.OnlyDrains.start {s : State} (h : s.OnlyDrains) {w : Next} (hw : s.nextWork = some w) :
    (s.start w).OnlyDrains ∧ (s.start w).drainView = s.drainView := by
  rcases h.work hw with rfl | ⟨t, rfl, hkind⟩
  · refine ⟨?_, s.drainView_startDrain⟩
    cases hp : s.pq.posts with
    | nil => simpa only [State.start, startDrain, hp] using h
    | cons p rest =>
      rw [State.start, s.startDrain_of_head p rest hp]
      refine ⟨h.1, h.2.1, fun t ht hstate => ?_⟩
      cases ht
      cases hstate
  · have hresume : s.resume t = s.issue { t with state := .current } := by
      unfold resume
      rw [hkind]
    rw [State.start, hresume]
    refine ⟨⟨h.1, h.2.1, fun u hu hstate => ?_⟩, rfl⟩
    cases hu
    cases hstate

theorem State.OnlyDrains.nextMove {s t : State} (h : s.OnlyDrains) (hm : s.nextMove = some t) :
    t.OnlyDrains ∧ t.drainView = s.drainView := by
  unfold State.nextMove at hm
  repeat' split at hm
  · cases hm
  · cases hm
  · obtain ⟨w, hw, rfl⟩ := Option.map_eq_some_iff.mp hm
    exact h.start hw
  · cases hm
    exact ⟨h, rfl⟩
  · cases hm
    exact ⟨h, rfl⟩
  · cases hm
    exact ⟨h, rfl⟩
  · cases hm

theorem State.OnlyDrains.arbitrate {s : State} (h : s.OnlyDrains) (n : Nat) :
    (s.arbitrate n).drainView = s.drainView := by
  induction n generalizing s with
  | zero => rfl
  | succ n ih =>
    rw [s.arbitrate_succ]
    cases hm : s.nextMove with
    | none => rfl
    | some t =>
      obtain ⟨ht, hview⟩ := h.nextMove hm
      exact (ih ht).trans hview

theorem State.OnlyDrains.settle {s : State} (h : s.OnlyDrains) : s.settle.drainView = s.drainView := by
  rw [← h.arbitrate movesPerStep]
  unfold State.settle checkTenure
  repeat' split
  all_goals rfl

/-- The step of a host reset ends with the settling of the M-port: under H_RST no request is taken (R89). -/
theorem State.finish_hostReset (s : State) : s.hostReset.finish = s.hostReset.settle := by
  refine State.takePresented_of_canTake _ ?_
  rw [(s.hostReset.settle_of_request_none rfl).1]
  simp [hostReset, Hru.canTake]

/-- Settles O5: behind the reset the step's end can only start or resume DRAINs. -/
theorem hostResetKeeps : Obligations.HostResetKeeps := by
  intro s t h
  obtain rfl : s.begin.hostReset.settle = t := s.begin.finish_hostReset ▸ Host.Outcome.next.inj h
  have hfixed := s.begin.hostReset.keeps_settle.fixed
  have hview := s.begin.hostReset_onlyDrains.settle
  obtain ⟨hhru, hflt⟩ := s.begin.hostReset.settle_of_request_none rfl
  simp only [State.fixed, Prod.mk.injEq] at hfixed
  simp only [State.drainView, Prod.mk.injEq] at hview
  obtain ⟨hmap, htb, hlink, -, -, hhold, hbeat, hretry, hwater, hhalt, hpeers, hbase, htenure, hyield, henables⟩ := hfixed
  obtain ⟨hposts, hseq, hstate, hmark, hobligation, hls, hout⟩ := hview
  refine ⟨hmap, hflt, htb, hlink, ?_, hposts, hseq, hstate, hmark, hpeers, hobligation, hls, ?_, ?_, ?_, hout⟩
  · simp only [State.items, htb, hbeat, hhold, htenure, hyield, hretry, hwater, hbase, hpeers, hhalt, henables]
    rfl
  all_goals
    rw [hhru]
    rfl

/-! ## The request at the H-port -/

/-- Behind no answers, and with the state's own other outputs, a state stands beside a request at the H-port. -/
theorem State.beside_nil (s : State) (o : Outputs) (x : Option HostRequest) (ha : o.answers = [])
    (hr : s.out.peerRetry = o.peerRetry) (hm : s.out.mdo = o.mdo) :
    s.beside o x = { s with hru := { s.hru with presented := x } } := by
  obtain ⟨answers, peerRetry, mdo⟩ := o
  dsimp only at ha hr hm
  subst ha hr hm
  rfl

/-- The settling of the M-port retries no peer and sends no bit of the link. -/
theorem State.settle_out (s : State) :
    s.settle.out.peerRetry = s.out.peerRetry ∧ s.settle.out.mdo = s.out.mdo := by
  have h := s.beside_settle ⟨[], s.out.peerRetry, s.out.mdo⟩ s.hru.presented
  rw [s.beside_self] at h
  rw [h]
  exact ⟨rfl, rfl⟩

/-- The take of a request retries no peer and sends no bit of the link. -/
theorem State.take_out (s : State) (h : HostRequest) :
    (s.take h).out.peerRetry = s.out.peerRetry ∧ (s.take h).out.mdo = s.out.mdo := by
  have h := s.beside_take ⟨[], s.out.peerRetry, s.out.mdo⟩ s.hru.presented h
  rw [s.beside_self] at h
  rw [h]
  exact ⟨rfl, rfl⟩

/-- The M-port is settled as without the request that stands at the H-port. -/
theorem State.settle_unpresented (s : State) (h : HostRequest) (hp : s.hru.presented = some h) :
    let t := State.settle { s with hru := { s.hru with presented := none } }
    s.settle = { t with hru := { t.hru with presented := some h } } := by
  intro t
  have hself : State.beside { s with hru := { s.hru with presented := none } } ⟨[], s.out.peerRetry, s.out.mdo⟩
      (some h) = s := by
    rw [← hp]
    rfl
  have hbeside := State.beside_settle { s with hru := { s.hru with presented := none } }
    ⟨[], s.out.peerRetry, s.out.mdo⟩ (some h)
  obtain ⟨hretry, hmdo⟩ := State.settle_out { s with hru := { s.hru with presented := none } }
  rw [hself] at hbeside
  exact hbeside.trans (State.beside_nil t _ _ rfl hretry hmdo)

/-- A request that the HRU takes at the end of the step is taken as its own command would take it, behind what the step
has put out (R74). -/
theorem State.take_settle_begin (t : State) (h : HostRequest) (hp : t.hru.presented = none) :
    (t.take h).settle = { (t.begin.take h).settle with
      out := { t.out with answers := t.out.answers ++ (t.begin.take h).settle.out.answers } } := by
  have hself : t.begin.beside t.out none = t := by
    rw [← hp]
    simp [State.beside, begin, Outputs.none]
  have hpresented : (t.begin.take h).settle.hru.presented = none :=
    (State.settle_presented _).trans ((State.take_presented _ h).trans hp)
  have hbeside : (t.take h).settle = (t.begin.take h).settle.beside t.out none := by
    rw [← State.beside_settle, ← State.beside_take, hself]
  rw [hbeside, State.beside, ← hpresented]

/-- Settles O38: `beside` carries the rest of the step past what it has put out and past the H-port. -/
theorem finishTakesHeldRequest : Obligations.FinishTakesHeldRequest := by
  refine ⟨Hru.canTake_iff, ?settled, ?held⟩
  case settled =>
    intro s hs hp
    rw [State.finish, s.settle_of_settled hs]
    rcases hp with hp | hp
    · simp only [State.takePresented, hp]
    · exact s.takePresented_of_canTake hp
  case held =>
    intro c h s t hc hp ht
    rw [State.finish_of_none _ rfl] at ht
    have hsettle := s.settle_unpresented h hp
    rw [ht] at hsettle
    have hnone : t.hru.presented = none := by
      rw [← ht, State.settle_presented]
    have hself : { t with hru := { t.hru with presented := none } } = t := by rw [← hnone]
    refine ⟨fun hcan => ?_, fun hcan => ?_⟩
    · rw [State.finish, hsettle]
      exact State.takePresented_of_canTake _ hcan
    · obtain ⟨hreq, hrst⟩ := t.hru.canTake_iff.mp hcan
      have hexec : exec c t = .next (t.begin.take h).settle := by
        rw [exec_takes c h t hc ⟨hreq, hnone, hrst⟩, t.begin.finish_take h hnone]
      obtain ⟨hretry, hmdo⟩ := State.settle_out (t.begin.take h)
      obtain ⟨hretry', hmdo'⟩ := t.begin.take_out h
      refine ⟨_, hexec, hretry.trans hretry', hmdo.trans hmdo', ?_⟩
      rw [← t.take_settle_begin h hnone, State.finish, hsettle]
      exact (if_pos hcan).trans (congrArg (fun u => (State.take u h).settle) hself)

end Sys2Proof.Machine
end

section
/-! What a read that its take answers OK returns. -/

namespace Sys2Proof.Machine

/-! ## What the take can do to a read -/

/-- The bytes that `d` gives for `r` are the newest that the posts of `r`'s block hold (R29). -/
def State.Newest (s : State) (r : Request) (d : BlockData) : Prop :=
  ∀ i : Fin 16, (s.pq.held r.block).1.getLsbD i.val = true → d[i] = (s.pq.held r.block).2[i]

/-- No OK answer is given. -/
def State.NoOk (s t : State) : Prop :=
  t.out.answers = s.out.answers ∨ ∃ d, t.out.answers = s.out.answers ++ [⟨.fault, d⟩]

/-- The read is answered OK with the newest bytes. -/
def State.Reads (s : State) (r : Request) (t : State) : Prop :=
  ∃ d, s.Newest r d ∧ t.out.answers = s.out.answers ++ [⟨.ok, readBytes d (offsetOf r.addr) r.count⟩]

/-- The transaction and the ownership stand, and a read is answered OK with the newest bytes or not at all. -/
structure State.ReadStep (s : State) (r : Request) (t : State) : Prop where
  txn : t.mpe.txn = s.mpe.txn
  oar : t.oar = s.oar
  out : s.NoOk t ∨ s.Reads r t

theorem State.noOk_answerFault (s : State) (r : Request) (k : FaultKind) (c : Option Cause) :
    s.NoOk (s.answerFault r k c) := .inr ⟨_, rfl⟩

theorem State.readStep_answerFault (s : State) (r : Request) (k : FaultKind) (c : Option Cause) :
    s.ReadStep r (s.answerFault r k c) := ⟨rfl, rfl, .inl (s.noOk_answerFault r k c)⟩

theorem State.readStep_handOver (s : State) (r : Request) : s.ReadStep r (s.handOver r) := by
  unfold handOver
  split <;> exact ⟨rfl, rfl, .inl (.inl rfl)⟩

theorem State.readStep_refuseDemand (s : State) (r : Request) : s.ReadStep r (s.refuseDemand r) := by
  have h : s.ReadStep r (s.undemanded.answerFault r .drainHalted none) := ⟨rfl, rfl, .inl (.inr ⟨_, rfl⟩)⟩
  simp only [refuseDemand]
  split
  · exact ⟨h.txn, h.oar, h.out⟩
  · exact h

theorem State.readStep_emptyQueueDemand (s : State) (r : Request) : s.ReadStep r (s.emptyQueueDemand r) := by
  rcases s.emptyQueueDemand_cases r with ⟨-, h⟩ | ⟨_, _, -, -, h⟩ | ⟨-, -, h⟩ <;> rw [h]
  · exact s.readStep_handOver r
  · exact ⟨rfl, rfl, .inl (.inl rfl)⟩
  · exact s.readStep_refuseDemand r

theorem State.readStep_answerOk (s : State) (r : Request) (d : BlockData) (hk : r.kind ≠ .write) (hd : s.Newest r d) :
    s.ReadStep r (s.answerOk r d) := by
  rw [s.answerOk_read r d hk]
  exact ⟨rfl, rfl, .inr ⟨d, hd, rfl⟩⟩

theorem State.readStep_queueRead (s : State) (r : Request) (hk : r.kind ≠ .write) : s.ReadStep r (s.queueRead r) := by
  rcases s.queueRead_cases r with ⟨-, h⟩ | ⟨-, ⟨-, h⟩ | ⟨p, -, ⟨-, h⟩ | ⟨-, h⟩⟩⟩ <;> rw [h]
  · exact s.readStep_answerOk r _ hk fun _ _ => rfl
  · exact s.readStep_handOver r
  · exact ⟨rfl, rfl, .inl (.inl rfl)⟩
  · exact s.readStep_refuseDemand r

/-- No line is older than the queue: each VALID line, and the FILLING one while STALE is clear, has the posts' bytes of
its block (R29, R44). -/
structure State.LinesCurrent (s : State) : Prop where
  wf : s.ls.wf = true
  valid : ∀ i w, (s.ls.line i w).state = .valid → s.agreesWithPosts (s.ls.line i w) = true
  filling : ∀ f, s.ls.fill = some f → f.stale = false → s.agreesWithPosts (s.ls.line f.set f.way) = true

/-- A line that agrees with the posts of its block has their newest bytes. -/
theorem State.newest_of_agrees (s : State) (r : Request) (x : Line) (hx : s.agreesWithPosts x = true)
    (hb : x.block = r.block) : s.Newest r x.data := by
  intro i hi
  have h := List.all_eq_true.mp hx i (List.mem_finRange i)
  rw [hb, hi, Bool.not_true, Bool.false_or, beq_iff_eq] at h
  exact h

theorem State.readStep_answerFromLine (s : State) (r : Request) (i : Fin 8) (w : Fin 4) (hk : r.kind ≠ .write)
    (hx : s.agreesWithPosts (s.ls.line i w) = true) (hb : (s.ls.line i w).block = r.block) :
    s.ReadStep r (s.answerFromLine r i w) := by
  obtain ⟨htxn, hoar, hout⟩ := State.readStep_answerOk { s with ls := s.ls.touch i w } r (s.ls.line i w).data hk
    (s.newest_of_agrees r _ hx hb)
  exact ⟨htxn, hoar, hout⟩

/-- The line that the fill context describes is the FILLING one (R45). -/
theorem LineStore.fill_of_filling (l : LineStore) (f : FillContext) (i : Fin 8) (w : Fin 4) (hwf : l.wf = true)
    (hf : l.fill = some f) (hs : (l.line i w).state = .filling) : f.set = i ∧ f.way = w := by
  simp only [wf, Bool.and_eq_true, List.all_eq_true, List.mem_finRange, forall_const, beq_iff_eq] at hwf
  have hline := (hwf.1 i).2 w
  simpa [hs, isFillLine, hf] using hline.symm

theorem State.readStep_examineKept (s : State) (r : Request) (hk : r.kind ≠ .write) (hc : s.LinesCurrent) :
    s.ReadStep r (s.examineKept r) := by
  have waits : s.ReadStep r (s.setWait .line) := ⟨rfl, rfl, .inl (.inl rfl)⟩
  unfold examineKept
  split
  · exact s.readStep_queueRead r hk
  · rename_i w hfind
    obtain ⟨hvalid, hb⟩ := s.ls.find_some _ w hfind
    split
    · rename_i hs
      split
      · rename_i f hf
        split
        · rename_i hserves
          obtain ⟨hset, hway⟩ := s.ls.fill_of_filling f _ w hc.wf hf (beq_iff_eq.mp hs)
          have hstale : f.stale = false := by
            simp only [FillContext.serves, Bool.and_eq_true, Bool.not_eq_true'] at hserves
            exact hserves.1
          exact s.readStep_answerFromLine r _ _ hk (hc.filling f hf hstale) (by rw [hset, hway, hb])
        · exact waits
      · exact waits
    · rename_i hs
      refine s.readStep_answerFromLine r _ _ hk (hc.valid _ w ?_) hb
      cases hstate : (s.ls.line (setOf r.block) w).state <;> simp_all

theorem State.readStep_openLock (s : State) (r : Request) : s.ReadStep r (s.openLock r) := by
  unfold openLock
  split
  · exact s.readStep_answerFault r _ _
  · obtain ⟨htxn, hoar, hout⟩ := State.readStep_emptyQueueDemand { s with hru := { s.hru with
        lock := some ⟨.opening, wordOf r.addr, r.addr, r.count, r.snap.index, .stopped⟩ } } r
    exact ⟨htxn, hoar, hout⟩

/-- The posted route is a write's (R21). -/
theorem write_of_posted (h : HostRequest) (snap : Snapshot) (hr : classify h snap = .posted) : h.kind = .write := by
  unfold classify at hr
  repeat' split at hr
  all_goals simp_all [postable]

theorem State.readStep_followRoute (s : State) (r : Request) (hk : r.kind ≠ .write) (hr : r.route ≠ .posted)
    (hc : s.LinesCurrent) : s.ReadStep r (s.followRoute r) := by
  unfold followRoute
  split
  · exact s.readStep_answerFault r _ _
  · unfold lockRoute
    rw [if_neg (by simpa using hk)]
    exact s.readStep_openLock r
  · exact absurd ‹_› hr
  · exact s.readStep_emptyQueueDemand r
  · exact s.readStep_emptyQueueDemand r
  · exact s.readStep_examineKept r hk hc
  · exact s.readStep_queueRead r hk

/-- What the reads of a route see: the posts, the lines, the transaction, the ownership and the outputs. -/
def State.readView (s : State) := (s.pq.posts, s.ls, s.mpe.txn, s.oar, s.out)

theorem State.readView_abandonLock (s : State) : s.abandonLock.readView = s.readView := by
  unfold abandonLock
  repeat' split
  all_goals rfl

theorem State.readView_holding (s : State) (h : HostRequest) : (s.holding h).readView = s.readView := by
  unfold holding
  split <;> rfl

theorem State.LinesCurrent.of_readView {s t : State} (h : s.LinesCurrent) (hv : t.readView = s.readView) :
    t.LinesCurrent := by
  simp only [readView, Prod.mk.injEq] at hv
  obtain ⟨hposts, hls, -⟩ := hv
  have hagrees : t.agreesWithPosts = s.agreesWithPosts := by
    funext x
    simp only [agreesWithPosts, PostQueue.held_eq, hposts]
  exact ⟨hls ▸ h.wf, by rw [hls, hagrees]; exact h.valid, by rw [hls, hagrees]; exact h.filling⟩

theorem State.ReadStep.of_readView {s t u : State} {r : Request} (h : t.ReadStep r u) (hv : t.readView = s.readView) :
    s.ReadStep r u := by
  simp only [readView, Prod.mk.injEq] at hv
  obtain ⟨hposts, -, htxn, hoar, hout⟩ := hv
  refine ⟨h.txn.trans htxn, h.oar.trans hoar, ?_⟩
  have := h.out
  simp only [NoOk, Reads, Newest, PostQueue.held_eq, hposts, hout] at this ⊢
  exact this

/-- The take of an illegal request answers FAULT (R72). -/
theorem State.take_illegal_step (s : State) (h : HostRequest) (hill : h.illegal = true) :
    (s.take h).mpe.txn = s.mpe.txn ∧ (s.take h).oar = s.oar ∧ s.NoOk (s.take h) := by
  have htake : s.take h = ((s.holding h).answerFault (s.requestOf h) .illegalRequest none).abandonLock := by
    unfold take
    rw [if_pos hill]
    rfl
  have hgone := State.readView_abandonLock ((s.holding h).answerFault (s.requestOf h) .illegalRequest none)
  have hheld := s.readView_holding h
  simp only [readView, Prod.mk.injEq] at hgone hheld
  obtain ⟨-, -, htxn, hoar, hout⟩ := hgone
  obtain ⟨-, -, htxn', hoar', hout'⟩ := hheld
  refine ⟨by rw [htake, htxn]; exact htxn', by rw [htake, hoar]; exact hoar', .inr ⟨(s.requestOf h).faultData, ?_⟩⟩
  rw [htake, hout, ← hout']
  rfl

/-- The take of a legal read: answered OK with the newest bytes, or not OK. -/
theorem State.readStep_take (s : State) (h : HostRequest) (hk : h.kind ≠ .write) (hill : h.illegal = false)
    (hc : s.LinesCurrent) : s.ReadStep (s.requestOf h) (s.take h) := by
  have hm : s.hru.matchesLock h = false := by
    unfold Hru.matchesLock
    split
    · simp [hk]
    · rfl
  have hview := (s.holding h).readView_abandonLock.trans (s.readView_holding h)
  rw [s.take_legal h hill hm]
  exact (State.readStep_followRoute _ _ hk (fun hr => hk (write_of_posted h _ hr)) (hc.of_readView hview)).of_readView
    hview

/-! ## What the end of the step can do to it -/

/-- No transaction is fractured. -/
def State.NoResume (s : State) : Prop := ∀ t, s.mpe.txn = some t → t.state ≠ .fractured

theorem State.NoResume.start {s : State} (h : s.NoResume) {w : Next} (hw : s.nextWork = some w) :
    (s.start w).NoResume ∧ (s.start w).out = s.out := by
  have issue (u : State) (t : Txn) (ht : t.state = .current) (hu : u.out = s.out) :
      (u.issue t).NoResume ∧ (u.issue t).out = s.out := by
    refine ⟨fun x hx => ?_, hu⟩
    cases hx
    simp [ht]
  cases w with
  | resume t =>
    cases ht : s.mpe.txn with
    | none =>
      rcases s.nextWork_cases ht with h | ⟨h, -⟩ | ⟨_, h⟩ | ⟨_, h⟩ <;> simp [h] at hw
    | some u =>
      rw [s.nextWork_of_txn u ht, if_neg (h u ht)] at hw
      cases hw
  | drain =>
    simp only [State.start, startDrain]
    split
    · exact ⟨h, rfl⟩
    · exact issue { s with pq := s.pq.startDrain } _ rfl rfl
  | locked w => exact issue { s with mpe := { s.mpe with locked := none } } _ rfl rfl
  | host w =>
    simp only [State.start, startHost]
    repeat' split
    all_goals exact issue _ _ rfl rfl

theorem State.NoResume.nextMove {s t : State} (h : s.NoResume) (hm : s.nextMove = some t) :
    t.NoResume ∧ t.out = s.out := by
  unfold State.nextMove at hm
  repeat' split at hm
  · cases hm
  · cases hm
  · obtain ⟨w, hw, rfl⟩ := Option.map_eq_some_iff.mp hm
    exact h.start hw
  · cases hm
    exact ⟨h, rfl⟩
  · cases hm
    exact ⟨h, rfl⟩
  · cases hm
    exact ⟨h, rfl⟩
  · cases hm

/-- Without a fractured transaction the settling of the M-port puts nothing out: only a fill that a resumption drops can
let a read be answered (R53, R68). -/
theorem State.NoResume.settle {s : State} (h : s.NoResume) : s.settle.out = s.out := by
  have harbitrate (n : Nat) : (s.arbitrate n).out = s.out := by
    induction n generalizing s with
    | zero => rfl
    | succ n ih =>
      rw [s.arbitrate_succ]
      cases hm : s.nextMove with
      | none => rfl
      | some t =>
        obtain ⟨ht, hout⟩ := h.nextMove hm
        exact (ih ht).trans hout
  rw [← harbitrate movesPerStep]
  unfold State.settle checkTenure
  repeat' split
  all_goals rfl

/-- In a settled part only a peer's ownership keeps a fractured transaction from its resumption (R105, R112). -/
theorem State.noResume_of_settled (s : State) (h : s.settled = true) (ho : ∀ p, s.oar.owner ≠ .peer p) : s.NoResume := by
  intro t ht hstate
  have hwork : s.nextWork = some (.resume t) := by rw [s.nextWork_of_txn t ht, if_pos hstate]
  cases hs : s.oar.owner with
  | peer p => exact ho p hs
  | bridge => simp [settled, hs, hwork, Mpe.running, ht, hstate] at h
  | none =>
    have hbridge : s.bridgeRequest = true := by simp [bridgeRequest, hs, hasWork, hwork]
    simp [settled, hs, requesters, hbridge] at h

/-- The settling of the M-port puts nothing out behind an operation that leaves the transaction and the ownership of a
settled part alone. -/
theorem State.settle_out_of_settled (s t : State) (h : s.settled = true) (htxn : t.mpe.txn = s.mpe.txn)
    (hoar : t.oar = s.oar) : t.settle.out = t.out := by
  cases ho : s.oar.owner with
  | peer p =>
    rw [t.settle_of_peer p (by rw [hoar, ho])]
    split <;> rfl
  | bridge | none =>
    have hs := s.noResume_of_settled h (by simp [ho])
    have ht : t.NoResume := fun x hx => hs x (htxn ▸ hx)
    exact ht.settle

/-! ## The reads -/

/-- The invariant holds the lines against the queue. -/
theorem State.linesCurrent_of_inv (s : State) (h : s.inv = true) : s.LinesCurrent := by
  have hwf : s.ls.wf = true := by
    simp only [inv, Bool.and_eq_true] at h
    simp only [h]
  have hcoherent : s.coherent = true := by
    simp only [inv, Bool.and_eq_true] at h
    simp only [h]
  simp only [coherent, Bool.and_eq_true, List.all_eq_true, List.mem_finRange, forall_const, Bool.or_eq_true] at hcoherent
  obtain ⟨⟨⟨-, hvalid⟩, hfill⟩, -⟩ := hcoherent
  refine ⟨hwf, fun i w hs => ?_, fun f hf hstale => ?_⟩
  · rcases hvalid i w with hne | ⟨-, hagrees⟩
    · simp [hs] at hne
    · exact hagrees
  · rw [hf] at hfill
    simp only [Option.all_some, Bool.and_eq_true, hstale, Bool.false_or] at hfill
    exact hfill.2

theorem State.settled_of_inv (s : State) (h : s.inv = true) : s.settled = true := by
  simp only [inv, Bool.and_eq_true] at h
  simp only [h]

/-- The requested bytes of a legal request lie in one block (R70, R72). -/
theorem offset_add_byteCount (h : HostRequest) (hill : h.illegal = false) : offsetOf h.address + h.byteCount ≤ 16 := by
  cases hk : h.kind with
  | read16 =>
    have hoff : offsetOf h.addr = 0 := by
      simp [HostRequest.illegal, hk] at hill
      exact hill.1.1
    simp [HostRequest.address, HostRequest.byteCount, hk, hoff]
  | read | write =>
    have hlanes : ∀ be : Lanes, lowLane be < 4 ∧ (lowLane be + if be == 0 then 4 else topLane be - lowLane be) ≤ 4 := by
      decide
    obtain ⟨hlow, htop⟩ := hlanes h.be
    have hcount : h.byteCount = if h.be == 0 then 4 else topLane h.be - lowLane h.be := by
      simp [HostRequest.byteCount, hk]
    have haddr := hostAddress_toNat h (by simp [hk]) hlow
    rw [offsetOf, hcount, haddr]
    omega

/-- Settles O54: the answer is the take's, from the queue or from a line that agrees with it; the end of the step gives
none. -/
theorem readsAreNeverStale : Obligations.ReadsAreNeverStale := by
  intro c h s t bytes hinv hc hk ht hexec hanswers
  rw [exec_takes c h s hc ht, s.begin.finish_take h ht.2.1] at hexec
  cases hexec
  obtain ⟨hwf, hvalid, hfilling⟩ := s.linesCurrent_of_inv hinv
  have hsettled : s.begin.settled = true := s.settled_of_inv hinv
  have refuses (hno : s.begin.NoOk (s.begin.take h)) (hout : (s.begin.take h).out.answers = [⟨.ok, bytes⟩]) : False := by
    rcases hno with hno | ⟨d, hno⟩ <;> rw [hout] at hno <;> simp [State.begin, Outputs.none] at hno
  cases hill : h.illegal with
  | true =>
    obtain ⟨htxn, hoar, hno⟩ := s.begin.take_illegal_step h hill
    rw [s.begin.settle_out_of_settled _ hsettled htxn hoar] at hanswers
    exact (refuses hno hanswers).elim
  | false =>
    obtain ⟨htxn, hoar, hout⟩ := s.begin.readStep_take h hk hill ⟨hwf, hvalid, hfilling⟩
    rw [s.begin.settle_out_of_settled _ hsettled htxn hoar] at hanswers
    rcases hout with hno | ⟨d, hnewest, hread⟩
    · exact (refuses hno hanswers).elim
    · obtain rfl : readBytes d (offsetOf h.address) h.byteCount = bytes := by
        rw [hanswers] at hread
        simpa [State.begin, Outputs.none] using hread.symm
      refine ⟨readBytes_length d _ _ (offset_add_byteCount h hill), ?_⟩
      intro k i older younger p hkb hi hposts hblock hmask hyounger
      have hheld : ((s.pq.held (blockOf h.address)).1.getLsbD i.val) = true :=
        (heldBy_mask s.pq.posts _ i).mpr ⟨p, by simp [hposts], hblock, hmask⟩
      have hvalue : (s.pq.held (blockOf h.address)).2[i] = p.data[i] := by
        rw [s.pq.held_eq, hposts]
        exact heldBy_data older younger p _ i hblock hmask hyounger
      have hdata : d[i] = (s.pq.held (blockOf h.address)).2[i] := hnewest i hheld
      rw [readBytes_get d _ _ k i hkb hi, hdata, hvalue]

end Sys2Proof.Machine
end

section
/-! The endings of a beat that leave the transaction to go on, or that have no outcome. -/

namespace Sys2Proof.Machine

/-! ## One beat -/

/-- The address phase of a transaction's first undone beat (Table 5-1, R96). -/
theorem Txn.phase_eq (t : Txn) (b : Beat) (h : t.beats[t.beatsDone]? = some b) :
    t.phase = some
      { addr := beatAddr t.snap.width t.block b.slot, wr := t.kind.writes, be := b.lanes
        more := decide (t.beatsDone + 1 < t.beats.length)
        data := if t.kind.writes then some (beatData t.snap.width t.data b) else none } := by
  simp only [phase, h, Option.map_some]

/-- Only the DRAIN's post takes the progress of the transaction (R34). -/
theorem State.syncPost_eq (s : State) (t : Txn) :
    s.syncPost t = { s with pq := if t.kind = .drain then { s.pq with posts := match s.pq.posts with
        | [] => []
        | p :: rest => { p with beatsDone := t.beatsDone, retryCount := t.retryCount } :: rest }
      else s.pq } := by
  by_cases hk : t.kind = .drain
  · simp only [syncPost, hk, if_true, PostQueue.progress, beq_self_eq_true]
    cases hp : s.pq.posts <;> simp only
    rw [← hp]
  · rw [s.syncPost_of_kind t hk, if_neg hk]

theorem State.deliverBeat_of_kind (s : State) (t : Txn) (b : Beat) (d : Word) (v : Bool) (hk : t.kind ≠ .fill) :
    s.deliverBeat t b d v = s := by
  simp [deliverBeat, hk]

/-- An acknowledged beat cuts no beat list but a FILL's (R98, R103). -/
theorem Txn.acked_of_kind (t : Txn) (b : Beat) (d : Word) (v : Bool) (hk : t.kind ≠ .fill) :
    t.acked b d v = { t with
      beatsDone := t.beatsDone + 1, retryCount := 0
      data := if t.kind = .fetch ∨ t.kind = .lockedRead then overlay (b.bytes t.snap.width) (spreadWord d) t.data
        else t.data } := by
  simp [acked, hk]

/-- The data of a transaction that writes is what it writes: an acknowledged beat leaves it alone (R98). -/
theorem Txn.acked_data_of_writes (t : Txn) (b : Beat) (d : Word) (v : Bool) (hw : t.kind.writes = true) :
    (t.acked b d v).data = t.data := by
  unfold acked
  cases hk : t.kind <;> simp [hk, TxnKind.writes] at hw ⊢

/-- An acknowledged beat with beats behind it makes the next address phase (R96, R98). -/
theorem State.ackBeat_issues (s : State) (t : Txn) (b : Beat) (d : Word) (v : Bool) (ha : t.abandoned = false)
    (hb : t.beats[t.beatsDone]? = some b) (hmore : t.beatsDone + 1 < (t.acked b d v).beats.length) :
    s.ackBeat t d v = ((s.deliverBeat t b d v).syncPost (t.acked b d v)).issue (t.acked b d v) := by
  simp only [ackBeat, ha, hb, Bool.false_eq_true, if_false]
  exact if_pos hmore

/-- The acknowledgement of the last beat completes the transaction (R98). -/
theorem State.ackBeat_completes (s : State) (t : Txn) (b : Beat) (d : Word) (v : Bool) (ha : t.abandoned = false)
    (hb : t.beats[t.beatsDone]? = some b) (hlast : (t.acked b d v).beats.length ≤ t.beatsDone + 1) :
    s.ackBeat t d v = (((s.deliverBeat t b d v).syncPost (t.acked b d v)).endTxn).complete (t.acked b d v) := by
  simp only [ackBeat, ha, hb, Bool.false_eq_true, if_false]
  exact if_neg (Nat.not_lt.mpr hlast)

/-! ## The transaction goes on -/

/-- Settles O22. -/
theorem ackMakesNextAddressPhase : Obligations.AckMakesNextAddressPhase := by
  intro data v s t b next h hk hb hnext
  obtain ⟨-, -, -, -, ha⟩ := id h
  have hacked := t.acked_of_kind b data v hk
  have hmore : t.beatsDone + 1 < (t.acked b data v).beats.length := by
    rw [hacked]
    exact (List.getElem?_eq_some_iff.mp hnext).1
  have hphase : (t.acked b data v).phase = some
      { addr := beatAddr t.snap.width t.block next.slot, wr := t.kind.writes, be := next.lanes
        more := decide (t.beatsDone + 2 < t.beats.length)
        data := if t.kind.writes then some (beatData t.snap.width t.data next) else none } := by
    have hbeats : (t.acked b data v).beats = t.beats := by rw [hacked]
    have hwritten : (if t.kind.writes then some (beatData t.snap.width (t.acked b data v).data next) else none) =
        if t.kind.writes then some (beatData t.snap.width t.data next) else none := by
      by_cases hw : t.kind.writes = true
      · rw [t.acked_data_of_writes b data v hw]
      · rw [if_neg hw, if_neg hw]
    have hnext' : (t.acked b data v).beats[(t.acked b data v).beatsDone]? = some next := by
      rw [hbeats]
      exact hnext
    rw [(t.acked b data v).phase_eq next hnext', hbeats]
    exact congrArg (fun w => some (AddressPhase.mk _ _ _ _ w)) hwritten
  rw [exec_mAck s t data v h, s.begin.ackBeat_issues t b data v ha hb hmore, s.begin.deliverBeat_of_kind t b data v hk,
    State.syncPost_eq, State.issue, hphase, hacked]
  rfl

/-- A retry below the limit fractures the transaction, or re-issues the beat under a lock hold (R99, R121). -/
theorem State.retryBeat_below (s : State) (t : Txn) (ha : t.abandoned = false)
    (hr : t.retryCount + 1 < s.mpe.retryLimit) :
    s.retryBeat t =
      if s.lockHold then (s.syncPost { t with retryCount := t.retryCount + 1 }).issue
        { t with retryCount := t.retryCount + 1 }
      else (s.syncPost { t with retryCount := t.retryCount + 1 }).fracture { t with retryCount := t.retryCount + 1 } := by
  have hlimit : ¬(s.syncPost { t with retryCount := t.retryCount + 1 }).mpe.retryLimit ≤ t.retryCount + 1 := by
    rw [syncPost_retryLimit]
    omega
  have hhold : (s.syncPost { t with retryCount := t.retryCount + 1 }).lockHold = s.lockHold := by
    rw [syncPost_eq]
    rfl
  unfold retryBeat
  rw [if_neg (by simp [ha])]
  simp only [if_neg hlimit, hhold]

/-- A retry at the limit fails the transaction (R99). -/
theorem State.retryBeat_limit (s : State) (t : Txn) (ha : t.abandoned = false)
    (hr : s.mpe.retryLimit ≤ t.retryCount + 1) :
    s.retryBeat t = (s.syncPost { t with retryCount := t.retryCount + 1 }).endTxn.fail
      { t with retryCount := t.retryCount + 1 } .retryLimit := by
  have hlimit : (s.syncPost { t with retryCount := t.retryCount + 1 }).mpe.retryLimit ≤ t.retryCount + 1 := by
    rw [syncPost_retryLimit]
    exact hr
  unfold retryBeat
  rw [if_neg (by simp [ha])]
  exact if_pos hlimit

/-- Settles O32. -/
theorem retryFracturesOrReissues : Obligations.RetryFracturesOrReissues := by
  intro a v s t b h hb hr
  obtain ⟨-, -, -, -, ha⟩ := id h
  have hphase := Txn.phase_eq { t with retryCount := t.retryCount + 1 } b hb
  rw [exec_mRetry s t a v h, s.begin.retryBeat_below t ha hr, State.syncPost_eq, State.issue, hphase]
  refine ⟨fun hl => ?_, fun hl => ?_⟩
  · have hl' : ¬s.begin.lockHold = true := by
      rw [Bool.not_eq_true]
      exact hl
    rw [if_neg hl']
    rfl
  · have hl' : s.begin.lockHold = true := hl
    rw [if_pos hl']
    rfl

/-! ## No outcome -/

/-- The beat in progress of a CURRENT transaction, abandoned or not (R92). -/
theorem State.beatInProgress_of_current (s : State) (t : Txn) (ho : s.oar.owner = .bridge) (hp : s.port.isSome)
    (ht : s.mpe.txn = some t) (hs : t.state = .current) : s.begin.beatInProgress = some t := by
  simp [beatInProgress, ho, hp, ht, hs]

/-- A termination that comes without a beat of the bridge ends a peer's phase, if one stands (R92, R97). -/
theorem State.terminate_of_none (s : State) (x : Signals) (e : Ending) (hx : x.ending = some e)
    (h : s.beatInProgress = none) :
    s.terminate x = if s.oar.owner = .bridge then s else { s with port := none } := by
  simp only [terminate, hx, h, beq_iff_eq]

/-- The three terminations as signals on the lines (R97). -/
theorem exec_terminates (c : Instr) (s : State)
    (h : (∃ d v, c = .mAck d v) ∨ (∃ a v, c = .mRetry a v) ∨ ∃ a r v, c = .mFail a r v) :
    ∃ x e, Signals.ending x = some e ∧ exec c s = .next (s.begin.terminate x) := by
  rcases h with ⟨d, v, rfl⟩ | ⟨a, v, rfl⟩ | ⟨a, r, v, rfl⟩
  · exact ⟨⟨true, false, false, v, d⟩, .acked, rfl, rfl⟩
  · exact ⟨⟨a, true, false, v, 0⟩, .retried, rfl, rfl⟩
  · exact ⟨⟨a, r, true, v, 0⟩, .failed, rfl, rfl⟩

/-- Whatever ends a beat of an abandoned transaction ends it without a trace (R117, R172). -/
theorem State.terminate_abandoned (s : State) (t : Txn) (x : Signals) (e : Ending) (hx : x.ending = some e)
    (h : s.beatInProgress = some t) (ha : t.abandoned = true) : s.terminate x = s.endTxn.finish := by
  simp only [terminate, hx, h]
  cases e <;> simp [ackBeat, retryBeat, failBeat, ha]

/-- Settles O33. -/
theorem beatEndingsWithoutOutcome : Obligations.BeatEndingsWithoutOutcome := by
  refine ⟨?abandoned, ?disregarded, ?notDue⟩
  case abandoned =>
    intro c s t ho hp ht hs ha hc
    have hbeat := s.beatInProgress_of_current t ho hp ht hs
    have terminates (hc : (∃ d v, c = .mAck d v) ∨ (∃ a v, c = .mRetry a v) ∨ ∃ a r v, c = .mFail a r v) :
        exec c s = .next s.begin.endTxn.finish := by
      obtain ⟨x, e, hx, hexec⟩ := exec_terminates c s hc
      rw [hexec, s.begin.terminate_abandoned t x e hx hbeat ha]
    rcases hc with hc | hc | hc | ⟨rfl, hdue⟩
    · exact terminates (.inl hc)
    · exact terminates (.inr (.inl hc))
    · exact terminates (.inr (.inr hc))
    · have hexpires : s.begin.beatExpires = s.begin.endTxn.finish := by
        simp [State.beatExpires, hbeat, hdue, State.failBeat, ha]
      exact congrArg Host.Outcome.next hexpires
  case disregarded =>
    intro c s hc
    obtain ⟨x, e, hx, hexec⟩ := exec_terminates c s hc
    refine ⟨fun hp => ?_, fun p ho => ?_⟩
    · have hnone : s.begin.beatInProgress = none := by simp [State.beatInProgress, hp]
      have hport : { s.begin with port := none } = s.begin := by rw [← hp]; rfl
      rw [hexec, s.begin.terminate_of_none x e hx hnone, hport, ite_self]
      rfl
    · have hnone : s.begin.beatInProgress = none := by simp [State.beatInProgress, ho]
      rw [hexec, s.begin.terminate_of_none x e hx hnone, if_neg (by simp [ho])]
      rfl
  case notDue =>
    intro s h
    have hexpires : s.begin.beatExpires = s.begin := by
      unfold State.beatExpires
      split
      · rename_i t ht
        refine if_neg fun hdue => ?_
        rcases h with h | h
        · exact h (beq_iff_eq.mp hdue)
        · simp [State.beatInProgress, h] at ht
      · rfl
    exact congrArg Host.Outcome.next hexpires

end Sys2Proof.Machine
end

section
/-! What the end of a DRAIN and of a host transaction comes to. -/

namespace Sys2Proof.Machine

/-! ## The requests that wait on the queue -/

/-- A write that waits for room is posted once there is some (R25). -/
theorem State.admitWrite_of_room (s : State) (r : Request) (hr : s.hru.request = some r) (hw : r.wait = .room)
    (hlen : s.pq.posts.length < 8) : s.admitWrite = s.postWrite r := by
  simp [admitWrite, hr, hw, PostQueue.count, Config.queueCapacity, hlen]

theorem State.admitWrite_stays (s : State) (r : Request) (hr : s.hru.request = some r)
    (h : r.wait ≠ .room ∨ 8 ≤ s.pq.posts.length) : s.admitWrite = s := by
  simp only [admitWrite, hr]
  refine if_neg ?_
  simp only [Bool.and_eq_true, beq_iff_eq]
  rintro ⟨hw, hroom⟩
  rcases h with h | h
  · exact h hw
  · exact absurd (of_decide_eq_true hroom) (Nat.not_lt.mpr h)

/-- The demand of a waiting request is met: the queue is empty, or drained through the target (R30, R31). -/
def State.demandMet (s : State) (r : Request) : Prop :=
  r.wait = .queue ∧ s.pq.posts = [] ∨
    r.wait = .through ∧ ∃ d, s.mpe.demand = some d ∧ ∀ p ∈ s.pq.posts, 8 ≤ (d - p.seq).toNat

/-- The demand of a waiting request is not met yet. -/
def State.demandOpen (s : State) (r : Request) : Prop :=
  r.wait = .queue ∧ s.pq.posts ≠ [] ∨
    r.wait = .through ∧ ∃ d, s.mpe.demand = some d ∧ ∃ p ∈ s.pq.posts, (d - p.seq).toNat < 8

theorem State.settleDemand_met (s : State) (r : Request) (hr : s.hru.request = some r) (h : s.demandMet r) :
    s.settleDemand = s.handOver r := by
  rcases h with ⟨hw, hp⟩ | ⟨hw, d, hd, hp⟩
  · simp [settleDemand, hr, hw, hp]
  · simp [settleDemand, hr, hw, hd, (s.pq.drainedThrough_iff d).mpr hp]

theorem State.settleDemand_open (s : State) (r : Request) (hr : s.hru.request = some r) (h : s.demandOpen r) :
    s.settleDemand = if s.pq.state = .halted then s.refuseDemand r else s := by
  rcases h with ⟨hw, hp⟩ | ⟨hw, d, hd, p, hp, hnear⟩
  · simp [settleDemand, hr, hw, hp]
  · have hopen : s.pq.drainedThrough d = false := by
      refine Bool.eq_false_iff.mpr fun hall => ?_
      have := (s.pq.drainedThrough_iff d).mp hall p hp
      omega
    simp [settleDemand, hr, hw, hd, hopen]

theorem State.settleDemand_stays (s : State) (r : Request) (hr : s.hru.request = some r) (hq : r.wait ≠ .queue)
    (ht : r.wait ≠ .through) : s.settleDemand = s := by
  simp only [settleDemand, hr]
  cases hw : r.wait <;> simp_all

/-- The refusal of a waiting demand (R32, R87): the lock that the request was opening ends (R120). -/
theorem State.refuseDemand_eq (s : State) (r : Request) : s.refuseDemand r =
    { s with
      hru := { s.hru with request := none, lock := if r.route = .lock then none else s.hru.lock }
      mpe := { s.mpe with demand := none }
      flt := s.flt.take
        { kind := .drainHalted, origin := .host, bytes := some ⟨r.addr, r.count⟩, region := some r.snap.index }
      out := { s.out with answers := s.out.answers ++ [⟨.fault, r.faultData⟩] } } := by
  by_cases hroute : r.route = .lock
  · simp only [refuseDemand, hroute, beq_self_eq_true, if_true]
    rfl
  · simp only [refuseDemand, beq_iff_eq, hroute, if_false]
    rfl

/-- The hand-over of a request that waits (R85). -/
theorem State.handOver_waiting (s : State) (r : Request) (hr : s.hru.request = some r) (hroute : r.route ≠ .lock) :
    s.handOver r = { s with
      hru := { s.hru with request := some { r with wait := .port } }
      mpe := { s.mpe with handed := some r.work, demand := none } } := by
  rw [s.handOver_port r hroute, hr]
  rfl

/-- Settles O25. -/
theorem leavingSettlesWaitingRequest : Obligations.LeavingSettlesWaitingRequest := by
  refine ⟨fun s hr => ?_, fun s r hr => ⟨?room, s.admitWrite_stays r hr, ?port, ?lock, ?unmet,
    s.settleDemand_stays r hr⟩⟩
  · exact ⟨by simp only [State.admitWrite, hr], by simp only [State.settleDemand, hr]⟩
  case room =>
    intro hw hlen
    have hline : ∀ x, s.hru.request = some x → x.wait ≠ .line := by
      intro x hx
      obtain rfl : r = x := Option.some.inj (hr.symm.trans hx)
      simp [hw]
    rw [s.admitWrite_of_room r hr hw hlen, s.postWrite_of_wait r hline, State.answerOk_eq]
    rfl
  case port =>
    intro hroute hmet
    rw [s.settleDemand_met r hr hmet, s.handOver_waiting r hr hroute]
  case lock =>
    intro hroute hw hp
    rw [s.settleDemand_met r hr (.inl ⟨hw, hp⟩), s.handOver_lock r hroute, hr]
    rfl
  case unmet =>
    intro hopen
    rw [s.settleDemand_open r hr hopen]
    refine ⟨fun hs => ?_, fun hs => ?_⟩
    · rw [if_neg (by simp [hs])]
    · rw [if_pos hs, s.refuseDemand_eq r]

/-! ## The end of a DRAIN -/

/-- The one post that leaves takes a mark on it along, and sets DRAIN_DONE pending (R42). -/
theorem State.settleMark_drain (s : State) (q : Seq) : s.settleMark [q] .drain = { s with
    pq := { s.pq with mark := if s.pq.mark = some q then none else s.pq.mark }
    flt := if s.pq.mark = some q then s.flt.setDrainDone else s.flt } := by
  cases hm : s.pq.mark with
  | none =>
    simp only [settleMark, hm, reduceCtorEq, if_false]
    rw [← hm]
  | some m =>
    by_cases hq : m = q
    · subst hq
      simp [settleMark, hm]
    · simp only [settleMark, hm, List.contains_cons, List.contains_nil, Bool.or_false, beq_iff_eq, hq, if_false,
        Option.some.injEq]
      rw [← hm]

/-- An obligation on the one post that leaves by the end of its DRAIN ends, and sets the yield-round flag (R116,
R133). -/
theorem State.settleObligation_drain (s : State) (q : Seq) : s.settleObligation [q] .drain = { s with
    mpe := { s.mpe with obligation := if s.mpe.obligation = some q then none else s.mpe.obligation }
    oar := { s.oar with yieldRound := s.oar.yieldRound || decide (s.mpe.obligation = some q) } } := by
  cases ho : s.mpe.obligation with
  | none =>
    simp only [settleObligation, ho, reduceCtorEq, if_false, decide_false, Bool.or_false]
    rw [← ho]
  | some o =>
    by_cases hq : o = q
    · subst hq
      simp [settleObligation, ho]
    · simp only [settleObligation, ho, List.contains_cons, List.contains_nil, Bool.or_false, beq_iff_eq, hq, if_false,
        Option.some.injEq, decide_false]
      rw [← ho]

/-- The leaving actions for the one post whose DRAIN has ended (R35, R42, R116, R133). -/
theorem State.leaving_drain (s : State) (q : Seq) : s.leaving [q] .drain = State.settleDemand (State.admitWrite
    { s with
      pq := { s.pq with mark := if s.pq.mark = some q then none else s.pq.mark }
      mpe := { s.mpe with obligation := if s.mpe.obligation = some q then none else s.mpe.obligation }
      oar := { s.oar with yieldRound := s.oar.yieldRound || decide (s.mpe.obligation = some q) }
      flt := if s.pq.mark = some q then s.flt.setDrainDone else s.flt }) := by
  rw [leaving, settleMark_drain, settleObligation_drain]

theorem State.drainComplete_of_head (s : State) (p : Post) (rest : List Post) (hp : s.pq.posts = p :: rest) :
    s.drainComplete = State.leaving { s with pq := { s.pq with posts := rest } } [p.seq] .drain := by
  simp only [drainComplete, hp, PostQueue.dropHead, List.tail_cons]

/-- The post that leaves by a failure takes its record, its line and, by policy, the RUNNING state of the queue with it
(R36, R37). -/
theorem State.drainFail_of_head (s : State) (p : Post) (rest : List Post) (cause : Cause)
    (hp : s.pq.posts = p :: rest) :
    s.drainFail cause = State.leaving
      { s with
        pq := { s.pq with posts := rest, state := if s.pq.haltOnDeferred then .halted else s.pq.state }
        ls := s.ls.invalidate p.block
        flt := if s.pq.haltOnDeferred then (s.flt.take (deferredRecord p cause)).setHalted
          else s.flt.take (deferredRecord p cause) } [p.seq] .drain := by
  simp only [drainFail, hp, PostQueue.dropHead, List.tail_cons, haltOnPolicy]
  cases hh : s.pq.haltOnDeferred <;> simp [record]

/-- The DRAINING head with its DRAIN's progress (R34, R94). -/
theorem State.syncPost_drain (s : State) (t : Txn) (p : Post) (rest : List Post) (hk : t.kind = .drain)
    (hp : s.pq.posts = p :: rest) :
    s.syncPost t = { s with pq := { s.pq with
      posts := { p with beatsDone := t.beatsDone, retryCount := t.retryCount } :: rest } } := by
  rw [syncPost_eq, if_pos hk, hp]

/-- Settles O23. -/
theorem drainCompletes : Obligations.DrainCompletes := by
  intro data v s t b p rest h hk hb hlast hposts
  obtain ⟨-, -, -, -, ha⟩ := id h
  have hfill : t.kind ≠ .fill := by simp [hk]
  have hacked := t.acked_of_kind b data v hfill
  have hlast' : (t.acked b data v).beats.length ≤ t.beatsDone + 1 := by
    rw [hacked]
    exact hlast.le
  have hcomplete (u : State) : u.complete (t.acked b data v) = u.drainComplete := by
    have hkind : (t.acked b data v).kind = .drain := hk
    simp only [State.complete, hkind]
  rw [exec_mAck s t data v h, s.begin.ackBeat_completes t b data v ha hb hlast',
    s.begin.deliverBeat_of_kind t b data v hfill, s.begin.syncPost_drain (t.acked b data v) p rest hk hposts, hcomplete,
    State.drainComplete_of_head _ _ rest rfl, State.leaving_drain]
  rfl

/-- A failed beat of a DRAIN ends it by failure, its post as it stood but for the count of retries. -/
theorem exec_drainFailure (c : Instr) (cause : Cause) (s : State) (t : Txn) (p : Post) (rest : List Post)
    (h : s.runs t) (hk : t.kind = .drain) (hc : c.beatFailure s t = some cause) (hp : s.pq.posts = p :: rest) :
    ∃ p' : Post, deferredRecord p' cause = deferredRecord p cause ∧ p'.seq = p.seq ∧ p'.block = p.block ∧
      exec c s = .next (State.finish (State.drainFail
        { s.begin.endTxn with pq := { s.pq with posts := p' :: rest } } cause)) := by
  obtain ⟨-, -, -, -, ha⟩ := id h
  have hself : { s.begin.endTxn with pq := { s.pq with posts := p :: rest } } = s.begin.endTxn := by
    rw [← hp]
    rfl
  have hfail (u : State) (t' : Txn) (hk' : t'.kind = .drain) : u.fail t' cause = u.drainFail cause := by
    simp only [State.fail, hk']
  unfold Instr.beatFailure at hc
  split at hc
  · cases hc
    refine ⟨p, rfl, rfl, rfl, ?_⟩
    rw [exec_mFail s t _ _ _ h, State.failBeat, if_neg (by simp [ha]), hfail _ t hk, hself]
  · split at hc
    · cases hc
      refine ⟨p, rfl, rfl, rfl, ?_⟩
      rw [exec_beatTimeout s t h ‹_›, State.failBeat, if_neg (by simp [ha]), hfail _ t hk, hself]
    · cases hc
  · split at hc
    · rename_i hlimit
      cases hc
      refine ⟨{ p with beatsDone := t.beatsDone, retryCount := t.retryCount + 1 }, rfl, rfl, rfl, ?_⟩
      have hsync := s.begin.syncPost_drain { t with retryCount := t.retryCount + 1 } p rest hk hp
      rw [exec_mRetry s t _ _ h, s.begin.retryBeat_limit t ha hlimit, hsync,
        hfail _ { t with retryCount := t.retryCount + 1 } hk]
      rfl
    · cases hc
  · cases hc

/-- The Fault Unit after the record of a failed DRAIN: HALTED and DRAIN_DONE are pending by policy and mark (R36, R42,
R160). -/
theorem FaultUnit.take_drainFailed (f : FaultUnit) (r : FaultRecord) (halts : Bool) (marked : Prop) [Decidable marked] :
    (if marked then (if halts then (f.take r).setHalted else f.take r).setDrainDone
      else if halts then (f.take r).setHalted else f.take r) =
      { f.take r with pend :=
        { record := true, halted := f.pend.halted || halts, drainDone := f.pend.drainDone || decide marked } } := by
  have hpend : (f.take r).pend = { f.pend with record := true } := by
    unfold FaultUnit.take
    split <;> rfl
  have heta : f.take r = { f.take r with pend := { f.pend with record := true } } := by rw [← hpend]
  by_cases hm : marked <;> cases halts <;> simp [hm, setHalted, setDrainDone, hpend]
  exact heta

/-- Settles O24. -/
theorem drainFails : Obligations.DrainFails := by
  intro c cause s t p rest h hk hc hposts
  obtain ⟨p', hrecord, hseq, hblock, hexec⟩ := exec_drainFailure c cause s t p rest h hk hc hposts
  rw [hexec, State.drainFail_of_head _ p' rest cause rfl, State.leaving_drain, hrecord, hseq, hblock]
  have hflt := s.flt.take_drainFailed (deferredRecord p cause) s.pq.haltOnDeferred (s.pq.mark = some p.seq)
  simp only [State.endTxn, State.begin, hflt]
  rfl

/-! ## The end of a host transaction -/

section
variable (s : State) (t : Txn) (r : Request) (hr : s.hru.request = some r)
include hr

theorem State.complete_fetch (hk : t.kind = .fetch) : s.complete t = s.answerOk r t.data := by
  simp only [complete, hk, answerTxn, hr]

theorem State.complete_lockedRead (hk : t.kind = .lockedRead) : s.complete t = State.answerOk
    { s with hru := { s.hru with lock := s.hru.lock.map (LockRecord.opens s.hru.lockHold) } } r t.data := by
  simp only [complete, hk, openedLock, hr]

/-- The update that the end of a write makes serves no read where the taken request is not one that waits on a line
(R63). -/
theorem State.writeUpdate_of_request (hw : r.wait ≠ .line) :
    s.writeUpdate t.block t.mask t.data = { s with ls := s.ls.writeUpdate t.block t.mask t.data } := by
  refine s.writeUpdate_of_wait _ _ _ fun x hx => ?_
  obtain rfl : r = x := Option.some.inj (hr.symm.trans hx)
  exact hw

theorem State.complete_write (hk : t.kind = .write) (hw : r.wait ≠ .line) (hwrite : r.kind = .write) :
    s.complete t = State.answer { s with ls := s.ls.writeUpdate t.block t.mask t.data } .ok [] := by
  simp only [complete, hk, s.writeUpdate_of_request t r hr hw, answerTxn, hr]
  rw [State.answerOk_eq, if_pos hwrite]

theorem State.complete_lockedWrite (hk : t.kind = .lockedWrite) (hw : r.wait ≠ .line) (hwrite : r.kind = .write) :
    s.complete t = (State.answer { s with ls := s.ls.writeUpdate t.block t.mask t.data } .ok []).dropLock := by
  simp only [complete, hk, s.writeUpdate_of_request t r hr hw, answerTxn, hr]
  rw [State.answerOk_eq, if_pos hwrite]

theorem State.fail_fetch (cause : Cause) (hk : t.kind = .fetch) :
    s.fail t cause = s.answerFault r .readFault (some cause) := by
  simp only [fail, hk, failTxn, hr]

theorem State.fail_lockedRead (cause : Cause) (hk : t.kind = .lockedRead) :
    s.fail t cause = (s.answerFault r .readFault (some cause)).dropLock := by
  simp only [fail, hk, failTxn, hr]

theorem State.fail_write (cause : Cause) (hk : t.kind = .write) :
    s.fail t cause = State.answerFault { s with ls := s.ls.invalidate t.block } r .writeFault (some cause) := by
  simp only [fail, hk, failTxn, hr]

theorem State.fail_lockedWrite (cause : Cause) (hk : t.kind = .lockedWrite) :
    s.fail t cause =
      (State.answerFault { s with ls := s.ls.invalidate t.block } r .writeFault (some cause)).dropLock := by
  simp only [fail, hk, failTxn, hr]

end

/-- The last acknowledged beat of a FETCH, WRITE, LOCKED READ or LOCKED WRITE (R98). -/
theorem exec_mAck_last (s : State) (t : Txn) (b : Beat) (d : Word) (v : Bool) (h : s.runs t)
    (hb : t.beats[t.beatsDone]? = some b) (hlast : t.beats.length = t.beatsDone + 1) (hf : t.kind ≠ .fill)
    (hd : t.kind ≠ .drain) : exec (.mAck d v) s = .next (s.begin.endTxn.complete (t.acked b d v)).finish := by
  obtain ⟨-, -, -, -, ha⟩ := id h
  have hlast' : (t.acked b d v).beats.length ≤ t.beatsDone + 1 := by
    rw [t.acked_of_kind b d v hf]
    exact hlast.le
  rw [exec_mAck s t d v h, s.begin.ackBeat_completes t b d v ha hb hlast', s.begin.deliverBeat_of_kind t b d v hf,
    s.begin.syncPost_of_kind (t.acked b d v) hd]

/-- Settles O26. -/
theorem hostTransactionCompletes : Obligations.HostTransactionCompletes := by
  intro data v s t b r h hb hlast hr hwait
  have ends := exec_mAck_last s t b data v h hb hlast
  refine ⟨fun hk => ?fetch, fun hk hwrite => ?write, fun hk => ?lockedRead, fun hk hwrite => ?lockedWrite⟩
  all_goals rw [ends (by simp [hk]) (by simp [hk])]
  case fetch =>
    have hdata : (t.acked b data v).data = overlay (b.bytes t.snap.width) (spreadWord data) t.data := by
      simp [Txn.acked, hk]
    rw [s.begin.endTxn.complete_fetch (t.acked b data v) r hr hk, hdata, State.answerOk_eq]
    rfl
  case write =>
    have hdata := t.acked_data_of_writes b data v (by simp [hk, TxnKind.writes])
    rw [s.begin.endTxn.complete_write (t.acked b data v) r hr hk hwait hwrite, hdata]
    rfl
  case lockedRead =>
    have hdata : (t.acked b data v).data = overlay (b.bytes t.snap.width) (spreadWord data) t.data := by
      simp [Txn.acked, hk]
    rw [s.begin.endTxn.complete_lockedRead (t.acked b data v) r hr hk, hdata, State.answerOk_eq]
    rfl
  case lockedWrite =>
    have hdata := t.acked_data_of_writes b data v (by simp [hk, TxnKind.writes])
    rw [s.begin.endTxn.complete_lockedWrite (t.acked b data v) r hr hk hwait hwrite, hdata]
    rfl

/-- Settles O27. -/
theorem hostTransactionFails : Obligations.HostTransactionFails := by
  intro c cause s t r h hc hr
  have fails (hk : t.kind ≠ .drain) := exec_beatFailure c cause s t h hc hk
  refine ⟨fun hk => ?fetch, fun hk => ?write, fun hk => ?lockedRead, fun hk => ?lockedWrite⟩
  all_goals
    obtain ⟨t', hkind, hblock, -, hexec⟩ := fails (by simp [hk])
    rw [hk] at hkind
    rw [hexec]
  case fetch =>
    rw [s.begin.endTxn.fail_fetch t' r hr cause hkind]
    rfl
  case write =>
    rw [s.begin.endTxn.fail_write t' r hr cause hkind, hblock]
    rfl
  case lockedRead =>
    rw [s.begin.endTxn.fail_lockedRead t' r hr cause hkind]
    rfl
  case lockedWrite =>
    rw [s.begin.endTxn.fail_lockedWrite t' r hr cause hkind, hblock]
    rfl

end Sys2Proof.Machine
end

section
/-! The beats and the end of a FILL, and the reads that its line answers. -/

namespace Sys2Proof.Machine

/-! ## The reads that a line answers -/

theorem State.answerFromLine_read (s : State) (r : Request) (i : Fin 8) (w : Fin 4) (hk : r.kind ≠ .write) :
    s.answerFromLine r i w = { s with
      ls := s.ls.touch i w
      hru := { s.hru with request := none }
      out := { s.out with answers :=
        s.out.answers ++ [⟨.ok, readBytes (s.ls.line i w).data (offsetOf r.addr) r.count⟩] } } := by
  rw [answerFromLine, answerOk_read _ _ _ hk]
  rfl

/-- The answer of a read that left FILLING, from any source (R53). -/
theorem State.releaseReader_of_line (s : State) (r : Request) (hr : s.hru.request = some r) (hw : r.wait = .line) :
    s.releaseReader = s.examineKept r := by
  simp [releaseReader, hr, hw]

/-- Settles O31. -/
theorem fillAnswersReads : Obligations.FillAnswersReads := by
  refine ⟨fun s r f hr hf hk => ⟨?early, ?reader⟩, State.releaseReader_of_wait, fun s r hr hw hroute hk => ⟨?hit, ?miss⟩⟩
  case early =>
    have hcond : (!f.answered && maskWithin f.requested f.arrived) = true ↔
        f.answered = false ∧ maskWithin (byteMask f.first f.count) f.arrived = true := by
      rw [Bool.and_eq_true, Bool.not_eq_true']
      rfl
    simp only [State.earlyAnswer, hf, hr, hcond, State.answerFromLine_read _ r _ _ hk]
    simp only [LineStore.answered, hf, LineStore.touch]
    rfl
  case reader =>
    have hcond : (r.wait == .line && f.serves r) = true ↔
        r.wait = .line ∧ f.stale = false ∧ maskWithin r.mask (f.arrived ||| f.written) = true := by
      rw [Bool.and_eq_true, beq_iff_eq, FillContext.serves, Bool.and_eq_true, Bool.not_eq_true']
      rfl
    have hself : s.ls.touch f.set f.way = { s.ls.touch f.set f.way with fill := some f } := by
      simp only [LineStore.touch, hf]
    simp only [State.serveReader, hf, hr, hcond, s.answerFromLine_read r _ _ hk]
    rw [← hself]
  case hit =>
    intro w hd hs hb
    rw [s.releaseReader_of_line r hr hw, s.examineKept_valid r w hd hs hb, s.answerFromLine_read r _ _ hk]
    rfl
  case miss =>
    intro hmiss
    have hfind : s.ls.find r.block = none := s.ls.find_eq_none _ hmiss
    have hrelease : s.releaseReader = s.queueRead r := by
      rw [s.releaseReader_of_line r hr hw, s.examineKept_miss r hfind]
    have htest : r.testRange = allBytes := by simp [Request.testRange, hroute]
    have hlock : r.route ≠ .lock := by simp [hroute]
    have hwork : r.work = ⟨.fill, r.addr, r.count, r.data, r.snap⟩ := by simp [Request.work, Request.workKind, hroute]
    rw [hrelease]
    refine ⟨fun hf => ?_, fun hf => ⟨fun ho => ?_, fun p ho => ⟨fun hs => ?_, fun hs => ?_⟩⟩⟩
    · rw [s.queueRead_forwards r hf, s.answerOk_read r _ hk]
      rfl
    · rw [s.queueRead_clear r hf (htest ▸ ho), s.handOver_waiting r hr hlock, hwork]
    · rw [s.queueRead_running r p hf (htest ▸ ho) hs, State.setWait, hr]
      rfl
    · rw [s.queueRead_halted r p hf (htest ▸ ho) hs, s.refuseDemand_eq r, if_neg hlock]

/-! ## What serving the readers leaves alone -/

/-- The fill context as the answers of reads leave it: only the mark that the fill's request is answered can change. -/
def FillContext.Same (f g : FillContext) : Prop :=
  g.set = f.set ∧ g.way = f.way ∧ g.stale = f.stale ∧ g.veto = f.veto

/-- What the answers of reads from the FILLING line leave alone. -/
structure State.Serves (s t : State) (f : FillContext) : Prop where
  mpe : t.mpe = s.mpe
  fill : ∃ g, t.ls.fill = some g ∧ f.Same g

theorem State.serves_earlyAnswer (s : State) (f : FillContext) (hf : s.ls.fill = some f) : s.Serves s.earlyAnswer f := by
  have self : s.Serves s f := ⟨rfl, f, hf, rfl, rfl, rfl, rfl⟩
  cases hr : s.hru.request with
  | none => simpa only [earlyAnswer, hf, hr] using self
  | some r =>
    simp only [earlyAnswer, hf, hr]
    split
    · refine ⟨rfl, { f with answered := true }, ?_, rfl, rfl, rfl, rfl⟩
      show Option.map _ s.ls.fill = _
      rw [hf]
      rfl
    · exact self

theorem State.serves_serveReader (s : State) (f : FillContext) (hf : s.ls.fill = some f) : s.Serves s.serveReader f := by
  have self : s.Serves s f := ⟨rfl, f, hf, rfl, rfl, rfl, rfl⟩
  cases hr : s.hru.request with
  | none => simpa only [serveReader, hf, hr] using self
  | some r =>
    simp only [serveReader, hf, hr]
    split
    · exact ⟨rfl, f, hf, rfl, rfl, rfl, rfl⟩
    · exact self

theorem State.serves_readers (s : State) (f : FillContext) (hf : s.ls.fill = some f) :
    s.Serves s.earlyAnswer.serveReader f := by
  obtain ⟨hmpe, g, hg, hset, hway, hstale, hveto⟩ := s.serves_earlyAnswer f hf
  obtain ⟨hmpe', g', hg', hset', hway', hstale', hveto'⟩ := s.earlyAnswer.serves_serveReader g hg
  exact ⟨hmpe'.trans hmpe, g', hg', hset'.trans hset, hway'.trans hway, hstale'.trans hstale, hveto'.trans hveto⟩

/-! ## The beats of a FILL -/

/-- The line of the fill context takes the bytes of a beat, but for those in the write mask (R58). -/
def LineStore.delivered (l : LineStore) (f : FillContext) (m : Mask) (d : BlockData) (veto : Bool) : LineStore :=
  { l.setLine f.set f.way { l.line f.set f.way with
      data := overlay (m &&& ~~~f.written) d (l.line f.set f.way).data } with
    fill := some { f with arrived := f.arrived ||| m, veto := veto } }

theorem LineStore.deliver_of_fill (l : LineStore) (f : FillContext) (m : Mask) (d : BlockData) (hf : l.fill = some f) :
    l.deliver m d = l.delivered f m d f.veto := by
  simp only [deliver, hf, delivered]

/-- The volatile veto is taken before the beat is delivered (R61, R103). -/
theorem LineStore.deliver_veto (l : LineStore) (f : FillContext) (m : Mask) (d : BlockData) (hf : l.fill = some f) :
    l.veto.deliver m d = l.delivered f m d true := by
  simp only [deliver, veto, hf, Option.map_some, delivered, setLine, line]

/-- The part whose FILL has had a beat delivered, its readers served (R58, R59). -/
def State.fillServed (s : State) (f : FillContext) (m : Mask) (d : BlockData) (veto : Bool) : State :=
  State.serveReader (State.earlyAnswer { s.begin with ls := s.ls.delivered f m d veto })

theorem State.serves_fillServed (s : State) (f : FillContext) (m : Mask) (d : BlockData) (veto : Bool) :
    s.Serves (s.fillServed f m d veto) { f with veto := veto } := by
  obtain ⟨hmpe, g, hg, hset, hway, hstale, hveto⟩ :=
    State.serves_readers { s.begin with ls := s.ls.delivered f m d veto }
      { f with arrived := f.arrived ||| m, veto := veto } rfl
  exact ⟨hmpe, g, hg, hset, hway, hstale, hveto⟩

/-- An acknowledged beat of a FILL is delivered, its veto taken first (R58, R61). -/
theorem State.deliverBeat_fill (s : State) (t : Txn) (b : Beat) (d : Word) (v : Bool) (f : FillContext)
    (hk : t.kind = .fill) (hf : s.ls.fill = some f) :
    s.begin.deliverBeat t b d v =
      s.fillServed f (b.bytes t.snap.width) (spreadWord d) (f.veto || v && t.beatsDone == 0) := by
  cases hv : v && t.beatsDone == 0 with
  | false =>
    simp only [deliverBeat, hk, hv, beq_self_eq_true, if_true, Bool.false_eq_true, if_false, begin_ls,
      s.ls.deliver_of_fill f _ _ hf, Bool.or_false]
    rfl
  | true =>
    simp only [deliverBeat, hk, hv, beq_self_eq_true, if_true, begin_ls, s.ls.deliver_veto f _ _ hf, Bool.or_true]
    rfl

/-- A FILL's transaction behind an acknowledged beat (R98, R103). -/
theorem Txn.acked_fill (t : Txn) (b : Beat) (d : Word) (v : Bool) (hk : t.kind = .fill) :
    t.acked b d v = { t with
      beatsDone := t.beatsDone + 1, retryCount := 0
      beats := if v && t.beatsDone == 0 then cutBeats t.snap.width t.mask t.beats else t.beats } := by
  simp [acked, hk]

/-- The next beat of a FILL: its address phase stands behind the delivery (R96, R98). -/
theorem State.ackBeat_fill_issues (s : State) (t : Txn) (b next : Beat) (d : Word) (v : Bool) (f : FillContext)
    (hk : t.kind = .fill) (ha : t.abandoned = false) (hb : t.beats[t.beatsDone]? = some b) (hf : s.ls.fill = some f)
    (beats : List Beat)
    (hbeats : (if v && t.beatsDone == 0 then cutBeats t.snap.width t.mask t.beats else t.beats) = beats)
    (hnext : beats[t.beatsDone + 1]? = some next) :
    s.begin.ackBeat t d v =
      { s.fillServed f (b.bytes t.snap.width) (spreadWord d) (f.veto || v && t.beatsDone == 0) with
        mpe := { s.mpe with
          txn := some { t with beatsDone := t.beatsDone + 1, retryCount := 0, beats := beats }
          beatTimer := .running s.mpe.beatLimit }
        port := some
          { addr := beatAddr t.snap.width t.block next.slot, wr := false, be := next.lanes
            more := decide (t.beatsDone + 2 < beats.length), data := none } } := by
  have hacked := t.acked_fill b d v hk
  rw [hbeats] at hacked
  have hmore : t.beatsDone + 1 < (t.acked b d v).beats.length := by
    rw [hacked]
    exact (List.getElem?_eq_some_iff.mp hnext).1
  have hphase := (t.acked b d v).phase_eq next (by rw [hacked]; exact hnext)
  have hkind : (t.acked b d v).kind = .fill := hk
  have hmpe := (s.serves_fillServed f (b.bytes t.snap.width) (spreadWord d) (f.veto || v && t.beatsDone == 0)).mpe
  rw [s.begin.ackBeat_issues t b d v ha hb hmore, s.deliverBeat_fill t b d v f hk hf,
    State.syncPost_of_kind _ (t.acked b d v) (by simp [hkind]), State.issue, hphase, hmpe, hkind, hacked]
  rfl

/-- The last beat of a FILL: the line is VALID where neither STALE nor the veto stands, and INVALID otherwise (R60). -/
theorem State.ackBeat_fill_completes (s : State) (t : Txn) (b : Beat) (d : Word) (v : Bool) (f : FillContext)
    (hk : t.kind = .fill) (ha : t.abandoned = false) (hb : t.beats[t.beatsDone]? = some b) (hf : s.ls.fill = some f)
    (hlast : (if v && t.beatsDone == 0 then cutBeats t.snap.width t.mask t.beats else t.beats).length ≤
      t.beatsDone + 1) :
    let served := s.fillServed f (b.bytes t.snap.width) (spreadWord d) (f.veto || v && t.beatsDone == 0)
    s.begin.ackBeat t d v = State.releaseReader
      { served with
        mpe := { s.mpe with txn := none, beatTimer := .stopped }
        port := none
        ls := served.ls.endFill (!f.stale && !(f.veto || v && t.beatsDone == 0)) } := by
  intro served
  have hkind : (t.acked b d v).kind = .fill := hk
  obtain ⟨hmpe, g, hg, -, -, hstale, hveto⟩ :=
    s.serves_fillServed f (b.bytes t.snap.width) (spreadWord d) (f.veto || v && t.beatsDone == 0)
  have hlast' : (t.acked b d v).beats.length ≤ t.beatsDone + 1 := by
    rw [t.acked_fill b d v hk]
    exact hlast
  have hcomplete : served.endTxn.complete (t.acked b d v) =
      State.releaseReader { served.endTxn with ls := served.ls.endFill (!g.stale && !g.veto) } := by
    have hg' : served.endTxn.ls.fill = some g := hg
    simp only [State.complete, hkind, completeFill, hg']
    rfl
  rw [s.begin.ackBeat_completes t b d v ha hb hlast', s.deliverBeat_fill t b d v f hk hf,
    State.syncPost_of_kind _ (t.acked b d v) (by simp [hkind])]
  refine hcomplete.trans ?_
  rw [hstale, hveto, State.endTxn, hmpe]

/-- Settles O29. -/
theorem fillBeatArrives : Obligations.FillBeatArrives := by
  intro data v s t b f h hk hv hb hf
  obtain ⟨-, -, -, -, ha⟩ := id h
  have hfirst : (v && t.beatsDone == 0) = false := by
    rcases hv with rfl | hv
    · rfl
    · rw [Bool.and_eq_false_iff]
      exact .inr (beq_false_of_ne (by omega))
  have hveto : (f.veto || v && t.beatsDone == 0) = f.veto := by rw [hfirst, Bool.or_false]
  have hbeats : (if v && t.beatsDone == 0 then cutBeats t.snap.width t.mask t.beats else t.beats) = t.beats := by
    rw [hfirst]
    rfl
  refine ⟨fun next hnext => ?_, fun hlast => ?_⟩
  · rw [exec_mAck s t data v h, s.ackBeat_fill_issues t b next data v f hk ha hb hf t.beats hbeats hnext, hveto]
    rfl
  · rw [exec_mAck s t data v h, s.ackBeat_fill_completes t b data v f hk ha hb hf (by rw [hbeats, hlast]), hveto]
    rfl

/-- The cut list begins the beat list; the beats behind it hold no requested byte, and its last one does
(R103). -/
theorem cutBeats_prefix (w : Width) (req : Mask) (beats : List Beat) :
    ∃ n, cutBeats w req beats = beats.take n ∧ (∀ y ∈ beats.drop n, masksMeet (y.bytes w) req = false) ∧
      ∀ y, (cutBeats w req beats).getLast? = some y → masksMeet (y.bytes w) req = true := by
  set p : Beat → Bool := fun y => !masksMeet (y.bytes w) req with hp
  have hsplit : cutBeats w req beats ++ (beats.reverse.takeWhile p).reverse = beats := by
    rw [cutBeats, ← List.reverse_append, List.takeWhile_append_dropWhile, List.reverse_reverse]
  have hlast : ∀ y, (cutBeats w req beats).getLast? = some y → masksMeet (y.bytes w) req = true := by
    intro y hy
    rw [cutBeats, List.getLast?_reverse] at hy
    have hnot := List.head?_dropWhile_not p beats.reverse
    rw [hy] at hnot
    simpa [hp] using hnot
  have hback : ∀ y ∈ (beats.reverse.takeWhile p).reverse, masksMeet (y.bytes w) req = false := by
    intro y hy
    simpa [hp] using List.mem_takeWhile_imp (List.mem_reverse.mp hy)
  generalize cutBeats w req beats = front at hsplit hlast
  generalize (beats.reverse.takeWhile p).reverse = back at hsplit hback
  refine ⟨front.length, ?_, ?_, hlast⟩
  · rw [← hsplit, List.take_left]
  · rwa [← hsplit, List.drop_left]

/-- Settles O30. -/
theorem volatileVetoCutsFill : Obligations.VolatileVetoCutsFill := by
  intro data s t b rest f h hk hdone hlist hf
  obtain ⟨-, -, -, -, ha⟩ := id h
  have hb : t.beats[t.beatsDone]? = some b := by rw [hdone, hlist]; rfl
  have hfirst : (true && t.beatsDone == 0) = true := by rw [hdone]; rfl
  have hveto : (f.veto || true && t.beatsDone == 0) = true := by rw [hfirst, Bool.or_true]
  have hbeats : (if true && t.beatsDone == 0 then cutBeats t.snap.width t.mask t.beats else t.beats) =
      cutBeats t.snap.width t.mask t.beats := if_pos hfirst
  refine ⟨cutBeats_prefix _ _ _, fun next hnext => ?_, fun hlast => ?_⟩
  · rw [exec_mAck s t data true h, s.ackBeat_fill_issues t b next data true f hk ha hb hf _ hbeats (by rwa [hdone]),
      hveto, hdone]
    rfl
  · obtain ⟨-, g, hg, hset, hway, -⟩ := s.serves_fillServed f (b.bytes t.snap.width) (spreadWord data) true
    rw [exec_mAck s t data true h, s.ackBeat_fill_completes t b data true f hk ha hb hf (by rw [hbeats, hdone]; exact hlast),
      hveto]
    simp only [Bool.not_true, Bool.and_false, LineStore.endFill_of_fill _ g false hg, hset, hway]
    rfl

/-! ## The failure of a FILL -/

theorem State.fail_fill_unanswered (s : State) (t : Txn) (f : FillContext) (r : Request) (cause : Cause)
    (hk : t.kind = .fill) (hf : s.ls.fill = some f) (hno : f.answered = false) (hr : s.hru.request = some r) :
    s.fail t cause = State.answerFault { s with ls := s.ls.endFill false } r .readFault (some cause) := by
  simp only [fail, hk, failFill, hf, hno, failTxn, hr, Bool.false_eq_true, if_false]

theorem State.fail_fill_answered (s : State) (t : Txn) (f : FillContext) (cause : Cause) (hk : t.kind = .fill)
    (hf : s.ls.fill = some f) (hanswered : f.answered = true) :
    s.fail t cause = (State.record { s with ls := s.ls.endFill false }
      (hostRecord .fillTail (some cause) (blockAddr t.block) 16 t.snap.index)).releaseReader := by
  simp only [fail, hk, failFill, hf, hanswered, if_true]

/-- Settles O28. -/
theorem fillFails : Obligations.FillFails := by
  intro c cause s t f h hk hc hf
  obtain ⟨t', hkind, hblock, hsnap, hexec⟩ := exec_beatFailure c cause s t h hc (by simp [hk])
  have hend : s.begin.endTxn.ls.endFill false = { s.ls.setLine f.set f.way { s.ls.line f.set f.way with
      state := .invalid } with fill := none } := s.ls.endFill_of_fill f false hf
  refine ⟨fun r hno hr => ?_, fun hanswered => ?_⟩
  · rw [hexec, s.begin.endTxn.fail_fill_unanswered t' f r cause (hkind.trans hk) hf hno hr, hend]
    rfl
  · rw [hexec, s.begin.endTxn.fail_fill_answered t' f cause (hkind.trans hk) hf hanswered, hend, hblock, hsnap]
    rfl

end Sys2Proof.Machine
end

section
/-! The effects of the management frames. -/

namespace Sys2Proof.Machine

/-! ## Frames without an effect -/

/-- Settles O44. -/
theorem frameWithoutEffect : Obligations.FrameWithoutEffect := by
  intro c f s hc
  obtain ⟨e, hexec, hid⟩ := exec_frame c f s hc
  refine ⟨fun st d hanswer h => ?_, fun hanswer => ?_⟩
  · rw [hexec, s.completeFrame_begin f st d e hanswer]
    rcases h with hst | h
    · rw [if_neg hst]
    · rw [hid h, id, ite_self]
  · rw [hexec, s.begin.completeFrame_none f e hanswer]
    rfl

/-! ## Items -/

/-- An accepted SET of a two-byte item sets it (R178). -/
theorem exec_set_accepted (c : Instr) (item : Byte) (v : BitVec 16) (s : State) (d : List Byte)
    (hc : c.frame = some (.set item v)) (h : s.frameAnswer (.set item v) = some (.ok, d)) :
    exec c s = .next ((s.framed .ok d).setItem item v) := by
  rw [(exec_set c item v s hc).2, s.completeFrame_begin _ .ok d _ h, if_pos rfl]

/-- A SET without a row of its own is the frame of its item (Table 10-2). -/
theorem frame_set (item : Byte) (v : BitVec 16) (hr : isRegionItem item = false) (hp : isPlainItem item = true) :
    (Instr.set item v).frame = some (.set item v) := parse_setInput item v hr hp

/-- The low three bits of an enables value, in the positions of Table 10-6, byte 5. -/
theorem bitsOfByte_low (v : BitVec 16) :
    bitsOfByte (v.extractLsb' 0 8) = ⟨v.getLsbD 0, v.getLsbD 1, v.getLsbD 2⟩ := by
  simp [bitsOfByte]

/-- Settles O45: each item's place in `State.setItem`. -/
theorem setReplacesItem : Obligations.SetReplacesItem := by
  intro v s d
  refine ⟨?_, ?_, ?_, ?_, ?_, ?_, ?_, ?_, ?_, ?_, ?_⟩
  case _ => exact exec_set_accepted (.setPrescaler v) 0x20 v s d rfl
  case _ => exact exec_set_accepted (.set 0x21 v) 0x21 v s d (frame_set _ v rfl rfl)
  case _ => exact exec_set_accepted (.set 0x22 v) 0x22 v s d (frame_set _ v rfl rfl)
  case _ => exact exec_set_accepted (.set 0x23 v) 0x23 v s d (frame_set _ v rfl rfl)
  case _ => exact exec_set_accepted (.set 0x24 v) 0x24 v s d (frame_set _ v rfl rfl)
  case _ => exact exec_set_accepted (.set 0x25 v) 0x25 v s d (frame_set _ v rfl rfl)
  case _ => exact exec_set_accepted (.setHighWaterMark v) 0x26 v s d rfl
  case _ => exact exec_set_accepted (.setBaseLevel v) 0x27 v s d rfl
  case _ =>
    intro p h
    have hexec := exec_set_accepted (.setPeerLevel p v) (levelItem p) v s d rfl h
    cases p <;> exact hexec
  case _ => exact exec_set_accepted (.set 0x2B v) 0x2B v s d (frame_set _ v rfl rfl)
  case _ =>
    intro h
    rw [exec_set_accepted (.setInterruptEnables v) 0x2C v s d rfl h, ← bitsOfByte_low v]
    rfl

/-! ## Region items -/

/-- An accepted rewrite of a region item (R12). -/
theorem exec_regionRewrite_accepted (item : Byte) (v : BitVec 40) (s : State) (d : List Byte)
    (hitem : isRegionItem item = true) (h : s.frameAnswer (.setRegion item v) = some (.ok, d)) :
    exec (.regionRewrite item v) s = .next ((s.framed .ok d).rewriteRegion item v) := by
  have hcomplete := s.completeFrame_begin (.setRegion item v) .ok d (fun t => t.rewriteRegion item v) h
  rw [if_pos rfl] at hcomplete
  exact (congrArg Host.Outcome.next (if_pos hitem)).trans (congrArg Host.Outcome.next hcomplete)

/-- The item number of an entry (Table 10-4). -/
theorem entryNumber_ofNat (i : Fin 16) : entryNumber (BitVec.ofNat 8 i.val) = some i := by
  revert i
  decide

theorem isRegionItem_ofNat (i : Fin 16) : isRegionItem (BitVec.ofNat 8 i.val) = true := by
  revert i
  decide

/-- The width that a region item gives (R179). -/
theorem itemWidth_eq (v : BitVec 40) (w : Width)
    (h : v.extractLsb' 37 2 = 0 ∧ w = .w8 ∨ v.extractLsb' 37 2 = 1 ∧ w = .w16 ∨ v.extractLsb' 37 2 = 2 ∧ w = .w32) :
    itemWidth v = some w := by
  unfold itemWidth widthOfCode
  rcases h with ⟨hv, rfl⟩ | ⟨hv, rfl⟩ | ⟨hv, rfl⟩ <;> rw [hv] <;> rfl

/-- Settles O46: the new map, and the range that it and the old one give. -/
theorem regionRewriteEffect : Obligations.RegionRewriteEffect := by
  intro v s d w hw attrs
  have hwidth := itemWidth_eq v w hw
  refine ⟨?entry, fun h => ?region⟩
  case entry =>
    intro i h e
    have hmap : s.rmap.rewrite (BitVec.ofNat 8 i.val) v = { s.rmap with entries := s.rmap.entries.set i e } := by
      simp only [RegionMap.rewrite, hwidth, entryNumber_ofNat]
      rfl
    have hrange : inInvalidationRange (BitVec.ofNat 8 i.val) s.rmap
        { s.rmap with entries := s.rmap.entries.set i e } =
        fun b => s.rmap.entries[i].covers (blockAddr b) || e.covers (blockAddr b) := by
      funext b
      simp [inInvalidationRange, entryNumber_ofNat]
    rw [exec_regionRewrite_accepted _ v s d (isRegionItem_ofNat i) h, State.rewriteRegion, State.framed_rmap, hmap,
      hrange]
    rfl
  case region =>
    have hmap : s.rmap.rewrite 0x10 v = { s.rmap with d := ⟨w, attrs⟩ } := by
      simp only [RegionMap.rewrite, hwidth]
      rfl
    rw [exec_regionRewrite_accepted 0x10 v s d rfl h, State.rewriteRegion, State.framed_rmap, hmap]
    rfl

/-! ## Recovery -/

/-- An accepted frame given by its input bytes runs its effect (R175). -/
theorem State.completeInput_accepted (s : State) (f : Frame) (input : List Byte) (d : List Byte) (e : State → State)
    (hp : Frame.parse input = some f) (h : s.frameAnswer f = some (.ok, d)) :
    s.begin.completeInput input e = e (s.framed .ok d) := by
  rw [State.completeInput_of_parse _ f input e hp, s.completeFrame_begin f .ok d e h, if_pos rfl]

/-- The peer that an index names (R143). -/
theorem peerOf_eq (n : Byte) (p : Peer) (h : n.toNat = peerIndex p) : peerOf n = some p := by
  have hn : n = BitVec.ofNat 8 (peerIndex p) := by rw [← h, BitVec.ofNat_toNat, BitVec.setWidth_eq]
  rw [hn]
  cases p <;> rfl

/-- RESTORE_PEER with an index that names a peer (R143). -/
theorem exec_restorePeer (n : Byte) (p : Peer) (s : State) (h : n.toNat = peerIndex p) :
    exec (.restorePeer n) s = .next (s.begin.completeInput [Config.cmdRestorePeer, n] fun t =>
      { t with oar := t.oar.restore p }.finish) := by
  show execRestorePeer n s = _
  simp only [execRestorePeer, peerOf_eq n p h]

/-- Settles O47. -/
theorem recoveryCommandEffects : Obligations.RecoveryCommandEffects := by
  intro s d
  refine ⟨?int, fun r rest hlog h => ?pop, fun h => ?clear, fun m h => ?ack, fun n p hn h => ?restore⟩
  case int => simp only [FaultUnit.int, Bool.or_eq_true, Bool.and_eq_true, or_assoc]
  case pop =>
    have hpop : s.flt.pop = { s.flt with log := rest } := by rw [FaultUnit.pop, hlog, List.tail_cons]
    have hexec := s.completeInput_accepted .popFault [Config.cmdPopFault] d (fun t => { t with flt := t.flt.pop }) rfl h
    rw [State.framed_flt, hpop] at hexec
    exact congrArg Host.Outcome.next hexec
  case clear =>
    exact congrArg Host.Outcome.next
      (s.completeInput_accepted .clearLog _ d (fun t => { t with flt := t.flt.clear }) rfl h)
  case ack =>
    exact congrArg Host.Outcome.next
      (s.completeInput_accepted (.ackInt m) _ d (fun t => { t with flt := t.flt.ack m }) rfl h)
  case restore =>
    have hexec := s.completeInput_accepted (.restorePeer n) [Config.cmdRestorePeer, n] d
      (fun t => { t with oar := t.oar.restore p }.finish) rfl h
    have hrestore : s.oar.restore p =
        if (s.oar.peers.get p).barred then
          { s.oar with
            peers := s.oar.peers.put p { s.oar.peers.get p with barred := false }
            yieldTimer := if s.oar.owner = .peer p then .running s.oar.yield else s.oar.yieldTimer }
        else s.oar := by simp only [Arbiter.restore, beq_iff_eq]
    rw [exec_restorePeer n p s hn, hexec, ← hrestore]
    rfl

end Sys2Proof.Machine
end

section
/-! The commands on the queue and the lines. -/

namespace Sys2Proof.Machine

/-! ## DISCARD -/

/-- A line invalidation of no block changes nothing (R47). -/
theorem LineStore.invalidateWhere_none (l : LineStore) (p : Block → Bool) (h : ∀ b, p b = false) :
    l.invalidateWhere p = l := by
  have hfill : (l.invalidateWhere p).fill = l.fill := by simp [invalidateWhere, h]
  have hsets : (l.invalidateWhere p).sets = l.sets := by
    ext i hi
    simp [invalidateWhere, h, line]
  have heta : l.invalidateWhere p = ⟨(l.invalidateWhere p).sets, (l.invalidateWhere p).fill⟩ := rfl
  rw [heta, hsets, hfill]

/-- Each post is WAITING or DRAINING (Table 2-1). -/
theorem PostState.draining_iff (x : PostState) : (x == .draining) = !(x == .waiting) := by
  cases x <;> rfl

/-- Where no post is WAITING, all of them stay (R39). -/
theorem PostQueue.discard_of_none (q : PostQueue) (h : q.waiting = []) :
    q.discard = { q with state := .running, mergeOpen := false } := by
  have hkept : (q.posts.filter fun p => p.state == .draining) = q.posts := by
    refine List.filter_eq_self.mpr fun p hp => ?_
    rw [PostState.draining_iff, Bool.not_eq_true']
    exact Bool.eq_false_iff.mpr (List.filter_eq_nil_iff.mp h p hp)
  simp [discard, hkept, h]

/-- DISCARD without a WAITING post (R39). -/
theorem State.discardPosts_of_none (s : State) (h : s.pq.waiting = []) :
    s.discardPosts = { s with pq := { s.pq with state := .running, mergeOpen := false } } := by
  have hls : (s.ls.invalidateWhere fun b => s.pq.waiting.any fun p => p.block == b) = s.ls :=
    s.ls.invalidateWhere_none _ (by simp [h])
  simp only [discardPosts, s.pq.discard_of_none h, hls]
  simp [h]

/-- DISCARD of the WAITING posts, with its record (R39, R171). -/
theorem State.discardPosts_of_some (s : State) (first last : Post) (hf : s.pq.waiting.head? = some first)
    (hl : s.pq.waiting.getLast? = some last) :
    s.discardPosts = State.leaving
      { s with
        pq := { s.pq with
          posts := s.pq.posts.filter fun p => p.state == .draining
          nextSeq := first.seq, state := .running, mergeOpen := false }
        ls := s.ls.invalidateWhere fun b => s.pq.waiting.any fun p => p.block == b
        flt := s.flt.take (discardedRecord first last s.pq.waiting.length) }
      (s.pq.waiting.map Post.seq) .discard := by
  simp only [discardPosts, hf, hl, PostQueue.discard, Option.map_some, Option.getD_some]
  rfl

/-- A mark on a discarded post moves to the DRAINING head, or sets DRAIN_DONE pending where none is left (R42). -/
theorem State.settleMark_discard (s : State) (gone : List Seq) :
    s.settleMark gone .discard = { s with
      pq := { s.pq with mark := if ∃ m, s.pq.mark = some m ∧ m ∈ gone then s.pq.posts.head?.map Post.seq
        else s.pq.mark }
      flt := if (∃ m, s.pq.mark = some m ∧ m ∈ gone) ∧ s.pq.posts = [] then s.flt.setDrainDone else s.flt } := by
  by_cases hmarked : ∃ m, s.pq.mark = some m ∧ m ∈ gone
  · obtain ⟨m, hm, hgone⟩ := id hmarked
    rw [if_pos hmarked]
    cases hp : s.pq.posts with
    | nil =>
      rw [if_pos ⟨hmarked, rfl⟩]
      simp [settleMark, hm, hgone, hp]
    | cons p rest =>
      rw [if_neg (by simp)]
      simp [settleMark, hm, hgone, hp]
  · rw [if_neg hmarked, if_neg fun h => hmarked h.1]
    cases hm : s.pq.mark with
    | none =>
      simp only [settleMark, hm]
      rw [← hm]
    | some m =>
      have hstays : m ∉ gone := fun hgone => hmarked ⟨m, hm, hgone⟩
      simp only [settleMark, hm, List.contains_eq_mem, hstays, decide_false, Bool.false_eq_true, if_false]
      rw [← hm]

/-- An obligation on a discarded post ends; no drain reports it (R116, R151). -/
theorem State.settleObligation_discard (s : State) (gone : List Seq) :
    s.settleObligation gone .discard = { s with mpe := { s.mpe with
      obligation := if ∃ o, s.mpe.obligation = some o ∧ o ∈ gone then none else s.mpe.obligation } } := by
  by_cases htarget : ∃ o, s.mpe.obligation = some o ∧ o ∈ gone
  · obtain ⟨o, ho, hgone⟩ := id htarget
    rw [if_pos htarget]
    have hdrain : (Leave.discard == Leave.drain) = false := rfl
    simp [settleObligation, ho, hgone, hdrain]
  · rw [if_neg htarget]
    cases ho : s.mpe.obligation with
    | none =>
      simp only [settleObligation, ho]
      rw [← ho]
    | some o =>
      have hstays : o ∉ gone := fun hgone => htarget ⟨o, ho, hgone⟩
      simp only [settleObligation, ho, List.contains_eq_mem, hstays, decide_false, Bool.false_eq_true, if_false]
      rw [← ho]

/-- Settles O48. -/
theorem queueCommandEffects : Obligations.QueueCommandEffects := by
  intro s d
  refine ⟨fun h => ?resume, fun h => ⟨fun older tail hp => ?marks, fun hp => ?done⟩, fun h => ?invalidate,
    fun h => ?discard⟩
  case resume =>
    exact congrArg Host.Outcome.next
      (s.completeInput_accepted .resume [Config.cmdResume] d (fun t => { t with pq := t.pq.resume }.finish) rfl h)
  case marks =>
    have hmark : (s.framed .ok d).markTail = { s.framed .ok d with pq := { s.pq with mark := some tail.seq } } := by
      simp [State.markTail, PostQueue.tail?, hp]
    exact congrArg Host.Outcome.next
      ((s.completeInput_accepted .drainMark [Config.cmdDrainMark] d State.markTail rfl h).trans hmark)
  case done =>
    have hmark : (s.framed .ok d).markTail = { s.framed .ok d with
        pq := { s.pq with mark := none }
        flt := { s.flt with pend := { s.flt.pend with drainDone := true } } } := by
      simp [State.markTail, PostQueue.tail?, hp, FaultUnit.setDrainDone]
    exact congrArg Host.Outcome.next
      ((s.completeInput_accepted .drainMark [Config.cmdDrainMark] d State.markTail rfl h).trans hmark)
  case invalidate =>
    exact congrArg Host.Outcome.next (s.completeInput_accepted .invalidate [Config.cmdInvalidate] d
      (fun t => { t with ls := t.ls.invalidateWhere fun _ => true }) rfl h)
  case discard =>
    have hexec : exec .discard s = .next (s.framed .ok d).discardPosts.finish := congrArg Host.Outcome.next
      (s.completeInput_accepted .discard [Config.cmdDiscard] d (fun t => t.discardPosts.finish) rfl h)
    refine ⟨fun hgone => ?_, fun first last hf hl => ?_⟩
    · rw [hexec, (s.framed .ok d).discardPosts_of_none hgone]
      rfl
    · rw [hexec, (s.framed .ok d).discardPosts_of_some first last hf hl, State.leaving, State.settleMark_discard,
        State.settleObligation_discard]
      rfl

end Sys2Proof.Machine
end

section
/-! The bits of the management link: what they make of its states, and the frame that each command's bits end. -/

namespace Sys2Proof.Machine

/-! ## Bits and bytes -/

/-- Eight bits, the most significant first, make their byte (R173). -/
theorem bytesOf_byte (b : Byte) (rest : List Bool) :
    bytesOf (b.getLsbD 7 :: b.getLsbD 6 :: b.getLsbD 5 :: b.getLsbD 4 :: b.getLsbD 3 :: b.getLsbD 2 :: b.getLsbD 1 ::
      b.getLsbD 0 :: rest) = b :: bytesOf rest := bytesOf_bitsOf [b] rest

theorem bitsOf_cons (b : Byte) (bytes : List Byte) : bitsOf (b :: bytes) = bitsOf [b] ++ bitsOf bytes := by
  simp [bitsOf]

theorem bitsOf_length (bytes : List Byte) : (bitsOf bytes).length = 8 * bytes.length := by
  induction bytes with
  | nil => rfl
  | cons b rest ih =>
    rw [bitsOf_cons, List.length_append, ih, List.length_cons]
    show 8 + _ = _
    omega

/-- A bit of the output: the `j`th from the top of the `k`th byte (R173). -/
theorem bitsOf_get (bytes : List Byte) (k : Nat) (j : Fin 8) (b : Byte) (h : bytes[k]? = some b) :
    (bitsOf bytes)[8 * k + j.val]? = some (b.getLsbD (7 - j.val)) := by
  induction bytes generalizing k with
  | nil => simp at h
  | cons a rest ih =>
    have hlen : (bitsOf [a]).length = 8 := rfl
    rw [bitsOf_cons]
    cases k with
    | zero =>
      obtain rfl : a = b := by simpa using h
      rw [List.getElem?_append_left (by omega)]
      fin_cases j <;> rfl
    | succ k =>
      rw [List.getElem?_append_right (by omega), hlen, show 8 * (k + 1) + j.val - 8 = 8 * k + j.val by omega]
      exact ih k (by simpa using h)

/-- Fewer bits than a byte's make no further byte (R173). -/
theorem bytesOf_take_bitsOf (bytes : List Byte) (n : Nat) : bytesOf ((bitsOf bytes).take n) = bytes.take (n / 8) := by
  induction bytes generalizing n with
  | nil => simp [bitsOf, bytesOf]
  | cons b rest ih =>
    by_cases hn : n < 8
    · have hdiv : n / 8 = 0 := by omega
      rw [hdiv]
      interval_cases n <;> rfl
    · obtain ⟨m, rfl⟩ := Nat.exists_eq_add_of_le (Nat.not_lt.mp hn)
      have hlen : (bitsOf [b]).length = 8 := rfl
      have hdiv : (8 + m) / 8 = m / 8 + 1 := by omega
      have htake : (bitsOf [b] ++ bitsOf rest).take (8 + m) = bitsOf [b] ++ (bitsOf rest).take m := by
        rw [← hlen, List.take_length_add_append]
      rw [bitsOf_cons, htake, hdiv, bytesOf_bitsOf, ih]
      rfl

/-! ## The input of a frame -/

/-- The frames that have an input of their own: their item and command bytes are what their kind says (Table 10-2). -/
def Frame.Formed : Frame → Prop
  | .set item _ => isRegionItem item = false ∧ isPlainItem item = true
  | .setRegion item _ => isRegionItem item = true
  | .setRefused item => isRegionItem item = false ∧ isPlainItem item = false
  | .badCommand c => namesCommand c = false
  | _ => True

/-- A command byte that names no command is none of Table 10-2. -/
theorem namesCommand_eq_false (c : Byte) : namesCommand c = false ↔ c ≠ Config.cmdGet ∧ c ≠ Config.cmdSet ∧
    c ≠ Config.cmdPopFault ∧ c ≠ Config.cmdViewPost ∧ c ≠ Config.cmdAckInt ∧ c ≠ Config.cmdResume ∧
    c ≠ Config.cmdDiscard ∧ c ≠ Config.cmdDrainMark ∧ c ≠ Config.cmdInvalidate ∧ c ≠ Config.cmdRestorePeer ∧
    c ≠ Config.cmdClearLog := by
  simp only [namesCommand, List.contains_cons, List.contains_nil, Bool.or_false, Bool.or_eq_false_iff,
    beq_eq_false_iff_ne]

/-- What is parsed from bytes is formed (R176). -/
theorem Frame.formed_of_parse (bytes : List Byte) (f : Frame) (h : Frame.parse bytes = some f) : f.Formed := by
  have ite {p : Prop} [Decidable p] {a b : Option Frame} (ha : a = some f → f.Formed)
      (hb : ¬p → b = some f → f.Formed) : (if p then a else b) = some f → f.Formed := by
    split
    · exact ha
    · exact hb ‹_›
  have plain (g : Frame) (hg : g.Formed) : some g = some f → f.Formed := by
    intro h
    cases h
    exact hg
  have arg (make : Byte → Frame) (hmake : ∀ n, (make n).Formed) (rest : List Byte) :
      parseArg make rest = some f → f.Formed := by
    cases rest with
    | nil => exact nofun
    | cons n rest => exact plain _ (hmake n)
  have set (item : Byte) (value : List Byte) : parseSet item value = some f → f.Formed := by
    intro h
    unfold parseSet at h
    repeat' split at h
    all_goals cases h
    all_goals simp_all [Formed]
  rcases bytes with _ | ⟨c, rest⟩
  · cases h
  refine ite (arg .get (fun _ => trivial) rest) (fun hget => ite ?set fun hset => ite (plain .popFault trivial)
    fun hpop => ite (arg .viewPost (fun _ => trivial) rest) fun hview => ite (arg .ackInt (fun _ => trivial) rest)
    fun hack => ite (plain .resume trivial) fun hresume => ite (plain .discard trivial) fun hdiscard =>
    ite (plain .drainMark trivial) fun hmark => ite (plain .invalidate trivial) fun hinvalidate =>
    ite (arg .restorePeer (fun _ => trivial) rest) fun hrestore => ite (plain .clearLog trivial) fun hclear =>
    plain (.badCommand c) ?bad) h
  case set =>
    cases rest with
    | nil => exact nofun
    | cons item value => exact set item value
  case bad =>
    exact (namesCommand_eq_false c).mpr
      ⟨hget, hset, hpop, hview, hack, hresume, hdiscard, hmark, hinvalidate, hrestore, hclear⟩

/-- A formed frame is parsed from its own input, and from no shorter one (R173, Table 10-2). -/
theorem Frame.parse_input (f : Frame) (h : f.Formed) :
    Frame.parse f.input = some f ∧ ∀ k, k < f.input.length → Frame.parse (f.input.take k) = none := by
  have two (c x : Byte) (hc : Frame.parse [c] = none) :
      ∀ k, k < [c, x].length → Frame.parse ([c, x].take k) = none := by
    intro k hk
    replace hk : k < 2 := hk
    interval_cases k
    · rfl
    · exact hc
  have one (c : Byte) : ∀ k, k < [c].length → Frame.parse ([c].take k) = none := by
    intro k hk
    obtain rfl : k = 0 := Nat.lt_one_iff.mp hk
    rfl
  cases f with
  | get item => exact ⟨rfl, two _ _ rfl⟩
  | viewPost n => exact ⟨rfl, two _ _ rfl⟩
  | ackInt mask => exact ⟨rfl, two _ _ rfl⟩
  | restorePeer n => exact ⟨rfl, two _ _ rfl⟩
  | popFault => exact ⟨rfl, one _⟩
  | resume => exact ⟨rfl, one _⟩
  | discard => exact ⟨rfl, one _⟩
  | drainMark => exact ⟨rfl, one _⟩
  | invalidate => exact ⟨rfl, one _⟩
  | clearLog => exact ⟨rfl, one _⟩
  | badCommand c =>
    refine ⟨?_, one c⟩
    obtain ⟨hget, hset, hpop, hview, hack, hresume, hdiscard, hmark, hinvalidate, hrestore, hclear⟩ :=
      (namesCommand_eq_false c).mp h
    simp only [input, parse, hget, hset, hpop, hview, hack, hresume, hdiscard, hmark, hinvalidate, hrestore, hclear,
      if_false]
  | setRefused item =>
    obtain ⟨hregion, hplain⟩ := h
    refine ⟨?_, two _ _ rfl⟩
    have hset : parseSet item [] = some (.setRefused item) := by simp [parseSet, hregion, hplain]
    exact hset
  | set item v =>
    obtain ⟨hregion, hplain⟩ := h
    refine ⟨parse_setInput item v hregion hplain, fun k hk => ?_⟩
    have short (value : List Byte) (hlen : value.length < 2) : parseSet item value = none := by
      rcases value with _ | ⟨a, _ | ⟨b, value⟩⟩
      · simp [parseSet, hregion, hplain]
      · simp [parseSet, hregion, hplain]
      · simp at hlen
    replace hk : k < 4 := hk
    rcases k with _ | _ | k
    · rfl
    · rfl
    · exact short ([v.extractLsb' 8 8, v.extractLsb' 0 8].take k) (by simp; omega)
  | setRegion item v =>
    have hregion : isRegionItem item = true := h
    have short (value : List Byte) (hlen : value.length < 5) : parseSet item value = none := by
      rcases value with _ | ⟨a, _ | ⟨b, _ | ⟨c, _ | ⟨d, _ | ⟨e, value⟩⟩⟩⟩⟩
      case cons.cons.cons.cons.cons =>
        simp only [List.length_cons] at hlen
        omega
      all_goals simp [parseSet, hregion]
    have hv : v.extractLsb' 32 8 ++ v.extractLsb' 24 8 ++ v.extractLsb' 16 8 ++ v.extractLsb' 8 8 ++
        v.extractLsb' 0 8 = v := by
      rw [BitVec.extractLsb'_append_extractLsb'_eq_extractLsb' (start₂ := 32) (start₁ := 24) rfl,
        BitVec.extractLsb'_append_extractLsb'_eq_extractLsb' (start₂ := 24) (start₁ := 16) rfl,
        BitVec.extractLsb'_append_extractLsb'_eq_extractLsb' (start₂ := 16) (start₁ := 8) rfl,
        BitVec.extractLsb'_append_extractLsb'_eq_extractLsb' (start₂ := 8) (start₁ := 0) rfl, BitVec.extractLsb'_eq_self]
    refine ⟨?_, fun k hk => ?_⟩
    · have hset : parseSet item [v.extractLsb' 32 8, v.extractLsb' 24 8, v.extractLsb' 16 8, v.extractLsb' 8 8,
          v.extractLsb' 0 8] = some (.setRegion item v) := by simp [parseSet, hregion, hv]
      exact hset
    · replace hk : k < 7 := hk
      rcases k with _ | _ | k
      · rfl
      · rfl
      · exact short ([v.extractLsb' 32 8, v.extractLsb' 24 8, v.extractLsb' 16 8, v.extractLsb' 8 8,
          v.extractLsb' 0 8].take k) (by simp; omega)

/-- The frame of a command is formed. -/
theorem Frame.formed_of_command (c : Instr) (f : Frame) (h : c.frame = some f) : f.Formed := by
  cases c <;> simp only [Instr.frame, Option.some.injEq, reduceCtorEq] at h
  case set item v => exact formed_of_parse _ f h
  case regionRewrite item v =>
    split at h
    · cases h
      assumption
    · cases h
  case badCommand b =>
    split at h
    · cases h
    · cases h
      exact (Bool.not_eq_true _).mp ‹_›
  case setPeerLevel p v =>
    subst h
    cases p <;> exact ⟨rfl, rfl⟩
  all_goals
    subst h
    trivial

/-! ## The states of the link -/

/-- The link after some edges past the answer point (Table 10-1, R174). -/
def Link.sent (f : Frame) (st : Status) (d : List Byte) (n : Nat) : Link :=
  if n < 8 * (d.length + 1) then .answering f st d n else .done f st d

/-- One edge more. -/
theorem Link.sendBit_sent (f : Frame) (st : Status) (d : List Byte) (n : Nat) :
    (Link.sent f st d n).sendBit = Link.sent f st d (n + 1) := by
  unfold sent
  by_cases hn : n < 8 * (d.length + 1)
  · rw [if_pos hn, sendBit_answering]
  · rw [if_neg hn, sendBit_done, if_neg (by omega)]

/-- The bits past the answer point only send output (R174). -/
theorem State.clockBits_sent (s : State) (f : Frame) (st : Status) (d : List Byte) (n : Nat) (input : List Bool) :
    input.foldl State.clockBit { s with link := Link.sent f st d n } =
      { s with link := Link.sent f st d (n + input.length) } := by
  induction input generalizing n with
  | nil => rfl
  | cons b rest ih =>
    have hother : ∀ got, Link.sent f st d n ≠ .receiving got := by
      intro got
      unfold Link.sent
      split <;> nofun
    rw [List.foldl_cons, State.clockBit_other _ b hother, Link.sendBit_sent, ih, List.length_cons]
    simp only [Nat.add_assoc, Nat.add_comm 1]

/-- Bits that end no frame's input join it (R174). -/
theorem State.clockBits_receiving (s : State) (got input : List Bool)
    (h : Frame.parse (bytesOf (got ++ input)) = none) :
    input.foldl State.clockBit { s with link := .receiving got } = { s with link := .receiving (got ++ input) } := by
  induction input generalizing got with
  | nil => rw [List.append_nil]; rfl
  | cons b rest ih =>
    have hsplit : got ++ b :: rest = got ++ [b] ++ rest := by simp
    have hstep : Frame.parse (bytesOf (got ++ [b])) = none := by
      obtain ⟨more, hmore⟩ := bytesOf_append (got ++ [b]) rest
      rw [hsplit, hmore] at h
      cases hp : Frame.parse (bytesOf (got ++ [b])) with
      | none => rfl
      | some f =>
        rw [Frame.parse_append f _ more hp] at h
        cases h
    rw [List.foldl_cons, State.clockBit_receiving _ got b rfl, hstep, hsplit]
    exact ih (got ++ [b]) (hsplit ▸ h)

/-- The bit that ends a frame's input settles its status and answer (R174). -/
theorem State.clockBits_answers (s : State) (got first rest : List Bool) (b : Bool) (f : Frame)
    (hnone : Frame.parse (bytesOf (got ++ first)) = none)
    (hsome : Frame.parse (bytesOf (got ++ first ++ [b])) = some f) :
    (first ++ b :: rest).foldl State.clockBit { s with link := .receiving got } =
      { s with link := Link.sent f (s.settleFrame f).1 (s.settleFrame f).2 rest.length } := by
  have hsent := s.clockBits_sent f (s.settleFrame f).1 (s.settleFrame f).2 0 rest
  rw [Nat.zero_add] at hsent
  rw [List.foldl_append, s.clockBits_receiving got first hnone, List.foldl_cons,
    State.clockBit_receiving _ (got ++ first) b rfl, hsome]
  simp only [State.settleFrame_link]
  exact hsent

/-- In a state in which MDI is disregarded and no output is sent, bits change nothing (Table 10-1). -/
theorem State.clockBits_still (s : State) (input : List Bool) (h : ∀ got, s.link ≠ .receiving got)
    (hstill : s.link.sendBit = s.link) : input.foldl State.clockBit s = s := by
  induction input with
  | nil => rfl
  | cons b rest ih =>
    have hstep : s.clockBit b = s := by rw [s.clockBit_other b h, hstill]
    rw [List.foldl_cons, hstep, ih]

/-- Settles O42. -/
theorem linkMovesWithoutEffect : Obligations.LinkMovesWithoutEffect := by
  unfold Obligations.LinkMovesWithoutEffect
  intro moved sent
  refine ⟨?receives, ?sends, ?mdo, ⟨rfl, bytesOf_byte⟩, ?input, ?ends⟩
  case receives =>
    intro got input s hlink
    have hstart : ({ s.begin with link := s.begin.link.assertMcs } : State) = { s.begin with link := .receiving got } := by
      rcases hlink with ⟨hidle, rfl⟩ | hgot
      · simp [hidle]
      · simp [hgot]
    have hclock : s.begin.clockIn input = input.foldl State.clockBit { s.begin with link := .receiving got } := by
      rw [State.clockIn, hstart]
    refine ⟨fun h => ?_, fun first b rest f hinput hnone hsome => ?_⟩
    · exact congrArg Host.Outcome.next (hclock.trans (s.begin.clockBits_receiving got input h))
    · rw [hinput, s.begin.clockBits_answers got first rest b f hnone hsome] at hclock
      rw [s.settleFrame_begin] at hclock
      exact congrArg Host.Outcome.next (hinput ▸ hclock)
  case sends =>
    intro input s
    refine ⟨fun f st d n hlink hn => ?_, fun hlink => ?_⟩
    · have hstart : ({ s.begin with link := s.begin.link.assertMcs } : State) =
          { s.begin with link := Link.sent f st d n } := by
        simp [hlink, Link.sent, hn]
      have hclock : s.begin.clockIn input = input.foldl State.clockBit { s.begin with link := Link.sent f st d n } := by
        rw [State.clockIn, hstart]
      exact congrArg Host.Outcome.next (hclock.trans (s.begin.clockBits_sent f st d n input))
    · have hstart : ({ s.begin with link := s.begin.link.assertMcs } : State) = s.begin := by
        have hassert : s.begin.link.assertMcs = s.begin.link := by
          rcases hlink with hlink | ⟨f, st, d, hlink⟩ <;> simp [hlink]
        rw [hassert]
      have hother : ∀ got, s.begin.link ≠ .receiving got := by
        rcases hlink with hlink | ⟨f, st, d, hlink⟩ <;> simp [hlink]
      have hstill : s.begin.link.sendBit = s.begin.link := by
        rcases hlink with hlink | ⟨f, st, d, hlink⟩ <;> simp [hlink]
      have hclock : s.begin.clockIn input = s.begin := by
        rw [State.clockIn, hstart, s.begin.clockBits_still input hother hstill]
      exact congrArg Host.Outcome.next hclock
  case mdo =>
    refine ⟨rfl, rfl, fun got => rfl, fun f st d => ⟨rfl, fun k j b hb => ?_⟩⟩
    simp [Link.mdo, List.getD, bitsOf_get _ k j b hb]
  case input =>
    intro c f hc
    obtain ⟨hparse, hshort⟩ := f.parse_input (Frame.formed_of_command c f hc)
    have hbytes : bytesOf (bitsOf f.input) = f.input := by
      have h := bytesOf_bitsOf f.input []
      rwa [List.append_nil, show bytesOf [] = [] from rfl, List.append_nil] at h
    refine ⟨bitsOf f.input, hbytes, by rw [hbytes, hparse], fun n hn => ?_⟩
    rw [bitsOf_length] at hn
    rw [bytesOf_take_bitsOf]
    exact hshort _ (by omega)
  case ends =>
    intro s
    refine ⟨fun got h => ?_, fun f st d n h => ?_, fun h => ?_, fun h => ?_, fun h => ?_⟩
    · show execFrameCutShort s = _
      simp only [execFrameCutShort, h]
      rfl
    · show execFrameCutShort s = _
      simp only [execFrameCutShort, h]
      rfl
    · show execMcsNegatedInBlocked s = _
      simp only [execMcsNegatedInBlocked, h]
      rfl
    · show execFrameCutShort s = _
      rcases h with h | h | ⟨f, st, d, h⟩ <;> simp only [execFrameCutShort, moved, h] <;> rw [← h] <;> rfl
    · show execMcsNegatedInBlocked s = _
      unfold execMcsNegatedInBlocked
      split
      · exact absurd ‹_› h
      · rfl

end Sys2Proof.Machine
end

section
/-! What GET, POP_FAULT and VIEW_POST return, byte by byte, and the status of every frame. -/

namespace Sys2Proof.Machine

/-! ## Bytes of packed fields -/

/-- Byte 4 of a region item (Table 10-5). -/
theorem Attrs.byte_bits (a : Attrs) :
    a.byte.extractLsb' 5 3 = 0 ∧ a.byte.getLsbD 4 = a.post ∧ a.byte.getLsbD 3 = a.merge ∧ a.byte.getLsbD 2 = a.keep ∧
      a.byte.getLsbD 1 = a.device ∧ a.byte.getLsbD 0 = a.protect := by
  obtain ⟨post, merge, keep, device, protect⟩ := a
  revert post merge keep device protect
  decide

/-- The interrupt bits (Table 10-6, byte 5). -/
theorem IntBits.byte_bits (x : IntBits) :
    x.byte.extractLsb' 3 5 = 0 ∧ x.byte.getLsbD 2 = x.drainDone ∧ x.byte.getLsbD 1 = x.halted ∧
      x.byte.getLsbD 0 = x.record := by
  obtain ⟨record, halted, drainDone⟩ := x
  revert record halted drainDone
  decide

theorem Width.code_mem (w : Width) :
    (w.code, w) ∈ ([(0, .w8), (1, .w16), (2, .w32)] : List (BitVec 2 × Width)) := by
  cases w <;> decide

/-- The region code (R181). -/
theorem RegionIndex.byte_region (x : RegionIndex) :
    (∀ i : Fin 16, x = .entry i → x.byte = BitVec.ofNat 8 i.val) ∧ (x = .d → x.byte = 0x10) := by
  refine ⟨?_, ?_⟩
  · rintro i rfl
    rfl
  · rintro rfl
    rfl

/-- Four bytes of an address, joined (R173). -/
theorem addr_bytes_join (a : Addr) :
    a.extractLsb' 24 8 ++ a.extractLsb' 16 8 ++ a.extractLsb' 8 8 ++ a.extractLsb' 0 8 = a := by
  rw [BitVec.extractLsb'_append_extractLsb'_eq_extractLsb' (start₂ := 24) (start₁ := 16) rfl,
    BitVec.extractLsb'_append_extractLsb'_eq_extractLsb' (start₂ := 16) (start₁ := 8) rfl,
    BitVec.extractLsb'_append_extractLsb'_eq_extractLsb' (start₂ := 8) (start₁ := 0) rfl]
  exact BitVec.extractLsb'_eq_self

/-! ## The region items -/

/-- An entry as GET returns it (Table 10-5). -/
theorem RegionEntry.item_bytes (e : RegionEntry) : ∃ b0 b1 b2 b3 b4 : Byte, e.item = [b0, b1, b2, b3, b4] ∧
    b0.getLsbD 7 = e.valid ∧
    (b0.extractLsb' 5 2, e.width) ∈ ([(0, .w8), (1, .w16), (2, .w32)] : List (BitVec 2 × Width)) ∧
    b0.extractLsb' 0 5 = e.size ∧ b1.extractLsb' 4 4 = 0 ∧ b1.extractLsb' 0 4 ++ b2 ++ b3 = e.base ∧
    b4.extractLsb' 5 3 = 0 ∧ b4.getLsbD 4 = e.attrs.post ∧ b4.getLsbD 3 = e.attrs.merge ∧
    b4.getLsbD 2 = e.attrs.keep ∧ b4.getLsbD 1 = e.attrs.device ∧ b4.getLsbD 0 = e.attrs.protect := by
  have hfirst (valid : Bool) (code : BitVec 2) (size : BitVec 5) :
      (BitVec.ofBool valid ++ code ++ size : Byte).getLsbD 7 = valid ∧
        (BitVec.ofBool valid ++ code ++ size : Byte).extractLsb' 5 2 = code ∧
        (BitVec.ofBool valid ++ code ++ size : Byte).extractLsb' 0 5 = size := by
    revert valid code size
    decide
  have hpad (n : BitVec 4) : (0#4 ++ n : Byte).extractLsb' 4 4 = 0 ∧ (0#4 ++ n : Byte).extractLsb' 0 4 = n := by
    revert n
    decide
  obtain ⟨hvalid, hwidth, hsize⟩ := hfirst e.valid e.width.code e.size
  obtain ⟨hzero, hlow⟩ := hpad (e.base.extractLsb' 16 4)
  refine ⟨_, _, _, _, _, rfl, hvalid, ?_, hsize, hzero, ?_, e.attrs.byte_bits⟩
  · rw [hwidth]
    exact e.width.code_mem
  · rw [hlow, BitVec.extractLsb'_append_extractLsb'_eq_extractLsb' (start₂ := 16) (start₁ := 8) rfl,
      BitVec.extractLsb'_append_extractLsb'_eq_extractLsb' (start₂ := 8) (start₁ := 0) rfl]
    exact BitVec.extractLsb'_eq_self

/-- D as GET returns it (R179). -/
theorem DefaultRegion.item_bytes (d : DefaultRegion) : ∃ b0 b4 : Byte, d.item = [b0, 0, 0, 0, b4] ∧
    b0.getLsbD 7 = false ∧
    (b0.extractLsb' 5 2, d.width) ∈ ([(0, .w8), (1, .w16), (2, .w32)] : List (BitVec 2 × Width)) ∧
    b0.extractLsb' 0 5 = 0 ∧ b4.extractLsb' 5 3 = 0 ∧ b4.getLsbD 4 = d.attrs.post ∧ b4.getLsbD 3 = d.attrs.merge ∧
    b4.getLsbD 2 = d.attrs.keep ∧ b4.getLsbD 1 = d.attrs.device ∧ b4.getLsbD 0 = d.attrs.protect := by
  refine ⟨_, _, rfl, ?_, ?_, ?_, d.attrs.byte_bits⟩ <;> cases d.width <;> decide

/-! ## The status item -/

theorem toList_eq_ofFn {α : Type} {n : Nat} (v : Vector α n) : v.toList = List.ofFn fun i : Fin n => v[i] := by
  apply List.ext_getElem <;> simp

/-- The members of a vector with a property, counted by place. -/
theorem length_filter_toList {α : Type} {n : Nat} (v : Vector α n) (p : α → Bool) :
    (v.toList.filter p).length = (Finset.univ.filter fun i : Fin n => p v[i] = true).card := by
  have hset : (Finset.univ.filter fun i : Fin n => p v[i] = true) =
      ((List.finRange n).filter fun i : Fin n => p v[i]).toFinset := by
    ext i
    simp
  rw [hset, List.toFinset_card_of_nodup ((List.nodup_finRange n).filter _), toList_eq_ofFn, List.ofFn_eq_map,
    List.filter_map, List.length_map]
  rfl

/-- The number of VALID lines is that of the ways whose line is VALID (R49). -/
theorem LineStore.validCount_eq (l : LineStore) : l.validCount =
    (Finset.univ.filter fun x : Fin 8 × Fin 4 => (l.line x.1 x.2).state = .valid).card := by
  have hset (s : LineSet) : (s.ways.toList.filter fun x => x.state == .valid).length =
      ∑ w : Fin 4, if s.ways[w].state = .valid then 1 else 0 := by
    rw [length_filter_toList, Finset.card_filter]
    simp only [beq_iff_eq]
  rw [Finset.card_filter, Fintype.sum_prod_type, validCount, toList_eq_ofFn, List.map_ofFn, List.sum_ofFn]
  exact Finset.sum_congr rfl fun i _ => hset l.sets[i]

/-- The HRU is LOCK OPEN (R73). -/
theorem Hru.state_eq_lockOpen (h : Hru) :
    h.state = .lockOpen ↔ h.request = none ∧ ∃ l, h.lock = some l ∧ l.phase = .opened := by
  unfold state lockOpened
  cases h.request <;> cases h.lock <;> simp

theorem Owner.code_mem (o : Owner) : (o.code, o) ∈
    ([(0, .none), (1, .bridge), (2, .peer .p0), (3, .peer .p1), (4, .peer .p2)] : List (BitVec 3 × Owner)) := by
  rcases o with _ | _ | p
  · decide
  · decide
  · cases p <;> decide

/-- The status item (Table 10-6). -/
theorem State.statusItem_bytes (s : State) : ∃ b0 b1 b2 b3 b4 b5 : Byte, s.statusItem = [b0, b1, b2, b3, b4, b5] ∧
    (b0.extractLsb' 6 2 = 0 ∧ b0.getLsbD 5 = s.pq.mark.isSome ∧ (b0.getLsbD 4 = true ↔ s.pq.state = .halted) ∧
      b0.extractLsb' 0 4 = BitVec.ofNat 4 s.pq.posts.length) ∧
    b1 = s.pq.nextSeq ∧
    (b2.getLsbD 7 = false ∧ b2.getLsbD 6 = s.ls.fill.isSome ∧ b2.extractLsb' 0 6 = BitVec.ofNat 6
      (Finset.univ.filter fun x : Fin 8 × Fin 4 => (s.ls.line x.1 x.2).state = .valid).card) ∧
    (b3.getLsbD 7 = false ∧ b3.getLsbD 6 = (s.oar.peers.get .p2).barred ∧
      b3.getLsbD 5 = (s.oar.peers.get .p1).barred ∧ b3.getLsbD 4 = (s.oar.peers.get .p0).barred ∧
      (b3.getLsbD 3 = true ↔ s.hru.request = none ∧ ∃ l, s.hru.lock = some l ∧ l.phase = .opened) ∧
      (b3.extractLsb' 0 3, s.oar.owner) ∈ ([(0, .none), (1, .bridge), (2, .peer .p0), (3, .peer .p1),
        (4, .peer .p2)] : List (BitVec 3 × Owner))) ∧
    (b4.extractLsb' 5 3 = 0 ∧ b4.getLsbD 4 = s.flt.lost ∧
      b4.extractLsb' 0 4 = BitVec.ofNat 4 s.flt.log.length) ∧
    b5.extractLsb' 3 5 = 0 ∧ b5.getLsbD 2 = s.flt.pend.drainDone ∧ b5.getLsbD 1 = s.flt.pend.halted ∧
      b5.getLsbD 0 = s.flt.pend.record := by
  have hqueue (mark halted : Bool) (n : BitVec 4) :
      (0#2 ++ BitVec.ofBool mark ++ BitVec.ofBool halted ++ n : Byte).extractLsb' 6 2 = 0 ∧
        (0#2 ++ BitVec.ofBool mark ++ BitVec.ofBool halted ++ n : Byte).getLsbD 5 = mark ∧
        (0#2 ++ BitVec.ofBool mark ++ BitVec.ofBool halted ++ n : Byte).getLsbD 4 = halted ∧
        (0#2 ++ BitVec.ofBool mark ++ BitVec.ofBool halted ++ n : Byte).extractLsb' 0 4 = n := by
    revert mark halted n
    decide
  have hlines (fill : Bool) (n : BitVec 6) :
      (0#1 ++ BitVec.ofBool fill ++ n : Byte).getLsbD 7 = false ∧ (0#1 ++ BitVec.ofBool fill ++ n : Byte).getLsbD 6 = fill ∧
        (0#1 ++ BitVec.ofBool fill ++ n : Byte).extractLsb' 0 6 = n := by
    revert fill n
    decide
  have hport (p2 p1 p0 lock : Bool) (owner : BitVec 3) :
      let b : Byte := 0#1 ++ BitVec.ofBool p2 ++ BitVec.ofBool p1 ++ BitVec.ofBool p0 ++ BitVec.ofBool lock ++ owner
      b.getLsbD 7 = false ∧ b.getLsbD 6 = p2 ∧ b.getLsbD 5 = p1 ∧ b.getLsbD 4 = p0 ∧ b.getLsbD 3 = lock ∧
        b.extractLsb' 0 3 = owner := by
    revert p2 p1 p0 lock owner
    decide
  have hlog (lost : Bool) (n : BitVec 4) :
      (0#3 ++ BitVec.ofBool lost ++ n : Byte).extractLsb' 5 3 = 0 ∧ (0#3 ++ BitVec.ofBool lost ++ n : Byte).getLsbD 4 = lost ∧
        (0#3 ++ BitVec.ofBool lost ++ n : Byte).extractLsb' 0 4 = n := by
    revert lost n
    decide
  obtain ⟨hq7, hmark, hhalted, hcount⟩ := hqueue s.pq.mark.isSome (s.pq.state == .halted) (BitVec.ofNat 4 s.pq.count)
  obtain ⟨hl7, hfill, hvalid⟩ := hlines s.ls.fill.isSome (BitVec.ofNat 6 s.ls.validCount)
  obtain ⟨hp7, hp2, hp1, hp0, hlock, howner⟩ := hport s.oar.peers.p2.barred s.oar.peers.p1.barred
    s.oar.peers.p0.barred (s.hru.state == .lockOpen) s.oar.owner.code
  refine ⟨_, _, _, _, _, _, rfl, ⟨hq7, hmark, ?_, hcount⟩, rfl, ⟨hl7, hfill, ?_⟩, ⟨hp7, hp2, hp1, hp0, ?_, ?_⟩,
    hlog s.flt.lost (BitVec.ofNat 4 s.flt.log.length), s.flt.pend.byte_bits⟩
  · rw [hhalted, beq_iff_eq]
  · rw [hvalid, s.ls.validCount_eq]
  · rw [hlock, beq_iff_eq, s.hru.state_eq_lockOpen]
  · rw [howner]
    exact s.oar.owner.code_mem

/-! ## Fault records -/

theorem FaultKind.byte_mem (k : FaultKind) : (k.byte, k) ∈ ([(0x01, .deferred), (0x02, .readFault), (0x03, .writeFault),
    (0x04, .fillTail), (0x05, .writeProtect), (0x06, .illegalRequest), (0x07, .drainHalted), (0x08, .lockLost),
    (0x09, .lockAbandoned), (0x0A, .lockExpired), (0x0B, .peerOverstay), (0x0C, .snoopOvertake),
    (0x0D, .discarded)] : List (Byte × FaultKind)) := by
  cases k <;> decide

theorem Origin.byte_mem (o : Origin) :
    (o.byte, o) ∈ ([(0x01, .host), (0x02, .queue), (0x03, .peer), (0x04, .management)] : List (Byte × Origin)) := by
  cases o <;> decide

theorem Cause.byte_mem (c : Option Cause) : ((c.map Cause.byte).getD 0, c) ∈
    ([(0x00, none), (0x01, some .fail), (0x02, some .timeout), (0x03, some .retryLimit)] :
      List (Byte × Option Cause)) := by
  rcases c with _ | c
  · decide
  · cases c <;> decide

theorem peerIndex_mem (p : Option Peer) : ((p.map fun p => BitVec.ofNat 8 (peerIndex p)).getD 0, p) ∈
    ([(0, none), (0, some .p0), (1, some .p1), (2, some .p2)] : List (Byte × Option Peer)) := by
  rcases p with _ | p
  · decide
  · cases p <;> decide

/-- The presence flags (Table 10-7). -/
theorem FaultRecord.presence_bits (r : FaultRecord) :
    r.presence.getLsbD 0 = r.cause.isSome ∧ r.presence.getLsbD 1 = r.bytes.isSome ∧
      r.presence.getLsbD 2 = r.seq.isSome ∧ r.presence.getLsbD 3 = r.range.isSome ∧
      r.presence.getLsbD 4 = r.merged.isSome ∧ r.presence.getLsbD 5 = r.region.isSome ∧
      r.presence.getLsbD 6 = r.peer.isSome ∧ r.presence.getLsbD 7 = false := by
  unfold presence
  generalize r.cause.isSome = cause
  generalize r.bytes.isSome = bytes
  generalize r.seq.isSome = seq
  generalize r.range.isSome = range
  generalize r.merged.isSome = merged
  generalize r.region.isSome = region
  generalize r.peer.isSome = peer
  revert cause bytes seq range merged region peer
  decide

/-- A field of one byte reads 00h where it is absent (Table 10-7). -/
theorem getD_field {α : Type} (field : Option α) (code : α → Byte) :
    (field = none → (field.map code).getD 0 = 0) ∧ ∀ x, field = some x → (field.map code).getD 0 = code x := by
  cases field <;> simp

/-- The bytes that a record names (Table 10-7). -/
theorem FaultRecord.range_bytes (bytes : Option ByteRange) : ∃ a3 a2 a1 a0 count : Byte,
    (bytes.map fun b => addrBytes b.addr ++ [BitVec.ofNat 8 b.count]).getD [0, 0, 0, 0, 0] = [a3, a2, a1, a0, count] ∧
    (bytes = none → a3 = 0 ∧ a2 = 0 ∧ a1 = 0 ∧ a0 = 0 ∧ count = 0) ∧
    ∀ x, bytes = some x → a3 ++ a2 ++ a1 ++ a0 = x.addr ∧ count = BitVec.ofNat 8 x.count := by
  rcases bytes with _ | b
  · exact ⟨_, _, _, _, _, rfl, fun _ => ⟨rfl, rfl, rfl, rfl, rfl⟩, nofun⟩
  · refine ⟨_, _, _, _, _, rfl, nofun, fun x hx => ?_⟩
    cases hx
    exact ⟨addr_bytes_join b.addr, rfl⟩

/-- The posts that one DISCARD removed (Table 10-7). -/
theorem FaultRecord.seqRange_bytes (range : Option SeqRange) : ∃ first last n : Byte,
    (range.map fun x => [x.first, x.last, BitVec.ofNat 8 x.count]).getD [0, 0, 0] = [first, last, n] ∧
    (range = none → first = 0 ∧ last = 0 ∧ n = 0) ∧
    ∀ x, range = some x → first = x.first ∧ last = x.last ∧ n = BitVec.ofNat 8 x.count := by
  rcases range with _ | x
  · exact ⟨_, _, _, rfl, fun _ => ⟨rfl, rfl, rfl⟩, nofun⟩
  · refine ⟨_, _, _, rfl, nofun, fun y hy => ?_⟩
    cases hy
    exact ⟨rfl, rfl, rfl⟩

/-- A fault record as POP_FAULT returns it (Tables 10-7 and 10-8). -/
theorem FaultRecord.bytes16_layout (r : FaultRecord) :
    ∃ kind origin flags cause a3 a2 a1 a0 count seq first last n merged index peer : Byte,
    r.bytes16 = [kind, origin, flags, cause, a3, a2, a1, a0, count, seq, first, last, n, merged, index, peer] ∧
    (kind, r.kind) ∈ ([(0x01, .deferred), (0x02, .readFault), (0x03, .writeFault), (0x04, .fillTail),
      (0x05, .writeProtect), (0x06, .illegalRequest), (0x07, .drainHalted), (0x08, .lockLost),
      (0x09, .lockAbandoned), (0x0A, .lockExpired), (0x0B, .peerOverstay), (0x0C, .snoopOvertake),
      (0x0D, .discarded)] : List (Byte × FaultKind)) ∧
    (origin, r.origin) ∈ ([(0x01, .host), (0x02, .queue), (0x03, .peer), (0x04, .management)] : List (Byte × Origin)) ∧
    (flags.getLsbD 0 = r.cause.isSome ∧ flags.getLsbD 1 = r.bytes.isSome ∧ flags.getLsbD 2 = r.seq.isSome ∧
      flags.getLsbD 3 = r.range.isSome ∧ flags.getLsbD 4 = r.merged.isSome ∧ flags.getLsbD 5 = r.region.isSome ∧
      flags.getLsbD 6 = r.peer.isSome ∧ flags.getLsbD 7 = false) ∧
    (cause, r.cause) ∈ ([(0x00, none), (0x01, some .fail), (0x02, some .timeout), (0x03, some .retryLimit)] :
      List (Byte × Option Cause)) ∧
    ((r.bytes = none → a3 = 0 ∧ a2 = 0 ∧ a1 = 0 ∧ a0 = 0 ∧ count = 0) ∧
      ∀ x, r.bytes = some x → a3 ++ a2 ++ a1 ++ a0 = x.addr ∧ count = BitVec.ofNat 8 x.count) ∧
    ((r.seq = none → seq = 0) ∧ ∀ x, r.seq = some x → seq = x) ∧
    ((r.range = none → first = 0 ∧ last = 0 ∧ n = 0) ∧
      ∀ x, r.range = some x → first = x.first ∧ last = x.last ∧ n = BitVec.ofNat 8 x.count) ∧
    ((r.merged = none → merged = 0) ∧ ∀ x, r.merged = some x → merged = BitVec.ofNat 8 x) ∧
    ((r.region = none → index = 0) ∧ ∀ x, r.region = some x →
      (∀ i : Fin 16, x = .entry i → index = BitVec.ofNat 8 i.val) ∧ (x = .d → index = 0x10)) ∧
    (peer, r.peer) ∈ ([(0, none), (0, some .p0), (1, some .p1), (2, some .p2)] : List (Byte × Option Peer)) := by
  obtain ⟨a3, a2, a1, a0, count, hbytes, hnamed⟩ := FaultRecord.range_bytes r.bytes
  obtain ⟨first, last, n, hrange, hposts⟩ := FaultRecord.seqRange_bytes r.range
  have hseq : (r.seq = none → r.seq.getD 0 = 0) ∧ ∀ x, r.seq = some x → r.seq.getD 0 = x := by
    cases r.seq <;> simp
  obtain ⟨hnone, hsome⟩ := getD_field r.region RegionIndex.byte
  refine ⟨r.kind.byte, r.origin.byte, r.presence, (r.cause.map Cause.byte).getD 0, a3, a2, a1, a0, count,
    r.seq.getD 0, first, last, n, (r.merged.map (BitVec.ofNat 8)).getD 0, (r.region.map RegionIndex.byte).getD 0,
    (r.peer.map fun p => BitVec.ofNat 8 (peerIndex p)).getD 0, ?_, r.kind.byte_mem, r.origin.byte_mem,
    r.presence_bits, Cause.byte_mem r.cause, hnamed, hseq, hposts, getD_field r.merged (BitVec.ofNat 8),
    ⟨hnone, fun x hx => ?_⟩, peerIndex_mem r.peer⟩
  · rw [bytes16, hbytes, hrange]
    rfl
  · rw [hsome x hx]
    exact x.byte_region

/-! ## Posts -/

/-- A post as VIEW_POST returns it (Table 10-9). -/
theorem Post.bytes28_layout (p : Post) : ∃ (a3 a2 a1 a0 m1 m0 index flags : Byte) (data : List Byte),
    p.bytes28 = [p.seq, a3, a2, a1, a0, m1, m0] ++ data ++ [index, flags, BitVec.ofNat 8 p.beatsDone,
      BitVec.ofNat 8 p.retryCount, BitVec.ofNat 8 p.merged] ∧
    a3 ++ a2 ++ a1 ++ a0 = blockAddr p.block ∧ m1 ++ m0 = p.mask ∧ data.length = 16 ∧
    (∀ i : Fin 16, data[i.val]? = some (if p.mask.getLsbD i.val then p.data[i] else 0)) ∧
    ((∀ i : Fin 16, p.snap.index = .entry i → index = BitVec.ofNat 8 i.val) ∧ (p.snap.index = .d → index = 0x10)) ∧
    flags.extractLsb' 4 4 = 0 ∧
    (flags.extractLsb' 2 2, p.snap.width) ∈ ([(0, .w8), (1, .w16), (2, .w32)] : List (BitVec 2 × Width)) ∧
    flags.getLsbD 1 = p.snap.attrs.merge ∧ (flags.getLsbD 0 = true ↔ p.state = .draining) := by
  have hflags (code : BitVec 2) (merge draining : Bool) :
      let b : Byte := 0#4 ++ code ++ BitVec.ofBool merge ++ BitVec.ofBool draining
      b.extractLsb' 4 4 = 0 ∧ b.extractLsb' 2 2 = code ∧ b.getLsbD 1 = merge ∧ b.getLsbD 0 = draining := by
    revert code merge draining
    decide
  obtain ⟨hzero, hwidth, hmerge, hstate⟩ :=
    hflags p.snap.width.code p.snap.attrs.merge (p.state == .draining)
  refine ⟨_, _, _, _, _, _, p.snap.index.byte, _, (overlay p.mask p.data (Vector.replicate 16 0)).toList, rfl,
    addr_bytes_join (blockAddr p.block), ?_, by simp, fun i => ?_, p.snap.index.byte_region, hzero, ?_, hmerge, ?_⟩
  · rw [BitVec.extractLsb'_append_extractLsb'_eq_extractLsb' (start₂ := 8) (start₁ := 0) rfl]
    exact BitVec.extractLsb'_eq_self
  · simpa using overlay_get p.mask p.data (Vector.replicate 16 0) i
  · rw [hwidth]
    exact p.snap.width.code_mem
  · rw [hstate, beq_iff_eq]

/-! ## Statuses -/

/-- An item number that names no region item and no two-byte item (Table 10-4). -/
theorem not_item (item : Byte) (h : 0x10 < item.toNat) (hrange : item.toNat < 0x20 ∨ 0x2C < item.toNat) :
    isRegionItem item = false ∧ isPlainItem item = false := by
  simp only [isRegionItem, isPlainItem, Bool.and_eq_false_iff, decide_eq_false_iff_not]
  omega

/-- GET of an entry (R177). -/
theorem State.getItem_entry (s : State) (i : Fin 16) :
    s.getItem (BitVec.ofNat 8 i.val) = some s.rmap.entries[i].item := by
  rw [getItem, if_pos (isRegionItem_ofNat i), RegionMap.item, entryNumber_ofNat]

/-- The item numbers of the two-byte items (Table 10-4). -/
theorem isPlainItem_ofNat (i : Fin 13) : isRegionItem (BitVec.ofNat 8 (0x20 + i.val)) = false ∧
    isPlainItem (BitVec.ofNat 8 (0x20 + i.val)) = true := by
  revert i
  decide

/-- The two-byte items by their numbers (Table 10-4). -/
theorem State.items_get (s : State) (i : Fin 13) :
    s.items[i.val]? = some (s.itemValue (BitVec.ofNat 8 (0x20 + i.val))) := by
  fin_cases i <;> rfl

/-- GET of a two-byte item (R177). -/
theorem State.getItem_plain (s : State) (i : Fin 13) (v : Nat) (h : s.items[i.val]? = some v) :
    s.getItem (BitVec.ofNat 8 (0x20 + i.val)) = some (itemBytes v) := by
  obtain ⟨hregion, hplain⟩ := isPlainItem_ofNat i
  rw [s.items_get i, Option.some.injEq] at h
  rw [getItem, if_neg (Bool.eq_false_iff.mp hregion), if_pos hplain, h]

/-- GET of a number that names no item (R176). -/
theorem State.getItem_none (s : State) (item : Byte) (hregion : isRegionItem item = false)
    (hplain : isPlainItem item = false) (hstatus : item ≠ 0x30) : s.getItem item = none := by
  rw [getItem, if_neg (Bool.eq_false_iff.mp hregion), if_neg (Bool.eq_false_iff.mp hplain)]
  exact if_neg hstatus

/-- The width code 11b is none (R179). -/
theorem itemWidth_isSome (v : BitVec 40) : (itemWidth v).isSome = true ↔ v.extractLsb' 37 2 ≠ 3 := by
  unfold itemWidth
  generalize v.extractLsb' 37 2 = code
  revert code
  decide

/-- The peers that RESTORE_PEER can name (R143). -/
theorem peerOf_isSome (n : Byte) : (peerOf n).isSome = true ↔ n.toNat ≤ 2 := by
  revert n
  decide

/-- The values that a rewrite of an entry accepts (R179). -/
theorem regionAccepts_entry (i : Fin 16) (v : BitVec 40) : regionAccepts (BitVec.ofNat 8 i.val) v = true ↔
    v.extractLsb' 37 2 ≠ 3 ∧ (v.extractLsb' 32 5).toNat ≤ 20 := by
  have hd : (BitVec.ofNat 8 i.val == Config.itemRegionD) = false := by
    revert i
    decide
  rw [regionAccepts, hd, Bool.false_or, Bool.and_eq_true, itemWidth_isSome, decide_eq_true_iff]

/-- The values that a rewrite of D accepts (R179). -/
theorem regionAccepts_d (v : BitVec 40) : regionAccepts 0x10 v = true ↔ v.extractLsb' 37 2 ≠ 3 := by
  have hd : ((0x10 : Byte) == Config.itemRegionD) = true := rfl
  rw [regionAccepts, hd, Bool.true_or, Bool.and_true, itemWidth_isSome]

/-- A byte that names no command is the input of BAD_COMMAND (R176). -/
theorem Frame.parse_badCommand (b : Byte) (rest : List Byte) (h : namesCommand b = false) :
    Frame.parse (b :: rest) = some (.badCommand b) := by
  obtain ⟨hget, hset, hpop, hview, hack, hresume, hdiscard, hmark, hinvalidate, hrestore, hclear⟩ :=
    (namesCommand_eq_false b).mp h
  simp only [Frame.parse, if_neg hget, if_neg hset, if_neg hpop, if_neg hview, if_neg hack, if_neg hresume,
    if_neg hdiscard, if_neg hmark, if_neg hinvalidate, if_neg hrestore, if_neg hclear]

/-- A SET of a number that is neither a region item's nor a two-byte item's is complete with its item byte (R176). -/
theorem parseSet_refused (item : Byte) (rest : List Byte) (hregion : isRegionItem item = false)
    (hplain : isPlainItem item = false) : parseSet item rest = some (.setRefused item) := by
  exact (if_neg (Bool.eq_false_iff.mp hregion)).trans (if_neg (Bool.eq_false_iff.mp hplain))

/-- A SET of a region item is complete with its fifth value byte (Table 10-2). -/
theorem parseSet_region (item b0 b1 b2 b3 b4 : Byte) (rest : List Byte) (h : isRegionItem item = true) :
    parseSet item (b0 :: b1 :: b2 :: b3 :: b4 :: rest) = some (.setRegion item (b0 ++ b1 ++ b2 ++ b3 ++ b4)) := by
  rw [parseSet, if_pos h]

/-- GET's status and answer, by what it reads (R176, R177). -/
theorem State.settleFrame_get (s : State) (item : Byte) (bytes : List Byte) (h : s.getItem item = some bytes) :
    s.settleFrame (.get item) = (.ok, bytes) := by
  rw [settleFrame, h]

theorem State.settleFrame_get_none (s : State) (item : Byte) (h : s.getItem item = none) :
    s.settleFrame (.get item) = (.badItem, []) := by
  rw [settleFrame, h]

/-- Settles O43. -/
theorem frameStatus : Obligations.FrameStatus := by
  unfold Obligations.FrameStatus
  refine ⟨fun s => ?statuses, IntBits.byte_bits, RegionEntry.item_bytes, DefaultRegion.item_bytes,
    FaultRecord.bytes16_layout, Post.bytes28_layout⟩
  refine ⟨fun b hb rest => Frame.parse_badCommand b rest hb, fun b => rfl, fun item => rfl,
    fun item hlow hrange => ?noItem, rfl, fun i => s.settleFrame_get _ _ (s.getItem_entry i), rfl,
    fun i v hv => s.settleFrame_get _ _ (s.getItem_plain i v hv), fun i v => ?set, fun i v => ?entry, fun v => ?d,
    fun item b0 b1 b2 b3 b4 rest hitem => parseSet_region item b0 b1 b2 b3 b4 rest (decide_eq_true hitem),
    fun f hf => ?plain, fun n => if_congr (peerOf_isSome n) rfl rfl, fun hlog => ?logEmpty, fun r rest hlog => ?log,
    fun n hn => ?noPost, fun n p hp => ?post, s.statusItem_bytes⟩
  case noItem =>
    obtain ⟨hregion, hplain⟩ := not_item item hlow hrange
    exact ⟨fun hstatus => s.settleFrame_get_none item (s.getItem_none item hregion hplain hstatus),
      fun rest => parseSet_refused item rest hregion hplain⟩
  case set =>
    have hv : v.toNat ≤ 65535 := Nat.le_of_lt_succ v.isLt
    rw [State.settleFrame, apply_ite Prod.fst]
    exact if_congr (itemRange_iff i v.toNat hv) rfl rfl
  case entry => exact if_congr (regionAccepts_entry i v) rfl rfl
  case d => exact if_congr (regionAccepts_d v) rfl rfl
  case plain => rcases hf with ⟨m, rfl⟩ | rfl | rfl | rfl | rfl | rfl <;> rfl
  case logEmpty => rw [State.settleFrame, hlog, List.head?_nil]
  case log => rw [State.settleFrame, hlog, List.head?_cons]
  case noPost => rw [State.settleFrame, List.getElem?_eq_none hn]
  case post => rw [State.settleFrame, hp]

end Sys2Proof.Machine
end
